-- ==== Sys2Proof/Word.lean ====
section
/-! DEFINITION. The word types of JKP-AUD (`00_scope.md` R6, R7). -/

namespace Sys2Proof

/-- Operand, register and address width: `XLEN` = `ALEN` = 32 (R6). -/
abbrev Word := BitVec 32

/-- A codec byte, a frame byte or a byte of host memory. -/
abbrev Byte := BitVec 8

end Sys2Proof
end

