-- ==== Sys2Proof/Config.lean ====
section
/-! DEFINITION. What an implementation fixes (`00_scope.md` R6) and the free values of the model: opaque constants, so that
nothing can be proved of the value they take (notes/assumptions 1, 5, 7, 8). -/

namespace Sys2Proof

/-- One row of `RATE_TABLE` (`42_codec_model.md` R218). -/
structure RateRow where
  rate : Word
  /-- Oversampling field `SC`: 0, 1 or 2. -/
  sc : BitVec 2
  /-- Divider written to `PAUDDIV`. -/
  div : BitVec 7
  deriving DecidableEq, Repr

/-- The named parameters whose value the source does not fix (R6; `92_eei_decisions.md`, last paragraph). A machine state
carries one such record and no step changes it. Times are in milliseconds. -/
structure Params where
  /-- `T_SETTLE`. -/
  tSettle : Nat
  /-- `STOP_POLL_MAX`. -/
  stopPollMax : Nat
  /-- `T_STOP_POLL`. -/
  tStopPoll : Nat
  /-- `FIFO_WM`. -/
  fifoWm : BitVec 4
  /-- `CHIP_ADDR`; an instance with 0 is refused (R189). -/
  chipAddr : BitVec 6
  /-- `SEL_DATA`. -/
  selData : BitVec 2
  /-- `SEL_STATUS`. -/
  selStatus : BitVec 2
  /-- `PFX_VOL`. -/
  pfxVol : Byte
  /-- `PFX_TONE`. -/
  pfxTone : Byte
  /-- `PFX_FILT`. -/
  pfxFilt : Byte
  /-- `PFX_PWR`. -/
  pfxPwr : Byte
  /-- `VOL_DEFAULT`, logical, 0 to 63. -/
  volDefault : Nat
  /-- `PWR_ON`. -/
  pwrOn : Byte
  /-- `PWR_OFF`. -/
  pwrOff : Byte
  /-- `STATUS_FMT`. -/
  statusFmt : BitVec 4
  /-- First row of `RATE_TABLE`: an instance has at least one (R218). -/
  rateFirst : RateRow
  /-- The other rows, rates strictly increasing (R218). -/
  rateRest : List RateRow
  /-- `OPP_BUSY_LIMIT`. -/
  oppBusyLimit : Nat
  /-- `DMA_ALIGN`. -/
  dmaAlign : Nat
  /-- `MAX_DMA_LEN`. -/
  maxDmaLen : Nat
  deriving DecidableEq, Repr

/-- All rows of the rate table, lowest rate first. -/
def Params.rateTable (p : Params) : List RateRow := p.rateFirst :: p.rateRest

/-- The default instance of R6, the one every test vector of `95_test_vectors.md` uses. -/
def Params.default : Params where
  tSettle := 1
  stopPollMax := 10
  tStopPoll := 1
  fifoWm := 7
  chipAddr := 0x05
  selData := 0
  selStatus := 2
  pfxVol := 0x00
  pfxTone := 0x40
  pfxFilt := 0x80
  pfxPwr := 0xC0
  volDefault := 32
  pwrOn := 0x03
  pwrOff := 0x00
  statusFmt := 0
  rateFirst := ⟨8000, 0, 1⟩
  rateRest :=
    [⟨10666, 0, 2⟩, ⟨10985, 0, 3⟩, ⟨14647, 0, 4⟩, ⟨16000, 0, 5⟩, ⟨21970, 1, 6⟩, ⟨22050, 1, 7⟩,
     ⟨24000, 1, 8⟩, ⟨29400, 1, 9⟩, ⟨32000, 1, 10⟩, ⟨44100, 2, 11⟩, ⟨48000, 2, 12⟩]
  oppBusyLimit := 2
  dmaAlign := 4
  maxDmaLen := 4294967295

namespace Config

/-- `POLL_MAX`, fixed by the source (R6, R180). -/
def pollMax : Nat := 1000

/-- `T_POLL` in ms, fixed by the source (R6, R180). -/
def tPoll : Nat := 1

/-- `T_RESET` in ms, fixed by the source (R6, R240). -/
def tReset : Nat := 5

/-- `T_RECOVERY` in ms, fixed by the source (R6, R293). -/
def tRecovery : Nat := 1

/-- `DEFAULT_RATE`, fixed by the source (R6, R240). -/
def defaultRate : Word := 22050

/-- Bytes of host memory: addresses 0 to 2^32-1 (`10_state.md` R97). -/
def memSize : Nat := 4294967296

/-- `CTRL0.ENB`[0] (R42). -/
def enb : Word := 0x00000001

/-- `CTRL0.RST`[3] (R42). -/
def rst : Word := 0x00000008

/-- The threshold fields `TFTH`[11:8], `RFTH`[15:12] of `CTRL0` (R42). -/
def thresholds : Word := 0x0000FF00

/-- The fields of `CTRL0`; every other bit is reserved (R41, R42). -/
def ctrl0Fields : Word := 0x0000FF09

/-- `CTRL1.L3EN`[1], the only field of `CTRL1` (R43). -/
def l3en : Word := 0x00000002

/-- The named fields `L3WD`[16] and `L3RD`[17] of `STATUS`, `DTS`[16] and `RDD`[17] of `STATCLR` (R44, R45). -/
def dts : Word := 0x00010000

/-- See `dts`. -/
def rdd : Word := 0x00020000

/-- `CS[d].EN`[0] (R55). -/
def csEn : Word := 0x00000001

/-- `CS[d].DONE_A`[3] (R55). -/
def csDoneA : Word := 0x00000008

/-- `CS[d].START_A`[4] (R55). -/
def csStartA : Word := 0x00000010

/-- `CS[d].DONE_B`[5] (R55). -/
def csDoneB : Word := 0x00000020

/-- `CS[d].START_B`[6] (R55). -/
def csStartB : Word := 0x00000040

/-- `PCTRL.AC_SEL`[8], its only field (R62). -/
def acSel : Word := 0x00000100

/-- `PCLK.I2SCLKEN`[2] (R63). -/
def i2sClkEn : Word := 0x00000004

/-- `PCLK.L3CLKEN`[3] (R63). -/
def l3ClkEn : Word := 0x00000008

/-- `PAUDDIV.DIV`[6:0] (R64). -/
def divField : Word := 0x0000007F

/-- `PGPIO.SPK_AMP`[0] (R65). -/
def spkAmp : Word := 0x00000001

/-- `PGPIO.MIC_AMP`[1] (R65). -/
def micAmp : Word := 0x00000002

/-- What a byte of host memory that nothing has written reads as: any value, fixed for the run
(`93_implementation_defined.md` U24). -/
opaque memAtReset : Nat → Byte

/-- U12: whether a triggered frame is delivered (`41_control_bus.md` R186). -/
opaque frameDelivered : Nat → Bool

/-- U14: whether the environment binds an interrupt line (`44_dma_engine.md` R262). -/
opaque lineBinds : Nat → Bool

/-- U18, U19, U16: which agent moves next, how long a wait lasts in rounds of events, which of the racing bytes is seen. -/
opaque pick : Nat → Nat

/-- U17: how many bytes an abandoned block had moved, before it is brought into 0 .. count (`44_dma_engine.md` R274). -/
opaque movedCount : Nat → Nat

/-- U15: a captured byte (`44_dma_engine.md` R271). -/
opaque capturedByte : Nat → Byte

/-- U10, U11: a register value the hardware leaves open at a read (`10_state.md` R44, R58). -/
opaque readNoise : Nat → Word

end Config

end Sys2Proof
end

