-- ==== Sys2Proof/Syntax.lean ====
section
/-! DEFINITION. The 29 operations of `30_encoding.md` R142, one constructor per row of the opcode table, operands as R144
reads them. -/

namespace Sys2Proof

/-- One operation with its operands. `dir` is the 8-bit field `SEL` read as a direction: 2 to 255 can be written down and
are rejected by the operation (R140). `rgn` is `SEL` read as a region; only 0 and 1 are well formed (R145). -/
inductive Instr where
  /-- `REG.WR` (R170). -/
  | regWr (rgn : Byte) (off val : Word)
  /-- `REG.RD` (R171). -/
  | regRd (rgn : Byte) (off : Word)
  /-- `L3.SEND` (R180); the operands are `A[7:0]` and `B[7:0]` (R144). -/
  | l3Send (addr data : Byte)
  /-- `CODEC.OPEN` (R203). -/
  | codecOpen
  /-- `CODEC.CLOSE` (R204). -/
  | codecClose
  /-- `CODEC.SYNC` (R215). -/
  | codecSync
  /-- `CODEC.SETRATE` (R217); the requested rate in hertz, unsigned. -/
  | codecSetrate (rate : Word)
  /-- `SET.VOL` (R205); the operand is read as signed. -/
  | setVol (val : Word)
  /-- `SET.BASS` (R206). -/
  | setBass (val : Word)
  /-- `SET.TREB` (R207). -/
  | setTreb (val : Word)
  /-- `SET.MUTE` (R208). -/
  | setMute (val : Word)
  /-- `SET.FILT` (R209). -/
  | setFilt (val : Word)
  /-- `GET.VOL` (R210). -/
  | getVol
  /-- `GET.BASS` (R211). -/
  | getBass
  /-- `GET.TREB` (R212). -/
  | getTreb
  /-- `GET.MUTE` (R213). -/
  | getMute
  /-- `GET.FILT` (R214). -/
  | getFilt
  /-- `CTRL.INIT` (R240). -/
  | ctrlInit
  /-- `DMA.START` (R250). -/
  | dmaStart (dir : Byte) (addr len : Word)
  /-- `DMA.POLL` (R255). -/
  | dmaPoll (dir : Byte)
  /-- `DMA.RESET` (R257). -/
  | dmaReset
  /-- `IRQ.REQ` (R260). -/
  | irqReq (dir : Byte)
  /-- `IRQ.REL` (R261). -/
  | irqRel (dir : Byte)
  /-- `IRQ.EVT` (R290), issued by the host: a synthetic completion event (R143). -/
  | irqEvt (irq : Word)
  /-- `CH.OPEN` (R310). -/
  | chOpen (dir : Byte)
  /-- `CH.CLOSE` (R311). -/
  | chClose (dir : Byte)
  /-- `SES.ARM` (R312). -/
  | sesArm (dir : Byte) (loop : Bool) (start size period ctx : Word)
  /-- `SES.STOP` (R313). -/
  | sesStop (dir : Byte)
  /-- `SES.POS` (R314). -/
  | sesPos (dir : Byte)
  deriving DecidableEq, Repr

end Sys2Proof
end

