-- ==== Sys2Proof/WellFormed.lean ====
section
/-! DEFINITION. Which operations a packet can encode (`30_encoding.md` R141, R145). -/

namespace Sys2Proof

/-- The region selector of `REG.WR` and `REG.RD` is 0 or 1; a region of 2 or more makes the packet illegal (R145). Every
other operand may hold any value: a bad direction decodes and is rejected by the operation (R141), and the words `A` to `D`
are never a cause of illegality (R145). -/
def Instr.wellFormed : Instr → Bool
  | .regWr rgn _ _ => rgn.toNat < 2
  | .regRd rgn _ => rgn.toNat < 2
  | .l3Send _ _ => true
  | .codecOpen => true
  | .codecClose => true
  | .codecSync => true
  | .codecSetrate _ => true
  | .setVol _ => true
  | .setBass _ => true
  | .setTreb _ => true
  | .setMute _ => true
  | .setFilt _ => true
  | .getVol => true
  | .getBass => true
  | .getTreb => true
  | .getMute => true
  | .getFilt => true
  | .ctrlInit => true
  | .dmaStart _ _ _ => true
  | .dmaPoll _ => true
  | .dmaReset => true
  | .irqReq _ => true
  | .irqRel _ => true
  | .irqEvt _ => true
  | .chOpen _ => true
  | .chClose _ => true
  | .sesArm _ _ _ _ _ _ => true
  | .sesStop _ => true
  | .sesPos _ => true

end Sys2Proof
end

