-- ==== Sys2Proof/Decode.lean ====
section
/-! DEFINITION. The command packet, its decoder and its encoder (`30_encoding.md` R140 to R148). -/

namespace Sys2Proof

/-- A command packet: the five words `(x[0], .., x[4])` = `(OPW, A, B, C, D)` (R140). -/
structure Packet where
  opw : Word
  a : Word
  b : Word
  c : Word
  d : Word
  deriving DecidableEq, Repr

/-- Field `OPC`, bits 7:0 of `OPW` (R140). -/
def opcOf (opw : Word) : Byte := opw.extractLsb' 0 8

/-- Field `SEL`, bits 15:8 of `OPW` (R140). -/
def selOf (opw : Word) : Byte := opw.extractLsb' 8 8

/-- Field `LOOP`, bit 16 of `OPW` (R140). -/
def loopOf (opw : Word) : Bool := opw.getLsbD 16

/-- The must-be-zero field, bits 31:17 of `OPW` (R140). -/
def zeroOf (opw : Word) : BitVec 15 := opw.extractLsb' 17 15

/-- Formats of R141: which packet fields an operation reads. -/
inductive Format where
  | n | v | l3 | rr | rw | s | st | ar
  deriving DecidableEq, Repr

/-- Column "mask on `OPW`" of R141. -/
def Format.mask : Format → Word
  | .n => 0xFFFFFFFF
  | .v => 0xFFFFFFFF
  | .l3 => 0xFFFFFFFF
  | .rr => 0xFFFFFEFF
  | .rw => 0xFFFFFEFF
  | .s => 0xFFFF00FF
  | .st => 0xFFFF00FF
  | .ar => 0xFFFE00FF

/-- Why a packet is illegal (R145). -/
inductive DecodeError where
  /-- `OPC` is not in the table of R142. -/
  | unknownOpcode
  /-- A nonzero bit in 31:17. -/
  | reservedBits
  /-- A nonzero `LOOP` on anything but `SES.ARM`. -/
  | loopBit
  /-- A region of 2 or more on `REG.WR` or `REG.RD`. -/
  | unknownRegion
  /-- A nonzero `SEL` on a format that does not read it. -/
  | selector
  deriving DecidableEq, Repr

/-- The opcode map of R142: the format of an opcode and how R144 reads the packet's operands. -/
def opcodeRow (opc : Byte) : Option (Format × (Packet → Instr)) :=
  match opc.toNat with
  | 0x01 => some (.rw, fun p => .regWr (selOf p.opw) p.a p.b)
  | 0x02 => some (.rr, fun p => .regRd (selOf p.opw) p.a)
  | 0x10 => some (.l3, fun p => .l3Send (p.a.extractLsb' 0 8) (p.b.extractLsb' 0 8))
  | 0x20 => some (.n, fun _ => .codecOpen)
  | 0x21 => some (.n, fun _ => .codecClose)
  | 0x22 => some (.n, fun _ => .codecSync)
  | 0x23 => some (.v, fun p => .codecSetrate p.a)
  | 0x28 => some (.v, fun p => .setVol p.a)
  | 0x29 => some (.v, fun p => .setBass p.a)
  | 0x2A => some (.v, fun p => .setTreb p.a)
  | 0x2B => some (.v, fun p => .setMute p.a)
  | 0x2C => some (.v, fun p => .setFilt p.a)
  | 0x30 => some (.n, fun _ => .getVol)
  | 0x31 => some (.n, fun _ => .getBass)
  | 0x32 => some (.n, fun _ => .getTreb)
  | 0x33 => some (.n, fun _ => .getMute)
  | 0x34 => some (.n, fun _ => .getFilt)
  | 0x40 => some (.n, fun _ => .ctrlInit)
  | 0x50 => some (.st, fun p => .dmaStart (selOf p.opw) p.a p.b)
  | 0x51 => some (.s, fun p => .dmaPoll (selOf p.opw))
  | 0x52 => some (.n, fun _ => .dmaReset)
  | 0x53 => some (.s, fun p => .irqReq (selOf p.opw))
  | 0x54 => some (.s, fun p => .irqRel (selOf p.opw))
  | 0x55 => some (.v, fun p => .irqEvt p.a)
  | 0x60 => some (.s, fun p => .chOpen (selOf p.opw))
  | 0x61 => some (.s, fun p => .chClose (selOf p.opw))
  | 0x62 => some (.ar, fun p => .sesArm (selOf p.opw) (loopOf p.opw) p.a p.b p.c p.d)
  | 0x63 => some (.s, fun p => .sesStop (selOf p.opw))
  | 0x64 => some (.s, fun p => .sesPos (selOf p.opw))
  | _ => none

/-- The name of what is wrong with an operation word whose opcode is known but whose other bits its row's mask refuses
(R145). -/
def maskError (f : Format) (opw : Word) : DecodeError :=
  if zeroOf opw ≠ 0 then .reservedBits
  else if loopOf opw && f ≠ .ar then .loopBit
  else if f = .rr || f = .rw then .unknownRegion
  else .selector

/-- The decoder: a packet matches the one row of its opcode when `OPW & mask == match` (R141); otherwise it is illegal, for
a reason named as R145 names it. The words `A` to `D` are never a cause of illegality. -/
def decode (p : Packet) : Except DecodeError Instr :=
  match opcodeRow (opcOf p.opw) with
  | none => .error .unknownOpcode
  | some (f, build) =>
    if p.opw &&& f.mask = (opcOf p.opw).setWidth 32 then .ok (build p) else .error (maskError f p.opw)

/-- Column OPC of R142. -/
def Instr.opcode : Instr → Byte
  | .regWr _ _ _ => 0x01
  | .regRd _ _ => 0x02
  | .l3Send _ _ => 0x10
  | .codecOpen => 0x20
  | .codecClose => 0x21
  | .codecSync => 0x22
  | .codecSetrate _ => 0x23
  | .setVol _ => 0x28
  | .setBass _ => 0x29
  | .setTreb _ => 0x2A
  | .setMute _ => 0x2B
  | .setFilt _ => 0x2C
  | .getVol => 0x30
  | .getBass => 0x31
  | .getTreb => 0x32
  | .getMute => 0x33
  | .getFilt => 0x34
  | .ctrlInit => 0x40
  | .dmaStart _ _ _ => 0x50
  | .dmaPoll _ => 0x51
  | .dmaReset => 0x52
  | .irqReq _ => 0x53
  | .irqRel _ => 0x54
  | .irqEvt _ => 0x55
  | .chOpen _ => 0x60
  | .chClose _ => 0x61
  | .sesArm _ _ _ _ _ _ => 0x62
  | .sesStop _ => 0x63
  | .sesPos _ => 0x64

/-- Column "format" of R142. -/
def Instr.format : Instr → Format
  | .regWr _ _ _ => .rw
  | .regRd _ _ => .rr
  | .l3Send _ _ => .l3
  | .codecOpen => .n
  | .codecClose => .n
  | .codecSync => .n
  | .codecSetrate _ => .v
  | .setVol _ => .v
  | .setBass _ => .v
  | .setTreb _ => .v
  | .setMute _ => .v
  | .setFilt _ => .v
  | .getVol => .n
  | .getBass => .n
  | .getTreb => .n
  | .getMute => .n
  | .getFilt => .n
  | .ctrlInit => .n
  | .dmaStart _ _ _ => .st
  | .dmaPoll _ => .s
  | .dmaReset => .n
  | .irqReq _ => .s
  | .irqRel _ => .s
  | .irqEvt _ => .v
  | .chOpen _ => .s
  | .chClose _ => .s
  | .sesArm _ _ _ _ _ _ => .ar
  | .sesStop _ => .s
  | .sesPos _ => .s

/-- An operation word from its fields (R140): 15 zero bits, `LOOP`, `SEL`, `OPC`, high to low. -/
def opWord (opc sel : Byte) (loop : Bool) : Word := 0#15 ++ BitVec.ofBool loop ++ sel ++ opc

/-- The packet of an operation. Fields it does not read are 0 (R141). -/
def encode : Instr → Packet
  | .regWr rgn off val => ⟨opWord 0x01 rgn false, off, val, 0, 0⟩
  | .regRd rgn off => ⟨opWord 0x02 rgn false, off, 0, 0, 0⟩
  | .l3Send addr data => ⟨opWord 0x10 0 false, addr.setWidth 32, data.setWidth 32, 0, 0⟩
  | .codecOpen => ⟨opWord 0x20 0 false, 0, 0, 0, 0⟩
  | .codecClose => ⟨opWord 0x21 0 false, 0, 0, 0, 0⟩
  | .codecSync => ⟨opWord 0x22 0 false, 0, 0, 0, 0⟩
  | .codecSetrate rate => ⟨opWord 0x23 0 false, rate, 0, 0, 0⟩
  | .setVol val => ⟨opWord 0x28 0 false, val, 0, 0, 0⟩
  | .setBass val => ⟨opWord 0x29 0 false, val, 0, 0, 0⟩
  | .setTreb val => ⟨opWord 0x2A 0 false, val, 0, 0, 0⟩
  | .setMute val => ⟨opWord 0x2B 0 false, val, 0, 0, 0⟩
  | .setFilt val => ⟨opWord 0x2C 0 false, val, 0, 0, 0⟩
  | .getVol => ⟨opWord 0x30 0 false, 0, 0, 0, 0⟩
  | .getBass => ⟨opWord 0x31 0 false, 0, 0, 0, 0⟩
  | .getTreb => ⟨opWord 0x32 0 false, 0, 0, 0, 0⟩
  | .getMute => ⟨opWord 0x33 0 false, 0, 0, 0, 0⟩
  | .getFilt => ⟨opWord 0x34 0 false, 0, 0, 0, 0⟩
  | .ctrlInit => ⟨opWord 0x40 0 false, 0, 0, 0, 0⟩
  | .dmaStart dir addr len => ⟨opWord 0x50 dir false, addr, len, 0, 0⟩
  | .dmaPoll dir => ⟨opWord 0x51 dir false, 0, 0, 0, 0⟩
  | .dmaReset => ⟨opWord 0x52 0 false, 0, 0, 0, 0⟩
  | .irqReq dir => ⟨opWord 0x53 dir false, 0, 0, 0, 0⟩
  | .irqRel dir => ⟨opWord 0x54 dir false, 0, 0, 0, 0⟩
  | .irqEvt irq => ⟨opWord 0x55 0 false, irq, 0, 0, 0⟩
  | .chOpen dir => ⟨opWord 0x60 dir false, 0, 0, 0, 0⟩
  | .chClose dir => ⟨opWord 0x61 dir false, 0, 0, 0, 0⟩
  | .sesArm dir loop start size period ctx => ⟨opWord 0x62 dir loop, start, size, period, ctx⟩
  | .sesStop dir => ⟨opWord 0x63 dir false, 0, 0, 0, 0⟩
  | .sesPos dir => ⟨opWord 0x64 dir false, 0, 0, 0, 0⟩

/-- The packet whose bits are the low `nbits` bits of `w`: `OPW` is bits 31:0, `A` bits 63:32, and so on; every bit above
`nbits` is 0. The command port holds whole 32-bit words, so no byte order enters (`20_memory.md` R100). -/
def packetOfBits (nbits w : Nat) : Packet :=
  let v := w % 2 ^ nbits
  ⟨BitVec.ofNat 32 v, BitVec.ofNat 32 (v / 2 ^ 32), BitVec.ofNat 32 (v / 2 ^ 64), BitVec.ofNat 32 (v / 2 ^ 96),
    BitVec.ofNat 32 (v / 2 ^ 128)⟩

/-- The operation the decoder reads from a packet given as one number, bits numbered as the opcode table numbers them. -/
def decodeTableWord (nbits w : Nat) : Option Instr :=
  match decode (packetOfBits nbits w) with
  | .ok i => some i
  | .error _ => none

end Sys2Proof
end

