-- ==== Sys2Proof/Machine/State.lean ====
section
/-! DEFINITION. The state of the JKP-AUD audio block (`10_state.md`), the reasons a step can stop, and the state after reset
(`70_reset_and_hazards.md` R370). INVENTORY.md lists every field with its rule. -/

namespace Sys2Proof.Machine

/-- Direction: 0 = playback, 1 = record (`00_scope.md` R6, glossary). -/
inductive Dir where
  | play | record
  deriving DecidableEq, Repr

/-- Sub-engine of a direction: A = 0, B = 1 (`00_scope.md` R6). -/
inductive Eng where
  | a | b
  deriving DecidableEq, Repr

/-- Status codes (`60_exceptions.md` R330). -/
inductive Status where
  | ok | einval | ebusy | eillegal | eirq
  deriving DecidableEq, Repr

/-- The five register groups of the codec mirror, in the order sync visits them (`42_codec_model.md` R202). -/
inductive Group where
  | status | volume | tone | filter | power
  deriving DecidableEq, Repr

/-- A wait position inside a host operation (`10_state.md` R24). -/
inductive WaitPos where
  | l3Settle
  | l3Poll (i : Nat)
  | initResetHold
  | stopPoll (i : Nat)
  deriving DecidableEq, Repr

/-- The sequencer position `seq` (`10_state.md` R24): the host operation in progress (`none` = `IDLE`), the group a sync is
sending, the wait position, and whether the interrupt context is in its recovery delay. No operation reads it. -/
structure Seq where
  outer : Option Instr
  group : Option Group
  inner : Option WaitPos
  recoveryDelay : Bool
  deriving DecidableEq, Repr

/-- `seq` = `IDLE`. -/
def Seq.idle : Seq := ⟨none, none, none, false⟩

/-- The command port `x[0..6]` (`10_state.md` R20); `pending`: an operation was issued and has not completed (R21). -/
structure Port where
  opw : Word
  a : Word
  b : Word
  c : Word
  d : Word
  res : Word
  sts : Word
  pending : Bool
  deriving DecidableEq, Repr

/-- The memory-mapped registers that are not the DMA engines' (`10_state.md` R42 to R47, R62 to R65). Reserved bits are
stored as 0 (R41). `STATCLR` has no storage (R45). -/
structure Regs where
  ctrl0 : Word
  ctrl1 : Word
  /-- `STATUS.L3WD` (R44). -/
  l3wd : Bool
  /-- `STATUS.L3RD` (R44). -/
  l3rd : Bool
  l3addr : Byte
  l3data : Byte
  pctrl : Word
  pclk : Word
  pauddiv : Word
  pgpio : Word
  deriving DecidableEq, Repr

/-- The codec register mirror (`10_state.md` R70, R71; layouts `42_codec_model.md` R201). `dirty`: STATUS 0, VOLUME 1, TONE 2,
FILTER 3, POWER 4. -/
structure Mirror where
  status : Byte
  volume : Byte
  tone : Byte
  filterMute : Byte
  power : Byte
  dirty : BitVec 5
  rate : Word
  deriving DecidableEq, Repr

/-- One DMA sub-engine (`10_state.md` R58, R59, R80). `raced` is the model's own, what the race rule has to remember of the access
window of the block in flight (`20_memory.md` R111, R122, R123; notes/assumptions/10): of a playback block the old values of bytes
of its range that were overwritten, of a capture block the bytes it has already written. -/
structure Engine where
  busy : Bool
  done : Bool
  addr : Word
  cnt : Word
  raced : List Host.Cell
  deriving DecidableEq, Repr

/-- The DMA hardware of one direction (`10_state.md` R55, R80). -/
structure DmaHw where
  en : Bool
  active : Option Eng
  engA : Engine
  engB : Engine
  deriving DecidableEq, Repr

/-- The DMA channel descriptor (`10_state.md` R25, R75). `bufferRef` = false is null. -/
structure Channel where
  inUse : Bool
  running : Bool
  generation : Word
  bufferRef : Bool
  cbValid : Bool
  boundA : Bool
  boundB : Bool
  deriving DecidableEq, Repr

/-- The streaming buffer descriptor (`10_state.md` R76). -/
structure Buffer where
  size : Word
  start : Word
  current : Word
  period : Word
  loop : Bool
  loopCount : Word
  ctx : Word
  deriving DecidableEq, Repr

/-- All state of one direction; `lastServiced` and `oppStreak` are the re-arm sequencer's (`10_state.md` R81). -/
structure Direction where
  hw : DmaHw
  chan : Channel
  buf : Buffer
  lastServiced : Option Eng
  oppStreak : Nat
  deriving DecidableEq, Repr

/-- The control-bus serialiser and the driver's lock (`10_state.md` R82, R83). -/
structure Serial where
  busy : Bool
  frameAddr : Byte
  frameData : Byte
  /-- `l3_lock`: true = held. -/
  lock : Bool
  deriving DecidableEq, Repr

/-- What the external codec holds; `none` = unknown (`10_state.md` R85). -/
structure CodecHw where
  status : Option Byte
  volume : Option Byte
  tone : Option Byte
  filterMute : Option Byte
  power : Option Byte
  deriving DecidableEq, Repr

/-- Records of the error log (`60_exceptions.md` R340). -/
inductive LogRecord where
  | busTimeout (addr data : Byte)
  | malformedDescriptor (d : Dir)
  | repeatCompletion (d : Dir) (e : Eng)
  | stuckBusy (d : Dir) (e : Eng)
  | unknownIrq (id : Word)
  | rearmRefused (d : Dir) (s : Status)
  deriving DecidableEq, Repr

/-- Events of the output trace (`10_state.md` R96). -/
inductive Event where
  | frame (addr data : Byte)
  | frameLost (addr data : Byte)
  | periodElapsed (d : Dir) (ctx pos : Word)
  | audioOut (e : Eng) (addr : Word) (bytes : List Byte)
  | audioIn (e : Eng) (addr : Word) (bytes : List Byte)
  | irqBind (d : Dir) (e : Eng)
  | irqUnbind (d : Dir) (e : Eng)
  | amp (spk mic : Bool)
  deriving DecidableEq, Repr

/-- Host memory as a list of (address, byte) in one canonical form (`Memory.wf` in Machine/Ops.lean). -/
abbrev Memory := List Host.Cell

/-- The MODEL's own: the next answers of the environment, one list per kind of draw. A draw whose list is empty is answered by
the opaque constant of Config for its kind (notes/assumptions/1). -/
structure Script where
  delivered : List Bool
  binds : List Bool
  picks : List Nat
  counts : List Nat
  bytes : List Byte
  noise : List Word
  deriving DecidableEq, Repr

/-- The MODEL's own: what the host does next (`00_scope.md` R10; notes/assumptions/6). -/
inductive HostAct where
  /-- Write `x[1..4]`, then `x[0]`: issue an operation (`10_state.md` R21). -/
  | issue (p : Packet)
  /-- Store a byte to host memory, outside the block (`10_state.md` R97, `20_memory.md` R123, R124). -/
  | store (addr : Word) (b : Byte)
  /-- Load a byte from host memory, outside the block (`20_memory.md` R123, R124). -/
  | load (addr : Word)
  /-- Let 1 ms pass. -/
  | idle
  deriving DecidableEq, Repr

/-- The MODEL's own fields: the sum of the waits' minimum times in ms, its value when `CTRL0.RST` was set, the number of free values
drawn, the environment's script, the host's coming actions, and the bytes the host has loaded, newest last
(notes/assumptions/1, 4, 6). -/
structure Env where
  now : Nat
  rstSince : Nat
  draws : Nat
  script : Script
  host : List HostAct
  seen : List Byte
  deriving DecidableEq, Repr

/-- The machine. Plain data throughout. -/
structure State where
  port : Port
  seq : Seq
  regs : Regs
  mirror : Mirror
  play : Direction
  record : Direction
  l3 : Serial
  /-- `in_irq` (`10_state.md` R84). -/
  inIrq : Bool
  codec : CodecHw
  /-- Newest record last (`10_state.md` R86). -/
  errlog : List LogRecord
  /-- Newest event last (`10_state.md` R96). -/
  trace : List Event
  mem : Memory
  cfg : Params
  env : Env
  deriving DecidableEq, Repr

/-- Why the spec gives a register write no meaning (`60_exceptions.md` R334, `RESERVED`). -/
inductive ReservedWrite where
  /-- Both start bits in one `CS` write (`10_state.md` R57; U3). -/
  | bothStarts
  /-- Start of a block that is not `startable` (`10_state.md` R57, R60; U4). -/
  | notStartable
  /-- Write to `ADDR` or `CNT` of a busy sub-engine (`10_state.md` R58; U5). -/
  | liveDescriptor
  /-- Write of `L3DATA` while a frame is in progress (`41_control_bus.md` R185; U6). -/
  | frameInProgress
  deriving DecidableEq, Repr

/-- Faults: cases to which the spec gives no meaning, or no step (`60_exceptions.md` R334). All are safe: the model stops
where the hardware may go on. -/
inductive Fault where
  /-- `BusFault`: a host `REG.WR` or `REG.RD` of an offset that is not mapped or not a multiple of 4
  (`40_register_access.md` R172; U1). Raised by `execRegWr` and `execRegRd`. Safe. -/
  | busFault (rgn : Byte) (off : Word)
  /-- `RESERVED`: raised by the register-write operation `regStore`. Safe. -/
  | reserved (why : ReservedWrite)
  /-- Stuck, not an error: a send found `l3_lock` held and has no step until it is free (`41_control_bus.md` R184). Raised by
  `l3Send`; with one host it never happens. Safe. -/
  | waitsForBusLock
  deriving DecidableEq, Repr

/-- Refusals: an operation outside the conditions the spec sets for it (`60_exceptions.md` R334, `REFUSED`), or one that is not
modelled. All are safe. -/
inductive Refusal where
  /-- The operation has no meaning in this model. Raised by an arm of `exec` only. Safe. -/
  | notModelled (mnemonic : String)
  /-- A control-bus send, or an operation containing one, in interrupt context (`41_control_bus.md` R183; U7). Raised by the
  operations of Codec, ControlBus and CtrlInit. Safe. -/
  | busSendInInterrupt
  /-- `CTRL0.RST` cleared less than `T_RESET` after it was set (`70_reset_and_hazards.md` R381; U8). Raised by `regStore`. Safe. -/
  | resetHoldTooShort
  /-- An instance with `CHIP_ADDR` = 0 (`41_control_bus.md` R189; U9). Raised by every step of it, and by the serialiser trigger. Safe. -/
  | chipAddressZero
  /-- An operation issued while another is in progress (U26; `60_exceptions.md` R355). Raised by the host's turn of a step. Safe. -/
  | overlappingOperation
  deriving DecidableEq, Repr

/-- What a computation inside a step answers. -/
abbrev Out (α : Type) := Host.Outcome α Fault Refusal

/-- An idle sub-engine. -/
def Engine.reset : Engine := ⟨false, false, 0, 0, []⟩

/-- A direction after reset (R370). -/
def Direction.reset : Direction where
  hw := ⟨false, none, Engine.reset, Engine.reset⟩
  chan := ⟨false, false, 0, false, false, false, false⟩
  buf := ⟨0, 0, 0, 0, false, 0, 0⟩
  lastServiced := none
  oppStreak := 0

/-- The state after reset (`70_reset_and_hazards.md` R370), of the default instance (`00_scope.md` R6). -/
def State.reset : State where
  port := ⟨0, 0, 0, 0, 0, 0, 0, false⟩
  seq := Seq.idle
  regs := ⟨0, 0, false, false, 0, 0, 0, 0, 0, 0⟩
  mirror := ⟨0, 0, 0, 0, 0, 0, 0⟩
  play := Direction.reset
  record := Direction.reset
  l3 := ⟨false, 0, 0, false⟩
  inIrq := false
  codec := ⟨none, none, none, none, none⟩
  errlog := []
  trace := []
  mem := []
  cfg := Params.default
  env := ⟨0, 0, 0, ⟨[], [], [], [], [], []⟩, [], []⟩

end Sys2Proof.Machine
end

