-- ==== Sys2Proof/Machine/Operands.lean ====
section
/-! DEFINITION. How operands are read (`30_encoding.md` R144, R147; `00_scope.md` R7), the register map
(`10_state.md` R40), and the accessors of per-direction and per-sub-engine state. -/

namespace Sys2Proof.Machine

/-- `SEL` as a direction: 0 = play, 1 = record, 2 to 255 name none (R144). -/
def dirOf (sel : Byte) : Option Dir :=
  match sel.toNat with
  | 0 => some .play
  | 1 => some .record
  | _ => none

/-- `other(A) = B`, `other(B) = A` (`44_dma_engine.md`, notation). -/
def Eng.other : Eng → Eng
  | .a => .b
  | .b => .a

/-- The direction of an interrupt identity `id < 4`: `d = id[1]` (R147). -/
def irqDir (id : Word) : Dir := if id.getLsbD 1 then .record else .play

/-- The sub-engine of an interrupt identity `id < 4`: `e = id[0]` (R147). -/
def irqEng (id : Word) : Eng := if id.getLsbD 0 then .b else .a

/-- `IRQ_ID(d,e) = 2*d + e` (R147). -/
def irqId (d : Dir) (e : Eng) : Word :=
  match d, e with
  | .play, .a => 0
  | .play, .b => 1
  | .record, .a => 2
  | .record, .b => 3

/-- `clamp(sext_32(v), 0, hi)`: the operand of a setter brought into its legal range (R7, `42_codec_model.md` R205). -/
def clampSigned (v : Word) (hi : Nat) : Nat := min v.toInt.toNat hi

/-- The registers of `10_state.md` R40, by name. -/
inductive Reg where
  | ctrl0 | ctrl1 | status | statclr | l3addr | l3data
  | cs (d : Dir)
  | addr (d : Dir) (e : Eng)
  | cnt (d : Dir) (e : Eng)
  | pctrl | pclk | pauddiv | pgpio
  deriving DecidableEq, Repr

/-- The register map (R40). `none`: an unmapped offset, which includes every offset that is not a multiple of 4 and every
region that does not exist (R41 (c), R103; U1). -/
def regAt (rgn : Byte) (off : Word) : Option Reg :=
  match rgn.toNat, off.toNat with
  | 0, 0x00 => some .ctrl0
  | 0, 0x04 => some .ctrl1
  | 0, 0x0C => some .status
  | 0, 0x18 => some .statclr
  | 0, 0x1C => some .l3addr
  | 0, 0x20 => some .l3data
  | 0, 0x34 => some (.cs .play)
  | 0, 0x38 => some (.addr .play .a)
  | 0, 0x3C => some (.cnt .play .a)
  | 0, 0x40 => some (.addr .play .b)
  | 0, 0x44 => some (.cnt .play .b)
  | 0, 0x48 => some (.cs .record)
  | 0, 0x4C => some (.addr .record .a)
  | 0, 0x50 => some (.cnt .record .a)
  | 0, 0x54 => some (.addr .record .b)
  | 0, 0x58 => some (.cnt .record .b)
  | 1, 0x000 => some .pctrl
  | 1, 0x200 => some .pclk
  | 1, 0x208 => some .pauddiv
  | 1, 0x300 => some .pgpio
  | _, _ => none

/-- The state of a direction. -/
def State.dir (s : State) : Dir → Direction
  | .play => s.play
  | .record => s.record

/-- Replace the state of a direction. -/
def State.setDir (d : Dir) (x : Direction) (s : State) : State :=
  match d with
  | .play => { s with play := x }
  | .record => { s with record := x }

/-- Change the channel descriptor of a direction. -/
def State.modChan (d : Dir) (f : Channel → Channel) (s : State) : State :=
  s.setDir d { s.dir d with chan := f (s.dir d).chan }

/-- Change the buffer descriptor of a direction. -/
def State.modBuf (d : Dir) (f : Buffer → Buffer) (s : State) : State :=
  s.setDir d { s.dir d with buf := f (s.dir d).buf }

/-- Change the DMA hardware of a direction. -/
def State.modHw (d : Dir) (f : DmaHw → DmaHw) (s : State) : State :=
  s.setDir d { s.dir d with hw := f (s.dir d).hw }

/-- A sub-engine of a direction's hardware. -/
def DmaHw.eng (h : DmaHw) : Eng → Engine
  | .a => h.engA
  | .b => h.engB

/-- Change one sub-engine. -/
def DmaHw.modEng (e : Eng) (f : Engine → Engine) (h : DmaHw) : DmaHw :=
  match e with
  | .a => { h with engA := f h.engA }
  | .b => { h with engB := f h.engB }

/-- Sub-engine `(d,e)`. -/
def State.engine (s : State) (d : Dir) (e : Eng) : Engine := (s.dir d).hw.eng e

/-- Change sub-engine `(d,e)`. -/
def State.modEngine (d : Dir) (e : Eng) (f : Engine → Engine) (s : State) : State := s.modHw d (DmaHw.modEng e f)

/-- `irq_bound[d][e]` (`10_state.md` R75). -/
def Channel.bound (c : Channel) : Eng → Bool
  | .a => c.boundA
  | .b => c.boundB

/-- Set `irq_bound[d][e]`. -/
def Channel.setBound (e : Eng) (v : Bool) (c : Channel) : Channel :=
  match e with
  | .a => { c with boundA := v }
  | .b => { c with boundB := v }

/-- The sub-engine the next start will use: A when the counter is even, B when odd, tested before the increment
(`10_state.md` R25). -/
def nextEngine (generation : Word) : Eng := if generation.getLsbD 0 then .b else .a

/-- `snap(q)`: the largest table rate `r <= q`, else the smallest; the row, for a table of strictly increasing rates
(`42_codec_model.md` R219). -/
def snapRow (p : Params) (q : Word) : RateRow :=
  p.rateRest.foldl (fun best r => if r.rate.toNat ≤ q.toNat then r else best) p.rateFirst

end Sys2Proof.Machine
end

