-- ==== Sys2Proof/Machine/Flags.lean ====
section
/-! DEFINITION. Flags and status words computed from state: `CS[d]`, `STATUS`, status codes, dirty bits, and the conditions
under which the serialiser and the sub-engines work. -/

namespace Sys2Proof.Machine

/-- Status codes of `60_exceptions.md` R330. -/
def Status.code : Status → Word
  | .ok => 0
  | .einval => 1
  | .ebusy => 2
  | .eillegal => 3
  | .eirq => 4

/-- Bit mask `DONE_e` of `CS[d]` (`10_state.md` R55). -/
def doneMask : Eng → Word
  | .a => Config.csDoneA
  | .b => Config.csDoneB

/-- Bit mask `START_e` of `CS[d]` (`10_state.md` R55). -/
def startMask : Eng → Word
  | .a => Config.csStartA
  | .b => Config.csStartB

/-- A flag at a bit mask. -/
def flagAt (b : Bool) (mask : Word) : Word := if b then mask else 0

/-- The read value of `CS[d]` (`10_state.md` R56): `EN`, `DONE_e`, `START_e` = busy, and `BIU`[7] = (active is B). -/
def csWord (h : DmaHw) : Word :=
  flagAt h.en Config.csEn ||| flagAt h.engA.done Config.csDoneA ||| flagAt h.engA.busy Config.csStartA |||
    flagAt h.engB.done Config.csDoneB ||| flagAt h.engB.busy Config.csStartB |||
    flagAt (h.active == some .b) 0x00000080

/-- `w & mask != 0`. -/
def hasBit (w mask : Word) : Bool := w &&& mask != 0

/-- `l3_operational` (`41_control_bus.md` R182). -/
def l3Operational (s : State) : Bool :=
  hasBit s.regs.pclk Config.l3ClkEn && hasBit s.regs.ctrl1 Config.l3en && hasBit s.regs.ctrl0 Config.enb &&
    !hasBit s.regs.ctrl0 Config.rst

/-- `dma_can_run(d)` (`44_dma_engine.md` R270). -/
def dmaCanRun (s : State) (d : Dir) : Bool :=
  (s.dir d).hw.en && hasBit s.regs.ctrl0 Config.enb && !hasBit s.regs.ctrl0 Config.rst &&
    hasBit s.regs.pclk Config.i2sClkEn && !hasBit s.regs.pctrl Config.acSel

/-- `startable(d,e)` (`10_state.md` R60), for the address and count registers of a sub-engine. -/
def startable (p : Params) (g : Engine) : Bool :=
  g.cnt != 0 && decide (g.cnt.toNat ≤ p.maxDmaLen) && decide (g.addr.toNat + g.cnt.toNat ≤ Config.memSize) &&
    g.addr.toNat % p.dmaAlign == 0 && g.cnt.toNat % p.dmaAlign == 0

/-- Line `(d,e)` is deliverable, as far as the block's own state goes (`60_exceptions.md` R345): done, bound, and not already in
interrupt context (no nesting, R347). -/
def deliverable (s : State) (d : Dir) (e : Eng) : Bool :=
  (s.engine d e).done && (s.dir d).chan.bound e && !s.inIrq

/-- The dirty bit of a group (`42_codec_model.md` R202). -/
def Group.bit : Group → BitVec 5
  | .status => 0b00001
  | .volume => 0b00010
  | .tone => 0b00100
  | .filter => 0b01000
  | .power => 0b10000

/-- The mirror byte of a group. -/
def Mirror.byteOf (m : Mirror) : Group → Byte
  | .status => m.status
  | .volume => m.volume
  | .tone => m.tone
  | .filter => m.filterMute
  | .power => m.power

/-- Group `g` is dirty. -/
def Mirror.isDirty (m : Mirror) (g : Group) : Bool := m.dirty &&& g.bit != 0

/-- Mark group `g` dirty and no other (`42_codec_model.md` R216). -/
def Mirror.mark (g : Group) (m : Mirror) : Mirror := { m with dirty := m.dirty ||| g.bit }

/-- `addr_of(g)` = `(CHIP_ADDR << 2) | selector` (`42_codec_model.md` R202, `30_encoding.md` R148). -/
def addrOf (p : Params) : Group → Byte
  | .status => p.chipAddr ++ p.selStatus
  | .volume => p.chipAddr ++ p.selData
  | .tone => p.chipAddr ++ p.selData
  | .filter => p.chipAddr ++ p.selData
  | .power => p.chipAddr ++ p.selData

/-- `data_of(g)` = prefix | value; the status group has no prefix (`42_codec_model.md` R202). -/
def dataOf (p : Params) (m : Mirror) : Group → Byte
  | .status => m.status
  | .volume => p.pfxVol ||| m.volume
  | .tone => p.pfxTone ||| m.tone
  | .filter => p.pfxFilt ||| m.filterMute
  | .power => p.pfxPwr ||| m.power

/-- Both threshold fields of `CTRL0` set to `FIFO_WM`, other bits kept: `(c & ~0xFF00) | (FIFO_WM << 8) | (FIFO_WM << 12)`
(`43_controller_init.md` R240 step 4d, `44_dma_engine.md` R257). -/
def withThresholds (p : Params) (c : Word) : Word :=
  (c &&& ~~~Config.thresholds) ||| (p.fifoWm.setWidth 32 <<< 8) ||| (p.fifoWm.setWidth 32 <<< 12)

/-- The status byte with its `SC` field replaced: `(b & 0xCF) | (sc << 4)` (`42_codec_model.md` R217). -/
def withSc (b : Byte) (sc : BitVec 2) : Byte := (b &&& 0xCF) ||| (sc.setWidth 8 <<< 4)

end Sys2Proof.Machine
end

