-- ==== Sys2Proof/Machine/Ops.lean ====
section
/-! DEFINITION. The shared operations: free values, host memory, the serialiser and the sub-engines as agents, register
reads and writes, completion of an operation, raising a status, entering and leaving interrupt context, and time. -/

namespace Sys2Proof.Machine

/-- Sequencing: go on from a next state, stop at a fault or a refusal. -/
def andThen {α β : Type} (x : Out α) (k : α → Out β) : Out β :=
  match x with
  | .next a => k a
  | .fault f => .fault f
  | .refused r => .refused r

/-! ## Free values (`00_scope.md` R8 `draw`; notes/assumptions/1) -/

/-- The opaque constants have supplied one more value. -/
def State.countDraw (s : State) : State := { s with env := { s.env with draws := s.env.draws + 1 } }

/-- Replace the script. -/
def State.setScript (x : Script) (s : State) : State := { s with env := { s.env with script := x } }

/-- `draw delivered` (`41_control_bus.md` R186; U12). -/
def drawDelivered (s : State) : Bool × State :=
  match s.env.script.delivered with
  | v :: r => (v, s.setScript { s.env.script with delivered := r })
  | [] => (Config.frameDelivered s.env.draws, s.countDraw)

/-- `draw ok` of a line binding (`44_dma_engine.md` R262; U14). -/
def drawBind (s : State) : Bool × State :=
  match s.env.script.binds with
  | v :: r => (v, s.setScript { s.env.script with binds := r })
  | [] => (Config.lineBinds s.env.draws, s.countDraw)

/-- A free choice among agents, of a number of rounds, or among racing bytes (U16, U18, U19). -/
def drawPick (s : State) : Nat × State :=
  match s.env.script.picks with
  | v :: r => (v, s.setScript { s.env.script with picks := r })
  | [] => (Config.pick s.env.draws, s.countDraw)

/-- `draw k : 0 .. n` (`44_dma_engine.md` R274; U17). -/
def drawUpTo (n : Nat) (s : State) : Nat × State :=
  match s.env.script.counts with
  | v :: r => (v % (n + 1), s.setScript { s.env.script with counts := r })
  | [] => (Config.movedCount s.env.draws % (n + 1), s.countDraw)

/-- One captured byte (`44_dma_engine.md` R271; U15). -/
def drawByte (s : State) : Byte × State :=
  match s.env.script.bytes with
  | v :: r => (v, s.setScript { s.env.script with bytes := r })
  | [] => (Config.capturedByte s.env.draws, s.countDraw)

/-- A register value the hardware leaves open (`10_state.md` R44, R58; U10, U11). -/
def drawNoise (s : State) : Word × State :=
  match s.env.script.noise with
  | v :: r => (v, s.setScript { s.env.script with noise := r })
  | [] => (Config.readNoise s.env.draws, s.countDraw)

/-! ## Host memory (`10_state.md` R97, `20_memory.md` R107 to R111) -/

/-- The byte at an address; an unlisted one reads as it did at reset. -/
def Memory.read : Memory → Nat → Byte
  | [], a => Config.memAtReset a
  | (k, v) :: r, a => if k = a then v else Memory.read r a

/-- List `v` at `a`, keeping addresses rising. -/
def Memory.insert (a : Nat) (v : Byte) : Memory → Memory
  | [] => [(a, v)]
  | (k, w) :: r => if a < k then (a, v) :: (k, w) :: r else if a = k then (a, v) :: r else (k, w) :: Memory.insert a v r

/-- Unlist `a`. -/
def Memory.remove (a : Nat) : Memory → Memory
  | [] => []
  | (k, w) :: r => if k = a then Memory.remove a r else (k, w) :: Memory.remove a r

/-- Write one byte, keeping the canonical form: the value an unlisted address reads as removes the entry. -/
def Memory.write (m : Memory) (a : Nat) (v : Byte) : Memory :=
  if v = Config.memAtReset a then Memory.remove a m else Memory.insert a v m

/-- The canonical form: addresses strictly rising and inside the address space, no entry equal to what an unlisted address
reads as. -/
def Memory.wf (m : Memory) : Bool :=
  decide (m.Pairwise (fun x y => x.1 < y.1)) &&
    m.all (fun c => decide (c.1 < Config.memSize) && c.2 != Config.memAtReset c.1)

/-- Address `a` lies in the block of a sub-engine. -/
def Engine.covers (g : Engine) (a : Nat) : Bool := decide (g.addr.toNat ≤ a) && decide (a < g.addr.toNat + g.cnt.toNat)

/-- The block lies in host memory (`20_memory.md` R110, R111). Every started block does (`10_state.md` R60). -/
def Engine.inMemory (g : Engine) : Bool := g.cnt != 0 && decide (g.addr.toNat + g.cnt.toNat ≤ Config.memSize)

/-- A byte of a busy playback block's range is overwritten inside its access window: keep the old value (R123). -/
def Engine.noteRace (a : Nat) (old : Byte) (g : Engine) : Engine :=
  if g.busy && g.covers a then { g with raced := (a, old) :: g.raced } else g

/-- Store one byte to host memory. Busy playback blocks whose range holds it remember the old value (R123). -/
def storeByte (a : Nat) (v : Byte) (s : State) : State :=
  let old := Memory.read s.mem a
  { s with
    mem := Memory.write s.mem a v
    play := { s.play with hw := { s.play.hw with
      engA := s.play.hw.engA.noteRace a old
      engB := s.play.hw.engB.noteRace a old } } }

/-! ### The access window of a block (`20_memory.md` R110, R111, R122, R123; notes/assumptions/10) -/

/-- A busy capture block whose range holds `a` may write that byte, or has written it (`20_memory.md` R122). -/
def captureCovers (s : State) (a : Nat) : Bool :=
  (s.record.hw.engA.busy && s.record.hw.engA.covers a) || (s.record.hw.engB.busy && s.record.hw.engB.covers a)

/-- The capture block of a sub-engine has byte `a` still to write. -/
def Engine.owes (a : Nat) (g : Engine) : Bool := g.busy && g.inMemory && g.covers a && (g.raced.lookup a).isNone

/-- The byte that capture sub-engine `e` puts at `a`: the one it has already written there, else one the environment supplies, written
now (`44_dma_engine.md` R271, `20_memory.md` R111). -/
def captureByte (e : Eng) (a : Nat) (s : State) : Byte × State :=
  match (s.engine .record e).raced.lookup a with
  | some b => (b, s)
  | none =>
    let (b, s1) := drawByte s
    (b, storeByte a b s1)

/-- `MemWrite(addr, n, bytes)` by a capture sub-engine: the bytes not written before (`20_memory.md` R101, R111). -/
def captureBytes (e : Eng) : Nat → Nat → State → List Byte × State
  | _, 0, s => ([], s)
  | a, n + 1, s =>
    let (b, s1) := captureByte e a s
    let (r, s2) := captureBytes e (a + 1) n s1
    (b :: r, s2)

/-- Sub-engine `e` of the capture direction may write its byte at `a` at this moment of its window, a free choice (R111): it then
remembers that it did. -/
def mayCapture (e : Eng) (a : Nat) (s : State) : State :=
  if (s.engine .record e).owes a then
    let (k, s1) := drawPick s
    if k = 0 then s1
    else
      let (b, s2) := captureByte e a s1
      s2.modEngine .record e (fun g => { g with raced := (a, b) :: g.raced })
  else s

/-- Before another access to address `a`: capture blocks in flight that cover it may have written it, the active one first, since
blocks are transferred in the order they were started (`20_memory.md` R123, `44_dma_engine.md` R273). -/
def settle (a : Nat) (s : State) : State :=
  let e := s.record.hw.active.getD .a
  let s1 := mayCapture e a s
  if (s1.engine .record e).owes a then s1 else mayCapture e.other a s1

/-- The byte a playback sub-engine delivers for address `a`: a value that memory held there at some moment of the block's access
window (`20_memory.md` R110, R123). -/
def fetchByte (e : Eng) (a : Nat) (s : State) : Byte × State :=
  let s1 := settle a s
  match (s1.engine .play e).raced.filter (fun c => c.1 == a) with
  | [] => (Memory.read s1.mem a, s1)
  | olds =>
    let (k, s2) := drawPick s1
    (((olds.map Prod.snd)[k]?).getD (Memory.read s1.mem a), s2)

/-- `MemRead(addr, n)` by a playback sub-engine: ascending order (`20_memory.md` R101, R110). -/
def fetchBytes (e : Eng) : Nat → Nat → State → List Byte × State
  | _, 0, s => ([], s)
  | a, n + 1, s =>
    let (b, s1) := fetchByte e a s
    let (r, s2) := fetchBytes e (a + 1) n s1
    (b :: r, s2)

/-- A host load of address `a`: inside the range of a capture block in flight it sees the old byte or the captured one
(`20_memory.md` R123). -/
def hostLoad (a : Nat) (s : State) : Byte × State :=
  let s1 := settle a s
  (Memory.read s1.mem a, s1)

/-- A host store to address `a`: a capture block in flight writes its own byte there before or after it (`20_memory.md` R111, R122). -/
def hostStore (a : Nat) (v : Byte) (s : State) : State := storeByte a v (settle a s)

/-! ## Outputs and the error log -/

/-- `emit` (`10_state.md` R96). -/
def State.emit (ev : Event) (s : State) : State := { s with trace := s.trace ++ [ev] }

/-- `log` (`60_exceptions.md` R340). -/
def State.log (r : LogRecord) (s : State) : State := { s with errlog := s.errlog ++ [r] }

/-! ## The serialiser and the codec (agents 4 and 5) -/

/-- `codec_receive(fa, fb)` (`42_codec_model.md` R230). -/
def codecReceive (p : Params) (fa fb : Byte) (c : CodecHw) : CodecHw :=
  if fa.extractLsb' 2 6 ≠ p.chipAddr then c
  else if fa.extractLsb' 0 2 = p.selStatus then { c with status := some fb }
  else if fa.extractLsb' 0 2 = p.selData then
    let v : Byte := fb &&& 0x3F
    match (fb.extractLsb' 6 2).toNat with
    | 0 => { c with volume := some v }
    | 1 => { c with tone := some v }
    | 2 => { c with filterMute := some v }
    | _ => { c with power := some v }
  else c

/-- The serialiser's step, enabled while `l3_busy` (`41_control_bus.md` R186). -/
def serialise (s : State) : State :=
  let (delivered, s1) := drawDelivered s
  let fa := s1.l3.frameAddr
  let fb := s1.l3.frameData
  let s2 := { s1 with l3 := { s1.l3 with busy := false } }
  if delivered then
    { s2.emit (.frame fa fb) with
      codec := codecReceive s2.cfg fa fb s2.codec
      regs := { s2.regs with l3wd := true } }
  else s2.emit (.frameLost fa fb)

/-- The trigger of a write of `L3DATA` with value `v` (`41_control_bus.md` R185). The configuration `CHIP_ADDR` = 0, which
a step refuses as a whole (`turn`), launches no frame either (R189). -/
def triggerFrame (v : Byte) (s : State) : Out State :=
  if s.cfg.chipAddr = 0 then .refused .chipAddressZero
  else if s.l3.busy then .fault (.reserved .frameInProgress)
  else if l3Operational s then
    .next { s with l3 := { s.l3 with busy := true, frameAddr := s.regs.l3addr, frameData := v } }
  else .next s

/-- A frame in progress is abandoned by `CTRL0.RST` (`41_control_bus.md` R187). -/
def abandonFrame (s : State) : State :=
  if s.l3.busy then
    { s.emit (.frameLost s.l3.frameAddr s.l3.frameData) with l3 := { s.l3 with busy := false } }
  else s

/-! ## The DMA sub-engines (agent 3) -/

/-- Move the first `k` bytes of the block of sub-engine `(d,e)` and record the event (`44_dma_engine.md` R271, R274). -/
def moveBlock (d : Dir) (e : Eng) (k : Nat) (s : State) : State :=
  let g := s.engine d e
  match d with
  | .play =>
    let (bytes, s1) := fetchBytes e g.addr.toNat k s
    s1.emit (.audioOut e g.addr bytes)
  | .record =>
    let (bytes, s1) := captureBytes e g.addr.toNat k s
    s1.emit (.audioIn e g.addr bytes)

/-- What becomes active when sub-engine `e` stops being busy: a pending block of the other one (`44_dma_engine.md` R272, R273). -/
def DmaHw.nextActive (h : DmaHw) (e : Eng) : Option Eng := if (h.eng e.other).busy then some e.other else none

/-- Completion of sub-engine `e` (`44_dma_engine.md` R272). -/
def DmaHw.complete (e : Eng) (h : DmaHw) : DmaHw :=
  { h.modEng e (fun g => { g with busy := false, done := true, raced := [] }) with active := h.nextActive e }

/-- The end of an abandonment (`44_dma_engine.md` R274): done is not set. -/
def DmaHw.drop (e : Eng) (h : DmaHw) : DmaHw :=
  { h.modEng e (fun g => { g with busy := false, raced := [] }) with
    active := if h.active = some e then h.nextActive e else h.active }

/-- The step `complete(d, e)` is enabled for the active sub-engine (`44_dma_engine.md` R271). A block outside host memory, which
no start makes (`10_state.md` R60), is never moved: its sub-engine is stuck (notes/assumptions/12). -/
def engineEnabled (s : State) (d : Dir) : Bool :=
  match (s.dir d).hw.active with
  | some e => (s.engine d e).busy && dmaCanRun s d && (s.engine d e).inMemory
  | none => false

/-- The step `complete(d, active)`: transfer, then completion, as one step (`44_dma_engine.md` R271, R272). -/
def completeBlock (d : Dir) (s : State) : State :=
  match (s.dir d).hw.active with
  | some e => (moveBlock d e (s.engine d e).cnt.toNat s).modHw d (DmaHw.complete e)
  | none => s

/-- How many bytes of its block a sub-engine has moved at least: up to the last one it is known to have written. -/
def Engine.movedAtLeast (d : Dir) (g : Engine) : Nat :=
  match d with
  | .play => 0
  | .record => (g.raced.filter fun c => g.covers c.1).foldl (fun m c => max m (c.1 + 1 - g.addr.toNat)) 0

/-- `abandon(d, e)` (`44_dma_engine.md` R274): an unknown prefix was moved, which holds every byte known to have moved. -/
def abandonBlock (d : Dir) (e : Eng) (s : State) : State :=
  if (s.engine d e).busy then
    let least := (s.engine d e).movedAtLeast d
    let (k, s1) := drawUpTo ((s.engine d e).cnt.toNat - least) s
    let s2 := if (s.engine d e).inMemory then moveBlock d e (least + k) s1 else s1
    s2.modHw d (DmaHw.drop e)
  else s

/-! ## Hardware agents between register accesses (`20_memory.md` R121 (a)) -/

/-- A hardware agent that can take a step of its own. -/
inductive HwAgent where
  | serialiser
  | engine (d : Dir)
  deriving DecidableEq, Repr

/-- The hardware agents whose step is enabled. -/
def hwAgents (s : State) : List HwAgent :=
  (if s.l3.busy then [.serialiser] else []) ++ (if engineEnabled s .play then [.engine .play] else []) ++
    (if engineEnabled s .record then [.engine .record] else [])

/-- One step of a hardware agent. -/
def hwStep : HwAgent → State → State
  | .serialiser, s => serialise s
  | .engine d, s => completeBlock d s

/-- At most `n` hardware steps, each a free choice among the enabled agents; choice 0 ends them. -/
def hwRounds : Nat → State → State
  | 0, s => s
  | n + 1, s =>
    match hwAgents s with
    | [] => s
    | agents =>
      let (k, s1) := drawPick s
      match k with
      | 0 => s1
      | j + 1 =>
        match agents[j]? with
        | some g => hwRounds n (hwStep g s1)
        | none => s1

/-- Hardware agents may take steps here: before every register access of every operation (R121 (a)). Five steps are all there
can be: one frame, and two blocks of each direction, since only register writes start new ones. -/
def hw (s : State) : State := hwRounds 5 s

/-! ## Register access (`40_register_access.md`; write rules `10_state.md` R42 to R65) -/

/-- The read value of a register (R171). `ADDR` and `CNT` of a busy sub-engine, and the reserved bits of `STATUS`, are draws. -/
def regLoad (r : Reg) (s : State) : Word × State :=
  match r with
  | .ctrl0 => (s.regs.ctrl0, s)
  | .ctrl1 => (s.regs.ctrl1, s)
  | .status =>
    let (noise, s1) := drawNoise s
    ((noise &&& ~~~(Config.dts ||| Config.rdd)) ||| flagAt s.regs.l3wd Config.dts ||| flagAt s.regs.l3rd Config.rdd, s1)
  | .statclr => (0, s)
  | .l3addr => (s.regs.l3addr.setWidth 32, s)
  | .l3data => (s.regs.l3data.setWidth 32, s)
  | .cs d => (csWord (s.dir d).hw, s)
  | .addr d e => if (s.engine d e).busy then drawNoise s else ((s.engine d e).addr, s)
  | .cnt d e => if (s.engine d e).busy then drawNoise s else ((s.engine d e).cnt, s)
  | .pctrl => (s.regs.pctrl, s)
  | .pclk => (s.regs.pclk, s)
  | .pauddiv => (s.regs.pauddiv, s)
  | .pgpio => (s.regs.pgpio, s)

/-- `CTRL0` takes the value `new` (`10_state.md` R42): while `RST` is written 1, `L3WD`, `L3RD` and a frame in progress are
cleared (`41_control_bus.md` R187); `RST` cleared before `T_RESET` has passed is refused (`70_reset_and_hazards.md` R381). -/
def storeCtrl0 (new : Word) (s : State) : Out State :=
  let was := hasBit s.regs.ctrl0 Config.rst
  if hasBit new Config.rst then
    let s1 := abandonFrame s
    .next { s1 with
      regs := { s1.regs with ctrl0 := new, l3wd := false, l3rd := false }
      env := { s1.env with rstSince := if was then s1.env.rstSince else s1.env.now } }
  else if was && decide (s.env.now - s.env.rstSince < Config.tReset) then .refused .resetHoldTooShort
  else .next { s with regs := { s.regs with ctrl0 := new } }

/-- Start sub-engine `e` (`10_state.md` R57 step 4): its access window opens (`20_memory.md` R122). -/
def startEngine (d : Dir) (e : Eng) (s : State) : Out State :=
  if startable s.cfg (s.engine d e) then
    .next (s.modHw d (fun h =>
      { h.modEng e (fun g => { g with busy := true, raced := [] }) with
        active := h.active.or (some e) }))
  else .fault (.reserved .notStartable)

/-- Steps 1 and 2 of a write of `w` to `CS[d]` (`10_state.md` R57): done bits cleared by 1, then `EN`. -/
def DmaHw.clearAndEnable (w : Word) (h : DmaHw) : DmaHw :=
  { h with
    en := hasBit w Config.csEn
    engA := { h.engA with done := h.engA.done && !hasBit w Config.csDoneA }
    engB := { h.engB with done := h.engB.done && !hasBit w Config.csDoneB } }

/-- A write of `w` to `CS[d]` (`10_state.md` R57). -/
def storeCs (d : Dir) (w : Word) (s : State) : Out State :=
  let s1 := s.modHw d (DmaHw.clearAndEnable w)
  if hasBit w Config.csEn then
    let sA := hasBit w Config.csStartA && !(s.engine d .a).busy
    let sB := hasBit w Config.csStartB && !(s.engine d .b).busy
    if sA && sB then .fault (.reserved .bothStarts)
    else if sA then startEngine d .a s1
    else if sB then startEngine d .b s1
    else .next s1
  else
    .next ((abandonBlock d .b (abandonBlock d .a s1)).modHw d (fun h => { h with active := none }))

/-- The write rule of a register (`10_state.md` R42 to R65; `40_register_access.md` R170). Reserved bits are dropped (R41). -/
def regStore (r : Reg) (v : Word) (s : State) : Out State :=
  match r with
  | .ctrl0 => storeCtrl0 (v &&& Config.ctrl0Fields) s
  | .ctrl1 => .next { s with regs := { s.regs with ctrl1 := v &&& Config.l3en } }
  | .status => .next s
  | .statclr =>
    .next { s with regs := { s.regs with
      l3wd := s.regs.l3wd && !hasBit v Config.dts
      l3rd := s.regs.l3rd && !hasBit v Config.rdd } }
  | .l3addr => .next { s with regs := { s.regs with l3addr := v.extractLsb' 0 8 } }
  | .l3data => triggerFrame (v.extractLsb' 0 8) { s with regs := { s.regs with l3data := v.extractLsb' 0 8 } }
  | .cs d => storeCs d v s
  | .addr d e =>
    if (s.engine d e).busy then .fault (.reserved .liveDescriptor)
    else .next (s.modEngine d e (fun g => { g with addr := v }))
  | .cnt d e =>
    if (s.engine d e).busy then .fault (.reserved .liveDescriptor)
    else .next (s.modEngine d e (fun g => { g with cnt := v }))
  | .pctrl => .next { s with regs := { s.regs with pctrl := v &&& Config.acSel } }
  | .pclk => .next { s with regs := { s.regs with pclk := v &&& (Config.i2sClkEn ||| Config.l3ClkEn) } }
  | .pauddiv => .next { s with regs := { s.regs with pauddiv := v &&& Config.divField } }
  | .pgpio => .next { s with regs := { s.regs with pgpio := v &&& (Config.spkAmp ||| Config.micAmp) } }

/-- `RegRead` (`00_scope.md` R8, `40_register_access.md` R171): hardware agents may step first. -/
def regRead (r : Reg) (s : State) : Word × State := regLoad r (hw s)

/-- `RegWrite` (`00_scope.md` R8, `40_register_access.md` R170): hardware agents may step first. -/
def regWrite (r : Reg) (v : Word) (s : State) : Out State := regStore r v (hw s)

/-- Bit 16 of `RegRead(STATUS)` (`41_control_bus.md` R180 steps 5, 6). It does not depend on the draw of the reserved bits, so
none is drawn. -/
def readWriteDone (s : State) : Bool × State := ((hw s).regs.l3wd, hw s)

/-- `RegRead(r)`, a change of the value, `RegWrite(r)`: two accesses (`20_memory.md` R105). -/
def regUpdate (r : Reg) (f : Word → Word) (s : State) : Out State :=
  let (v, s1) := regRead r s
  regWrite r (f v) s1

/-! ## Completion, raising, interrupt context (`60_exceptions.md`) -/

/-- An operation completes: `x[5]`, `x[6]` are written and `seq <- IDLE` (`10_state.md` R21, R24). -/
def finish (res : Word) (st : Status) (s : State) : State :=
  { s with
    port := { s.port with res := res, sts := st.code, pending := false }
    seq := Seq.idle }

/-- `raise S` (`60_exceptions.md` R331): the operation ends here with `x[6] <- S`, `x[5] <- 0`, `seq <- IDLE`. Nothing is saved and
control goes to no handler. -/
def raise (st : Status) (s : State) : Out State := .next (finish 0 st s)

/-- Entry to interrupt context (`60_exceptions.md` R346). Nothing of the host's is saved or changed: the command port, `seq` and
the lock keep their values; there is no cause register. -/
def enterInterrupt (s : State) : State := { s with inIrq := true }

/-- Exit from interrupt context (`60_exceptions.md` R348): nothing to restore. -/
def exitInterrupt (s : State) : State := { s with inIrq := false, seq := { s.seq with recoveryDelay := false } }

/-- An operation that contains a control-bus send is refused in interrupt context (`41_control_bus.md` R183). -/
def inNormalContext (s : State) (k : State → Out State) : Out State :=
  if s.inIrq then .refused .busSendInInterrupt else k s

/-- An operation on a direction: `SEL` above 1 raises `EINVAL` before anything else (`60_exceptions.md` R330, R332). -/
def onDirection (sel : Byte) (s : State) (k : Dir → Out State) : Out State :=
  match dirOf sel with
  | some d => k d
  | none => raise .einval s

/-! ## Time (`60_exceptions.md` R353) -/

/-- `t` ms have passed. A frame lasts less than 1 ms, so 1 ms or more does not end while one is in progress
(`41_control_bus.md` R188). -/
def passTime (t : Nat) (s : State) : State :=
  let s1 := if s.l3.busy && decide (1 ≤ t) then serialise s else s
  { s1 with env := { s1.env with now := s1.env.now + t } }

/-- The recovery delay of the handler, during which only hardware agents step (`20_memory.md` R121, `45_rearm_sequencer.md` R293). -/
def recoveryWait (s : State) : State := passTime Config.tRecovery (hw { s with seq := { s.seq with recoveryDelay := true } })

end Sys2Proof.Machine
end

