-- ==== Sys2Proof/Machine/Dma.lean ====
section
/-! DEFINITION. The DMA engine: `DMA.START`, `DMA.POLL`, `DMA.RESET`, `IRQ.REQ`, `IRQ.REL` (`44_dma_engine.md`). -/

namespace Sys2Proof.Machine

/-- Steps 2 to 8 of `DMA.START` on a valid direction (R250), the procedure that `SES.ARM` and the handler also call: the status
and the state. The value written to `CS` is exactly `EN | START_e` (R252). -/
def startBlock (d : Dir) (addr len : Word) (s : State) : Out (Status × State) :=
  if len = 0 then .next (.einval, s)
  else
    let (cs, s1) := regRead (.cs d) s
    let e := nextEngine (s1.dir d).chan.generation
    if hasBit cs (startMask e.other) || hasBit cs (startMask e) then .next (.ebusy, s1)
    else
      andThen (regWrite (.addr d e) addr s1) fun s2 =>
      andThen (regWrite (.cnt d e) len s2) fun s3 =>
      andThen (regWrite (.cs d) (Config.csEn ||| startMask e) s3) fun s4 =>
      .next (.ok, s4.modChan d (fun c => { c with generation := c.generation + 1 }))

/-- `DMA.START` (R250). -/
def execDmaStart (dir : Byte) (addr len : Word) (s : State) : Out State :=
  onDirection dir s fun d =>
    andThen (startBlock d addr len s) fun r => .next (finish 0 r.1 r.2)

/-- `DMA.POLL` on a valid direction (R255): the done bit of the sub-engine of the most recent successful start; 0 when nothing was
ever started, without a register access. -/
def pollDone (d : Dir) (s : State) : Bool × State :=
  if (s.dir d).chan.generation = 0 then (false, s)
  else
    let (cs, s1) := regRead (.cs d) s
    (hasBit cs (doneMask (nextEngine (s1.dir d).chan.generation).other), s1)

/-- `DMA.POLL` (R255). -/
def execDmaPoll (dir : Byte) (s : State) : Out State :=
  onDirection dir s fun d =>
    let (v, s1) := pollDone d s
    .next (finish (flagAt v 1) .ok s1)

/-- One direction of `DMA.RESET` (R257): `CS` first, so that no live register is written. -/
def resetDirection (d : Dir) (s : State) : Out State :=
  andThen (regWrite (.cs d) (Config.csDoneA ||| Config.csDoneB) s) fun s1 =>
  andThen (regWrite (.addr d .a) 0 s1) fun s2 =>
  andThen (regWrite (.cnt d .a) 0 s2) fun s3 =>
  andThen (regWrite (.addr d .b) 0 s3) fun s4 =>
  regWrite (.cnt d .b) 0 s4

/-- `DMA.RESET` (R257). -/
def execDmaReset (s : State) : Out State :=
  andThen (resetDirection .play s) fun s1 =>
  andThen (resetDirection .record s1) fun s2 =>
  andThen (regUpdate .ctrl0 (withThresholds s2.cfg) s2) fun s3 =>
  .next (finish 0 .ok s3)

/-- Bind line `(d,e)` and record it (R260). -/
def bindLine (d : Dir) (e : Eng) (s : State) : State :=
  (s.modChan d (Channel.setBound e true)).emit (.irqBind d e)

/-- Unbind line `(d,e)` and record it (R260, R261). -/
def unbindLine (d : Dir) (e : Eng) (s : State) : State :=
  (s.modChan d (Channel.setBound e false)).emit (.irqUnbind d e)

/-- `IRQ.REQ` (R260): A, then B; a refused line B unwinds A. -/
def execIrqReq (dir : Byte) (s : State) : Out State :=
  onDirection dir s fun d =>
    if (s.dir d).chan.boundA || (s.dir d).chan.boundB then raise .ebusy s
    else
      let (okA, s1) := drawBind s
      if okA then
        let (okB, s2) := drawBind (bindLine d .a s1)
        if okB then .next (finish 0 .ok (bindLine d .b s2)) else raise .eirq (unbindLine d .a s2)
      else raise .eirq s1

/-- Release one line if it is bound (R261). -/
def releaseLine (d : Dir) (e : Eng) (s : State) : State :=
  if (s.dir d).chan.bound e then unbindLine d e s else s

/-- `IRQ.REL` on a valid direction (R261), also called by `SES.STOP`. -/
def releaseLines (d : Dir) (s : State) : State := releaseLine d .b (releaseLine d .a s)

/-- `IRQ.REL` (R261). -/
def execIrqRel (dir : Byte) (s : State) : Out State :=
  onDirection dir s fun d => .next (finish 0 .ok (releaseLines d s))

end Sys2Proof.Machine
end

