-- ==== Sys2Proof/Machine/Rearm.lean ====
section
/-! DEFINITION. The re-arm sequencer: the completion interrupt handler, its delivery, the synthetic `IRQ.EVT`
(`45_rearm_sequencer.md`, `60_exceptions.md` R344 to R348), and waiting (`20_memory.md` R121). -/

namespace Sys2Proof.Machine

/-- The end of the active buffer, mathematical (`10_state.md` R76). -/
def Buffer.limit (b : Buffer) : Nat := b.start.toNat + b.size.toNat

/-- `wellformed(d)` (R294). -/
def wellFormedBuffer (x : Direction) : Bool :=
  x.chan.bufferRef && x.buf.size != 0 && x.buf.period != 0 && decide (x.buf.period.toNat ≤ x.buf.size.toNat) &&
    decide (x.buf.limit < Config.memSize) && decide (x.buf.start.toNat ≤ x.buf.current.toNat) &&
    decide (x.buf.current.toNat < x.buf.limit)

/-- `recover(d, x)` (R293): one sub-engine, not the device; the one place where register state changes without a register
write (`40_register_access.md` R173). -/
def recoverEngine (d : Dir) (x : Eng) (s : State) : State :=
  let s1 := (abandonBlock d x s).modEngine d x (fun g => { g with busy := false, done := false, addr := 0, cnt := 0 })
  recoveryWait (s1.setDir d { s1.dir d with oppStreak := 0 })

/-- Step 1 of the handler (R293): the locked-engine recovery path. `cs` is read once. Hardware agents may step between this read and
the effects that follow it without a register access, a recovery or the callback (`20_memory.md` R121 (a)). -/
def recoveryChecks (d : Dir) (e : Eng) (s : State) : State :=
  let (cs, s0) := regRead (.cs d) s
  let s1 := hw s0
  let s2 :=
    if (s1.dir d).lastServiced = some e then (recoverEngine d e s1).log (.repeatCompletion d e) else s1
  let s3 := s2.setDir d { s2.dir d with
    oppStreak := if hasBit cs (startMask e.other) then (s2.dir d).oppStreak + 1 else 0 }
  if s3.cfg.oppBusyLimit ≤ (s3.dir d).oppStreak then
    (recoverEngine d e.other s3).log (.stuckBusy d e.other)
  else s3

/-- `callback(d)` (R297): the per-period event, with the pointer after the advance or wrap. -/
def callback (d : Dir) (s : State) : State :=
  if (s.dir d).chan.cbValid then
    s.emit (.periodElapsed d (s.dir d).buf.ctx ((s.dir d).buf.current - (s.dir d).buf.start))
  else s

/-- `rearm(d, addr, len)` (R296): a refusal is logged and not retried. -/
def rearm (d : Dir) (addr len : Word) (s : State) : Out State :=
  andThen (startBlock d addr len s) fun r =>
    match r.1 with
    | .ok => .next r.2
    | st => .next (r.2.log (.rearmRefused d st))

/-- Steps 3 and 4 of the handler for a well-formed descriptor (R290, R295): advance, then within bounds, wrap, or end. -/
def advanceBuffer (d : Dir) (s : State) : Out State :=
  let b := (s.dir d).buf
  let cur := min (b.current.toNat + b.period.toNat) b.limit
  let s1 := s.modBuf d (fun b => { b with current := BitVec.ofNat 32 cur })
  if cur < b.limit then
    if (s.dir d).chan.running then
      rearm d (BitVec.ofNat 32 cur) (BitVec.ofNat 32 (min b.period.toNat (b.limit - cur))) (callback d s1)
    else .next s1
  else
    let s2 := s1.modBuf d (fun b => { b with loopCount := b.loopCount + 1 })
    if b.loop && (s.dir d).chan.running then
      rearm d b.start b.period (callback d (s2.modBuf d (fun b => { b with current := b.start })))
    else if (s.dir d).chan.running then .next (callback d s2)
    else .next s2

/-- Steps 2 to 4 of the handler (R290): a malformed descriptor is logged and the step aborted (R294). -/
def serviceBuffer (d : Dir) (s : State) : Out State :=
  if wellFormedBuffer (s.dir d) then advanceBuffer d s else .next (s.log (.malformedDescriptor d))

/-- `interrupt_handler(irq_id)` (R290). Step 5, the clear of the done bit, is the last register access and happens on the abort
path too (R298); the value written is exactly `EN | DONE_e`. -/
def handler (id : Word) (s : State) : Out State :=
  if 3 < id.toNat then .next (s.log (.unknownIrq id))
  else
    let d := irqDir id
    let e := irqEng id
    andThen (serviceBuffer d (recoveryChecks d e s)) fun s1 =>
    andThen (regWrite (.cs d) (Config.csEn ||| doneMask e) s1) fun s2 =>
    .next (s2.setDir d { s2.dir d with lastServiced := some e })

/-- Delivery of line `(d,e)`: enter interrupt context, run the handler to its end, leave (`60_exceptions.md` R346 to R348). -/
def deliver (d : Dir) (e : Eng) (s : State) : Out State :=
  andThen (handler (irqId d e) (enterInterrupt s)) fun s1 => .next (exitInterrupt s1)

/-- `IRQ.EVT` issued by the host: a synthetic completion event (R290, `30_encoding.md` R143). Delivery's conditions are not tested. It is
the host operation in progress should the handler wait (`10_state.md` R24). -/
def execIrqEvt (irq : Word) (s : State) : Out State :=
  andThen (handler irq (enterInterrupt { s with seq := ⟨some (.irqEvt irq), none, none, false⟩ })) fun s1 => .next (finish 0 .ok (exitInterrupt s1))

/-! ## Agents that can act while the host waits or is between operations -/

/-- An agent that can take the next step: a hardware agent, or the sequencer taking line `(d,e)`. -/
inductive Actor where
  | hardware (g : HwAgent)
  | line (d : Dir) (e : Eng)
  deriving DecidableEq, Repr

/-- The deliverable lines (`60_exceptions.md` R345). -/
def lineActors (s : State) : List Actor :=
  (if deliverable s .play .a then [.line .play .a] else []) ++
    (if deliverable s .play .b then [.line .play .b] else []) ++
    (if deliverable s .record .a then [.line .record .a] else []) ++
    (if deliverable s .record .b then [.line .record .b] else [])

/-- Every agent but the host whose step is enabled. -/
def actors (s : State) : List Actor := (hwAgents s).map .hardware ++ lineActors s

/-- The step of an agent. -/
def actorStep : Actor → State → Out State
  | .hardware g, s => .next (hwStep g s)
  | .line d e, s => deliver d e s

/-- `n` rounds of events at a wait point: in each, a free choice among the enabled agents or none (choice 0). -/
def waitRounds : Nat → State → Out State
  | 0, s => .next s
  | n + 1, s =>
    match actors s with
    | [] => .next s
    | agents =>
      let (k, s1) := drawPick s
      match k with
      | 0 => waitRounds n s1
      | j + 1 =>
        match agents[j]? with
        | some g => andThen (actorStep g s1) (waitRounds n)
        | none => waitRounds n s1

/-- What happens during a wait: any number of events, a free choice; nothing when no agent is enabled, since then none can
become so. -/
def waitEvents (s : State) : Out State :=
  match actors s with
  | [] => .next s
  | _ =>
    let (n, s1) := drawPick s
    waitRounds n s1

/-- `wait(t)` at a wait position of host operation `op` (`20_memory.md` R121, `10_state.md` R24): `seq` says where, other agents
step, `t` ms pass. A recovery delay of a handler delivered inside the wait is added to the `t` ms, not counted toward them: the spec
leaves this open (DESIGN CHOICE, notes/assumptions/4). -/
def waitAt (op : Instr) (g : Option Group) (pos : WaitPos) (t : Nat) (s : State) : Out State :=
  andThen (waitEvents { s with seq := ⟨some op, g, some pos, false⟩ }) fun s1 => .next (passTime t s1)

end Sys2Proof.Machine
end

