-- ==== Sys2Proof/Machine/ControlBus.lean ====
section
/-! DEFINITION. The control-bus driver: `L3.SEND` (`41_control_bus.md`). -/

namespace Sys2Proof.Machine

/-- Step 5 of `L3.SEND` (R180): `while i < POLL_MAX and RegRead(STATUS)[16] == 0: wait; i <- i + 1`. The first argument is
`POLL_MAX - i`. -/
def pollWriteDone (op : Instr) (g : Option Group) : Nat → Nat → State → Out State
  | 0, _, s => .next s
  | n + 1, i, s =>
    let (done, s1) := readWriteDone s
    if done then .next s1
    else andThen (waitAt op g (.l3Poll i) Config.tPoll s1) (pollWriteDone op g n (i + 1))

/-- Step 2 of `L3.SEND` (R180): clear the transaction registers, which launches a null frame on an operational bus (R189), and
settle. -/
def settleBus (op : Instr) (g : Option Group) (s : State) : Out State :=
  andThen (regWrite .l3addr 0 s) fun s1 =>
  andThen (regWrite .l3data 0 s1) fun s2 =>
  waitAt op g .l3Settle s2.cfg.tSettle s2

/-- Steps 3 and 4 of `L3.SEND` (R180): prime transaction tracking, then write the address and the data, which triggers. -/
def triggerSend (a b : Byte) (s : State) : Out State :=
  let (v, s1) := regRead .statclr s
  andThen (regWrite .statclr (v ||| Config.dts ||| Config.rdd) s1) fun s2 =>
  andThen (regWrite .l3addr (a.setWidth 32) s2) fun s3 =>
  regWrite .l3data (b.setWidth 32) s3

/-- Steps 6 to 8 of `L3.SEND` (R180): decide the timeout and log it, re-arm transaction tracking, release the lock. -/
def closeSend (a b : Byte) (s : State) : Out (Bool × State) :=
  let (done, s1) := readWriteDone s
  let s2 := if done then s1 else s1.log (.busTimeout a b)
  andThen (regWrite .statclr (Config.dts ||| Config.rdd) s2) fun s3 =>
  .next (!done, { s3 with l3 := { s3.l3 with lock := false } })

/-- The driver's procedure `L3.SEND(a, b) -> timed_out` (R180), run by host operation `op`, for group `g` of a sync. A held lock
leaves it without a step (R184). -/
def l3Send (op : Instr) (g : Option Group) (a b : Byte) (s : State) : Out (Bool × State) :=
  if s.inIrq then .refused .busSendInInterrupt
  else if s.l3.lock then .fault .waitsForBusLock
  else
    andThen (settleBus op g { s with l3 := { s.l3 with lock := true } }) fun s1 =>
    andThen (triggerSend a b s1) fun s2 =>
    andThen (pollWriteDone op g Config.pollMax 0 s2) fun s3 =>
    closeSend a b s3

/-- `L3.SEND` (R180): the host is told `OK` in every case (R181). -/
def execL3Send (addr data : Byte) (s : State) : Out State :=
  andThen (l3Send (.l3Send addr data) none addr data s) fun r => .next (finish 0 .ok r.2)

end Sys2Proof.Machine
end

