-- ==== Sys2Proof/Machine/Codec.lean ====
section
/-! DEFINITION. The codec register model (`42_codec_model.md`): open, close, sync, setters, getters, sample rate. -/

namespace Sys2Proof.Machine

/-- The group loop of `sync` (R215): send each group that is dirty at its turn; the answer says whether any send timed out. -/
def syncGroups (op : Instr) : List Group → State → Out (Bool × State)
  | [], s => .next (false, s)
  | g :: rest, s =>
    if s.mirror.isDirty g then
      andThen (l3Send op (some g) (addrOf s.cfg g) (dataOf s.cfg s.mirror g) s) fun r =>
      andThen (syncGroups op rest r.2) fun q => .next (r.1 || q.1, q.2)
    else syncGroups op rest s

/-- The order in which sync visits the groups (R202). -/
def groupOrder : List Group := [.status, .volume, .tone, .filter, .power]

/-- `sync()` (R215): the dirty bits are cleared together at the end when no send timed out; otherwise none is changed. -/
def sync (op : Instr) (s : State) : Out State :=
  andThen (syncGroups op groupOrder s) fun r =>
    if r.1 then .next r.2 else .next { r.2 with mirror := { r.2.mirror with dirty := 0 } }

/-- The shape of every mirror operation: refused in interrupt context, change the mirror, sync, answer 0 and `OK`. -/
def changeMirror (op : Instr) (f : Params → Mirror → Mirror) (s : State) : Out State :=
  inNormalContext s fun s =>
    andThen (sync op { s with mirror := f s.cfg s.mirror }) fun s1 => .next (finish 0 .ok s1)

/-- The mirror after `CODEC.OPEN`'s reset to default values (R203): everything dirty, the rate kept. -/
def openedMirror (p : Params) (m : Mirror) : Mirror where
  status := withSc (p.statusFmt.setWidth 8) (snapRow p Config.defaultRate).sc
  volume := BitVec.ofNat 8 (63 - p.volDefault) &&& 0x3F
  tone := 0x00
  filterMute := 0x00
  power := p.pwrOn
  dirty := 0b11111
  rate := m.rate

/-- `CODEC.OPEN` (R203). -/
def execCodecOpen (s : State) : Out State := changeMirror .codecOpen openedMirror s

/-- `CODEC.CLOSE` (R204). -/
def execCodecClose (s : State) : Out State :=
  changeMirror .codecClose (fun p m => Mirror.mark .power { m with power := p.pwrOff }) s

/-- `CODEC.SYNC` (R215). -/
def execCodecSync (s : State) : Out State := changeMirror .codecSync (fun _ m => m) s

/-- The mirror after `SET.VOL` (R205): stored inverted, 0 = loudest. -/
def volumeMirror (val : Word) (m : Mirror) : Mirror :=
  Mirror.mark .volume { m with volume := BitVec.ofNat 8 (63 - clampSigned val 63) &&& 0x3F }

/-- `SET.VOL` (R205). -/
def execSetVol (val : Word) (s : State) : Out State := changeMirror (.setVol val) (fun _ => volumeMirror val) s

/-- The mirror after `SET.BASS` (R206): treble bits are kept. -/
def bassMirror (val : Word) (m : Mirror) : Mirror :=
  Mirror.mark .tone { m with tone := (m.tone &&& 0x03) ||| (BitVec.ofNat 8 (clampSigned val 15) <<< 2) }

/-- `SET.BASS` (R206). -/
def execSetBass (val : Word) (s : State) : Out State := changeMirror (.setBass val) (fun _ => bassMirror val) s

/-- The mirror after `SET.TREB` (R207): bass bits are kept. -/
def trebleMirror (val : Word) (m : Mirror) : Mirror :=
  Mirror.mark .tone { m with tone := (m.tone &&& 0x3C) ||| BitVec.ofNat 8 (clampSigned val 3) }

/-- `SET.TREB` (R207). -/
def execSetTreb (val : Word) (s : State) : Out State := changeMirror (.setTreb val) (fun _ => trebleMirror val) s

/-- The mirror after `SET.MUTE` (R208): `MODE` and `DE` are kept. -/
def muteMirror (val : Word) (m : Mirror) : Mirror :=
  Mirror.mark .filter { m with filterMute := (m.filterMute &&& 0x1B) ||| (BitVec.ofNat 8 (clampSigned val 1) <<< 2) }

/-- `SET.MUTE` (R208). -/
def execSetMute (val : Word) (s : State) : Out State := changeMirror (.setMute val) (fun _ => muteMirror val) s

/-- The mirror after `SET.FILT` (R209): `MT` and `DE` are kept. -/
def filterMirror (val : Word) (m : Mirror) : Mirror :=
  Mirror.mark .filter { m with filterMute := (m.filterMute &&& 0x1C) ||| BitVec.ofNat 8 (clampSigned val 3) }

/-- `SET.FILT` (R209). -/
def execSetFilt (val : Word) (s : State) : Out State := changeMirror (.setFilt val) (fun _ => filterMirror val) s

/-- `GET.VOL` (R210): `63 - volume_byte[5:0]`. Getters read the mirror only and may run in either context. -/
def execGetVol (s : State) : Out State := .next (finish (63 - (s.mirror.volume.extractLsb' 0 6).setWidth 32) .ok s)

/-- `GET.BASS` (R211): `tone_byte[5:2]`. -/
def execGetBass (s : State) : Out State := .next (finish ((s.mirror.tone.extractLsb' 2 4).setWidth 32) .ok s)

/-- `GET.TREB` (R212): `tone_byte[1:0]`. -/
def execGetTreb (s : State) : Out State := .next (finish ((s.mirror.tone.extractLsb' 0 2).setWidth 32) .ok s)

/-- `GET.MUTE` (R213): `filter_mute_byte[2]`. -/
def execGetMute (s : State) : Out State := .next (finish ((s.mirror.filterMute.extractLsb' 2 1).setWidth 32) .ok s)

/-- `GET.FILT` (R214): `filter_mute_byte[1:0]`. -/
def execGetFilt (s : State) : Out State := .next (finish ((s.mirror.filterMute.extractLsb' 0 2).setWidth 32) .ok s)

/-- The procedure `CODEC.SETRATE(rate) -> r` (R217), run by host operation `op` (itself or `CTRL.INIT`). -/
def setRate (op : Instr) (rate : Word) (s : State) : Out (Word × State) :=
  let row := snapRow s.cfg rate
  let s1 := { s with mirror := { s.mirror with status := withSc s.mirror.status row.sc } }
  andThen (regWrite .pauddiv (row.div.setWidth 32) s1) fun s2 =>
  andThen (sync op { s2 with mirror := Mirror.mark .status { s2.mirror with rate := row.rate } }) fun s3 =>
  .next (row.rate, s3)

/-- `CODEC.SETRATE` (R217): the rate selected is the result. -/
def execCodecSetrate (rate : Word) (s : State) : Out State :=
  inNormalContext s fun s =>
    andThen (setRate (.codecSetrate rate) rate s) fun r => .next (finish r.1 .ok r.2)

end Sys2Proof.Machine
end

