-- ==== Sys2Proof/Machine/CtrlInit.lean ====
section
/-! DEFINITION. Controller init/reset: `CTRL.INIT` (`43_controller_init.md` R240). -/

namespace Sys2Proof.Machine

/-- Steps 1 to 3 (R240): amplifier lines, serial audio mode, clock gates. -/
def initSideband (s : State) : Out State :=
  andThen (regUpdate .pgpio (fun g => g ||| (Config.spkAmp ||| Config.micAmp)) s) fun s1 =>
  andThen (regUpdate .pctrl (fun p => p &&& ~~~Config.acSel) (s1.emit (.amp true true))) fun s2 =>
  regUpdate .pclk (fun k => k ||| (Config.i2sClkEn ||| Config.l3ClkEn)) s2

/-- Steps 4a to 5 (R240): reset pulse held for `T_RESET`, thresholds, control-bus interface. -/
def initController (op : Instr) (s : State) : Out State :=
  andThen (regUpdate .ctrl0 (fun c => c ||| (Config.enb ||| Config.rst)) s) fun s1 =>
  andThen (waitAt op none .initResetHold Config.tReset s1) fun s2 =>
  andThen (regUpdate .ctrl0 (fun c => c &&& ~~~Config.rst) s2) fun s3 =>
  andThen (regUpdate .ctrl0 (withThresholds s3.cfg) s3) fun s4 =>
  regUpdate .ctrl1 (fun m => m ||| Config.l3en) s4

/-- `CTRL.INIT` (R240). -/
def execCtrlInit (s : State) : Out State :=
  inNormalContext s fun s =>
    andThen (initSideband s) fun s1 =>
    andThen (initController .ctrlInit s1) fun s2 =>
    andThen (setRate .ctrlInit Config.defaultRate s2) fun r =>
    .next (finish 0 .ok r.2)

end Sys2Proof.Machine
end

