-- ==== Sys2Proof/Machine/RegAccess.lean ====
section
/-! DEFINITION. Register access: `REG.WR`, `REG.RD` (`40_register_access.md`). -/

namespace Sys2Proof.Machine

/-- The two amplifier lines are outputs: a host write that changes them is an `Amp` event (`10_state.md` R65, R96;
notes/assumptions/9). -/
def noteAmp (old : Word) (s : State) : State :=
  if s.regs.pgpio = old then s
  else s.emit (.amp (hasBit s.regs.pgpio Config.spkAmp) (hasBit s.regs.pgpio Config.micAmp))

/-- `REG.WR` (R170): an unmapped or misaligned offset is a `BusFault` (R172). -/
def execRegWr (rgn : Byte) (off val : Word) (s : State) : Out State :=
  match regAt rgn off with
  | none => .fault (.busFault rgn off)
  | some r => andThen (regWrite r val s) fun s1 => .next (finish 0 .ok (noteAmp s.regs.pgpio s1))

/-- `REG.RD` (R171): no side effects; an unmapped or misaligned offset is a `BusFault` (R172). -/
def execRegRd (rgn : Byte) (off : Word) (s : State) : Out State :=
  match regAt rgn off with
  | none => .fault (.busFault rgn off)
  | some r =>
    let (v, s1) := regRead r s
    .next (finish v .ok s1)

end Sys2Proof.Machine
end

