-- ==== Sys2Proof/Machine/Session.lean ====
section
/-! DEFINITION. The streaming session: `CH.OPEN`, `CH.CLOSE`, `SES.ARM`, `SES.STOP`, `SES.POS` (`46_streaming_session.md`), and
the session phase. -/

namespace Sys2Proof.Machine

/-- `CH.OPEN` (R310): software state only. -/
def execChOpen (dir : Byte) (s : State) : Out State :=
  onDirection dir s fun d =>
    if (s.dir d).chan.inUse then raise .ebusy s
    else
      .next (finish 0 .ok (s.setDir d { s.dir d with
        chan := { (s.dir d).chan with inUse := true, running := false, generation := 0, bufferRef := false, cbValid := false }
        lastServiced := none
        oppStreak := 0 }))

/-- `CH.CLOSE` (R311). -/
def execChClose (dir : Byte) (s : State) : Out State :=
  onDirection dir s fun d =>
    if (s.dir d).chan.running then raise .ebusy s
    else .next (finish 0 .ok (s.modChan d (fun c => { c with inUse := false })))

/-- Step 3 of `SES.ARM` (R312): the geometry is acceptable. -/
def geometryOk (start size period : Word) : Bool :=
  size != 0 && period != 0 && decide (period.toNat ≤ size.toNat) &&
    decide (start.toNat + size.toNat < Config.memSize)

/-- `SES.ARM` (R312): checks in the order direction, running, geometry; a refused first start is rolled back and its status
returned. -/
def execSesArm (dir : Byte) (loop : Bool) (start size period ctx : Word) (s : State) : Out State :=
  onDirection dir s fun d =>
    if (s.dir d).chan.running then raise .ebusy s
    else if geometryOk start size period then
      let s1 := s.setDir d { s.dir d with
        buf := ⟨size, start, start, period, loop, 0, ctx⟩
        chan := { (s.dir d).chan with bufferRef := true, cbValid := true, running := true } }
      andThen (startBlock d start period s1) fun r =>
        match r.1 with
        | .ok => .next (finish 0 .ok r.2)
        | st => raise st (r.2.modChan d (fun c => { c with running := false, bufferRef := false, cbValid := false }))
    else raise .einval s

/-- Step 3 of `SES.STOP` (R313): `while i < STOP_POLL_MAX and DMA.POLL(d) == 0: wait; i <- i + 1`. The first argument is
`STOP_POLL_MAX - i`. -/
def stopPolls (op : Instr) (d : Dir) : Nat → Nat → State → Out State
  | 0, _, s => .next s
  | n + 1, i, s =>
    let (done, s1) := pollDone d s
    if done then .next s1
    else andThen (waitAt op none (.stopPoll i) s1.cfg.tStopPoll s1) (stopPolls op d n (i + 1))

/-- `SES.STOP` (R313): it never aborts a block in flight. Between its last register access and its `IrqUnbind` events no hardware agent
steps: the spec leaves that order open (DESIGN CHOICE, notes/assumptions/3). -/
def execSesStop (dir : Byte) (s : State) : Out State :=
  onDirection dir s fun d =>
    andThen (stopPolls (.sesStop dir) d s.cfg.stopPollMax 0 (s.modChan d (fun c => { c with running := false }))) fun s1 =>
    let s2 := (releaseLines d s1).modChan d (fun c => { c with bufferRef := false, cbValid := false })
    .next (finish 0 .ok (s2.modBuf d (fun b => { b with current := b.start })))

/-- `SES.POS` (R314): 0 without a session. -/
def execSesPos (dir : Byte) (s : State) : Out State :=
  onDirection dir s fun d =>
    .next (finish (if (s.dir d).chan.bufferRef then (s.dir d).buf.current - (s.dir d).buf.start else 0) .ok s)

/-- Phases of a session (`10_state.md` R78). -/
inductive Phase where
  | idle | armed | running | looping | stopped
  deriving DecidableEq, Repr

/-- The phase of a direction, a function of stored state (`10_state.md` R78); `none` for stored state the rule gives no phase. -/
def phase (x : Direction) : Option Phase :=
  if !x.chan.running then some .idle
  else if x.buf.loop && x.buf.loopCount != 0 then some .looping
  else if !x.buf.loop && decide (x.buf.current.toNat = x.buf.limit) then some .stopped
  else if x.buf.loopCount = 0 && x.buf.current = x.buf.start then some .armed
  else if x.buf.loopCount = 0 && decide (x.buf.start.toNat < x.buf.current.toNat) &&
      decide (x.buf.current.toNat < x.buf.limit) then some .running
  else none

end Sys2Proof.Machine
end

