-- ==== Sys2Proof/Machine/Dispatch.lean ====
section
/-! DEFINITION. One arm per operation of `30_encoding.md` R142, each a direct call of its meaning. -/

namespace Sys2Proof.Machine

def exec (i : Instr) (s : State) : Host.Outcome State Fault Refusal :=
  match i with
  | .regWr rgn off val => Sys2Proof.Machine.execRegWr rgn off val s
  | .regRd rgn off => Sys2Proof.Machine.execRegRd rgn off s
  | .l3Send addr data => Sys2Proof.Machine.execL3Send addr data s
  | .codecOpen => Sys2Proof.Machine.execCodecOpen s
  | .codecClose => Sys2Proof.Machine.execCodecClose s
  | .codecSync => Sys2Proof.Machine.execCodecSync s
  | .codecSetrate rate => Sys2Proof.Machine.execCodecSetrate rate s
  | .setVol val => Sys2Proof.Machine.execSetVol val s
  | .setBass val => Sys2Proof.Machine.execSetBass val s
  | .setTreb val => Sys2Proof.Machine.execSetTreb val s
  | .setMute val => Sys2Proof.Machine.execSetMute val s
  | .setFilt val => Sys2Proof.Machine.execSetFilt val s
  | .getVol => Sys2Proof.Machine.execGetVol s
  | .getBass => Sys2Proof.Machine.execGetBass s
  | .getTreb => Sys2Proof.Machine.execGetTreb s
  | .getMute => Sys2Proof.Machine.execGetMute s
  | .getFilt => Sys2Proof.Machine.execGetFilt s
  | .ctrlInit => Sys2Proof.Machine.execCtrlInit s
  | .dmaStart dir addr len => Sys2Proof.Machine.execDmaStart dir addr len s
  | .dmaPoll dir => Sys2Proof.Machine.execDmaPoll dir s
  | .dmaReset => Sys2Proof.Machine.execDmaReset s
  | .irqReq dir => Sys2Proof.Machine.execIrqReq dir s
  | .irqRel dir => Sys2Proof.Machine.execIrqRel dir s
  | .irqEvt irq => Sys2Proof.Machine.execIrqEvt irq s
  | .chOpen dir => Sys2Proof.Machine.execChOpen dir s
  | .chClose dir => Sys2Proof.Machine.execChClose dir s
  | .sesArm dir loop start size period ctx => Sys2Proof.Machine.execSesArm dir loop start size period ctx s
  | .sesStop dir => Sys2Proof.Machine.execSesStop dir s
  | .sesPos dir => Sys2Proof.Machine.execSesPos dir s

end Sys2Proof.Machine
end

