-- ==== Sys2Proof/Machine/HostPort.lean ====
section
/-! DEFINITION. The host's side of the command port (`10_state.md` R20, R21) and the choice of which agent takes the next step
between operations (`20_memory.md` R121, `60_exceptions.md` R345). What an operation does is a parameter here, so that the step
can be put together after the dispatcher. -/

namespace Sys2Proof.Machine

/-- The host issues an operation: it writes `x[1..4]`, then `x[0]` (R21). -/
def issuePacket (p : Packet) (s : State) : State :=
  { s with port := { s.port with opw := p.opw, a := p.a, b := p.b, c := p.c, d := p.d, pending := true } }

/-- The packet in the command port. -/
def portPacket (s : State) : Packet := ⟨s.port.opw, s.port.a, s.port.b, s.port.c, s.port.d⟩

/-- Carry out the issued packet: an illegal one completes at once with `EILLEGAL` and changes no other state
(`30_encoding.md` R145). -/
def runPacket (run : Instr → State → Out State) (s : State) : Out State :=
  match decode (portPacket s) with
  | .ok i => run i s
  | .error _ => raise .eillegal s

/-- The host's next action when nothing is issued; with none, 1 ms passes (`70_reset_and_hazards.md` R376; notes/assumptions/4, 6). -/
def hostAction (s : State) : State :=
  match s.env.host with
  | [] => passTime 1 s
  | .issue p :: r => issuePacket p { s with env := { s.env with host := r } }
  | .store a v :: r => hostStore a.toNat v { s with env := { s.env with host := r } }
  | .load a :: r =>
    let (b, s1) := hostLoad a.toNat { s with env := { s.env with host := r } }
    { s1 with env := { s1.env with seen := s1.env.seen ++ [b] } }
  | .idle :: r => passTime 1 { s with env := { s.env with host := r } }

/-- The host's turn: an issued operation runs; the host issues none while one is in progress (U26, `60_exceptions.md` R355). The
host's own loads and stores of host memory fall between its operations, never at a wait inside one: the spec leaves this open, and it
is the model's choice (DESIGN CHOICE, notes/assumptions/27). -/
def hostTurn (run : Instr → State → Out State) (s : State) : Out State :=
  if s.port.pending then
    if s.seq = Seq.idle then runPacket run s else .refused .overlappingOperation
  else .next (hostAction s)

/-- A free choice between the host (`none`, drawn as 0) and the other enabled agents; nothing is drawn when there are none
(notes/assumptions/3). -/
def choose (s : State) : Option Actor × State :=
  match actors s with
  | [] => (none, s)
  | agents =>
    let (k, s1) := drawPick s
    match k with
    | 0 => (none, s1)
    | j + 1 => (agents[j]?, s1)

/-- One step of the machine: a step of the chosen agent. An instance with `CHIP_ADDR` = 0 is refused (`41_control_bus.md` R189; U9). -/
def turn (run : Instr → State → Out State) (s : State) : Out State :=
  if s.cfg.chipAddr = 0 then .refused .chipAddressZero
  else
    let (g, s1) := choose s
    match g with
    | some g => actorStep g s1
    | none => hostTurn run s1

/-- The packet issued, and the next free choice answered "the host", so that the very next step runs it. -/
def placePacket (p : Packet) (s : State) : State :=
  let s1 := issuePacket p s
  match actors s with
  | [] => s1
  | _ => s1.setScript { s1.env.script with picks := 0 :: s1.env.script.picks }

end Sys2Proof.Machine
end

