-- ==== Sys2Proof/Machine/Step.lean ====
section
/-! DEFINITION. The machine's step, and how a packet comes to be the next thing the machine runs. -/

namespace Sys2Proof.Machine

/-- One step: an agent's (`00_scope.md` R10). The host's step runs the issued operation from its first step to its end. -/
def step (s : State) : Host.Outcome State Fault Refusal := turn exec s

/-- The packet whose bits are `w` issued on the command port, as the host's write of `x[0]` does (`10_state.md` R21). -/
def State.withFetchWord (s : State) (nbits w : Nat) : State := placePacket (packetOfBits nbits w) s

end Sys2Proof.Machine
end

