-- ==== Sys2Proof/Safety.lean ====
section
/-! DEFINITION. The words in which claims are stated: when no other agent can act, what the other agents leave alone, when a
control-bus send can run to its end, and the invariants of the machine. -/

namespace Sys2Proof.Machine

/-! ## Who can act -/

/-- No hardware agent is enabled. -/
def HwQuiet (s : State) : Prop := hwAgents s = []

/-- No agent but the host is enabled: nothing in progress can move and no interrupt is deliverable. -/
def Quiet (s : State) : Prop := actors s = []

/-- No sub-engine can complete a block and no interrupt is deliverable; a frame may be in progress. -/
def DmaStill (s : State) : Prop :=
  engineEnabled s .play = false ∧ engineEnabled s .record = false ∧ lineActors s = []

/-- No capture block is in flight and no record line is bound: nothing but the host can change host memory. -/
def RecordStill (s : State) : Prop := (∀ e, (s.engine .record e).busy = false) ∧ ∀ e, s.record.chan.bound e = false

/-- The geometry of a buffer keeps every block of its session startable (`10_state.md` R60, `45_rearm_sequencer.md` R301). -/
def AlignedBuffer (p : Params) (b : Buffer) : Prop :=
  p.dmaAlign ∣ b.start.toNat ∧ p.dmaAlign ∣ b.current.toNat ∧ p.dmaAlign ∣ b.period.toNat ∧ p.dmaAlign ∣ b.size.toNat ∧
    b.period.toNat ≤ p.maxDmaLen

/-- Every running session has aligned geometry, so that no re-arm starts a block the hardware gives no meaning
(`45_rearm_sequencer.md` R296). -/
def StreamsOk (s : State) : Prop := ∀ d, (s.dir d).chan.running = true → AlignedBuffer s.cfg (s.dir d).buf

/-- A block the hardware gives a meaning (`10_state.md` R60). -/
def BlockOk (p : Params) (addr len : Word) : Prop :=
  len ≠ 0 ∧ len.toNat ≤ p.maxDmaLen ∧ addr.toNat + len.toNat ≤ Config.memSize ∧ p.dmaAlign ∣ addr.toNat ∧ p.dmaAlign ∣ len.toNat

/-- A control-bus send can run: normal context, lock free, no frame in progress, a codec address, a settle delay that outlasts
the null frame (`41_control_bus.md` R183, R184, R185, R188, R189), and streams whose completion handling has a meaning. -/
structure BusReady (s : State) : Prop where
  normal : s.inIrq = false
  lock : s.l3.lock = false
  frame : s.l3.busy = false
  chip : s.cfg.chipAddr ≠ 0
  settle : 1 ≤ s.cfg.tSettle
  streams : StreamsOk s

/-- Premise `L3_RELIABLE` for the next `n` frames (`41_control_bus.md` R186). -/
def L3Reliable (n : Nat) (s : State) : Prop := s.env.script.delivered.take n = List.replicate n true

/-! ## What the other agents do to the bus -/

/-- Nothing happened on the control bus. -/
def BusStill (s t : State) : Prop :=
  t.l3 = s.l3 ∧ t.regs = s.regs ∧ t.codec = s.codec ∧ t.env.script.delivered = s.env.script.delivered

/-- The environment's answer to the delivery of a frame was `b`. -/
def AnswersDelivery (s t : State) (b : Bool) : Prop :=
  match s.env.script.delivered with
  | [] => t.env.script.delivered = []
  | v :: r => b = v ∧ t.env.script.delivered = r

/-- The frame in progress ended (`41_control_bus.md` R186). -/
def FrameEnded (s t : State) : Prop :=
  s.l3.busy = true ∧ t.l3 = { s.l3 with busy := false } ∧ ∃ b : Bool, AnswersDelivery s t b ∧
    t.regs = { s.regs with l3wd := s.regs.l3wd || b } ∧
    t.codec = if b then codecReceive s.cfg s.l3.frameAddr s.l3.frameData s.codec else s.codec

/-! ## What the other agents leave alone -/

/-- What hardware agents, and an abandonment, leave alone, and the one way each thing they change moves. -/
structure HwFrame (s t : State) : Prop where
  port : t.port = s.port
  seq : t.seq = s.seq
  mirror : t.mirror = s.mirror
  inIrq : t.inIrq = s.inIrq
  cfg : t.cfg = s.cfg
  errlog : t.errlog = s.errlog
  bus : BusStill s t ∨ FrameEnded s t
  now : t.env.now = s.env.now
  rstSince : t.env.rstSince = s.env.rstSince
  host : t.env.host = s.env.host
  trace : ∃ l, t.trace = s.trace ++ l
  chan : ∀ d, (t.dir d).chan = (s.dir d).chan
  buf : ∀ d, (t.dir d).buf = (s.dir d).buf
  lastServiced : ∀ d, (t.dir d).lastServiced = (s.dir d).lastServiced
  oppStreak : ∀ d, (t.dir d).oppStreak = (s.dir d).oppStreak
  en : ∀ d, (t.dir d).hw.en = (s.dir d).hw.en
  addr : ∀ d e, (t.engine d e).addr = (s.engine d e).addr
  cnt : ∀ d e, (t.engine d e).cnt = (s.engine d e).cnt
  busy : ∀ d e, (t.engine d e).busy = true → (s.engine d e).busy = true
  done : ∀ d e, (s.engine d e).done = true → (t.engine d e).done = true

/-- What they do to host memory: only bytes of capture blocks in flight change, and the canonical form is kept. -/
structure MemFrame (s t : State) : Prop where
  read : ∀ a, captureCovers s a = false → Memory.read t.mem a = Memory.read s.mem a
  wf : Memory.wf s.mem = true → Memory.wf t.mem = true
  still : RecordStill s → t.mem = s.mem

/-- `t` is `s` after hardware agents may have moved: nothing else changed, and nothing at all if none was enabled. -/
def HardwareMoved (s t : State) : Prop := HwFrame s t ∧ MemFrame s t ∧ (HwQuiet s → t = s)

/-- The event of a transfer by sub-engine `(d,e)` (`44_dma_engine.md` R271, R274). -/
def transferEvent (d : Dir) (e : Eng) (addr : Word) (bytes : List Byte) : Event :=
  match d with
  | .play => .audioOut e addr bytes
  | .record => .audioIn e addr bytes

/-- No block in flight in `s` has been aborted by `t`: it is in flight still, or the trace shows all of it moved, or the error log
shows that the handler recovered its sub-engine (`46_streaming_session.md` R313, `45_rearm_sequencer.md` R293). -/
def NoneAborted (s t : State) : Prop := ∀ d e, (s.engine d e).busy = true →
  ((t.engine d e).busy = true ∧ (t.engine d e).addr = (s.engine d e).addr ∧ (t.engine d e).cnt = (s.engine d e).cnt) ∨
  (∃ bytes, bytes.length = (s.engine d e).cnt.toNat ∧
    transferEvent d e (s.engine d e).addr bytes ∈ t.trace.drop s.trace.length) ∨
  LogRecord.repeatCompletion d e ∈ t.errlog.drop s.errlog.length ∨ LogRecord.stuckBusy d e ∈ t.errlog.drop s.errlog.length

/-- What `DMA.RESET` leaves of the control bus, its write of `CTRL0` keeping `RST` (`44_dma_engine.md` R257, `41_control_bus.md`
R187): what the hardware agents left, and, where `RST` is 1, the flags clear and a frame in progress lost. -/
def BusAfterReset (s t : State) : Prop := ∃ u, (BusStill s u ∨ FrameEnded s u) ∧
  t.codec = u.codec ∧ t.env.script.delivered = u.env.script.delivered ∧
  if s.regs.ctrl0.getLsbD 3 then
    t.l3 = { u.l3 with busy := false } ∧ t.regs.l3wd = false ∧ t.regs.l3rd = false ∧
      (u.l3.busy = true → Event.frameLost u.l3.frameAddr u.l3.frameData ∈ t.trace.drop s.trace.length)
  else t.l3 = u.l3 ∧ t.regs.l3wd = u.regs.l3wd ∧ t.regs.l3rd = u.regs.l3rd

/-- A record of the error log says that a send timed out. -/
def LogRecord.isTimeout : LogRecord → Bool
  | .busTimeout _ _ => true
  | .malformedDescriptor _ => false
  | .repeatCompletion _ _ => false
  | .stuckBusy _ _ => false
  | .unknownIrq _ => false
  | .rearmRefused _ _ => false

/-- What hardware agents, the completion handler and the passing of time leave alone (`60_exceptions.md` R346: nothing of the
host's is saved or changed), and which way the rest moves. -/
structure CtxFrame (s t : State) : Prop where
  port : t.port = s.port
  seq : t.seq = { s.seq with recoveryDelay := t.seq.recoveryDelay }
  mirror : t.mirror = s.mirror
  inIrq : t.inIrq = s.inIrq
  cfg : t.cfg = s.cfg
  bus : BusStill s t ∨ FrameEnded s t
  now : s.env.now ≤ t.env.now
  rstSince : t.env.rstSince = s.env.rstSince
  host : t.env.host = s.env.host
  trace : ∃ l, t.trace = s.trace ++ l
  errlog : ∃ l, t.errlog = s.errlog ++ l ∧ l.filter LogRecord.isTimeout = []
  chan : ∀ d, (t.dir d).chan = { (s.dir d).chan with generation := (t.dir d).chan.generation }
  buf : ∀ d, (t.dir d).buf =
    { (s.dir d).buf with current := (t.dir d).buf.current, loopCount := (t.dir d).buf.loopCount }
  streams : StreamsOk s → StreamsOk t

/-- Host memory changes only where a capture block is in flight or can be started by a completion. -/
def MemStill (s t : State) : Prop := RecordStill s → RecordStill t ∧ t.mem = s.mem

/-- What a control-bus send of `(a, b)` that ended with `timedOut` leaves: the two transaction registers written, transaction
tracking clear, the lock free, one `BusTimeout` if it timed out; the rest as the other agents left it (`41_control_bus.md`
R180). -/
structure SendFrame (a b : Byte) (timedOut : Bool) (s t : State) : Prop where
  port : t.port = s.port
  mirror : t.mirror = s.mirror
  inIrq : t.inIrq = s.inIrq
  cfg : t.cfg = s.cfg
  lock : t.l3.lock = false
  frame : t.l3.busy = false
  regs : t.regs = { s.regs with l3addr := a, l3data := b, l3wd := false, l3rd := false }
  now : s.env.now + s.cfg.tSettle ≤ t.env.now
  rstSince : t.env.rstSince = s.env.rstSince
  host : t.env.host = s.env.host
  trace : ∃ l, t.trace = s.trace ++ l
  errlog : ∃ l, t.errlog = s.errlog ++ l ∧
    l.filter LogRecord.isTimeout = if timedOut then [.busTimeout a b] else []
  chan : ∀ d, (t.dir d).chan = { (s.dir d).chan with generation := (t.dir d).chan.generation }
  buf : ∀ d, (t.dir d).buf =
    { (s.dir d).buf with current := (t.dir d).buf.current, loopCount := (t.dir d).buf.loopCount }
  streams : StreamsOk t
  memStill : MemStill s t
  dead : l3Operational s = false → timedOut = true ∧ t.codec = s.codec ∧
    t.env.script.delivered = s.env.script.delivered ∧ s.env.now + s.cfg.tSettle + Config.pollMax * Config.tPoll ≤ t.env.now
  answered : l3Operational s = true → ∀ v w r, s.env.script.delivered = v :: w :: r →
    timedOut = !w ∧ t.codec = (if w then codecReceive s.cfg a b s.codec else s.codec) ∧ t.env.script.delivered = r ∧
      (w = false → s.env.now + s.cfg.tSettle + Config.pollMax * Config.tPoll ≤ t.env.now)

/-- The groups a sync of mirror `m` sends, in the order of `42_codec_model.md` R202. -/
def dirtyGroups (m : Mirror) : List Group := groupOrder.filter m.isDirty

/-- The `BusTimeout` records appended between `s` and `t`. -/
def newTimeouts (s t : State) : List LogRecord := (t.errlog.drop s.errlog.length).filter LogRecord.isTimeout

/-- What a sync of mirror `m` started in `s` leaves (`42_codec_model.md` R215): the dirty bits cleared together if no send timed
out and kept otherwise, the transaction registers written, and the rest as the other agents left it; on a bus that is not
operational one timeout for each dirty group, on a reliable one every dirty group received in order. -/
structure SyncFrame (m : Mirror) (s t : State) : Prop where
  mirror : t.mirror = if newTimeouts s t = [] then { m with dirty := 0 } else m
  inIrq : t.inIrq = s.inIrq
  cfg : t.cfg = s.cfg
  lock : t.l3.lock = false
  frame : t.l3.busy = false
  regs : t.regs = { s.regs with
    l3addr := t.regs.l3addr, l3data := t.regs.l3data, l3wd := t.regs.l3wd, l3rd := t.regs.l3rd }
  now : s.env.now ≤ t.env.now
  rstSince : t.env.rstSince = s.env.rstSince
  host : t.env.host = s.env.host
  trace : ∃ l, t.trace = s.trace ++ l
  errlog : ∃ l, t.errlog = s.errlog ++ l
  chan : ∀ d, (t.dir d).chan = { (s.dir d).chan with generation := (t.dir d).chan.generation }
  buf : ∀ d, (t.dir d).buf =
    { (s.dir d).buf with current := (t.dir d).buf.current, loopCount := (t.dir d).buf.loopCount }
  streams : StreamsOk t
  memStill : MemStill s t
  dead : l3Operational s = false → t.codec = s.codec ∧
    newTimeouts s t = (dirtyGroups m).map fun g => .busTimeout (addrOf s.cfg g) (dataOf s.cfg m g)
  reliable : l3Operational s = true → L3Reliable (2 * (dirtyGroups m).length) s → newTimeouts s t = [] ∧
    t.codec = (dirtyGroups m).foldl (fun c g => codecReceive s.cfg (addrOf s.cfg g) (dataOf s.cfg m g) c) s.codec ∧
    t.env.script.delivered = s.env.script.delivered.drop (2 * (dirtyGroups m).length)

/-! ## How an operation ends -/

/-- `u` with the operation completed: `x[5]` is `res`, `x[6]` is the status number `st`, `seq` is `IDLE` (`10_state.md` R21, R24). -/
def answered (res st : Word) (u : State) : State :=
  { u with
    port := { u.port with res := res, sts := st, pending := false }
    seq := ⟨none, none, none, false⟩ }

/-- A setter's signed operand brought into `0 .. hi` (`00_scope.md` R7). -/
def clampTo (v : Word) (hi : Nat) : Nat := (max 0 (min v.toInt (hi : Int))).toNat

/-- The words of a packet that an operation of the format reads, the others 0 (`30_encoding.md` R141, R144). -/
def wordsRead : Format → Packet → Packet
  | .n, p => ⟨p.opw, 0, 0, 0, 0⟩
  | .v, p => ⟨p.opw, p.a, 0, 0, 0⟩
  | .l3, p => ⟨p.opw, p.a &&& 0xFF, p.b &&& 0xFF, 0, 0⟩
  | .rr, p => ⟨p.opw, p.a, 0, 0, 0⟩
  | .rw, p => ⟨p.opw, p.a, p.b, 0, 0⟩
  | .s, p => ⟨p.opw, 0, 0, 0, 0⟩
  | .st, p => ⟨p.opw, p.a, p.b, 0, 0⟩
  | .ar, p => p

/-! ## Registers -/

/-- Offset of `CS[d]` (`10_state.md` R40). -/
def csOff : Dir → Word
  | .play => 0x34
  | .record => 0x48

/-- Offset of `ADDR[d][e]`; `CNT[d][e]` is 4 above it (`10_state.md` R40). -/
def addrOff : Dir → Eng → Word
  | .play, .a => 0x38
  | .play, .b => 0x40
  | .record, .a => 0x4C
  | .record, .b => 0x54

/-- `SEL` of a direction (`30_encoding.md` R144). -/
def selDir : Dir → Byte
  | .play => 0
  | .record => 1

/-- The sub-engine the next start uses: A when the counter is even, B when odd (`10_state.md` R25). -/
def turnOf (x : Direction) : Eng := if x.chan.generation.toNat % 2 = 0 then .a else .b

/-- The address and count registers of sub-engine `(d,e)` hold the block `(addr, len)`. -/
def programmed (d : Dir) (e : Eng) (addr len : Word) (s : State) : State :=
  s.modEngine d e fun g => { g with addr := addr, cnt := len }

/-- Sub-engine `(d,e)` has been started on its block and the counter of starts advanced (`10_state.md` R57, `44_dma_engine.md`
R250 steps 7, 8). -/
def started (d : Dir) (e : Eng) (s : State) : State :=
  (s.modHw d fun h => { h.modEng e (fun g => { g with busy := true, raced := [] }) with
    en := true, active := h.active.or (some e) }).modChan d fun c => { c with generation := c.generation + 1 }

/-- The completion of sub-engine `(d,e)` has been serviced: its done bit cleared, the channel enabled, and recorded as last
serviced (`45_rearm_sequencer.md` R290 step 5, R298). -/
def serviced (d : Dir) (e : Eng) (s : State) : State :=
  s.setDir d { s.dir d with
    hw := { (s.dir d).hw.modEng e (fun g => { g with done := false }) with en := true }
    lastServiced := some e }

/-- The conditions of the handler's ordinary call for line `(d,e)`: no hardware agent enabled, the sub-engine was not the last one
serviced, and neither sub-engine of the direction is busy. -/
def OrdinaryCall (s : State) (d : Dir) (e : Eng) : Prop :=
  s.inIrq = false ∧ HwQuiet s ∧ (s.dir d).lastServiced ≠ some e ∧ 0 < s.cfg.oppBusyLimit ∧
    (s.engine d .a).busy = false ∧ (s.engine d .b).busy = false

/-- `opp_streak[d]` after the handler's test of the other sub-engine (`45_rearm_sequencer.md` R293). -/
def streakAfter (s : State) (d : Dir) (e : Eng) : Nat := if (s.engine d e.other).busy then (s.dir d).oppStreak + 1 else 0

/-- The conditions of a call of the handler for line `(d,e)` that recovers nothing, with no hardware agent enabled: the sub-engine was
not the last one serviced, and the streak stays below its limit, whichever sub-engine is busy. -/
def QuietCall (s : State) (d : Dir) (e : Eng) : Prop :=
  s.inIrq = false ∧ HwQuiet s ∧ (s.dir d).lastServiced ≠ some e ∧ streakAfter s d e < s.cfg.oppBusyLimit

/-- `s` with host operation `i` in the handler (`10_state.md` R24, `45_rearm_sequencer.md` R290, host form). -/
def interrupted (i : Instr) (s : State) : State := { s with inIrq := true, seq := ⟨some i, none, none, false⟩ }

/-- The end `out` of a synthetic event for line `(d,e)` whose handler re-arms with a block that is not empty, its read of `CS` leaving
`v`: refused while a sub-engine of the direction is busy, the refusal logged and nothing programmed or started; else the block
programmed and started on the sub-engine whose turn it is, or the fault of a block the hardware gives no meaning
(`45_rearm_sequencer.md` R296, R298). -/
def RearmOutcome (d : Dir) (e : Eng) (addr len : Word) (v : State) (out : Out State) : Prop :=
  (((v.engine d .a).busy = true ∨ (v.engine d .b).busy = true) →
    ∃ w, HardwareMoved (v.log (.rearmRefused d .ebusy)) w ∧
      out = .next (answered 0 0 { serviced d e w with inIrq := false })) ∧
  ((v.engine d .a).busy = false → (v.engine d .b).busy = false →
    (BlockOk v.cfg addr len → ∃ w x, HardwareMoved (programmed d (turnOf (v.dir d)) addr len v) w ∧
      HardwareMoved (started d (turnOf (v.dir d)) w) x ∧
      out = .next (answered 0 0 { serviced d e x with inIrq := false })) ∧
    (¬ BlockOk v.cfg addr len → out = .fault (.reserved .notStartable)))

/-! ## Runs and fairness (`20_memory.md` R127, `60_exceptions.md` R345; notes/assumptions/3) -/

/-- `r` is a run: each state is the step of the one before. -/
def IsRun (r : Nat → State) : Prop := ∀ n, step (r n) = .next (r (n + 1))

/-- The event is one that the agent's step puts on the output trace (`10_state.md` R96). -/
def HwAgent.emits : HwAgent → Event → Bool
  | .serialiser, .frame _ _ => true
  | .serialiser, .frameLost _ _ => true
  | .engine .play, .audioOut _ _ _ => true
  | .engine .record, .audioIn _ _ _ => true
  | _, _ => false

/-- Between `s` and `t` the hardware agent took its step, or what it had in progress was abandoned: either shows in the trace. -/
def Acted (g : HwAgent) (s t : State) : Prop := ∃ ev ∈ t.trace.drop s.trace.length, g.emits ev = true

/-- The host issues nothing and has nothing to do. -/
def HostIdle (s : State) : Prop := s.port.pending = false ∧ s.env.host = []

/-- Sub-engine `(d,e)` is in flight in `t` as it was in `s`, and its direction has moved nothing (`44_dma_engine.md` R270). -/
def StaysInFlight (d : Dir) (e : Eng) (s t : State) : Prop :=
  (t.engine d e).busy = true ∧ (t.engine d e).done = (s.engine d e).done ∧ (t.engine d e).addr = (s.engine d e).addr ∧
    (t.engine d e).cnt = (s.engine d e).cnt ∧ (t.dir d).hw.active = (s.dir d).hw.active ∧ ¬ Acted (.engine d) s t

/-- Forward progress: a hardware agent whose step stays enabled takes it (`20_memory.md` R127), and a line that stays deliverable while
the host stays idle is delivered (`60_exceptions.md` R345). -/
structure WeaklyFair (r : Nat → State) : Prop where
  hardware : ∀ g n, (∀ m, n ≤ m → g ∈ hwAgents (r m)) → ∃ m, n ≤ m ∧ Acted g (r m) (r (m + 1))
  lines : ∀ d e n, (∀ m, n ≤ m → deliverable (r m) d e = true ∧ HostIdle (r m)) →
    ∃ m, n ≤ m ∧ (choose (r m)).1 = some (.line d e)

/-! ## The sample-rate table -/

/-- The rates of the table are strictly increasing (`42_codec_model.md` R218). -/
def RatesIncrease (p : Params) : Prop := p.rateTable.Pairwise fun x y => x.rate.toNat < y.rate.toNat

/-- `row` is the row of `snap(q)` (`42_codec_model.md` R219). -/
def IsSnap (p : Params) (q : Word) (row : RateRow) : Prop :=
  row ∈ p.rateTable ∧
    ((row.rate.toNat ≤ q.toNat ∧ ∀ r ∈ p.rateTable, r.rate.toNat ≤ q.toNat → r.rate.toNat ≤ row.rate.toNat) ∨
      ((∀ r ∈ p.rateTable, q.toNat < r.rate.toNat) ∧ ∀ r ∈ p.rateTable, row.rate.toNat ≤ r.rate.toNat))

/-! ## Invariants -/

/-- Host memory is in its canonical form. -/
def MemInv (s : State) : Prop := Memory.wf s.mem = true

/-- Reserved bits of the stored registers are 0 and the read-done bit is never set (`10_state.md` R41, R44). -/
def RegsInv (s : State) : Prop :=
  s.regs.ctrl0 &&& 0xFFFF00F6 = 0 ∧ s.regs.ctrl1 &&& 0xFFFFFFFD = 0 ∧ s.regs.pctrl &&& 0xFFFFFEFF = 0 ∧
    s.regs.pclk &&& 0xFFFFFFF3 = 0 ∧ s.regs.pauddiv &&& 0xFFFFFF80 = 0 ∧ s.regs.pgpio &&& 0xFFFFFFFC = 0 ∧
    s.regs.l3rd = false

/-- One direction's DMA hardware: the active sub-engine is busy, something is active when something is busy, a busy channel is
enabled, and a block in flight is one the hardware gives a meaning (`10_state.md` R57, R60, R80). -/
def EngineInv (p : Params) (h : DmaHw) : Prop :=
  (∀ e, h.active = some e → (h.eng e).busy = true) ∧
    ∀ e, (h.eng e).busy = true → h.active ≠ none ∧ h.en = true ∧ BlockOk p (h.eng e).addr (h.eng e).cnt

/-- Both directions' DMA hardware. -/
def DmaInv (s : State) : Prop := ∀ d, EngineInv s.cfg (s.dir d).hw

/-- Between steps: normal context, lock free, `seq` = `IDLE` (`10_state.md` R24, R83, R84). -/
def ContextInv (s : State) : Prop := s.inIrq = false ∧ s.l3.lock = false ∧ s.seq = ⟨none, none, none, false⟩

/-- The buffer invariant of `10_state.md` R77 for a descriptor in use, that a running direction has one, and the bound of the
streak counter (`10_state.md` R81, `49_cross_family_laws.md` R320). -/
def StreamInv (s : State) : Prop := ∀ d,
  ((s.dir d).chan.running = true → (s.dir d).chan.bufferRef = true) ∧
    ((s.dir d).chan.bufferRef = true →
      (s.dir d).buf.size ≠ 0 ∧ (s.dir d).buf.period ≠ 0 ∧ (s.dir d).buf.period.toNat ≤ (s.dir d).buf.size.toNat ∧
        (s.dir d).buf.start.toNat + (s.dir d).buf.size.toNat < Config.memSize ∧
        (s.dir d).buf.start.toNat ≤ (s.dir d).buf.current.toNat ∧
        (s.dir d).buf.current.toNat ≤ (s.dir d).buf.start.toNat + (s.dir d).buf.size.toNat) ∧
    ((s.dir d).oppStreak = 0 ∨ (s.dir d).oppStreak < s.cfg.oppBusyLimit)

/-- The strict bound of `10_state.md` R77 where it has no exception: the pointer of a looping session that is running is never at the
end (`90_conflicts.md` C7 is about the end of a session that does not loop). -/
def LoopInv (s : State) : Prop := ∀ d, (s.dir d).chan.running = true → (s.dir d).buf.loop = true →
  (s.dir d).buf.current.toNat < (s.dir d).buf.start.toNat + (s.dir d).buf.size.toNat

/-- Every mirror byte holds only the value part of its group (`42_codec_model.md` R201). -/
def MirrorLayout (m : Mirror) : Prop :=
  m.status &&& 0xC0 = 0 ∧ m.volume &&& 0xC0 = 0 ∧ m.tone &&& 0xC0 = 0 ∧ m.filterMute &&& 0xF8 = 0 ∧ m.power &&& 0xFC = 0

/-- Configured bytes that keep the layout: power values of two bits (`42_codec_model.md` R201). -/
def LayoutConfig (p : Params) : Prop := p.pwrOn &&& 0xFC = 0 ∧ p.pwrOff &&& 0xFC = 0

/-- The data-byte prefixes select the four data groups and the selectors differ, so that each group's frame reaches its own
register (`00_scope.md` R6, `42_codec_model.md` R202). -/
def FrameConfig (p : Params) : Prop :=
  p.pfxVol = 0x00 ∧ p.pfxTone = 0x40 ∧ p.pfxFilt = 0x80 ∧ p.pfxPwr = 0xC0 ∧ p.selData ≠ p.selStatus

/-- The codec holds what the mirror says, and nothing is left to send (`42_codec_model.md` R231). -/
def MirrorAgrees (s : State) : Prop :=
  MirrorLayout s.mirror ∧ s.mirror.dirty = 0 ∧ s.codec.status = some s.mirror.status ∧
    s.codec.volume = some s.mirror.volume ∧ s.codec.tone = some s.mirror.tone ∧
    s.codec.filterMute = some s.mirror.filterMute ∧ s.codec.power = some s.mirror.power

end Sys2Proof.Machine
end

