-- ==== Sys2Proof/Certificates/Slice0/Obligations.lean ====
section
/-! DEFINITION. The statements for the provers. -/

open Sys2Proof Sys2Proof.Machine

/-! ## Encoding -/

/-- Decoding the encoding of a well-formed operation gives the operation back, every operand at every value
(`30_encoding.md` R140 to R144). -/
def Obligations.DecodeEncodeRoundTrip : Prop :=
  ∀ i : Instr, i.wellFormed = true → decode (encode i) = .ok i

/-- A packet that decodes is the encoding of what it decodes to, in every word the operation's format reads; what it decodes to is
well formed (`30_encoding.md` R141, R144). -/
def Obligations.DecodedPacketIsItsEncoding : Prop :=
  ∀ (p : Packet) (i : Instr), decode p = .ok i → encode i = wordsRead i.format p ∧ i.wellFormed = true

/-- A packet is illegal exactly when no row matches its operation word, exactly for the listed reasons, whatever the other words;
227 of 256 opcodes are illegal; an illegal packet completes at once with `EILLEGAL` and changes no other state
(`30_encoding.md` R145), on every instance that is not refused as a whole (`CHIP_ADDR` = 0, `41_control_bus.md` R189), whether it
is the only agent's turn or the free choice of the next agent falls on the host (notes/assumptions/3). -/
def Obligations.IllegalPacketsComplete : Prop :=
  (∀ p : Packet, (∃ e, decode p = .error e) ↔ ∀ i : Instr, p.opw &&& i.format.mask ≠ i.opcode.setWidth 32) ∧
  (∀ p : Packet, (∃ e, decode p = .error e) ↔
    (opcodeRow (opcOf p.opw) = none ∨ zeroOf p.opw ≠ 0 ∨ (loopOf p.opw = true ∧ opcOf p.opw ≠ 0x62) ∨
      (2 ≤ (selOf p.opw).toNat ∧ (opcOf p.opw = 0x01 ∨ opcOf p.opw = 0x02)) ∨
      (selOf p.opw ≠ 0 ∧ ∃ f b, opcodeRow (opcOf p.opw) = some (f, b) ∧ (f = .n ∨ f = .v ∨ f = .l3)))) ∧
  ((List.range 256).filter fun n => (opcodeRow (BitVec.ofNat 8 n)).isNone).length = 227 ∧
  (∀ (s : State) (e : DecodeError), s.cfg.chipAddr ≠ 0 → Quiet s → s.port.pending = true → s.seq = Seq.idle →
    decode (portPacket s) = .error e → step s = .next (answered 0 3 s)) ∧
  ∀ (s s1 : State) (e : DecodeError), s.cfg.chipAddr ≠ 0 → ¬ Quiet s → drawPick s = (0, s1) → s.port.pending = true →
    s.seq = Seq.idle → decode (portPacket s) = .error e → step s = .next (answered 0 3 s1)

/-- Packets the spec writes out decode to the operations it says they are (`30_encoding.md` R149). -/
def Obligations.SpecPacketsDecode : Prop :=
  decode ⟨0x00000001, 0x04, 0x2, 0, 0⟩ = .ok (.regWr 0 0x04 0x2) ∧
  decode ⟨0x00000102, 0x200, 0, 0, 0⟩ = .ok (.regRd 1 0x200) ∧
  decode ⟨0x00000010, 0x14, 0x1F, 0, 0⟩ = .ok (.l3Send 0x14 0x1F) ∧
  decode ⟨0x00000028, 40, 0, 0, 0⟩ = .ok (.setVol 40) ∧
  decode ⟨0x00000050, 0x100000, 1024, 0, 0⟩ = .ok (.dmaStart 0 0x100000 1024) ∧
  decode ⟨0x00000150, 0x200000, 512, 0, 0⟩ = .ok (.dmaStart 1 0x200000 512) ∧
  decode ⟨0x00010062, 0x100000, 4096, 1024, 7⟩ = .ok (.sesArm 0 true 0x100000 4096 1024 7) ∧
  decode ⟨0x00000055, 1, 0, 0, 0⟩ = .ok (.irqEvt 1)

/-- A step runs the issued operation: when the packet in the command port decodes to `i` and no other agent is enabled, or the
free choice of the next agent falls on the host, the step is `exec i`; and a packet placed by `withFetchWord` is what the next
step runs. That another enabled agent may be chosen instead is notes/assumptions/3; that a packet is placed from outside, with the
next choice answered "the host", is the model's own (notes/assumptions/6). An instance with `CHIP_ADDR` = 0 runs nothing
(notes/assumptions/14). -/
def Obligations.StepRunsIssuedOperation : Prop :=
  (∀ (s : State) (i : Instr), s.cfg.chipAddr ≠ 0 → Quiet s → s.port.pending = true → s.seq = Seq.idle →
    decode (portPacket s) = .ok i → step s = exec i s) ∧
  (∀ (s s1 : State) (i : Instr), s.cfg.chipAddr ≠ 0 → ¬ Quiet s → drawPick s = (0, s1) → s.port.pending = true →
    s.seq = Seq.idle → decode (portPacket s) = .ok i → step s = exec i s1) ∧
  (∀ (s : State) (nbits w : Nat) (i : Instr), s.cfg.chipAddr ≠ 0 → s.seq = Seq.idle → decodeTableWord nbits w = some i →
    step (s.withFetchWord nbits w) = exec i (issuePacket (packetOfBits nbits w) s)) ∧
  ∀ s : State, s.cfg.chipAddr = 0 → step s = .refused .chipAddressZero

/-! ## Reset -/

/-- Every piece of state of the spec's table at its reset value; host memory any content, which is the opaque `memAtReset`;
`STATCLR` reads 0 and the unnamed bits of `STATUS` read as a draw (`70_reset_and_hazards.md` R370). -/
def Obligations.ResetValues : Prop :=
  portPacket State.reset = ⟨0, 0, 0, 0, 0⟩ ∧ State.reset.port.res = 0 ∧ State.reset.port.sts = 0 ∧ State.reset.seq = ⟨none, none, none, false⟩ ∧
  State.reset.regs.ctrl0 = 0 ∧ State.reset.regs.ctrl1 = 0 ∧ State.reset.regs.l3wd = false ∧ State.reset.regs.l3rd = false ∧
  State.reset.regs.l3addr = 0 ∧ State.reset.regs.l3data = 0 ∧ State.reset.regs.pctrl = 0 ∧ State.reset.regs.pclk = 0 ∧
  State.reset.regs.pauddiv = 0 ∧ State.reset.regs.pgpio = 0 ∧
  (regLoad .statclr State.reset).1 = 0 ∧
  (∀ w : Word, (regLoad .status (State.reset.setScript { State.reset.env.script with noise := [w] })).1 = w &&& 0xFFFCFFFF) ∧
  State.reset.mirror = ⟨0, 0, 0, 0, 0, 0, 0⟩ ∧
  (∀ d, csWord (State.reset.dir d).hw = 0 ∧ (State.reset.dir d).hw.en = false ∧ (State.reset.dir d).hw.active = none ∧
    (State.reset.dir d).chan = ⟨false, false, 0, false, false, false, false⟩ ∧
    (State.reset.dir d).buf = ⟨0, 0, 0, 0, false, 0, 0⟩ ∧
    (State.reset.dir d).lastServiced = none ∧ (State.reset.dir d).oppStreak = 0) ∧
  (∀ d e, (State.reset.engine d e).addr = 0 ∧ (State.reset.engine d e).cnt = 0 ∧ (State.reset.engine d e).busy = false ∧
    (State.reset.engine d e).done = false) ∧
  State.reset.l3 = ⟨false, 0, 0, false⟩ ∧ State.reset.inIrq = false ∧ State.reset.codec = ⟨none, none, none, none, none⟩ ∧
  State.reset.errlog = [] ∧ State.reset.trace = [] ∧ ∀ a, Memory.read State.reset.mem a = Config.memAtReset a

/-- After reset nothing operates: the control bus is not operational, no sub-engine can run, even with its channel enabled, no
agent but the host can act, the amplifier lines are low (`70_reset_and_hazards.md` R375, R376); and every invariant stated below
holds. -/
def Obligations.ResetIsStillAndConsistent : Prop :=
  (l3Operational State.reset = false ∧
    (∀ d, dmaCanRun State.reset d = false ∧ dmaCanRun (State.reset.modHw d fun h => { h with en := true }) d = false) ∧
    Quiet State.reset ∧ State.reset.regs.pgpio &&& 3 = 0 ∧ ∀ d e, (State.reset.dir d).chan.bound e = false) ∧
  MemInv State.reset ∧ RegsInv State.reset ∧ DmaInv State.reset ∧ ContextInv State.reset ∧ StreamInv State.reset ∧
    LoopInv State.reset ∧
    MirrorLayout State.reset.mirror ∧ LayoutConfig State.reset.cfg ∧ FrameConfig State.reset.cfg ∧
    RatesIncrease State.reset.cfg ∧ BusReady State.reset

/-! ## Register access -/

/-- The register map: the 20 registers at their regions and offsets, and no other (`10_state.md` R40, R66). -/
def Obligations.RegisterMap : Prop :=
  ∀ (rgn : Byte) (off : Word) (r : Reg), regAt rgn off = some r ↔ (rgn.toNat, off.toNat, r) ∈
    [(0, 0x00, Reg.ctrl0), (0, 0x04, .ctrl1), (0, 0x0C, .status), (0, 0x18, .statclr), (0, 0x1C, .l3addr), (0, 0x20, .l3data),
     (0, 0x34, .cs .play), (0, 0x38, .addr .play .a), (0, 0x3C, .cnt .play .a), (0, 0x40, .addr .play .b),
     (0, 0x44, .cnt .play .b), (0, 0x48, .cs .record), (0, 0x4C, .addr .record .a), (0, 0x50, .cnt .record .a),
     (0, 0x54, .addr .record .b), (0, 0x58, .cnt .record .b), (1, 0x000, .pctrl), (1, 0x200, .pclk), (1, 0x208, .pauddiv),
     (1, 0x300, .pgpio)]

/-- An access to an unmapped or misaligned offset is a bus fault, and nothing else ever causes one
(`40_register_access.md` R172). -/
def Obligations.UnmappedAccessFaults : Prop :=
  (∀ (rgn : Byte) (off : Word), off.toNat % 4 ≠ 0 → regAt rgn off = none) ∧
  (∀ (s : State) (rgn : Byte) (off v : Word), regAt rgn off = none →
    exec (.regWr rgn off v) s = .fault (.busFault rgn off) ∧ exec (.regRd rgn off) s = .fault (.busFault rgn off)) ∧
  ∀ (i : Instr) (s : State) (rgn : Byte) (off : Word), exec i s = .fault (.busFault rgn off) →
    regAt rgn off = none ∧ ((∃ v, i = .regWr rgn off v) ∨ i = .regRd rgn off)

/-- `REG.WR` of the registers that only store, of the read-only one and of the write-one-to-clear one: named fields stored,
reserved bits dropped, `STATUS` ignored, `STATCLR` clearing the flags written 1. A write of `PGPIO` that changes a line adds the
event `Amp` (the model's reading, notes/assumptions/9). -/
def Obligations.RegWrPlainRegisters : Prop :=
  ∀ (s : State) (v : Word), ∃ u, HardwareMoved s u ∧
    exec (.regWr 0 0x04 v) s = .next (answered 0 0 { u with regs := { u.regs with ctrl1 := v &&& 0x2 } }) ∧
    exec (.regWr 0 0x0C v) s = .next (answered 0 0 u) ∧
    exec (.regWr 0 0x18 v) s = .next (answered 0 0 { u with regs := { u.regs with
      l3wd := u.regs.l3wd && !v.getLsbD 16, l3rd := u.regs.l3rd && !v.getLsbD 17 } }) ∧
    exec (.regWr 0 0x1C v) s = .next (answered 0 0 { u with regs := { u.regs with l3addr := v.setWidth 8 } }) ∧
    exec (.regWr 1 0x000 v) s = .next (answered 0 0 { u with regs := { u.regs with pctrl := v &&& 0x100 } }) ∧
    exec (.regWr 1 0x200 v) s = .next (answered 0 0 { u with regs := { u.regs with pclk := v &&& 0xC } }) ∧
    exec (.regWr 1 0x208 v) s = .next (answered 0 0 { u with regs := { u.regs with pauddiv := v &&& 0x7F } }) ∧
    exec (.regWr 1 0x300 v) s = .next (answered 0 0 { u with
      regs := { u.regs with pgpio := v &&& 0x3 }
      trace := u.trace ++ if v &&& 0x3 = s.regs.pgpio then [] else [.amp (v.getLsbD 0) (v.getLsbD 1)] })

/-- `REG.WR` of `CTRL0`: writing `RST` = 1 stores the fields, clears `L3WD` and `L3RD` and loses the frame in progress; writing it
back to 0 less than 5 ms after it was set is refused; otherwise the fields are stored (`10_state.md` R42, `41_control_bus.md`
R187, `70_reset_and_hazards.md` R381). From when the hold is measured is the model's choice
(notes/assumptions/13), and so is the count of time (notes/assumptions/4). -/
def Obligations.RegWrCtrl0 : Prop :=
  ∀ (s : State) (v : Word), ∃ u, HardwareMoved s u ∧
    (v.getLsbD 3 = true → exec (.regWr 0 0x00 v) s = .next (answered 0 0 { u with
      regs := { u.regs with ctrl0 := v &&& 0xFF09, l3wd := false, l3rd := false }
      l3 := { u.l3 with busy := false }
      trace := u.trace ++ if u.l3.busy then [.frameLost u.l3.frameAddr u.l3.frameData] else []
      env := { u.env with rstSince := if u.regs.ctrl0.getLsbD 3 then u.env.rstSince else u.env.now } })) ∧
    (v.getLsbD 3 = false → u.regs.ctrl0.getLsbD 3 = true → u.env.now - u.env.rstSince < 5 →
      exec (.regWr 0 0x00 v) s = .refused .resetHoldTooShort) ∧
    (v.getLsbD 3 = false → (u.regs.ctrl0.getLsbD 3 = true → 5 ≤ u.env.now - u.env.rstSince) →
      exec (.regWr 0 0x00 v) s = .next (answered 0 0 { u with regs := { u.regs with ctrl0 := v &&& 0xFF09 } }))

/-- A write of `L3DATA` stores the byte and triggers the serialiser: a fault while a frame is in progress, nothing on a bus that is
not operational, else the frame of `L3ADDR` and the byte (`41_control_bus.md` R185). That an instance with chip address 0 is refused at
this write too is the model's reading of R189 (DEDUCED, notes/assumptions/14). -/
def Obligations.L3DataWriteTriggers : Prop :=
  ∀ (s : State) (v : Word), ∃ u, HardwareMoved s u ∧
    (s.cfg.chipAddr = 0 → exec (.regWr 0 0x20 v) s = .refused .chipAddressZero) ∧
    (s.cfg.chipAddr ≠ 0 → u.l3.busy = true → exec (.regWr 0 0x20 v) s = .fault (.reserved .frameInProgress)) ∧
    (s.cfg.chipAddr ≠ 0 → u.l3.busy = false → l3Operational u = false →
      exec (.regWr 0 0x20 v) s = .next (answered 0 0 { u with regs := { u.regs with l3data := v.setWidth 8 } })) ∧
    (s.cfg.chipAddr ≠ 0 → u.l3.busy = false → l3Operational u = true →
      exec (.regWr 0 0x20 v) s = .next (answered 0 0 { u with
        regs := { u.regs with l3data := v.setWidth 8 }
        l3 := { u.l3 with busy := true, frameAddr := u.regs.l3addr, frameData := v.setWidth 8 } }))

/-- A write of `CS[d]`: done bits written 1 cleared, `EN` stored; with `EN` = 1 at most one idle sub-engine started, a fault for two
starts or a block the hardware gives no meaning, a start of a busy one ignored; with `EN` = 0 both sub-engines abandoned, their
done bits not set and nothing active (`10_state.md` R57). -/
def Obligations.CsWrite : Prop :=
  ∀ (s : State) (d : Dir) (w : Word), ∃ u, HardwareMoved s u ∧
    let cleared (e : Eng) : Bool := if e = .a then w.getLsbD 3 else w.getLsbD 5
    let starts (e : Eng) : Bool := (if e = .a then w.getLsbD 4 else w.getLsbD 6) && !(u.engine d e).busy
    let kept : DmaHw := { (u.dir d).hw with
      en := w.getLsbD 0
      engA := { (u.engine d .a) with done := (u.engine d .a).done && !cleared .a }
      engB := { (u.engine d .b) with done := (u.engine d .b).done && !cleared .b } }
    (w.getLsbD 0 = false → ∃ t, exec (.regWr 0 (csOff d) w) s = .next (answered 0 0 t) ∧
      t = (abandonBlock d .b (abandonBlock d .a (u.modHw d fun _ => kept))).modHw d (fun h => { h with active := none }) ∧
      HwFrame (u.modHw d fun _ => kept) { t with
        play := { t.play with hw := { t.play.hw with active := u.play.hw.active } }
        record := { t.record with hw := { t.record.hw with active := u.record.hw.active } } } ∧
      MemFrame u t ∧ (t.dir d).hw.active = none ∧
      ∀ e, (t.engine d e).busy = false ∧ (t.engine d e).done = ((u.engine d e).done && !cleared e)) ∧
    (w.getLsbD 0 = true → starts .a = true → starts .b = true →
      exec (.regWr 0 (csOff d) w) s = .fault (.reserved .bothStarts)) ∧
    (w.getLsbD 0 = true → starts .a = false → starts .b = false →
      exec (.regWr 0 (csOff d) w) s = .next (answered 0 0 (u.modHw d fun _ => kept))) ∧
    ∀ e, w.getLsbD 0 = true → starts e = true → starts e.other = false →
      (BlockOk s.cfg (u.engine d e).addr (u.engine d e).cnt →
        exec (.regWr 0 (csOff d) w) s = .next (answered 0 0 (u.modHw d fun h =>
          { kept.modEng e (fun g => { g with busy := true, raced := [] }) with
            active := if h.active = none then some e else h.active }))) ∧
      (¬ BlockOk s.cfg (u.engine d e).addr (u.engine d e).cnt →
        exec (.regWr 0 (csOff d) w) s = .fault (.reserved .notStartable))

/-- `ADDR[d][e]` and `CNT[d][e]`: a write to an idle sub-engine stores the whole word, to a busy one is a fault; a read of an idle
one returns it, of a busy one any value (`10_state.md` R58, R59). -/
def Obligations.AddressAndCountRegisters : Prop :=
  ∀ (s : State) (d : Dir) (e : Eng) (v : Word), ∃ u, HardwareMoved s u ∧
    ((u.engine d e).busy = false →
      exec (.regWr 0 (addrOff d e) v) s = .next (answered 0 0 (u.modEngine d e fun g => { g with addr := v })) ∧
      exec (.regWr 0 (addrOff d e + 4) v) s = .next (answered 0 0 (u.modEngine d e fun g => { g with cnt := v })) ∧
      exec (.regRd 0 (addrOff d e)) s = .next (answered (u.engine d e).addr 0 u) ∧
      exec (.regRd 0 (addrOff d e + 4)) s = .next (answered (u.engine d e).cnt 0 u)) ∧
    ((u.engine d e).busy = true →
      exec (.regWr 0 (addrOff d e) v) s = .fault (.reserved .liveDescriptor) ∧
      exec (.regWr 0 (addrOff d e + 4) v) s = .fault (.reserved .liveDescriptor) ∧
      ∃ w u', exec (.regRd 0 (addrOff d e)) s = .next (answered w 0 u') ∧
        exec (.regRd 0 (addrOff d e + 4)) s = .next (answered w 0 u') ∧ HwFrame u u' ∧ u'.mem = u.mem ∧
        ∀ r, u.env.script.noise = v :: r → w = v)

/-- `REG.RD` of every other register: stored fields with reserved bits as stored, `CS[d]` assembled from the hardware's flags,
`STATCLR` 0, the two flags of `STATUS` with any value in its other bits; no side effect (`40_register_access.md` R171,
`10_state.md` R44, R45, R56). -/
def Obligations.RegRdValues : Prop :=
  ∀ s : State, ∃ u, HardwareMoved s u ∧
    exec (.regRd 0 0x00) s = .next (answered u.regs.ctrl0 0 u) ∧
    exec (.regRd 0 0x04) s = .next (answered u.regs.ctrl1 0 u) ∧
    exec (.regRd 0 0x18) s = .next (answered 0 0 u) ∧
    exec (.regRd 0 0x1C) s = .next (answered (u.regs.l3addr.setWidth 32) 0 u) ∧
    exec (.regRd 0 0x20) s = .next (answered (u.regs.l3data.setWidth 32) 0 u) ∧
    exec (.regRd 1 0x000) s = .next (answered u.regs.pctrl 0 u) ∧
    exec (.regRd 1 0x200) s = .next (answered u.regs.pclk 0 u) ∧
    exec (.regRd 1 0x208) s = .next (answered u.regs.pauddiv 0 u) ∧
    exec (.regRd 1 0x300) s = .next (answered u.regs.pgpio 0 u) ∧
    (∀ d, ∃ w, exec (.regRd 0 (csOff d)) s = .next (answered w 0 u) ∧
      ∀ n, w.getLsbD n = match n with
        | 0 => (u.dir d).hw.en
        | 3 => (u.engine d .a).done
        | 4 => (u.engine d .a).busy
        | 5 => (u.engine d .b).done
        | 6 => (u.engine d .b).busy
        | 7 => decide ((u.dir d).hw.active = some .b)
        | _ => false) ∧
    ∃ w u', exec (.regRd 0 0x0C) s = .next (answered w 0 u') ∧ HwFrame u u' ∧ u'.mem = u.mem ∧
      w.getLsbD 16 = u.regs.l3wd ∧ w.getLsbD 17 = u.regs.l3rd ∧
      ∀ v r, u.env.script.noise = v :: r → ∀ n, n ≠ 16 → n ≠ 17 → w.getLsbD n = v.getLsbD n

/-! ## The control bus -/

/-- `L3.SEND` on a ready bus always completes with `OK`, beside whatever streams are running; it times out on a bus that is not
operational, and otherwise exactly when its own frame is lost (`41_control_bus.md` R180 to R182, R190). -/
def Obligations.SendCompletes : Prop :=
  ∀ (a b : Byte) (s : State), BusReady s →
    ∃ timedOut t, exec (.l3Send a b) s = .next (answered 0 0 t) ∧ SendFrame a b timedOut s t

/-- A send on a bus that is not operational, with nothing else in progress, takes exactly the settle delay and 1000 polls, logs one
`BusTimeout`, leaves the two transaction registers written and tracking clear, and changes nothing else
(`41_control_bus.md` R182). That each wait lasts exactly its minimum is the model's choice (notes/assumptions/4). -/
def Obligations.SendOnDeadBus : Prop :=
  ∀ (a b : Byte) (s : State), Quiet s → s.inIrq = false → s.l3.lock = false → s.cfg.chipAddr ≠ 0 → l3Operational s = false →
    exec (.l3Send a b) s = .next (answered 0 0 { s with
      regs := { s.regs with l3addr := a, l3data := b, l3wd := false, l3rd := false }
      errlog := s.errlog ++ [.busTimeout a b]
      env := { s.env with now := s.env.now + s.cfg.tSettle + 1000 } })

/-- A send on an operational bus with no DMA beside it: the null frame and the frame, in this order, each delivered or lost as the
environment answers; a delivered frame takes at most one poll wait, a lost one 1000 and one `BusTimeout`; DMA, memory and
descriptors unchanged (`41_control_bus.md` R180, R186, R188, R190). That each wait lasts exactly its minimum is the model's choice
(notes/assumptions/4). -/
def Obligations.SendOnOperationalBus : Prop :=
  ∀ (a b : Byte) (s : State) (v w : Bool) (r : List Bool), DmaStill s → BusReady s → l3Operational s = true →
    s.env.script.delivered = v :: w :: r →
    ∃ t, exec (.l3Send a b) s = .next (answered 0 0 t) ∧
      t.trace = s.trace ++ [if v then .frame 0 0 else .frameLost 0 0, if w then .frame a b else .frameLost a b] ∧
      t.errlog = s.errlog ++ (if w then [] else [.busTimeout a b]) ∧
      t.regs = { s.regs with l3addr := a, l3data := b, l3wd := false, l3rd := false } ∧
      t.codec = (if w then codecReceive s.cfg a b s.codec else s.codec) ∧
      t.l3.busy = false ∧ t.l3.lock = false ∧ t.mirror = s.mirror ∧ t.play = s.play ∧ t.record = s.record ∧ t.mem = s.mem ∧
      t.cfg = s.cfg ∧ t.env.script.delivered = r ∧ s.env.now + s.cfg.tSettle ≤ t.env.now ∧
      (w = true → t.env.now ≤ s.env.now + s.cfg.tSettle + 1) ∧ (w = false → t.env.now = s.env.now + s.cfg.tSettle + 1000)

/-- Every operation that contains a control-bus send is refused in interrupt context (`41_control_bus.md` R183). -/
def Obligations.SendsRefusedInInterrupt : Prop :=
  ∀ s : State, s.inIrq = true → ∀ (a b : Byte) (v : Word),
    exec (.l3Send a b) s = .refused .busSendInInterrupt ∧ exec .codecOpen s = .refused .busSendInInterrupt ∧
    exec .codecClose s = .refused .busSendInInterrupt ∧ exec .codecSync s = .refused .busSendInInterrupt ∧
    exec (.codecSetrate v) s = .refused .busSendInInterrupt ∧ exec (.setVol v) s = .refused .busSendInInterrupt ∧
    exec (.setBass v) s = .refused .busSendInInterrupt ∧ exec (.setTreb v) s = .refused .busSendInInterrupt ∧
    exec (.setMute v) s = .refused .busSendInInterrupt ∧ exec (.setFilt v) s = .refused .busSendInInterrupt ∧
    exec .ctrlInit s = .refused .busSendInInterrupt

/-- A send that finds the lock held has no step; the model says so by a fault of its own (`41_control_bus.md` R184;
notes/assumptions/11). -/
def Obligations.SendWaitsForTheLock : Prop :=
  ∀ (a b : Byte) (s : State), s.inIrq = false → s.l3.lock = true → exec (.l3Send a b) s = .fault .waitsForBusLock

/-! ## The codec register model -/

/-- The getters answer from the mirror alone and change nothing else; `GET.VOL` answers `63 - volume_byte[5:0]`, so that after
`SET.VOL(v)` it gives `v` clamped, whether or not the bus works (`42_codec_model.md` R210 to R214). -/
def Obligations.GettersReadTheMirror : Prop :=
  (∀ s : State,
    exec .getVol s = .next (answered (63 - (s.mirror.volume.extractLsb' 0 6).setWidth 32) 0 s) ∧
    exec .getBass s = .next (answered ((s.mirror.tone.extractLsb' 2 4).setWidth 32) 0 s) ∧
    exec .getTreb s = .next (answered ((s.mirror.tone.extractLsb' 0 2).setWidth 32) 0 s) ∧
    exec .getMute s = .next (answered ((s.mirror.filterMute.extractLsb' 2 1).setWidth 32) 0 s) ∧
    exec .getFilt s = .next (answered ((s.mirror.filterMute.extractLsb' 0 2).setWidth 32) 0 s)) ∧
  ∀ (v : Word) (s : State), BusReady s → ∃ t, exec (.setVol v) s = .next t ∧
    exec .getVol t = .next (answered (BitVec.ofNat 32 (clampTo v 63)) 0 t)

/-- The setters clamp their signed operand, store it in its field and no other, mark exactly their group dirty, and sync
(`42_codec_model.md` R205 to R209). -/
def Obligations.SettersStoreAndSync : Prop :=
  ∀ (v : Word) (s : State), BusReady s →
    (∃ t, exec (.setVol v) s = .next (answered 0 0 t) ∧ t.port = s.port ∧ SyncFrame { s.mirror with
      volume := BitVec.ofNat 8 (63 - clampTo v 63), dirty := s.mirror.dirty ||| 0b00010 } s t) ∧
    (∃ t, exec (.setBass v) s = .next (answered 0 0 t) ∧ t.port = s.port ∧ SyncFrame { s.mirror with
      tone := (s.mirror.tone &&& 0x03) ||| BitVec.ofNat 8 (4 * clampTo v 15), dirty := s.mirror.dirty ||| 0b00100 } s t) ∧
    (∃ t, exec (.setTreb v) s = .next (answered 0 0 t) ∧ t.port = s.port ∧ SyncFrame { s.mirror with
      tone := (s.mirror.tone &&& 0x3C) ||| BitVec.ofNat 8 (clampTo v 3), dirty := s.mirror.dirty ||| 0b00100 } s t) ∧
    (∃ t, exec (.setMute v) s = .next (answered 0 0 t) ∧ t.port = s.port ∧ SyncFrame { s.mirror with
      filterMute := (s.mirror.filterMute &&& 0x1B) ||| BitVec.ofNat 8 (4 * clampTo v 1),
      dirty := s.mirror.dirty ||| 0b01000 } s t) ∧
    ∃ t, exec (.setFilt v) s = .next (answered 0 0 t) ∧ t.port = s.port ∧ SyncFrame { s.mirror with
      filterMute := (s.mirror.filterMute &&& 0x1C) ||| BitVec.ofNat 8 (clampTo v 3),
      dirty := s.mirror.dirty ||| 0b01000 } s t

/-- The other getters read back what their setters set, clamped, and the neighbouring field of the byte is kept
(`42_codec_model.md` R206 to R209, R211 to R214). -/
def Obligations.SettersReadBack : Prop :=
  ∀ (v : Word) (s : State), BusReady s →
    (∃ t, exec (.setBass v) s = .next t ∧ exec .getBass t = .next (answered (BitVec.ofNat 32 (clampTo v 15)) 0 t) ∧
      t.mirror.tone.extractLsb' 0 2 = s.mirror.tone.extractLsb' 0 2) ∧
    (∃ t, exec (.setTreb v) s = .next t ∧ exec .getTreb t = .next (answered (BitVec.ofNat 32 (clampTo v 3)) 0 t) ∧
      t.mirror.tone.extractLsb' 2 4 = s.mirror.tone.extractLsb' 2 4) ∧
    (∃ t, exec (.setMute v) s = .next t ∧ exec .getMute t = .next (answered (BitVec.ofNat 32 (clampTo v 1)) 0 t) ∧
      t.mirror.filterMute.extractLsb' 0 2 = s.mirror.filterMute.extractLsb' 0 2) ∧
    ∃ t, exec (.setFilt v) s = .next t ∧ exec .getFilt t = .next (answered (BitVec.ofNat 32 (clampTo v 3)) 0 t) ∧
      t.mirror.filterMute.extractLsb' 2 1 = s.mirror.filterMute.extractLsb' 2 1

/-- `CODEC.SYNC` sends exactly the dirty groups and then clears all dirty bits, or none if a send timed out; with nothing dirty
there is no frame, no lock and no delay (`42_codec_model.md` R215). -/
def Obligations.SyncSendsDirtyGroups : Prop :=
  (∀ s : State, BusReady s → ∃ t, exec .codecSync s = .next (answered 0 0 t) ∧ t.port = s.port ∧ SyncFrame s.mirror s t) ∧
  ∀ s : State, s.inIrq = false → s.mirror.dirty = 0 → exec .codecSync s = .next (answered 0 0 s)

/-- On a reliable operational bus with no DMA beside it, `CODEC.SYNC` puts exactly these frames on the bus: for each dirty group in
the fixed order a null frame and the group's frame (`42_codec_model.md` R202, R215, `41_control_bus.md` R189). -/
def Obligations.SyncFramesInOrder : Prop :=
  ∀ s : State, DmaStill s → BusReady s → l3Operational s = true → L3Reliable (2 * (dirtyGroups s.mirror).length) s →
    ∃ t, exec .codecSync s = .next (answered 0 0 t) ∧
      t.trace = s.trace ++ (dirtyGroups s.mirror).flatMap (fun g =>
        [.frame 0 0, .frame (addrOf s.cfg g) (dataOf s.cfg s.mirror g)]) ∧
      t.mirror = { s.mirror with dirty := 0 } ∧ t.errlog = s.errlog ∧ t.play = s.play ∧ t.record = s.record ∧ t.mem = s.mem

/-- Each group's frame reaches exactly its own codec register, with the value part of the mirror byte (`42_codec_model.md` R202,
R230). -/
def Obligations.GroupFramesReachTheirRegisters : Prop :=
  ∀ (p : Params) (m : Mirror) (c : CodecHw), FrameConfig p → MirrorLayout m →
    codecReceive p (addrOf p .status) (dataOf p m .status) c = { c with status := some m.status } ∧
    codecReceive p (addrOf p .volume) (dataOf p m .volume) c = { c with volume := some m.volume } ∧
    codecReceive p (addrOf p .tone) (dataOf p m .tone) c = { c with tone := some m.tone } ∧
    codecReceive p (addrOf p .filter) (dataOf p m .filter) c = { c with filterMute := some m.filterMute } ∧
    codecReceive p (addrOf p .power) (dataOf p m .power) c = { c with power := some m.power }

/-- On a reliable operational bus, `CODEC.OPEN` makes the codec hold what the mirror says, and `CODEC.CLOSE`, `CODEC.SYNC`,
`CODEC.SETRATE` and the five setters keep it so, beside whatever streams are running (`42_codec_model.md` R231). -/
def Obligations.MirrorMatchesCodec : Prop :=
  (∀ s : State, BusReady s → FrameConfig s.cfg → LayoutConfig s.cfg → l3Operational s = true → L3Reliable 10 s →
    ∃ t, exec .codecOpen s = .next t ∧ MirrorAgrees t) ∧
  ∀ (s : State) (v : Word) (i : Instr), BusReady s → FrameConfig s.cfg → LayoutConfig s.cfg → l3Operational s = true →
    L3Reliable 2 s → MirrorAgrees s →
    i ∈ [.codecClose, .codecSync, .codecSetrate v, .setVol v, .setBass v, .setTreb v, .setMute v, .setFilt v] →
    ∃ t, exec i s = .next t ∧ MirrorAgrees t

/-- `CODEC.OPEN` resets the mirror to its defaults, marks everything dirty and syncs, keeping `current_rate`; `CODEC.CLOSE` sets the
power byte off, marks only it dirty and syncs (`42_codec_model.md` R203, R204). -/
def Obligations.CodecOpenAndClose : Prop :=
  ∀ (s : State) (row : RateRow), BusReady s →
    (RatesIncrease s.cfg → row ∈ s.cfg.rateTable → row.rate = 22050 →
      ∃ t, exec .codecOpen s = .next (answered 0 0 t) ∧ t.port = s.port ∧ SyncFrame {
        status := (row.sc.setWidth 8 <<< 4) ||| s.cfg.statusFmt.setWidth 8
        volume := BitVec.ofNat 8 (63 - s.cfg.volDefault) &&& 0x3F
        tone := 0, filterMute := 0, power := s.cfg.pwrOn, dirty := 0b11111, rate := s.mirror.rate } s t) ∧
    ∃ t, exec .codecClose s = .next (answered 0 0 t) ∧ t.port = s.port ∧
      SyncFrame { s.mirror with power := s.cfg.pwrOff, dirty := s.mirror.dirty ||| 0b10000 } s t

/-- `CODEC.SETRATE` answers the snapped rate, writes its divider to `PAUDDIV` and its `SC` field to the status byte, keeping the
byte's other bits, marks exactly the status group dirty and syncs (`42_codec_model.md` R217). -/
def Obligations.SetRateSnapsAndSyncs : Prop :=
  ∀ (q : Word) (s : State), BusReady s → RatesIncrease s.cfg →
    ∃ row u t, IsSnap s.cfg q row ∧ HardwareMoved s u ∧ exec (.codecSetrate q) s = .next (answered row.rate 0 t) ∧
      t.port = s.port ∧ SyncFrame { s.mirror with
        status := (s.mirror.status &&& 0xCF) ||| (row.sc.setWidth 8 <<< 4)
        dirty := s.mirror.dirty ||| 0b00001
        rate := row.rate } { u with regs := { u.regs with pauddiv := row.div.setWidth 32 } } t

/-- `snap(q)` is the largest table rate not above `q`, or the smallest; on the default table it gives the spec's values
(`42_codec_model.md` R219). -/
def Obligations.SnapRounding : Prop :=
  (∀ (p : Params) (q : Word), RatesIncrease p → IsSnap p q (snapRow p q)) ∧
  (snapRow Params.default 30000).rate = 29400 ∧ (snapRow Params.default 32000).rate = 32000 ∧
  (snapRow Params.default 7999).rate = 8000 ∧ (snapRow Params.default 0).rate = 8000 ∧
  (snapRow Params.default 0xFFFFFFFF).rate = 48000

/-! ## Controller init -/

/-- `CTRL.INIT` on a bus with no frame in progress always completes with `OK`: the registers at the values of the bring-up
sequence, the amplifier event, at least 5 ms of reset hold, then the default rate set and synced; descriptors and the codec mirror's
other fields untouched (`43_controller_init.md` R240). The measure of the hold is notes/assumptions/13. -/
def Obligations.ControllerInit : Prop :=
  ∀ (s : State) (row : RateRow), BusReady s → RatesIncrease s.cfg → row ∈ s.cfg.rateTable → row.rate = 22050 →
    s.env.rstSince ≤ s.env.now →
    ∃ u t, exec .ctrlInit s = .next (answered 0 0 t) ∧ t.port = s.port ∧
      CtxFrame { s with
        seq := u.seq
        regs := { s.regs with
          ctrl0 := 0x1 ||| (s.cfg.fifoWm.setWidth 32 <<< 8) ||| (s.cfg.fifoWm.setWidth 32 <<< 12)
          ctrl1 := 0x2, l3wd := false, l3rd := false, pctrl := 0, pclk := 0xC, pauddiv := row.div.setWidth 32, pgpio := 0x3 }
        env := { s.env with rstSince := u.env.rstSince } } u ∧
      MemStill s u ∧ s.env.now + 5 ≤ u.env.now ∧ Event.amp true true ∈ u.trace.drop s.trace.length ∧
      SyncFrame { s.mirror with
        status := (s.mirror.status &&& 0xCF) ||| (row.sc.setWidth 8 <<< 4)
        dirty := s.mirror.dirty ||| 0b00001
        rate := row.rate } u t

/-! ## The DMA engine -/

/-- `DMA.START`: `EINVAL` for length 0 with nothing touched; `EBUSY` after one read if a sub-engine of the direction is busy; else
the sub-engine of the counter's parity programmed and started, and the counter advanced; a block the hardware gives no meaning is a
fault; a direction above 1 is `EINVAL` (`44_dma_engine.md` R250). -/
def Obligations.DmaStartBehaviour : Prop :=
  ∀ (s : State) (d : Dir) (addr len : Word),
    (∀ sel : Byte, 2 ≤ sel.toNat → exec (.dmaStart sel addr len) s = .next (answered 0 1 s)) ∧
    exec (.dmaStart (selDir d) addr 0) s = .next (answered 0 1 s) ∧
    (len ≠ 0 → (s.engine d .a).busy = false → (s.engine d .b).busy = false → BlockOk s.cfg addr len →
      ∃ t, exec (.dmaStart (selDir d) addr len) s = .next (answered 0 0 (started d (turnOf (s.dir d)) t))) ∧
    (len ≠ 0 → ∃ u, HardwareMoved s u ∧
      (((u.engine d .a).busy = true ∨ (u.engine d .b).busy = true) →
        exec (.dmaStart (selDir d) addr len) s = .next (answered 0 2 u)) ∧
      ((u.engine d .a).busy = false → (u.engine d .b).busy = false →
        (BlockOk s.cfg addr len → ∃ w, HardwareMoved (programmed d (turnOf (s.dir d)) addr len u) w ∧
          exec (.dmaStart (selDir d) addr len) s = .next (answered 0 0 (started d (turnOf (s.dir d)) w))) ∧
        (¬ BlockOk s.cfg addr len → exec (.dmaStart (selDir d) addr len) s = .fault (.reserved .notStartable))))

/-- After a start, and whatever the hardware agents do, a second start is refused with `EBUSY` and writes nothing while a sub-engine of
the direction is busy, the running controller included; the next start that finds neither busy uses the other sub-engine
(`44_dma_engine.md` R251, R276). -/
def Obligations.StartsAlternate : Prop :=
  ∀ (s t : State) (d : Dir) (a1 l1 a2 l2 : Word), exec (.dmaStart (selDir d) a1 l1) s = .next t → t.port.sts = 0 →
    (t.engine d (turnOf (s.dir d))).busy = true ∧ turnOf (t.dir d) = (turnOf (s.dir d)).other ∧
    (HwQuiet t → l2 ≠ 0 → exec (.dmaStart (selDir d) a2 l2) t = .next (answered 0 2 t)) ∧
    (l2 ≠ 0 → ∃ u, HardwareMoved t u ∧
      (((u.engine d .a).busy = true ∨ (u.engine d .b).busy = true) →
        exec (.dmaStart (selDir d) a2 l2) t = .next (answered 0 2 u)) ∧
      ((u.engine d .a).busy = false → (u.engine d .b).busy = false → BlockOk t.cfg a2 l2 →
        ∃ w, HardwareMoved (programmed d (turnOf (s.dir d)).other a2 l2 u) w ∧
          exec (.dmaStart (selDir d) a2 l2) t = .next (answered 0 0 (started d (turnOf (s.dir d)).other w))))

/-- `DMA.POLL` answers 0 without a register access when nothing was ever started, and else the done bit of the sub-engine of the
most recent start, clearing nothing; a direction above 1 is `EINVAL` (`44_dma_engine.md` R255). -/
def Obligations.PollReadsLastStarted : Prop :=
  ∀ (s : State) (d : Dir),
    (∀ sel : Byte, 2 ≤ sel.toNat → exec (.dmaPoll sel) s = .next (answered 0 1 s)) ∧
    ((s.dir d).chan.generation = 0 → exec (.dmaPoll (selDir d)) s = .next (answered 0 0 s)) ∧
    ((s.dir d).chan.generation ≠ 0 → ∃ u, HardwareMoved s u ∧
      exec (.dmaPoll (selDir d)) s = .next (answered (if (u.engine d (turnOf (s.dir d)).other).done then 1 else 0) 0 u))

/-- `DMA.RESET` from any state: all ten DMA registers read 0 afterwards, the thresholds are reprogrammed and the other bits of
`CTRL0` kept; descriptors, counters, bindings, the mirror, the bus lock and the host's side are untouched; the serialiser and the
codec are as the hardware agents left them, but for a frame in progress that a kept `RST` = 1 loses (`44_dma_engine.md` R257,
`41_control_bus.md` R187). -/
def Obligations.DmaResetClears : Prop :=
  ∀ s : State, ∃ t, exec .dmaReset s = .next (answered 0 0 t) ∧
    (∀ d, (t.dir d).hw.en = false ∧ (t.dir d).hw.active = none ∧ csWord (t.dir d).hw = 0 ∧
      (t.dir d).chan = (s.dir d).chan ∧ (t.dir d).buf = (s.dir d).buf ∧ (t.dir d).lastServiced = (s.dir d).lastServiced ∧
      (t.dir d).oppStreak = (s.dir d).oppStreak) ∧
    (∀ d e, (t.engine d e).addr = 0 ∧ (t.engine d e).cnt = 0 ∧ (t.engine d e).busy = false ∧ (t.engine d e).done = false) ∧
    t.regs = { s.regs with
      ctrl0 := ((s.regs.ctrl0 &&& 0xFFFF00FF) ||| (s.cfg.fifoWm.setWidth 32 <<< 8) ||| (s.cfg.fifoWm.setWidth 32 <<< 12)) &&&
        0x0000FF09
      l3wd := t.regs.l3wd, l3rd := t.regs.l3rd } ∧
    t.port = s.port ∧ t.mirror = s.mirror ∧ t.cfg = s.cfg ∧ t.inIrq = s.inIrq ∧ t.errlog = s.errlog ∧ t.env.now = s.env.now ∧
    (∃ l, t.trace = s.trace ++ l) ∧ MemFrame s t ∧
    BusAfterReset s t ∧ t.l3.lock = s.l3.lock ∧ t.env.host = s.env.host ∧ t.env.seen = s.env.seen ∧ t.env.rstSince = s.env.rstSince

/-- `IRQ.REQ`: `EBUSY` if a line is bound; else A is asked for, then B, and a refusal of either leaves neither bound; a direction
above 1 is `EINVAL` (`44_dma_engine.md` R260). -/
def Obligations.RequestBindsBothOrNeither : Prop :=
  ∀ (s : State) (d : Dir),
    (∀ sel : Byte, 2 ≤ sel.toNat → exec (.irqReq sel) s = .next (answered 0 1 s)) ∧
    (((s.dir d).chan.boundA = true ∨ (s.dir d).chan.boundB = true) →
      exec (.irqReq (selDir d)) s = .next (answered 0 2 s)) ∧
    ((s.dir d).chan.boundA = false → (s.dir d).chan.boundB = false →
      ∀ (okA okB : Bool) (s1 s2 : State), drawBind s = (okA, s1) →
        drawBind ((s1.modChan d fun c => { c with boundA := true }).emit (.irqBind d .a)) = (okB, s2) →
        exec (.irqReq (selDir d)) s = .next (
          if okA then
            if okB then answered 0 0 ((s2.modChan d fun c => { c with boundB := true }).emit (.irqBind d .b))
            else answered 0 4 ((s2.modChan d fun c => { c with boundA := false }).emit (.irqUnbind d .a))
          else answered 0 4 s1))

/-- `IRQ.REL` unbinds each line that is bound, A first, and changes nothing else; a direction above 1 is `EINVAL`
(`44_dma_engine.md` R261). -/
def Obligations.ReleaseUnbinds : Prop :=
  ∀ (s : State) (d : Dir),
    (∀ sel : Byte, 2 ≤ sel.toNat → exec (.irqRel sel) s = .next (answered 0 1 s)) ∧
    exec (.irqRel (selDir d)) s = .next (answered 0 0 (({ s with trace := s.trace ++
    (if (s.dir d).chan.boundA then [Event.irqUnbind d .a] else []) ++
    (if (s.dir d).chan.boundB then [Event.irqUnbind d .b] else []) }).modChan d fun c =>
      { c with boundA := false, boundB := false }))

/-- The completion step of a playback block that raced with nothing: exactly the block's bytes delivered, in ascending order, the
sub-engine done, a pending block of the other one active; registers and descriptors untouched (`44_dma_engine.md` R271 to R273). -/
def Obligations.PlaybackCompletes : Prop :=
  ∀ (s : State) (e : Eng), engineEnabled s .play = true → s.play.hw.active = some e → (s.engine .play e).raced = [] →
    (∀ i, i < (s.engine .play e).cnt.toNat → captureCovers s ((s.engine .play e).addr.toNat + i) = false) →
    hwStep (.engine .play) s = { s with
      play := { s.play with hw := { s.play.hw.modEng e (fun g => { g with busy := false, done := true, raced := [] }) with
        active := if (s.engine .play e.other).busy then some e.other else none } }
      trace := s.trace ++ [.audioOut e (s.engine .play e).addr ((List.range (s.engine .play e).cnt.toNat).map fun i =>
        Memory.read s.mem ((s.engine .play e).addr.toNat + i))] }

/-- The completion step of a capture block: as many bytes as its count, supplied by the environment; each is in memory from the moment
of the window at which it was written, the bytes still to write are written now, in ascending order, nothing is written elsewhere, and
then done as for playback (`44_dma_engine.md` R271, R272, `20_memory.md` R111, R123). -/
def Obligations.CaptureCompletes : Prop :=
  ∀ (s : State) (e : Eng), engineEnabled s .record = true → s.record.hw.active = some e →
    let g := s.engine .record e
    let t := hwStep (.engine .record) s
    ∃ bytes : List Byte, bytes.length = g.cnt.toNat ∧
      (∀ i, i < bytes.length → g.raced.lookup (g.addr.toNat + i) = none →
        Memory.read t.mem (g.addr.toNat + i) = bytes.getD i 0) ∧
      (∀ i b, i < bytes.length → g.raced.lookup (g.addr.toNat + i) = some b →
        bytes.getD i 0 = b ∧ Memory.read t.mem (g.addr.toNat + i) = Memory.read s.mem (g.addr.toNat + i)) ∧
      (∀ a, a < g.addr.toNat ∨ g.addr.toNat + bytes.length ≤ a → Memory.read t.mem a = Memory.read s.mem a) ∧
      (g.raced = [] → g.cnt.toNat ≤ s.env.script.bytes.length →
        bytes = s.env.script.bytes.take g.cnt.toNat ∧ t.env.script.bytes = s.env.script.bytes.drop g.cnt.toNat) ∧
      t.trace = s.trace ++ [.audioIn e g.addr bytes] ∧
      t.record = { s.record with
        hw := { s.record.hw.modEng e (fun g => { g with busy := false, done := true, raced := [] }) with
          active := if (s.engine .record e.other).busy then some e.other else none } } ∧
      HwFrame s t

/-- The race rule (`20_memory.md` R110, R111, R123, R124). Playback: outside capture blocks in flight, the byte delivered is the one
memory holds or one it held when it was overwritten in the window, and each of them can be delivered; a store in the window, the first
or a later one, adds the value it overwrites; with no store in the window memory is delivered. Capture: a host load inside the window
sees the old byte or the captured one, which the block then keeps; a host store is overwritten later by the captured byte or survives
it, each possible. That the moment of an access is an answer of the script is the model's form (notes/assumptions/1, 10). -/
def Obligations.RaceRule : Prop :=
  (∀ (s : State) (e : Eng) (a : Nat), captureCovers s a = false →
    ((fetchByte e a s).1 = Memory.read s.mem a ∨ (a, (fetchByte e a s).1) ∈ (s.engine .play e).raced) ∧
    ∀ v, (v = Memory.read s.mem a ∨ (a, v) ∈ (s.engine .play e).raced) →
      ∃ l, (fetchByte e a (s.setScript { s.env.script with picks := l })).1 = v) ∧
  (∀ (s : State) (e : Eng) (a : Nat) (v : Byte), Memory.read (storeByte a v s).mem a = v ∧
    ((storeByte a v s).engine .play e).raced =
      if (s.engine .play e).busy = true ∧ (s.engine .play e).covers a = true then
        (a, Memory.read s.mem a) :: (s.engine .play e).raced
      else (s.engine .play e).raced) ∧
  (∀ (s : State) (a : Nat), captureCovers s a = false → hostLoad a s = (Memory.read s.mem a, s)) ∧
  (∀ (s : State) (a : Nat), (hostLoad a s).1 = Memory.read (hostLoad a s).2.mem a ∧
    ((hostLoad a s).1 = Memory.read s.mem a ∨
      ∃ e, ((hostLoad a s).2.engine .record e).raced.lookup a = some (hostLoad a s).1)) ∧
  ∀ (s : State) (e : Eng) (a : Nat) (v : Byte), (s.engine .record e).owes a = true →
    (s.engine .record e.other).owes a = false →
    (∀ r, s.env.script.picks = 0 :: r → (hostLoad a s).1 = Memory.read s.mem a ∧
      ((hostLoad a s).2.engine .record e).owes a = true ∧ ((hostStore a v s).engine .record e).owes a = true) ∧
    ∀ k r b bs, s.env.script.picks = (k + 1) :: r → s.env.script.bytes = b :: bs →
      (hostLoad a s).1 = b ∧ ((hostLoad a s).2.engine .record e).raced = (a, b) :: (s.engine .record e).raced ∧
      Memory.read (hostStore a v s).mem a = v ∧ ((hostStore a v s).engine .record e).owes a = false

/-- An abandoned block is not done and gives way to a pending block, and some prefix of it has moved: of a playback block that raced with
nothing, its bytes delivered; of a capture block, its bytes stored and the rest of memory untouched, the prefix holding every byte it
had already written (`44_dma_engine.md` R274). -/
def Obligations.AbandonmentMovesAPrefix : Prop :=
  (∀ (s : State) (e : Eng), (s.engine .play e).busy = true → (s.engine .play e).inMemory = true →
    (s.engine .play e).raced = [] →
    (∀ i, i < (s.engine .play e).cnt.toNat → captureCovers s ((s.engine .play e).addr.toNat + i) = false) →
    ∃ k, k ≤ (s.engine .play e).cnt.toNat ∧ (∀ n r, s.env.script.counts = n :: r → n ≤ (s.engine .play e).cnt.toNat → k = n) ∧
      (abandonBlock .play e s).trace = s.trace ++ [.audioOut e (s.engine .play e).addr ((List.range k).map fun i =>
        Memory.read s.mem ((s.engine .play e).addr.toNat + i))] ∧
      (abandonBlock .play e s).play = { s.play with
        hw := { s.play.hw.modEng e (fun g => { g with busy := false, raced := [] }) with
          active := if s.play.hw.active = some e then (if (s.engine .play e.other).busy then some e.other else none)
            else s.play.hw.active } } ∧
      (abandonBlock .play e s).mem = s.mem ∧ (abandonBlock .play e s).record = s.record) ∧
  ∀ (s : State) (e : Eng), (s.engine .record e).busy = true → (s.engine .record e).inMemory = true →
    let g := s.engine .record e
    let t := abandonBlock .record e s
    ∃ bytes : List Byte, bytes.length ≤ g.cnt.toNat ∧
      (∀ i b, i < g.cnt.toNat → g.raced.lookup (g.addr.toNat + i) = some b → i < bytes.length ∧ bytes.getD i 0 = b ∧
        Memory.read t.mem (g.addr.toNat + i) = Memory.read s.mem (g.addr.toNat + i)) ∧
      (∀ i, i < bytes.length → g.raced.lookup (g.addr.toNat + i) = none →
        Memory.read t.mem (g.addr.toNat + i) = bytes.getD i 0) ∧
      (∀ a, a < g.addr.toNat ∨ g.addr.toNat + bytes.length ≤ a → Memory.read t.mem a = Memory.read s.mem a) ∧
      (∀ n r, g.raced = [] → s.env.script.counts = n :: r → n ≤ g.cnt.toNat → n ≤ s.env.script.bytes.length →
        bytes = s.env.script.bytes.take n) ∧
      t.trace = s.trace ++ [.audioIn e g.addr bytes] ∧
      t.record = { s.record with
        hw := { s.record.hw.modEng e (fun g => { g with busy := false, raced := [] }) with
          active := if s.record.hw.active = some e then (if (s.engine .record e.other).busy then some e.other else none)
            else s.record.hw.active } } ∧
      HwFrame s t

/-! ## The re-arm sequencer -/

/-- `IRQ.EVT` always completes with `OK` where running sessions are aligned: an unknown identity is only logged; a known one leaves
the host's state alone, records the sub-engine and leaves the channel enabled (`45_rearm_sequencer.md` R290). -/
def Obligations.SyntheticEventCompletes : Prop :=
  ∀ (s : State) (id : Word), s.inIrq = false →
    (3 < id.toNat → exec (.irqEvt id) s = .next (answered 0 0 { s with errlog := s.errlog ++ [.unknownIrq id] })) ∧
    ∀ d e, id = irqId d e → StreamsOk s → ∃ t, exec (.irqEvt id) s = .next (answered 0 0 t) ∧ t.inIrq = false ∧
      CtxFrame { s with seq := t.seq } t ∧ (t.dir d).lastServiced = some e ∧ (t.dir d).hw.en = true ∧
      (d = .play → MemStill s t)

/-- A completion within the bounds of a running session: the pointer advances by one period or to the end, one callback with the
new position, the next block of the period or what is left started on the sub-engine whose turn it is, the done bit cleared last
(`45_rearm_sequencer.md` R290, R295 to R298). First with neither sub-engine busy; then with one busy: the re-arm is refused with
`EBUSY`, which is logged, and nothing is programmed or started, while pointer, callback and done bit are as before; then both on any
controller, running or not, hardware agents moving between the register accesses. -/
def Obligations.CompletionWithinBounds : Prop :=
  (∀ (s : State) (d : Dir) (e : Eng), OrdinaryCall s d e → wellFormedBuffer (s.dir d) = true →
    (s.dir d).chan.running = true → (s.dir d).chan.cbValid = true → AlignedBuffer s.cfg (s.dir d).buf →
    (s.dir d).buf.current.toNat + (s.dir d).buf.period.toNat < (s.dir d).buf.start.toNat + (s.dir d).buf.size.toNat →
    let cur := (s.dir d).buf.current + (s.dir d).buf.period
    let left := (s.dir d).buf.start.toNat + (s.dir d).buf.size.toNat - cur.toNat
    let s1 := ((s.setDir d { s.dir d with oppStreak := 0 }).modBuf d fun b => { b with current := cur }).emit
      (.periodElapsed d (s.dir d).buf.ctx (cur - (s.dir d).buf.start))
    ∃ w, HardwareMoved (started d (turnOf (s.dir d)) (programmed d (turnOf (s.dir d)) cur
        (if (s.dir d).buf.period.toNat ≤ left then (s.dir d).buf.period else BitVec.ofNat 32 left) s1)) w ∧
      exec (.irqEvt (irqId d e)) s = .next (answered 0 0 (serviced d e w))) ∧
  ∀ (s : State) (d : Dir) (e : Eng), wellFormedBuffer (s.dir d) = true → (s.dir d).chan.running = true →
    (s.dir d).chan.cbValid = true →
    (s.dir d).buf.current.toNat + (s.dir d).buf.period.toNat < (s.dir d).buf.start.toNat + (s.dir d).buf.size.toNat →
    let cur := (s.dir d).buf.current + (s.dir d).buf.period
    let left := (s.dir d).buf.start.toNat + (s.dir d).buf.size.toNat - cur.toNat
    let called (k : Nat) (u : State) : State := ((u.setDir d { u.dir d with oppStreak := k }).modBuf d fun b =>
      { b with current := cur }).emit (.periodElapsed d (s.dir d).buf.ctx (cur - (s.dir d).buf.start))
    (QuietCall s d e → ((s.engine d .a).busy = true ∨ (s.engine d .b).busy = true) →
      exec (.irqEvt (irqId d e)) s =
        .next (answered 0 0 (serviced d e ((called (streakAfter s d e) s).log (.rearmRefused d .ebusy))))) ∧
    ((s.dir d).lastServiced ≠ some e → (s.dir d).oppStreak + 1 < s.cfg.oppBusyLimit →
      ∃ c u v, HardwareMoved (interrupted (.irqEvt (irqId d e)) s) c ∧ HardwareMoved c u ∧
        HardwareMoved (called (streakAfter c d e) u) v ∧
        RearmOutcome d e cur (if (s.dir d).buf.period.toNat ≤ left then (s.dir d).buf.period else BitVec.ofNat 32 left) v
          (exec (.irqEvt (irqId d e)) s))

/-- A completion at the end of a looping running session: one more traversal counted, the pointer back at the start, a callback
with position 0, the first block started again (`45_rearm_sequencer.md` R290, R296, R297). As for a completion within bounds: first
with neither sub-engine busy; then with one busy, the re-arm refused and that logged; then both on any controller. -/
def Obligations.CompletionWraps : Prop :=
  (∀ (s : State) (d : Dir) (e : Eng), OrdinaryCall s d e → wellFormedBuffer (s.dir d) = true →
    (s.dir d).chan.running = true → (s.dir d).chan.cbValid = true → AlignedBuffer s.cfg (s.dir d).buf →
    (s.dir d).buf.loop = true →
    (s.dir d).buf.start.toNat + (s.dir d).buf.size.toNat ≤ (s.dir d).buf.current.toNat + (s.dir d).buf.period.toNat →
    let s1 := ((s.setDir d { s.dir d with oppStreak := 0 }).modBuf d fun b =>
      { b with current := b.start, loopCount := b.loopCount + 1 }).emit (.periodElapsed d (s.dir d).buf.ctx 0)
    ∃ w, HardwareMoved (started d (turnOf (s.dir d)) (programmed d (turnOf (s.dir d)) (s.dir d).buf.start
        (s.dir d).buf.period s1)) w ∧
      exec (.irqEvt (irqId d e)) s = .next (answered 0 0 (serviced d e w))) ∧
  ∀ (s : State) (d : Dir) (e : Eng), wellFormedBuffer (s.dir d) = true → (s.dir d).chan.running = true →
    (s.dir d).chan.cbValid = true → (s.dir d).buf.loop = true →
    (s.dir d).buf.start.toNat + (s.dir d).buf.size.toNat ≤ (s.dir d).buf.current.toNat + (s.dir d).buf.period.toNat →
    let called (k : Nat) (u : State) : State := ((u.setDir d { u.dir d with oppStreak := k }).modBuf d fun b =>
      { b with current := b.start, loopCount := b.loopCount + 1 }).emit (.periodElapsed d (s.dir d).buf.ctx 0)
    (QuietCall s d e → ((s.engine d .a).busy = true ∨ (s.engine d .b).busy = true) →
      exec (.irqEvt (irqId d e)) s =
        .next (answered 0 0 (serviced d e ((called (streakAfter s d e) s).log (.rearmRefused d .ebusy))))) ∧
    ((s.dir d).lastServiced ≠ some e → (s.dir d).oppStreak + 1 < s.cfg.oppBusyLimit →
      ∃ c u v, HardwareMoved (interrupted (.irqEvt (irqId d e)) s) c ∧ HardwareMoved c u ∧
        HardwareMoved (called (streakAfter c d e) u) v ∧
        RearmOutcome d e (s.dir d).buf.start (s.dir d).buf.period v (exec (.irqEvt (irqId d e)) s))

/-- Completions that start nothing: at the end of a non-looping running session the pointer stands at the end, the traversal is
counted and a last callback carries the buffer's size; with `running` = 0 the pointer and the counter move and nothing else
happens; a malformed descriptor is logged and the step aborted; each time the done bit is cleared, whichever sub-engine is busy
(`45_rearm_sequencer.md` R290, R294, R298, R299). -/
def Obligations.CompletionStartsNothing : Prop :=
  ∀ (s : State) (d : Dir) (e : Eng), QuietCall s d e →
    let b := (s.dir d).buf
    let s0 := s.setDir d { s.dir d with oppStreak := streakAfter s d e }
    let ended := s0.modBuf d fun b => { b with current := b.start + b.size, loopCount := b.loopCount + 1 }
    let atEnd := b.start.toNat + b.size.toNat ≤ b.current.toNat + b.period.toNat
    (wellFormedBuffer (s.dir d) = false →
      exec (.irqEvt (irqId d e)) s = .next (answered 0 0 (serviced d e (s0.log (.malformedDescriptor d))))) ∧
    (wellFormedBuffer (s.dir d) = true → (s.dir d).chan.running = true → (s.dir d).chan.cbValid = true → b.loop = false →
      atEnd → exec (.irqEvt (irqId d e)) s =
        .next (answered 0 0 (serviced d e (ended.emit (.periodElapsed d b.ctx b.size))))) ∧
    (wellFormedBuffer (s.dir d) = true → (s.dir d).chan.running = false → atEnd →
      exec (.irqEvt (irqId d e)) s = .next (answered 0 0 (serviced d e ended))) ∧
    (wellFormedBuffer (s.dir d) = true → (s.dir d).chan.running = false → ¬ atEnd →
      exec (.irqEvt (irqId d e)) s = .next (answered 0 0 (serviced d e (s0.modBuf d fun b =>
        { b with current := b.current + b.period }))))

/-- The locked-engine recovery path (`45_rearm_sequencer.md` R293): the same sub-engine twice in a row, or the opposite one busy for
the limit of consecutive completions, resets that one sub-engine, takes 1 ms and logs the anomaly; the other sub-engine's registers,
the enable and the descriptors are untouched. First exactly, where nothing else moves and the descriptor is not in use, so that the
rest of the handler only logs; then the reset of any sub-engine on any controller, running or not: a busy one is abandoned; then the
two tests on any controller; then a repeated completion in a running session on any controller, the sub-engine busy or not: it is
reset, and the completion that was signalled is processed. That the delay is exactly 1 ms, its minimum, is the model's choice
(notes/assumptions/4). -/
def Obligations.RecoveryResetsOneEngine : Prop :=
  (∀ (s : State) (d : Dir) (e : Eng), s.inIrq = false → HwQuiet s → (s.dir d).chan.bufferRef = false → s.l3.busy = false →
    1 < s.cfg.oppBusyLimit →
    ((s.dir d).lastServiced = some e → (s.engine d e).busy = false → (s.engine d e.other).busy = false →
      let s1 := s.modEngine d e fun g => { g with done := false, addr := 0, cnt := 0 }
      let s2 := s1.setDir d { s1.dir d with oppStreak := 0 }
      exec (.irqEvt (irqId d e)) s = .next (answered 0 0 (serviced d e { s2 with
        errlog := s.errlog ++ [.repeatCompletion d e, .malformedDescriptor d]
        env := { s.env with now := s.env.now + 1 } }))) ∧
    ((s.dir d).lastServiced ≠ some e → (s.engine d e.other).busy = true →
      s.cfg.oppBusyLimit ≤ (s.dir d).oppStreak + 1 →
      ∃ t, exec (.irqEvt (irqId d e)) s = .next (answered 0 0 t) ∧
        t.errlog = s.errlog ++ [.stuckBusy d e.other, .malformedDescriptor d] ∧
        (t.engine d e.other).busy = false ∧ (t.engine d e.other).done = false ∧ (t.engine d e.other).addr = 0 ∧
        (t.engine d e.other).cnt = 0 ∧ (t.engine d e).addr = (s.engine d e).addr ∧ (t.engine d e).cnt = (s.engine d e).cnt ∧
        (t.dir d).oppStreak = 0 ∧ (t.dir d).chan = (s.dir d).chan ∧ (t.dir d).buf = (s.dir d).buf ∧
        t.env.now = s.env.now + 1)) ∧
  (∀ (s : State) (d : Dir) (x : Eng), let r := recoverEngine d x s
    (r.engine d x).busy = false ∧ (r.engine d x).done = false ∧ (r.engine d x).addr = 0 ∧ (r.engine d x).cnt = 0 ∧
    (∃ l, r.trace = (abandonBlock d x s).trace ++ l) ∧
    (∀ d' e', (d', e') ≠ (d, x) → (r.engine d' e').addr = (s.engine d' e').addr ∧ (r.engine d' e').cnt = (s.engine d' e').cnt ∧
      ((s.engine d' e').done = true → (r.engine d' e').done = true)) ∧
    (∀ d', (r.dir d').hw.en = (s.dir d').hw.en ∧ (r.dir d').chan = (s.dir d').chan ∧ (r.dir d').buf = (s.dir d').buf ∧
      (r.dir d').lastServiced = (s.dir d').lastServiced ∧
      (r.dir d').oppStreak = if d' = d then 0 else (s.dir d').oppStreak) ∧
    r.errlog = s.errlog ∧ r.mirror = s.mirror ∧ r.port = s.port ∧ r.cfg = s.cfg ∧ r.env.now = s.env.now + 1) ∧
  (∀ (s : State) (d : Dir) (e : Eng), let t := recoveryChecks d e s
    ∃ stuck : Bool,
      t.errlog = s.errlog ++ (if (s.dir d).lastServiced = some e then [.repeatCompletion d e] else []) ++
        (if stuck then [.stuckBusy d e.other] else []) ∧
      t.env.now = s.env.now + (if (s.dir d).lastServiced = some e then 1 else 0) + (if stuck then 1 else 0) ∧
      ((s.dir d).lastServiced = some e → (t.engine d e).busy = false ∧ (t.engine d e).done = false ∧
        (t.engine d e).addr = 0 ∧ (t.engine d e).cnt = 0) ∧
      ((s.dir d).lastServiced ≠ some e → (t.engine d e).addr = (s.engine d e).addr ∧ (t.engine d e).cnt = (s.engine d e).cnt) ∧
      (stuck = true → (t.engine d e.other).busy = false ∧ (t.engine d e.other).done = false ∧
        (t.engine d e.other).addr = 0 ∧ (t.engine d e.other).cnt = 0 ∧ (t.dir d).oppStreak = 0 ∧
        s.cfg.oppBusyLimit ≤ (if (s.dir d).lastServiced = some e then 1 else (s.dir d).oppStreak + 1)) ∧
      (stuck = false → (t.engine d e.other).addr = (s.engine d e.other).addr ∧
        (t.engine d e.other).cnt = (s.engine d e.other).cnt ∧ (t.dir d).oppStreak < s.cfg.oppBusyLimit) ∧
      (HwQuiet s → (stuck = true ↔ s.cfg.oppBusyLimit ≤ if (s.engine d e.other).busy = true then
        (if (s.dir d).lastServiced = some e then 1 else (s.dir d).oppStreak + 1) else 0)) ∧
      ∀ d', (t.dir d').hw.en = (s.dir d').hw.en ∧ (t.dir d').chan = (s.dir d').chan ∧ (t.dir d').buf = (s.dir d').buf ∧
        (t.dir d').lastServiced = (s.dir d').lastServiced) ∧
  ∀ (s : State) (d : Dir) (e : Eng), (s.dir d).lastServiced = some e → 0 < s.cfg.oppBusyLimit →
    (s.engine d e.other).busy = false → wellFormedBuffer (s.dir d) = true → (s.dir d).chan.running = true →
    (s.dir d).chan.cbValid = true → AlignedBuffer s.cfg (s.dir d).buf →
    (s.dir d).buf.current.toNat + (s.dir d).buf.period.toNat < (s.dir d).buf.start.toNat + (s.dir d).buf.size.toNat →
    let cur := (s.dir d).buf.current + (s.dir d).buf.period
    let left := (s.dir d).buf.start.toNat + (s.dir d).buf.size.toNat - cur.toNat
    ∃ u v w x, HardwareMoved (interrupted (.irqEvt (irqId d e)) s) u ∧
      HardwareMoved ((((recoverEngine d e u).log (.repeatCompletion d e)).modBuf d fun b => { b with current := cur }).emit
        (.periodElapsed d (s.dir d).buf.ctx (cur - (s.dir d).buf.start))) v ∧
      HardwareMoved (programmed d (turnOf (s.dir d)) cur
        (if (s.dir d).buf.period.toNat ≤ left then (s.dir d).buf.period else BitVec.ofNat 32 left) v) w ∧
      HardwareMoved (started d (turnOf (s.dir d)) w) x ∧
      exec (.irqEvt (irqId d e)) s = .next (answered 0 0 { serviced d e x with inIrq := false })

/-- Delivery: a deliverable line taken by the sequencer runs the handler to its end, disturbs nothing of the host's and leaves
normal context; in interrupt context no line is deliverable (`60_exceptions.md` R345 to R348, `10_state.md` R22). What the handler
does is what `IRQ.EVT` of the line's identity does from the same state (`60_exceptions.md` R346), up to what the operation's completion
writes: `x[5]`, `x[6]` and the end of the host operation; where it faults, so does the delivery. -/
def Obligations.DeliveryLeavesTheHostAlone : Prop :=
  (∀ (s : State) (d : Dir) (e : Eng), s.inIrq = true → deliverable s d e = false) ∧
  (∀ (s : State) (d : Dir) (e : Eng), Actor.line d e ∈ actors s ↔
    ((s.engine d e).done = true ∧ (s.dir d).chan.bound e = true ∧ s.inIrq = false)) ∧
  (∀ (s s1 : State) (d : Dir) (e : Eng) (j : Nat), s.cfg.chipAddr ≠ 0 → StreamsOk s → (actors s)[j]? = some (.line d e) →
    drawPick s = (j + 1, s1) → ∃ t, step s = .next t ∧ CtxFrame s t ∧ (t.dir d).lastServiced = some e ∧
      exec (.irqEvt (irqId d e)) s1 = .next (answered 0 0 t)) ∧
  ∀ (s s1 : State) (d : Dir) (e : Eng) (j : Nat), s.cfg.chipAddr ≠ 0 → (actors s)[j]? = some (.line d e) →
    drawPick s = (j + 1, s1) →
    (∀ t, step s = .next t → t.port = s.port ∧ t.seq = { s.seq with recoveryDelay := false } ∧ t.inIrq = false ∧
      exec (.irqEvt (irqId d e)) s1 = .next (answered 0 0 t)) ∧
    (∀ f, step s = .fault f ↔ exec (.irqEvt (irqId d e)) s1 = .fault f) ∧ ∀ r, step s ≠ .refused r

/-- A synthetic completion event makes at most one of the session's transitions: the phase stays or moves along one of the listed
edges (`10_state.md` R78, `45_rearm_sequencer.md` R291).
The wrap of the 32-bit loop counter, which the rule's phase names do not cover, is excluded. -/
def Obligations.OneTransitionPerCall : Prop :=
  ∀ (s t : State) (id : Word) (d : Dir) (p q : Phase), StreamInv s → exec (.irqEvt id) s = .next t →
    (s.dir d).buf.loopCount ≠ 0xFFFFFFFF → phase (s.dir d) = some p → phase (t.dir d) = some q →
    p = q ∨ (p, q) ∈ [(Phase.armed, Phase.running), (.running, .looping), (.running, .stopped), (.armed, .looping),
      (.armed, .stopped)]

/-! ## The streaming session -/

/-- `CH.OPEN` on a closed direction sets its software fields back and opens it, on an open one is `EBUSY`; `CH.CLOSE` on a direction
that is not running closes it, on a running one is `EBUSY`; no register and no binding is touched; a direction above 1 is `EINVAL`
(`46_streaming_session.md` R310, R311). -/
def Obligations.ChannelOpenAndClose : Prop :=
  ∀ (s : State) (d : Dir),
    (∀ sel : Byte, 2 ≤ sel.toNat → exec (.chOpen sel) s = .next (answered 0 1 s)) ∧
    (∀ sel : Byte, 2 ≤ sel.toNat → exec (.chClose sel) s = .next (answered 0 1 s)) ∧
    ((s.dir d).chan.inUse = true → exec (.chOpen (selDir d)) s = .next (answered 0 2 s)) ∧
    ((s.dir d).chan.inUse = false → exec (.chOpen (selDir d)) s = .next (answered 0 0 (s.setDir d { s.dir d with
      chan := ⟨true, false, 0, false, false, (s.dir d).chan.boundA, (s.dir d).chan.boundB⟩
      lastServiced := none
      oppStreak := 0 }))) ∧
    ((s.dir d).chan.running = true → exec (.chClose (selDir d)) s = .next (answered 0 2 s)) ∧
    ((s.dir d).chan.running = false → exec (.chClose (selDir d)) s = .next (answered 0 0 (s.setDir d { s.dir d with
      chan := { (s.dir d).chan with inUse := false } })))

/-- `SES.ARM`: `EBUSY` on a running direction, then `EINVAL` for bad geometry, with nothing changed; else the descriptor stored, the
session running and the first block started; a first start that is refused is rolled back and its status returned; a first block
the hardware gives no meaning is a fault; a direction above 1 is `EINVAL` (`46_streaming_session.md` R312). -/
def Obligations.ArmStartsASession : Prop :=
  ∀ (s : State) (d : Dir) (l : Bool) (start size period ctx : Word),
    let good := size ≠ 0 ∧ period ≠ 0 ∧ period.toNat ≤ size.toNat ∧ start.toNat + size.toNat < 4294967296
    let armed (u : State) := u.setDir d { u.dir d with
      buf := ⟨size, start, start, period, l, 0, ctx⟩
      chan := { (u.dir d).chan with bufferRef := true, cbValid := true, running := true } }
    (∀ sel : Byte, 2 ≤ sel.toNat → exec (.sesArm sel l start size period ctx) s = .next (answered 0 1 s)) ∧
    ((s.dir d).chan.running = true → exec (.sesArm (selDir d) l start size period ctx) s = .next (answered 0 2 s)) ∧
    ((s.dir d).chan.running = false → good → (s.engine d .a).busy = false → (s.engine d .b).busy = false →
      BlockOk s.cfg start period → ∃ t, exec (.sesArm (selDir d) l start size period ctx) s =
        .next (answered 0 0 (started d (turnOf (s.dir d)) t)) ∧ (t.dir d).chan.running = true) ∧
    ((s.dir d).chan.running = false → ¬ good →
      exec (.sesArm (selDir d) l start size period ctx) s = .next (answered 0 1 s)) ∧
    ((s.dir d).chan.running = false → good → ∃ u, HardwareMoved (armed s) u ∧
      (((u.engine d .a).busy = true ∨ (u.engine d .b).busy = true) →
        exec (.sesArm (selDir d) l start size period ctx) s = .next (answered 0 2 (u.modChan d fun c =>
          { c with running := false, bufferRef := false, cbValid := false }))) ∧
      ((u.engine d .a).busy = false → (u.engine d .b).busy = false →
        (BlockOk s.cfg start period → ∃ w, HardwareMoved (programmed d (turnOf (s.dir d)) start period u) w ∧
          exec (.sesArm (selDir d) l start size period ctx) s = .next (answered 0 0 (started d (turnOf (s.dir d)) w))) ∧
        (¬ BlockOk s.cfg start period →
          exec (.sesArm (selDir d) l start size period ctx) s = .fault (.reserved .notStartable))))

/-- `SES.STOP` always completes with `OK` where running sessions are aligned: no longer running, both lines released, the
descriptor gone and its pointer reset; the in-use mark and the start counter kept; no block of the direction started, and none in
flight aborted: it is in flight still, or has moved whole, or was recovered by the handler of a completion that came while it
waited (`45_rearm_sequencer.md` R293); with nothing ever started and nothing in progress it takes exactly the bound; a direction
above 1 is `EINVAL` (`46_streaming_session.md` R313). That each wait lasts exactly its minimum is the model's choice
(notes/assumptions/4). So is the order of its `IrqUnbind` events: that no hardware agent's event falls between its last register
access and them, or between the two, is the model's choice (notes/assumptions/3), which R121 (a) leaves open. -/
def Obligations.StopEndsASession : Prop :=
  ∀ (s : State) (d : Dir), s.inIrq = false → StreamsOk s →
    (∀ sel : Byte, 2 ≤ sel.toNat → exec (.sesStop sel) s = .next (answered 0 1 s)) ∧
    (∃ u t : State, CtxFrame ((s.modChan d fun c => { c with running := false })) { u with seq := s.seq } ∧
      exec (.sesStop (selDir d)) s = .next (answered 0 0 t) ∧ MemStill s t ∧
      t = ({ u with trace := u.trace ++
          (if (s.dir d).chan.boundA then [Event.irqUnbind d .a] else []) ++
          (if (s.dir d).chan.boundB then [Event.irqUnbind d .b] else []) }).setDir d { u.dir d with
        chan := { (u.dir d).chan with boundA := false, boundB := false, bufferRef := false, cbValid := false }
        buf := { (u.dir d).buf with current := (s.dir d).buf.start } } ∧
      (t.dir d).chan.generation = (s.dir d).chan.generation ∧
      (∀ e, (t.engine d e).busy = true → (s.engine d e).busy = true) ∧ NoneAborted s t) ∧
    (Quiet s → (s.dir d).chan.generation = 0 →
      exec (.sesStop (selDir d)) s = .next (answered 0 0 (({ s with
        trace := s.trace ++ (if (s.dir d).chan.boundA then [Event.irqUnbind d .a] else []) ++
          (if (s.dir d).chan.boundB then [Event.irqUnbind d .b] else [])
        env := { s.env with now := s.env.now + s.cfg.stopPollMax * s.cfg.tStopPoll } }).setDir d { s.dir d with
          chan := { (s.dir d).chan with
            running := false, boundA := false, boundB := false, bufferRef := false, cbValid := false }
          buf := { (s.dir d).buf with current := (s.dir d).buf.start } })))

/-- `SES.POS` answers the pointer's offset from the start, 0 without a session, and changes nothing else; a direction above 1
is `EINVAL` (`46_streaming_session.md` R314). -/
def Obligations.PositionIsTheOffset : Prop :=
  ∀ (s : State) (d : Dir),
    (∀ sel : Byte, 2 ≤ sel.toNat → exec (.sesPos sel) s = .next (answered 0 1 s)) ∧
    ((s.dir d).chan.bufferRef = false → exec (.sesPos (selDir d)) s = .next (answered 0 0 s)) ∧
    ((s.dir d).chan.bufferRef = true →
      exec (.sesPos (selDir d)) s = .next (answered ((s.dir d).buf.current - (s.dir d).buf.start) 0 s)) ∧
    (StreamInv s → (s.dir d).chan.bufferRef = true →
      ((s.dir d).buf.current - (s.dir d).buf.start).toNat = (s.dir d).buf.current.toNat - (s.dir d).buf.start.toNat ∧
      ((s.dir d).buf.current - (s.dir d).buf.start).toNat ≤ (s.dir d).buf.size.toNat)

/-! ## Invariants and whole-machine rules -/

/-- Every step keeps host memory in its canonical form. The form is the model's own (DESIGN CHOICE, notes/assumptions/5): it stands for
the "any content; reset does not change it" of `70_reset_and_hazards.md` R370. -/
def Obligations.StepKeepsMemoryCanonical : Prop :=
  ∀ s t : State, MemInv s → step s = .next t → MemInv t

/-- Every step keeps the reserved bits of the registers 0 and the read-done bit clear (`10_state.md` R41, R44). -/
def Obligations.StepKeepsReservedBits : Prop :=
  ∀ s t : State, RegsInv s → step s = .next t → RegsInv t

/-- Every step keeps the DMA hardware consistent: something is active exactly while something is busy, and every block in flight is
one the hardware gives a meaning (`10_state.md` R57, R60, R80). -/
def Obligations.StepKeepsDmaConsistent : Prop :=
  ∀ s t : State, DmaInv s → step s = .next t → DmaInv t

/-- Every step ends in normal context with the lock free and no operation in progress (`60_exceptions.md` R347, R348,
`41_control_bus.md` R180; that an operation is one step is notes/assumptions/2). -/
def Obligations.StepEndsInNormalContext : Prop :=
  ∀ s t : State, ContextInv s → step s = .next t → ContextInv t

/-- Every step keeps the buffer invariant and the bound of the streak counter, and with them the strict bound of the pointer of a
running looping session (`10_state.md` R77, R81, `90_conflicts.md` C7). -/
def Obligations.StepKeepsBufferInvariant : Prop :=
  (∀ s t : State, StreamInv s → step s = .next t → StreamInv t) ∧
  ∀ s t : State, StreamInv s → LoopInv s → step s = .next t → LoopInv t

/-- Every step keeps the mirror's layout (`42_codec_model.md` R201). -/
def Obligations.StepKeepsMirrorLayout : Prop :=
  ∀ s t : State, LayoutConfig s.cfg → MirrorLayout s.mirror → step s = .next t → MirrorLayout t.mirror ∧ t.cfg = s.cfg

/-- No operation writes `x[0..4]` or the configuration; an operation that completes has written its result and status and leaves
`seq` at `IDLE`; the output trace and the error log only grow (`10_state.md` R21, R24, R86, R96). -/
def Obligations.WhatNoOperationChanges : Prop :=
  ∀ (i : Instr) (s t : State), exec i s = .next t →
    t.port = { s.port with res := t.port.res, sts := t.port.sts, pending := false } ∧ t.port.sts.toNat ≤ 4 ∧
    t.seq = ⟨none, none, none, false⟩ ∧ t.cfg = s.cfg ∧ t.env.host = s.env.host ∧
    (∃ l, t.trace = s.trace ++ l) ∧ ∃ l, t.errlog = s.errlog ++ l

/-- Forward progress: in a weakly fair run whose host is idle, a block in flight that can move does move, and a deliverable line is
delivered or falls (`20_memory.md` R127, `60_exceptions.md` R345, `44_dma_engine.md` R271). Fairness is a premise on runs, not a
property of the step (notes/assumptions/3). And no progress without its condition: a busy sub-engine whose direction cannot run is
stuck (`44_dma_engine.md` R270): no hardware step moves it before a register access, nor in any step with an idle host and no line of
its own direction to deliver, after which its direction still cannot run. -/
def Obligations.FairRunsProgress : Prop :=
  (∀ (r : Nat → State) (n : Nat), IsRun r → WeaklyFair r → HostIdle (r n) →
    (∀ d, engineEnabled (r n) d = true → ∃ m, n ≤ m ∧ Acted (.engine d) (r m) (r (m + 1))) ∧
    ∀ d e, deliverable (r n) d e = true → ∃ m, n ≤ m ∧
      ((choose (r m)).1 = some (.line d e) ∨ deliverable (r m) d e = false)) ∧
  ∀ (s : State) (d : Dir) (e : Eng), (s.engine d e).busy = true → dmaCanRun s d = false →
    HwAgent.engine d ∉ hwAgents s ∧ StaysInFlight d e s (hw s) ∧
    ∀ t, HostIdle s → (∀ e', deliverable s d e' = false) → step s = .next t →
      StaysInFlight d e s t ∧ dmaCanRun t d = false
end

