-- ==== Sys2Proof/Laws/State.lean ====
section
/-! SUPPORT. One lemma per field per named update of the state, and the lemmas of the per-direction accessors, so that no proof
unfolds a record update. -/

namespace Sys2Proof.Machine

/-! ### State.countDraw -/

@[simp] theorem State.countDraw_port (s : State) : (s.countDraw).port = s.port := rfl
@[simp] theorem State.countDraw_seq (s : State) : (s.countDraw).seq = s.seq := rfl
@[simp] theorem State.countDraw_regs (s : State) : (s.countDraw).regs = s.regs := rfl
@[simp] theorem State.countDraw_mirror (s : State) : (s.countDraw).mirror = s.mirror := rfl
@[simp] theorem State.countDraw_play (s : State) : (s.countDraw).play = s.play := rfl
@[simp] theorem State.countDraw_record (s : State) : (s.countDraw).record = s.record := rfl
@[simp] theorem State.countDraw_l3 (s : State) : (s.countDraw).l3 = s.l3 := rfl
@[simp] theorem State.countDraw_inIrq (s : State) : (s.countDraw).inIrq = s.inIrq := rfl
@[simp] theorem State.countDraw_codec (s : State) : (s.countDraw).codec = s.codec := rfl
@[simp] theorem State.countDraw_errlog (s : State) : (s.countDraw).errlog = s.errlog := rfl
@[simp] theorem State.countDraw_trace (s : State) : (s.countDraw).trace = s.trace := rfl
@[simp] theorem State.countDraw_mem (s : State) : (s.countDraw).mem = s.mem := rfl
@[simp] theorem State.countDraw_cfg (s : State) : (s.countDraw).cfg = s.cfg := rfl
@[simp] theorem State.countDraw_env (s : State) : (s.countDraw).env = { s.env with draws := s.env.draws + 1 } := rfl
@[simp] theorem State.countDraw_dir (s : State) (d : Dir) : (s.countDraw).dir d = s.dir d := by cases d <;> rfl

/-! ### State.setScript -/

@[simp] theorem State.setScript_port (x : Script) (s : State) : (s.setScript x).port = s.port := rfl
@[simp] theorem State.setScript_seq (x : Script) (s : State) : (s.setScript x).seq = s.seq := rfl
@[simp] theorem State.setScript_regs (x : Script) (s : State) : (s.setScript x).regs = s.regs := rfl
@[simp] theorem State.setScript_mirror (x : Script) (s : State) : (s.setScript x).mirror = s.mirror := rfl
@[simp] theorem State.setScript_play (x : Script) (s : State) : (s.setScript x).play = s.play := rfl
@[simp] theorem State.setScript_record (x : Script) (s : State) : (s.setScript x).record = s.record := rfl
@[simp] theorem State.setScript_l3 (x : Script) (s : State) : (s.setScript x).l3 = s.l3 := rfl
@[simp] theorem State.setScript_inIrq (x : Script) (s : State) : (s.setScript x).inIrq = s.inIrq := rfl
@[simp] theorem State.setScript_codec (x : Script) (s : State) : (s.setScript x).codec = s.codec := rfl
@[simp] theorem State.setScript_errlog (x : Script) (s : State) : (s.setScript x).errlog = s.errlog := rfl
@[simp] theorem State.setScript_trace (x : Script) (s : State) : (s.setScript x).trace = s.trace := rfl
@[simp] theorem State.setScript_mem (x : Script) (s : State) : (s.setScript x).mem = s.mem := rfl
@[simp] theorem State.setScript_cfg (x : Script) (s : State) : (s.setScript x).cfg = s.cfg := rfl
@[simp] theorem State.setScript_env (x : Script) (s : State) : (s.setScript x).env = { s.env with script := x } := rfl
@[simp] theorem State.setScript_dir (x : Script) (s : State) (d : Dir) : (s.setScript x).dir d = s.dir d := by cases d <;> rfl

/-! ### State.emit -/

@[simp] theorem State.emit_port (ev : Event) (s : State) : (s.emit ev).port = s.port := rfl
@[simp] theorem State.emit_seq (ev : Event) (s : State) : (s.emit ev).seq = s.seq := rfl
@[simp] theorem State.emit_regs (ev : Event) (s : State) : (s.emit ev).regs = s.regs := rfl
@[simp] theorem State.emit_mirror (ev : Event) (s : State) : (s.emit ev).mirror = s.mirror := rfl
@[simp] theorem State.emit_play (ev : Event) (s : State) : (s.emit ev).play = s.play := rfl
@[simp] theorem State.emit_record (ev : Event) (s : State) : (s.emit ev).record = s.record := rfl
@[simp] theorem State.emit_l3 (ev : Event) (s : State) : (s.emit ev).l3 = s.l3 := rfl
@[simp] theorem State.emit_inIrq (ev : Event) (s : State) : (s.emit ev).inIrq = s.inIrq := rfl
@[simp] theorem State.emit_codec (ev : Event) (s : State) : (s.emit ev).codec = s.codec := rfl
@[simp] theorem State.emit_errlog (ev : Event) (s : State) : (s.emit ev).errlog = s.errlog := rfl
@[simp] theorem State.emit_trace (ev : Event) (s : State) : (s.emit ev).trace = s.trace ++ [ev] := rfl
@[simp] theorem State.emit_mem (ev : Event) (s : State) : (s.emit ev).mem = s.mem := rfl
@[simp] theorem State.emit_cfg (ev : Event) (s : State) : (s.emit ev).cfg = s.cfg := rfl
@[simp] theorem State.emit_env (ev : Event) (s : State) : (s.emit ev).env = s.env := rfl
@[simp] theorem State.emit_dir (ev : Event) (s : State) (d : Dir) : (s.emit ev).dir d = s.dir d := by cases d <;> rfl

/-! ### State.log -/

@[simp] theorem State.log_port (r : LogRecord) (s : State) : (s.log r).port = s.port := rfl
@[simp] theorem State.log_seq (r : LogRecord) (s : State) : (s.log r).seq = s.seq := rfl
@[simp] theorem State.log_regs (r : LogRecord) (s : State) : (s.log r).regs = s.regs := rfl
@[simp] theorem State.log_mirror (r : LogRecord) (s : State) : (s.log r).mirror = s.mirror := rfl
@[simp] theorem State.log_play (r : LogRecord) (s : State) : (s.log r).play = s.play := rfl
@[simp] theorem State.log_record (r : LogRecord) (s : State) : (s.log r).record = s.record := rfl
@[simp] theorem State.log_l3 (r : LogRecord) (s : State) : (s.log r).l3 = s.l3 := rfl
@[simp] theorem State.log_inIrq (r : LogRecord) (s : State) : (s.log r).inIrq = s.inIrq := rfl
@[simp] theorem State.log_codec (r : LogRecord) (s : State) : (s.log r).codec = s.codec := rfl
@[simp] theorem State.log_errlog (r : LogRecord) (s : State) : (s.log r).errlog = s.errlog ++ [r] := rfl
@[simp] theorem State.log_trace (r : LogRecord) (s : State) : (s.log r).trace = s.trace := rfl
@[simp] theorem State.log_mem (r : LogRecord) (s : State) : (s.log r).mem = s.mem := rfl
@[simp] theorem State.log_cfg (r : LogRecord) (s : State) : (s.log r).cfg = s.cfg := rfl
@[simp] theorem State.log_env (r : LogRecord) (s : State) : (s.log r).env = s.env := rfl
@[simp] theorem State.log_dir (r : LogRecord) (s : State) (d : Dir) : (s.log r).dir d = s.dir d := by cases d <;> rfl

/-! ### finish -/

@[simp] theorem finish_port (v : Word) (st : Status) (s : State) : (finish v st s).port = { s.port with res := v, sts := st.code, pending := false } := rfl
@[simp] theorem finish_seq (v : Word) (st : Status) (s : State) : (finish v st s).seq = Seq.idle := rfl
@[simp] theorem finish_regs (v : Word) (st : Status) (s : State) : (finish v st s).regs = s.regs := rfl
@[simp] theorem finish_mirror (v : Word) (st : Status) (s : State) : (finish v st s).mirror = s.mirror := rfl
@[simp] theorem finish_play (v : Word) (st : Status) (s : State) : (finish v st s).play = s.play := rfl
@[simp] theorem finish_record (v : Word) (st : Status) (s : State) : (finish v st s).record = s.record := rfl
@[simp] theorem finish_l3 (v : Word) (st : Status) (s : State) : (finish v st s).l3 = s.l3 := rfl
@[simp] theorem finish_inIrq (v : Word) (st : Status) (s : State) : (finish v st s).inIrq = s.inIrq := rfl
@[simp] theorem finish_codec (v : Word) (st : Status) (s : State) : (finish v st s).codec = s.codec := rfl
@[simp] theorem finish_errlog (v : Word) (st : Status) (s : State) : (finish v st s).errlog = s.errlog := rfl
@[simp] theorem finish_trace (v : Word) (st : Status) (s : State) : (finish v st s).trace = s.trace := rfl
@[simp] theorem finish_mem (v : Word) (st : Status) (s : State) : (finish v st s).mem = s.mem := rfl
@[simp] theorem finish_cfg (v : Word) (st : Status) (s : State) : (finish v st s).cfg = s.cfg := rfl
@[simp] theorem finish_env (v : Word) (st : Status) (s : State) : (finish v st s).env = s.env := rfl
@[simp] theorem finish_dir (v : Word) (st : Status) (s : State) (d : Dir) : (finish v st s).dir d = s.dir d := by cases d <;> rfl

/-! ### enterInterrupt -/

@[simp] theorem enterInterrupt_port (s : State) : (enterInterrupt s).port = s.port := rfl
@[simp] theorem enterInterrupt_seq (s : State) : (enterInterrupt s).seq = s.seq := rfl
@[simp] theorem enterInterrupt_regs (s : State) : (enterInterrupt s).regs = s.regs := rfl
@[simp] theorem enterInterrupt_mirror (s : State) : (enterInterrupt s).mirror = s.mirror := rfl
@[simp] theorem enterInterrupt_play (s : State) : (enterInterrupt s).play = s.play := rfl
@[simp] theorem enterInterrupt_record (s : State) : (enterInterrupt s).record = s.record := rfl
@[simp] theorem enterInterrupt_l3 (s : State) : (enterInterrupt s).l3 = s.l3 := rfl
@[simp] theorem enterInterrupt_inIrq (s : State) : (enterInterrupt s).inIrq = true := rfl
@[simp] theorem enterInterrupt_codec (s : State) : (enterInterrupt s).codec = s.codec := rfl
@[simp] theorem enterInterrupt_errlog (s : State) : (enterInterrupt s).errlog = s.errlog := rfl
@[simp] theorem enterInterrupt_trace (s : State) : (enterInterrupt s).trace = s.trace := rfl
@[simp] theorem enterInterrupt_mem (s : State) : (enterInterrupt s).mem = s.mem := rfl
@[simp] theorem enterInterrupt_cfg (s : State) : (enterInterrupt s).cfg = s.cfg := rfl
@[simp] theorem enterInterrupt_env (s : State) : (enterInterrupt s).env = s.env := rfl
@[simp] theorem enterInterrupt_dir (s : State) (d : Dir) : (enterInterrupt s).dir d = s.dir d := by cases d <;> rfl

/-! ### exitInterrupt -/

@[simp] theorem exitInterrupt_port (s : State) : (exitInterrupt s).port = s.port := rfl
@[simp] theorem exitInterrupt_seq (s : State) : (exitInterrupt s).seq = { s.seq with recoveryDelay := false } := rfl
@[simp] theorem exitInterrupt_regs (s : State) : (exitInterrupt s).regs = s.regs := rfl
@[simp] theorem exitInterrupt_mirror (s : State) : (exitInterrupt s).mirror = s.mirror := rfl
@[simp] theorem exitInterrupt_play (s : State) : (exitInterrupt s).play = s.play := rfl
@[simp] theorem exitInterrupt_record (s : State) : (exitInterrupt s).record = s.record := rfl
@[simp] theorem exitInterrupt_l3 (s : State) : (exitInterrupt s).l3 = s.l3 := rfl
@[simp] theorem exitInterrupt_inIrq (s : State) : (exitInterrupt s).inIrq = false := rfl
@[simp] theorem exitInterrupt_codec (s : State) : (exitInterrupt s).codec = s.codec := rfl
@[simp] theorem exitInterrupt_errlog (s : State) : (exitInterrupt s).errlog = s.errlog := rfl
@[simp] theorem exitInterrupt_trace (s : State) : (exitInterrupt s).trace = s.trace := rfl
@[simp] theorem exitInterrupt_mem (s : State) : (exitInterrupt s).mem = s.mem := rfl
@[simp] theorem exitInterrupt_cfg (s : State) : (exitInterrupt s).cfg = s.cfg := rfl
@[simp] theorem exitInterrupt_env (s : State) : (exitInterrupt s).env = s.env := rfl
@[simp] theorem exitInterrupt_dir (s : State) (d : Dir) : (exitInterrupt s).dir d = s.dir d := by cases d <;> rfl

/-! ### issuePacket -/

@[simp] theorem issuePacket_port (p : Packet) (s : State) : (issuePacket p s).port = { s.port with opw := p.opw, a := p.a, b := p.b, c := p.c, d := p.d, pending := true } := rfl
@[simp] theorem issuePacket_seq (p : Packet) (s : State) : (issuePacket p s).seq = s.seq := rfl
@[simp] theorem issuePacket_regs (p : Packet) (s : State) : (issuePacket p s).regs = s.regs := rfl
@[simp] theorem issuePacket_mirror (p : Packet) (s : State) : (issuePacket p s).mirror = s.mirror := rfl
@[simp] theorem issuePacket_play (p : Packet) (s : State) : (issuePacket p s).play = s.play := rfl
@[simp] theorem issuePacket_record (p : Packet) (s : State) : (issuePacket p s).record = s.record := rfl
@[simp] theorem issuePacket_l3 (p : Packet) (s : State) : (issuePacket p s).l3 = s.l3 := rfl
@[simp] theorem issuePacket_inIrq (p : Packet) (s : State) : (issuePacket p s).inIrq = s.inIrq := rfl
@[simp] theorem issuePacket_codec (p : Packet) (s : State) : (issuePacket p s).codec = s.codec := rfl
@[simp] theorem issuePacket_errlog (p : Packet) (s : State) : (issuePacket p s).errlog = s.errlog := rfl
@[simp] theorem issuePacket_trace (p : Packet) (s : State) : (issuePacket p s).trace = s.trace := rfl
@[simp] theorem issuePacket_mem (p : Packet) (s : State) : (issuePacket p s).mem = s.mem := rfl
@[simp] theorem issuePacket_cfg (p : Packet) (s : State) : (issuePacket p s).cfg = s.cfg := rfl
@[simp] theorem issuePacket_env (p : Packet) (s : State) : (issuePacket p s).env = s.env := rfl
@[simp] theorem issuePacket_dir (p : Packet) (s : State) (d : Dir) : (issuePacket p s).dir d = s.dir d := by cases d <;> rfl

/-! ### updates of one direction -/

@[simp] theorem State.setDir_port (d : Dir) (x : Direction) (s : State) : (s.setDir d x).port = s.port := by cases d <;> rfl
@[simp] theorem State.setDir_seq (d : Dir) (x : Direction) (s : State) : (s.setDir d x).seq = s.seq := by cases d <;> rfl
@[simp] theorem State.setDir_regs (d : Dir) (x : Direction) (s : State) : (s.setDir d x).regs = s.regs := by cases d <;> rfl
@[simp] theorem State.setDir_mirror (d : Dir) (x : Direction) (s : State) : (s.setDir d x).mirror = s.mirror := by cases d <;> rfl
@[simp] theorem State.setDir_l3 (d : Dir) (x : Direction) (s : State) : (s.setDir d x).l3 = s.l3 := by cases d <;> rfl
@[simp] theorem State.setDir_inIrq (d : Dir) (x : Direction) (s : State) : (s.setDir d x).inIrq = s.inIrq := by cases d <;> rfl
@[simp] theorem State.setDir_codec (d : Dir) (x : Direction) (s : State) : (s.setDir d x).codec = s.codec := by cases d <;> rfl
@[simp] theorem State.setDir_errlog (d : Dir) (x : Direction) (s : State) : (s.setDir d x).errlog = s.errlog := by cases d <;> rfl
@[simp] theorem State.setDir_trace (d : Dir) (x : Direction) (s : State) : (s.setDir d x).trace = s.trace := by cases d <;> rfl
@[simp] theorem State.setDir_mem (d : Dir) (x : Direction) (s : State) : (s.setDir d x).mem = s.mem := by cases d <;> rfl
@[simp] theorem State.setDir_cfg (d : Dir) (x : Direction) (s : State) : (s.setDir d x).cfg = s.cfg := by cases d <;> rfl
@[simp] theorem State.setDir_env (d : Dir) (x : Direction) (s : State) : (s.setDir d x).env = s.env := by cases d <;> rfl

@[simp] theorem State.modChan_port (d : Dir) (f : Channel → Channel) (s : State) : (s.modChan d f).port = s.port := by cases d <;> rfl
@[simp] theorem State.modChan_seq (d : Dir) (f : Channel → Channel) (s : State) : (s.modChan d f).seq = s.seq := by cases d <;> rfl
@[simp] theorem State.modChan_regs (d : Dir) (f : Channel → Channel) (s : State) : (s.modChan d f).regs = s.regs := by cases d <;> rfl
@[simp] theorem State.modChan_mirror (d : Dir) (f : Channel → Channel) (s : State) : (s.modChan d f).mirror = s.mirror := by cases d <;> rfl
@[simp] theorem State.modChan_l3 (d : Dir) (f : Channel → Channel) (s : State) : (s.modChan d f).l3 = s.l3 := by cases d <;> rfl
@[simp] theorem State.modChan_inIrq (d : Dir) (f : Channel → Channel) (s : State) : (s.modChan d f).inIrq = s.inIrq := by cases d <;> rfl
@[simp] theorem State.modChan_codec (d : Dir) (f : Channel → Channel) (s : State) : (s.modChan d f).codec = s.codec := by cases d <;> rfl
@[simp] theorem State.modChan_errlog (d : Dir) (f : Channel → Channel) (s : State) : (s.modChan d f).errlog = s.errlog := by cases d <;> rfl
@[simp] theorem State.modChan_trace (d : Dir) (f : Channel → Channel) (s : State) : (s.modChan d f).trace = s.trace := by cases d <;> rfl
@[simp] theorem State.modChan_mem (d : Dir) (f : Channel → Channel) (s : State) : (s.modChan d f).mem = s.mem := by cases d <;> rfl
@[simp] theorem State.modChan_cfg (d : Dir) (f : Channel → Channel) (s : State) : (s.modChan d f).cfg = s.cfg := by cases d <;> rfl
@[simp] theorem State.modChan_env (d : Dir) (f : Channel → Channel) (s : State) : (s.modChan d f).env = s.env := by cases d <;> rfl

@[simp] theorem State.modBuf_port (d : Dir) (f : Buffer → Buffer) (s : State) : (s.modBuf d f).port = s.port := by cases d <;> rfl
@[simp] theorem State.modBuf_seq (d : Dir) (f : Buffer → Buffer) (s : State) : (s.modBuf d f).seq = s.seq := by cases d <;> rfl
@[simp] theorem State.modBuf_regs (d : Dir) (f : Buffer → Buffer) (s : State) : (s.modBuf d f).regs = s.regs := by cases d <;> rfl
@[simp] theorem State.modBuf_mirror (d : Dir) (f : Buffer → Buffer) (s : State) : (s.modBuf d f).mirror = s.mirror := by cases d <;> rfl
@[simp] theorem State.modBuf_l3 (d : Dir) (f : Buffer → Buffer) (s : State) : (s.modBuf d f).l3 = s.l3 := by cases d <;> rfl
@[simp] theorem State.modBuf_inIrq (d : Dir) (f : Buffer → Buffer) (s : State) : (s.modBuf d f).inIrq = s.inIrq := by cases d <;> rfl
@[simp] theorem State.modBuf_codec (d : Dir) (f : Buffer → Buffer) (s : State) : (s.modBuf d f).codec = s.codec := by cases d <;> rfl
@[simp] theorem State.modBuf_errlog (d : Dir) (f : Buffer → Buffer) (s : State) : (s.modBuf d f).errlog = s.errlog := by cases d <;> rfl
@[simp] theorem State.modBuf_trace (d : Dir) (f : Buffer → Buffer) (s : State) : (s.modBuf d f).trace = s.trace := by cases d <;> rfl
@[simp] theorem State.modBuf_mem (d : Dir) (f : Buffer → Buffer) (s : State) : (s.modBuf d f).mem = s.mem := by cases d <;> rfl
@[simp] theorem State.modBuf_cfg (d : Dir) (f : Buffer → Buffer) (s : State) : (s.modBuf d f).cfg = s.cfg := by cases d <;> rfl
@[simp] theorem State.modBuf_env (d : Dir) (f : Buffer → Buffer) (s : State) : (s.modBuf d f).env = s.env := by cases d <;> rfl

@[simp] theorem State.modHw_port (d : Dir) (f : DmaHw → DmaHw) (s : State) : (s.modHw d f).port = s.port := by cases d <;> rfl
@[simp] theorem State.modHw_seq (d : Dir) (f : DmaHw → DmaHw) (s : State) : (s.modHw d f).seq = s.seq := by cases d <;> rfl
@[simp] theorem State.modHw_regs (d : Dir) (f : DmaHw → DmaHw) (s : State) : (s.modHw d f).regs = s.regs := by cases d <;> rfl
@[simp] theorem State.modHw_mirror (d : Dir) (f : DmaHw → DmaHw) (s : State) : (s.modHw d f).mirror = s.mirror := by cases d <;> rfl
@[simp] theorem State.modHw_l3 (d : Dir) (f : DmaHw → DmaHw) (s : State) : (s.modHw d f).l3 = s.l3 := by cases d <;> rfl
@[simp] theorem State.modHw_inIrq (d : Dir) (f : DmaHw → DmaHw) (s : State) : (s.modHw d f).inIrq = s.inIrq := by cases d <;> rfl
@[simp] theorem State.modHw_codec (d : Dir) (f : DmaHw → DmaHw) (s : State) : (s.modHw d f).codec = s.codec := by cases d <;> rfl
@[simp] theorem State.modHw_errlog (d : Dir) (f : DmaHw → DmaHw) (s : State) : (s.modHw d f).errlog = s.errlog := by cases d <;> rfl
@[simp] theorem State.modHw_trace (d : Dir) (f : DmaHw → DmaHw) (s : State) : (s.modHw d f).trace = s.trace := by cases d <;> rfl
@[simp] theorem State.modHw_mem (d : Dir) (f : DmaHw → DmaHw) (s : State) : (s.modHw d f).mem = s.mem := by cases d <;> rfl
@[simp] theorem State.modHw_cfg (d : Dir) (f : DmaHw → DmaHw) (s : State) : (s.modHw d f).cfg = s.cfg := by cases d <;> rfl
@[simp] theorem State.modHw_env (d : Dir) (f : DmaHw → DmaHw) (s : State) : (s.modHw d f).env = s.env := by cases d <;> rfl

@[simp] theorem State.modEngine_port (d : Dir) (e : Eng) (f : Engine → Engine) (s : State) : (s.modEngine d e f).port = s.port := by cases d <;> rfl
@[simp] theorem State.modEngine_seq (d : Dir) (e : Eng) (f : Engine → Engine) (s : State) : (s.modEngine d e f).seq = s.seq := by cases d <;> rfl
@[simp] theorem State.modEngine_regs (d : Dir) (e : Eng) (f : Engine → Engine) (s : State) : (s.modEngine d e f).regs = s.regs := by cases d <;> rfl
@[simp] theorem State.modEngine_mirror (d : Dir) (e : Eng) (f : Engine → Engine) (s : State) : (s.modEngine d e f).mirror = s.mirror := by cases d <;> rfl
@[simp] theorem State.modEngine_l3 (d : Dir) (e : Eng) (f : Engine → Engine) (s : State) : (s.modEngine d e f).l3 = s.l3 := by cases d <;> rfl
@[simp] theorem State.modEngine_inIrq (d : Dir) (e : Eng) (f : Engine → Engine) (s : State) : (s.modEngine d e f).inIrq = s.inIrq := by cases d <;> rfl
@[simp] theorem State.modEngine_codec (d : Dir) (e : Eng) (f : Engine → Engine) (s : State) : (s.modEngine d e f).codec = s.codec := by cases d <;> rfl
@[simp] theorem State.modEngine_errlog (d : Dir) (e : Eng) (f : Engine → Engine) (s : State) : (s.modEngine d e f).errlog = s.errlog := by cases d <;> rfl
@[simp] theorem State.modEngine_trace (d : Dir) (e : Eng) (f : Engine → Engine) (s : State) : (s.modEngine d e f).trace = s.trace := by cases d <;> rfl
@[simp] theorem State.modEngine_mem (d : Dir) (e : Eng) (f : Engine → Engine) (s : State) : (s.modEngine d e f).mem = s.mem := by cases d <;> rfl
@[simp] theorem State.modEngine_cfg (d : Dir) (e : Eng) (f : Engine → Engine) (s : State) : (s.modEngine d e f).cfg = s.cfg := by cases d <;> rfl
@[simp] theorem State.modEngine_env (d : Dir) (e : Eng) (f : Engine → Engine) (s : State) : (s.modEngine d e f).env = s.env := by cases d <;> rfl

@[simp] theorem State.dir_play (s : State) : s.dir .play = s.play := rfl
@[simp] theorem State.dir_record (s : State) : s.dir .record = s.record := rfl
@[simp] theorem State.setDir_dir_same (d : Dir) (x : Direction) (s : State) : (s.setDir d x).dir d = x := by cases d <;> rfl
theorem State.setDir_dir_other (d d' : Dir) (h : d' ≠ d) (x : Direction) (s : State) : (s.setDir d x).dir d' = s.dir d' := by
  cases d <;> cases d' <;> first | rfl | exact absurd rfl h

/-- Reading a direction after an update of a direction. -/
theorem State.setDir_dir (d d' : Dir) (x : Direction) (s : State) :
    (s.setDir d x).dir d' = if d' = d then x else s.dir d' := by
  cases d <;> cases d' <;> rfl

theorem State.modChan_dir (d d' : Dir) (f : Channel → Channel) (s : State) :
    (s.modChan d f).dir d' = if d' = d then { s.dir d with chan := f (s.dir d).chan } else s.dir d' := by
  cases d <;> cases d' <;> rfl

theorem State.modBuf_dir (d d' : Dir) (f : Buffer → Buffer) (s : State) :
    (s.modBuf d f).dir d' = if d' = d then { s.dir d with buf := f (s.dir d).buf } else s.dir d' := by
  cases d <;> cases d' <;> rfl

theorem State.modHw_dir (d d' : Dir) (f : DmaHw → DmaHw) (s : State) :
    (s.modHw d f).dir d' = if d' = d then { s.dir d with hw := f (s.dir d).hw } else s.dir d' := by
  cases d <;> cases d' <;> rfl

/-! ### sub-engines of one direction's hardware -/

@[simp] theorem DmaHw.modEng_en (e : Eng) (f : Engine → Engine) (h : DmaHw) : (h.modEng e f).en = h.en := by cases e <;> rfl
@[simp] theorem DmaHw.modEng_active (e : Eng) (f : Engine → Engine) (h : DmaHw) : (h.modEng e f).active = h.active := by
  cases e <;> rfl
theorem DmaHw.modEng_eng (e e' : Eng) (f : Engine → Engine) (h : DmaHw) :
    (h.modEng e f).eng e' = if e' = e then f (h.eng e) else h.eng e' := by cases e <;> cases e' <;> rfl
@[simp] theorem Eng.other_other (e : Eng) : e.other.other = e := by cases e <;> rfl
@[simp] theorem Eng.other_ne (e : Eng) : e.other ≠ e := by cases e <;> decide

/-! ### sequencing -/

@[simp] theorem andThen_next {α β : Type} (a : α) (k : α → Out β) : andThen (.next a : Out α) k = k a := rfl
@[simp] theorem andThen_fault {α β : Type} (f : Fault) (k : α → Out β) : andThen (.fault f : Out α) k = .fault f := rfl
@[simp] theorem andThen_refused {α β : Type} (r : Refusal) (k : α → Out β) : andThen (.refused r : Out α) k = .refused r := rfl

/-- A sequence answers a next state only through a next state of its first part. -/
theorem andThen_eq_next {α β : Type} {x : Out α} {k : α → Out β} {b : β} (h : andThen x k = .next b) :
    ∃ a, x = .next a ∧ k a = .next b := by
  cases x with
  | next a => exact ⟨a, rfl, h⟩
  | fault f => exact absurd h (by simp [andThen])
  | refused r => exact absurd h (by simp [andThen])

end Sys2Proof.Machine
end

