-- ==== Sys2Proof/Laws/Agents.lean ====
section
/-! SUPPORT. Once each, everything a draw, a block transfer, a hardware agent or a register read can do to the state. -/

namespace Sys2Proof.Machine

/-! ### draws change the environment's script and counter only -/

/-- `t` differs from `s` at most in the count of draws and in the script, but for the answers about deliveries of frames. -/
def Drew (s t : State) : Prop :=
  ∃ (n : Nat) (x : Script), x.delivered = s.env.script.delivered ∧ t = { s with env := { s.env with draws := n, script := x } }

theorem Drew.refl (s : State) : Drew s s := ⟨s.env.draws, s.env.script, rfl, rfl⟩

theorem Drew.trans {s t u : State} (h : Drew s t) (k : Drew t u) : Drew s u := by
  obtain ⟨n, x, hx, rfl⟩ := h; obtain ⟨m, y, hy, rfl⟩ := k; exact ⟨m, y, hy.trans hx, rfl⟩

theorem Drew.count (s : State) : Drew s s.countDraw := ⟨_, _, rfl, rfl⟩

theorem Drew.script {s : State} {x : Script} (h : x.delivered = s.env.script.delivered) : Drew s (s.setScript x) :=
  ⟨_, _, h, rfl⟩

theorem drawBind_drew (s : State) : Drew s (drawBind s).2 := by
  unfold drawBind; split <;> first | exact Drew.script rfl | exact Drew.count s
theorem drawPick_drew (s : State) : Drew s (drawPick s).2 := by
  unfold drawPick; split <;> first | exact Drew.script rfl | exact Drew.count s
theorem drawByte_drew (s : State) : Drew s (drawByte s).2 := by
  unfold drawByte; split <;> first | exact Drew.script rfl | exact Drew.count s
theorem drawNoise_drew (s : State) : Drew s (drawNoise s).2 := by
  unfold drawNoise; split <;> first | exact Drew.script rfl | exact Drew.count s
theorem drawUpTo_drew (n : Nat) (s : State) : Drew s (drawUpTo n s).2 := by
  unfold drawUpTo; split <;> first | exact Drew.script rfl | exact Drew.count s

/-- Everything a draw of a delivery can do. -/
theorem drawDelivered_eq (s : State) : ∃ (n : Nat) (x : Script), AnswersDelivery s (drawDelivered s).2 (drawDelivered s).1 ∧
    (drawDelivered s).2 = { s with env := { s.env with draws := n, script := x } } := by
  cases h : s.env.script.delivered with
  | nil =>
    have hd : drawDelivered s = (Config.frameDelivered s.env.draws, s.countDraw) := by unfold drawDelivered; rw [h]
    rw [hd]
    exact ⟨s.env.draws + 1, s.env.script, by unfold AnswersDelivery; rw [h]; exact h, rfl⟩
  | cons v r =>
    have hd : drawDelivered s = (v, s.setScript { s.env.script with delivered := r }) := by unfold drawDelivered; rw [h]
    rw [hd]
    exact ⟨s.env.draws, { s.env.script with delivered := r }, by unfold AnswersDelivery; rw [h]; exact ⟨rfl, rfl⟩, rfl⟩

/-- A drawn count lies in `0 .. n` (`44_dma_engine.md` R274). -/
theorem drawUpTo_le (n : Nat) (s : State) : (drawUpTo n s).1 ≤ n := by
  unfold drawUpTo; split <;> exact Nat.lt_succ_iff.1 (Nat.mod_lt _ (Nat.succ_pos n))

/-! ### what hardware agents leave alone -/

theorem BusStill.refl (s : State) : BusStill s s := ⟨rfl, rfl, rfl, rfl⟩

/-- Two moves of the bus make one: a frame ends at most once, since only the host starts one. -/
theorem bus_trans {s t u : State} (hc : t.cfg = s.cfg) (h : BusStill s t ∨ FrameEnded s t) (k : BusStill t u ∨ FrameEnded t u) :
    BusStill s u ∨ FrameEnded s u := by
  rcases h with ⟨a1, a2, a3, a4⟩ | ⟨a1, a2, b, a3, a4, a5⟩
  · rcases k with ⟨b1, b2, b3, b4⟩ | ⟨b1, b2, v, b3, b4, b5⟩
    · exact .inl ⟨b1.trans a1, b2.trans a2, b3.trans a3, b4.trans a4⟩
    · refine .inr ⟨a1 ▸ b1, a1 ▸ b2, v, ?_, a2 ▸ b4, ?_⟩
      · unfold AnswersDelivery at b3 ⊢; rw [a4] at b3; exact b3
      · rw [b5, a1, a3, hc]
  · rcases k with ⟨b1, b2, b3, b4⟩ | ⟨b1, -⟩
    · refine .inr ⟨a1, b1.trans a2, b, ?_, b2.trans a4, b3.trans a5⟩
      unfold AnswersDelivery at a3 ⊢; rw [b4]; exact a3
    · rw [a2] at b1; exact absurd b1 (by simp)

/-- A frame in progress afterwards was in progress before. -/
theorem bus_busy {s t : State} (h : BusStill s t ∨ FrameEnded s t) (hb : t.l3.busy = true) : s.l3.busy = true := by
  rcases h with h | h
  · rw [← h.1]; exact hb
  · exact h.1

/-- With no frame in progress nothing happens on the bus. -/
theorem bus_idle {s t : State} (h : BusStill s t ∨ FrameEnded s t) (hb : s.l3.busy = false) : BusStill s t := by
  rcases h with h | h
  · exact h
  · exact absurd h.1 (by rw [hb]; decide)

/-- Of the registers, only `L3WD` can change. -/
theorem bus_regs {s t : State} (h : BusStill s t ∨ FrameEnded s t) : t.regs = { s.regs with l3wd := t.regs.l3wd } := by
  rcases h with h | ⟨-, -, b, -, h, -⟩
  · rw [h.2.1]
  · rw [h]

/-- Of the serialiser, only `l3_busy` can change. -/
theorem bus_l3 {s t : State} (h : BusStill s t ∨ FrameEnded s t) : t.l3 = { s.l3 with busy := t.l3.busy } := by
  rcases h with h | h
  · rw [h.1]
  · rw [h.2.1]

theorem HwFrame.refl (s : State) : HwFrame s s := by
  constructor <;> first | rfl | (intros; first | rfl | assumption) | exact ⟨[], (List.append_nil _).symm⟩ | exact .inl (BusStill.refl s)

theorem HwFrame.trans {s t u : State} (h : HwFrame s t) (k : HwFrame t u) : HwFrame s u where
  port := k.port.trans h.port
  seq := k.seq.trans h.seq
  mirror := k.mirror.trans h.mirror
  inIrq := k.inIrq.trans h.inIrq
  cfg := k.cfg.trans h.cfg
  errlog := k.errlog.trans h.errlog
  bus := bus_trans h.cfg h.bus k.bus
  now := k.now.trans h.now
  rstSince := k.rstSince.trans h.rstSince
  host := k.host.trans h.host
  trace := by
    obtain ⟨a, ha⟩ := h.trace; obtain ⟨b, hb⟩ := k.trace
    exact ⟨a ++ b, by rw [hb, ha, List.append_assoc]⟩
  chan := fun d => (k.chan d).trans (h.chan d)
  buf := fun d => (k.buf d).trans (h.buf d)
  lastServiced := fun d => (k.lastServiced d).trans (h.lastServiced d)
  oppStreak := fun d => (k.oppStreak d).trans (h.oppStreak d)
  en := fun d => (k.en d).trans (h.en d)
  addr := fun d e => (k.addr d e).trans (h.addr d e)
  cnt := fun d e => (k.cnt d e).trans (h.cnt d e)
  busy := fun d e x => h.busy d e (k.busy d e x)
  done := fun d e x => k.done d e (h.done d e x)

theorem Drew.hwFrame {s t : State} (h : Drew s t) : HwFrame s t := by
  obtain ⟨n, x, hx, rfl⟩ := h
  constructor <;>
    first
    | rfl
    | (intro d; cases d <;> rfl)
    | (intro d e; cases d <;> cases e <;> first | rfl | exact id)
    | exact .inl ⟨rfl, rfl, rfl, rfl⟩
    | exact .inl ⟨rfl, rfl, rfl, hx⟩
    | exact ⟨[], (List.append_nil _).symm⟩

theorem HwFrame.emit (ev : Event) (s : State) : HwFrame s (s.emit ev) := by
  constructor <;>
    first
    | rfl
    | (intro d; cases d <;> rfl)
    | (intro d e; cases d <;> cases e <;> first | rfl | exact id)
    | exact .inl ⟨rfl, rfl, rfl, rfl⟩
    | exact ⟨[ev], rfl⟩

theorem Engine.noteRace_eq (a : Nat) (v : Byte) (g : Engine) :
    ∃ r, g.noteRace a v = { g with raced := r } := by
  unfold Engine.noteRace; split
  · exact ⟨_, rfl⟩
  · exact ⟨g.raced, rfl⟩

theorem storeByte_hwFrame (a : Nat) (v : Byte) (s : State) : HwFrame s (storeByte a v s) := by
  obtain ⟨r1, h1⟩ := Engine.noteRace_eq a (Memory.read s.mem a) s.play.hw.engA
  obtain ⟨r2, h2⟩ := Engine.noteRace_eq a (Memory.read s.mem a) s.play.hw.engB
  unfold storeByte
  simp only [h1, h2]
  constructor <;>
    first
    | rfl
    | (intro d; cases d <;> rfl)
    | (intro d e; cases d <;> cases e <;> first | rfl | exact id)
    | exact .inl ⟨rfl, rfl, rfl, rfl⟩
    | exact ⟨[], (List.append_nil _).symm⟩

/-- A change of one direction's DMA hardware that only ends blocks. -/
theorem HwFrame.modHw {d : Dir} {f : DmaHw → DmaHw} {s : State} (h1 : (f (s.dir d).hw).en = (s.dir d).hw.en)
    (h2 : ∀ e, ((f (s.dir d).hw).eng e).addr = ((s.dir d).hw.eng e).addr)
    (h3 : ∀ e, ((f (s.dir d).hw).eng e).cnt = ((s.dir d).hw.eng e).cnt)
    (h4 : ∀ e, ((f (s.dir d).hw).eng e).busy = true → ((s.dir d).hw.eng e).busy = true)
    (h5 : ∀ e, ((s.dir d).hw.eng e).done = true → ((f (s.dir d).hw).eng e).done = true) : HwFrame s (s.modHw d f) := by
  constructor <;> first
    | (cases d <;> rfl)
    | (cases d <;> exact .inl ⟨rfl, rfl, rfl, rfl⟩)
    | (cases d <;> exact ⟨[], (List.append_nil _).symm⟩)
    | (intro d'; rw [State.modHw_dir]; split <;> first | rfl | (subst_vars; first | rfl | exact h1))
    | (intro d' e; unfold State.engine; rw [State.modHw_dir]; split <;>
        first | rfl | exact id | (subst_vars; first | exact h2 e | exact h3 e | exact h4 e | exact h5 e))

theorem DmaHw.complete_eng (e e' : Eng) (h : DmaHw) : (h.complete e).eng e' =
    if e' = e then { h.eng e with busy := false, done := true, raced := [] } else h.eng e' := by
  cases e <;> cases e' <;> rfl

theorem DmaHw.drop_eng (e e' : Eng) (h : DmaHw) : (h.drop e).eng e' =
    if e' = e then { h.eng e with busy := false, raced := [] } else h.eng e' := by
  cases e <;> cases e' <;> rfl

theorem DmaHw.complete_frame (d : Dir) (e : Eng) (s : State) : HwFrame s (s.modHw d (DmaHw.complete e)) := by
  refine HwFrame.modHw (by cases e <;> rfl) ?_ ?_ ?_ ?_ <;> intro e' <;> rw [DmaHw.complete_eng] <;> split <;>
    simp_all

theorem DmaHw.drop_frame (d : Dir) (e : Eng) (s : State) : HwFrame s (s.modHw d (DmaHw.drop e)) := by
  refine HwFrame.modHw (by cases e <;> rfl) ?_ ?_ ?_ ?_ <;> intro e' <;> rw [DmaHw.drop_eng] <;> split <;>
    simp_all

/-- Everything the serialiser's step can do (`41_control_bus.md` R186). -/
theorem serialise_eq (s : State) : ∃ (b : Bool) (n : Nat) (x : Script),
    AnswersDelivery s { s with env := { s.env with draws := n, script := x } } b ∧
    serialise s = { s with
      l3 := { s.l3 with busy := false }
      regs := { s.regs with l3wd := s.regs.l3wd || b }
      codec := if b then codecReceive s.cfg s.l3.frameAddr s.l3.frameData s.codec else s.codec
      trace := s.trace ++ [if b then .frame s.l3.frameAddr s.l3.frameData else .frameLost s.l3.frameAddr s.l3.frameData]
      env := { s.env with draws := n, script := x } } := by
  obtain ⟨n, x, h, he⟩ := drawDelivered_eq s
  refine ⟨(drawDelivered s).1, n, x, he ▸ h, ?_⟩
  unfold serialise
  generalize drawDelivered s = r at h he
  obtain ⟨b, t⟩ := r
  dsimp only at he
  subst he
  cases b <;> simp [State.emit]

/-- The serialiser's step is the end of the frame in progress. -/
theorem serialise_hwFrame {s : State} (hb : s.l3.busy = true) : HwFrame s (serialise s) := by
  obtain ⟨b, n, x, h, he⟩ := serialise_eq s
  rw [he]
  constructor <;>
    first
    | rfl
    | (intro d; cases d <;> rfl)
    | (intro d e; cases d <;> cases e <;> first | rfl | exact id)
    | exact .inr ⟨hb, rfl, b, h, rfl, rfl⟩
    | exact ⟨[_], rfl⟩

/-- The serialiser's step ends the frame. -/
@[simp] theorem serialise_busy (s : State) : (serialise s).l3.busy = false := by
  obtain ⟨b, n, x, -, he⟩ := serialise_eq s
  rw [he]

/-- The serialiser does not touch host memory. -/
@[simp] theorem serialise_mem (s : State) : (serialise s).mem = s.mem := by
  obtain ⟨b, n, x, -, he⟩ := serialise_eq s
  rw [he]

/-! ### host memory -/

theorem MemFrame.of_eq {s t : State} (h : t.mem = s.mem) : MemFrame s t :=
  ⟨fun _ _ => by rw [h], fun w => by rw [h]; exact w, fun _ => h⟩

theorem Drew.mem {s t : State} (h : Drew s t) : t.mem = s.mem := by obtain ⟨n, x, -, rfl⟩ := h; rfl

/-- Capture blocks in flight afterwards were in flight before, at the same addresses. -/
theorem HwFrame.covers {s t : State} (h : HwFrame s t) {a : Nat} (hc : captureCovers s a = false) : captureCovers t a = false := by
  have k : ∀ e, ((t.engine .record e).busy && (t.engine .record e).covers a) = true →
      ((s.engine .record e).busy && (s.engine .record e).covers a) = true := fun e ht => by
    simp only [Engine.covers, Bool.and_eq_true] at ht ⊢
    rw [h.addr, h.cnt] at ht
    exact ⟨h.busy _ _ ht.1, ht.2⟩
  have kA := k .a
  have kB := k .b
  simp only [State.engine, State.dir, DmaHw.eng] at kA kB
  unfold captureCovers at hc ⊢
  rw [Bool.or_eq_false_iff] at hc ⊢
  refine ⟨?_, ?_⟩
  · by_contra hn; rw [kA (by simpa using hn)] at hc; exact absurd hc.1 (by decide)
  · by_contra hn; rw [kB (by simpa using hn)] at hc; exact absurd hc.2 (by decide)

/-- Hardware agents start no capture block and bind no line. -/
theorem HwFrame.recordStill {s t : State} (h : HwFrame s t) (hr : RecordStill s) : RecordStill t := by
  refine ⟨fun e => ?_, fun e => ?_⟩
  · by_contra hn
    exact absurd (hr.1 e) (by rw [h.busy .record e (by simpa using hn)]; decide)
  · rw [show t.record.chan = s.record.chan from h.chan .record]; exact hr.2 e

theorem MemFrame.trans {s t u : State} (hf : HwFrame s t) (h : MemFrame s t) (k : MemFrame t u) : MemFrame s u :=
  ⟨fun a ha => (k.read a (hf.covers ha)).trans (h.read a ha), fun w => k.wf (h.wf w),
    fun hr => (k.still (hf.recordStill hr)).trans (h.still hr)⟩

/-! ### the access window of a block -/

/-- Everything `captureByte` can do: answer the byte written before, or write a fresh one. -/
theorem captureByte_eq (e : Eng) (a : Nat) (s : State) :
    (∃ b, (s.engine .record e).raced.lookup a = some b ∧ captureByte e a s = (b, s)) ∨
    ((s.engine .record e).raced.lookup a = none ∧
      captureByte e a s = ((drawByte s).1, storeByte a (drawByte s).1 (drawByte s).2)) := by
  unfold captureByte
  split
  · next b h => exact .inl ⟨b, h, rfl⟩
  · next h => exact .inr ⟨h, rfl⟩

theorem captureByte_hwFrame (e : Eng) (a : Nat) (s : State) : HwFrame s (captureByte e a s).2 := by
  rcases captureByte_eq e a s with ⟨b, -, h⟩ | ⟨-, h⟩ <;> rw [h]
  · exact HwFrame.refl s
  · exact (drawByte_drew s).hwFrame.trans (storeByte_hwFrame _ _ _)

/-- Writing a captured byte leaves the capture direction as it was. -/
theorem captureByte_record (e : Eng) (a : Nat) (s : State) : (captureByte e a s).2.record = s.record := by
  rcases captureByte_eq e a s with ⟨b, -, h⟩ | ⟨-, h⟩ <;> rw [h]
  obtain ⟨n, x, -, hd⟩ := drawByte_drew s
  show (storeByte a (drawByte s).1 (drawByte s).2).record = s.record
  rw [hd]
  rfl

theorem captureByte_read_other {a b : Nat} (h : b ≠ a) (e : Eng) (s : State) :
    Memory.read (captureByte e a s).2.mem b = Memory.read s.mem b := by
  rcases captureByte_eq e a s with ⟨v, -, he⟩ | ⟨-, he⟩ <;> rw [he]
  rw [storeByte_mem, Memory.read_write_other h, (drawByte_drew s).mem]

theorem captureByte_wf {a : Nat} (ha : a < Config.memSize) (e : Eng) {s : State} (w : Memory.wf s.mem = true) :
    Memory.wf (captureByte e a s).2.mem = true := by
  rcases captureByte_eq e a s with ⟨v, -, he⟩ | ⟨-, he⟩ <;> rw [he]
  · exact w
  · rw [storeByte_mem]; exact Memory.write_wf ha _ (by rw [(drawByte_drew s).mem]; exact w)

theorem captureBytes_hwFrame (e : Eng) (a n : Nat) (s : State) : HwFrame s (captureBytes e a n s).2 := by
  induction n generalizing a s with
  | zero => exact HwFrame.refl s
  | succ n ih => exact (captureByte_hwFrame e a s).trans (ih (a + 1) (captureByte e a s).2)

theorem captureBytes_record (e : Eng) (a n : Nat) (s : State) : (captureBytes e a n s).2.record = s.record := by
  induction n generalizing a s with
  | zero => rfl
  | succ n ih => exact (ih (a + 1) (captureByte e a s).2).trans (captureByte_record e a s)

theorem captureBytes_length (e : Eng) (a n : Nat) (s : State) : (captureBytes e a n s).1.length = n := by
  induction n generalizing a s with
  | zero => rfl
  | succ n ih => simp [captureBytes, ih]

/-- Capturing a block changes no byte outside it (`20_memory.md` R111). -/
theorem captureBytes_read_other (e : Eng) (a b n : Nat) (s : State) (h : b < a ∨ a + n ≤ b) :
    Memory.read (captureBytes e a n s).2.mem b = Memory.read s.mem b := by
  induction n generalizing a s with
  | zero => rfl
  | succ n ih =>
    show Memory.read (captureBytes e (a + 1) n (captureByte e a s).2).2.mem b = _
    rw [ih (a + 1) _ (by omega), captureByte_read_other (by omega)]

theorem captureBytes_wf (e : Eng) (a n : Nat) (s : State) (ha : a + n ≤ Config.memSize) (w : Memory.wf s.mem = true) :
    Memory.wf (captureBytes e a n s).2.mem = true := by
  induction n generalizing a s with
  | zero => exact w
  | succ n ih => exact ih (a + 1) _ (by omega) (captureByte_wf (by omega) e w)

/-- What a captured block puts at each of its addresses: the byte written before, with memory left as it was there, or a fresh one,
which memory then holds (`20_memory.md` R111). -/
theorem captureBytes_get (e : Eng) (a n : Nat) (s : State) (i : Nat) (h : i < n) :
    (∀ b, (s.engine .record e).raced.lookup (a + i) = some b → (captureBytes e a n s).1.getD i 0 = b ∧
      Memory.read (captureBytes e a n s).2.mem (a + i) = Memory.read s.mem (a + i)) ∧
    ((s.engine .record e).raced.lookup (a + i) = none →
      Memory.read (captureBytes e a n s).2.mem (a + i) = (captureBytes e a n s).1.getD i 0) := by
  induction n generalizing a s i with
  | zero => exact absurd h (by omega)
  | succ n ih =>
    have hr : ((captureByte e a s).2.engine .record e).raced = (s.engine .record e).raced := by
      unfold State.engine State.dir; rw [captureByte_record]
    show (∀ b, _ → ((captureByte e a s).1 :: (captureBytes e (a + 1) n (captureByte e a s).2).1).getD i 0 = b ∧
        Memory.read (captureBytes e (a + 1) n (captureByte e a s).2).2.mem (a + i) = _) ∧
      (_ → Memory.read (captureBytes e (a + 1) n (captureByte e a s).2).2.mem (a + i) =
        ((captureByte e a s).1 :: (captureBytes e (a + 1) n (captureByte e a s).2).1).getD i 0)
    cases i with
    | zero =>
      rw [captureBytes_read_other _ _ _ _ _ (by omega)]
      rcases captureByte_eq e a s with ⟨b, hb, he⟩ | ⟨hb, he⟩ <;> rw [he]
      · exact ⟨fun v hv => ⟨Option.some.inj (hb.symm.trans hv), rfl⟩, fun hv => absurd (hb.symm.trans hv) (by simp)⟩
      · exact ⟨fun v hv => absurd (hb.symm.trans hv) (by simp), fun _ => by simp⟩
    | succ i =>
      have := ih (a + 1) (captureByte e a s).2 i (by omega)
      rw [hr, show a + 1 + i = a + (i + 1) by omega, captureByte_read_other (by omega)] at this
      exact this

/-- A block of the list owes a byte only where it is in flight. -/
theorem owes_covers {s : State} {e : Eng} {a : Nat} (h : (s.engine .record e).owes a = true) :
    captureCovers s a = true ∧ a < Config.memSize ∧ (s.engine .record e).busy = true := by
  simp only [Engine.owes, Bool.and_eq_true] at h
  obtain ⟨⟨⟨hb, hm⟩, hc⟩, -⟩ := h
  refine ⟨?_, ?_, hb⟩
  · unfold captureCovers
    cases e <;> simp_all [State.engine, State.dir, DmaHw.eng]
  · simp only [Engine.inMemory, Engine.covers, Bool.and_eq_true, decide_eq_true_eq] at hm hc
    omega

/-- What a write by a capture block before its completion can do: nothing, a draw, or its byte. -/
theorem mayCapture_frames (e : Eng) (a : Nat) (s : State) : HwFrame s (mayCapture e a s) ∧ MemFrame s (mayCapture e a s) := by
  unfold mayCapture
  split
  · next h =>
    obtain ⟨hc, ha, hb⟩ := owes_covers h
    have hd := drawPick_drew s
    generalize drawPick s = r at hd ⊢
    obtain ⟨k, s1⟩ := r
    dsimp only at hd ⊢
    split
    · exact ⟨hd.hwFrame, MemFrame.of_eq hd.mem⟩
    · have hm : (s1.engine .record e).busy = true := by obtain ⟨n, x, -, rfl⟩ := hd; exact hb
      refine ⟨hd.hwFrame.trans ((captureByte_hwFrame e a s1).trans ?_), fun b hb' => ?_, fun w => ?_,
        fun hr => absurd hb (by rw [hr.1 e]; decide)⟩
      · refine HwFrame.modHw (by cases e <;> rfl) ?_ ?_ ?_ ?_ <;> intro e' <;> cases e <;> cases e' <;>
          first | rfl | exact id
      · rw [State.modEngine_mem, captureByte_read_other, hd.mem]
        rintro rfl
        rw [hc] at hb'
        exact absurd hb' (by decide)
      · rw [State.modEngine_mem]
        exact captureByte_wf ha e (by rw [hd.mem]; exact w)
  · exact ⟨HwFrame.refl s, MemFrame.of_eq rfl⟩

/-- What capture blocks in flight may do before another access: only bytes of theirs change. -/
theorem settle_frames (a : Nat) (s : State) : HwFrame s (settle a s) ∧ MemFrame s (settle a s) := by
  unfold settle
  have h1 := mayCapture_frames (s.record.hw.active.getD .a) a s
  dsimp only
  split
  · exact h1
  · have h2 := mayCapture_frames (s.record.hw.active.getD .a).other a (mayCapture (s.record.hw.active.getD .a) a s)
    exact ⟨h1.1.trans h2.1, MemFrame.trans h1.1 h1.2 h2.2⟩

/-- Where no capture block in flight covers the address, nothing happens before an access. -/
theorem settle_uncovered {a : Nat} {s : State} (h : captureCovers s a = false) : settle a s = s := by
  have k : ∀ e, (s.engine .record e).owes a = false := fun e => by
    by_contra hn
    rw [(owes_covers (by simpa using hn)).1] at h
    exact absurd h (by decide)
  have m : ∀ e, mayCapture e a s = s := fun e => by unfold mayCapture; rw [k e]; rfl
  unfold settle
  dsimp only
  rw [m, k, m]
  rfl

theorem fetchByte_frames (e : Eng) (a : Nat) (s : State) : HwFrame s (fetchByte e a s).2 ∧ MemFrame s (fetchByte e a s).2 := by
  have h := settle_frames a s
  unfold fetchByte
  dsimp only
  split
  · exact h
  · have hd := drawPick_drew (settle a s)
    exact ⟨h.1.trans hd.hwFrame, MemFrame.trans h.1 h.2 (MemFrame.of_eq hd.mem)⟩

theorem fetchBytes_frames (e : Eng) (a n : Nat) (s : State) :
    HwFrame s (fetchBytes e a n s).2 ∧ MemFrame s (fetchBytes e a n s).2 := by
  induction n generalizing a s with
  | zero => exact ⟨HwFrame.refl s, MemFrame.of_eq rfl⟩
  | succ n ih =>
    have h := fetchByte_frames e a s
    have k := ih (a + 1) (fetchByte e a s).2
    exact ⟨h.1.trans k.1, MemFrame.trans h.1 h.2 k.2⟩

theorem fetchBytes_length (e : Eng) (a n : Nat) (s : State) : (fetchBytes e a n s).1.length = n := by
  induction n generalizing a s with
  | zero => rfl
  | succ n ih => simp [fetchBytes, ih]

/-- What a host load can do to the machine (`20_memory.md` R123). -/
theorem hostLoad_frames (a : Nat) (s : State) : HwFrame s (hostLoad a s).2 ∧ MemFrame s (hostLoad a s).2 := settle_frames a s

/-- A host store changes the byte it stores to and bytes of capture blocks in flight. -/
theorem hostStore_frames (a : Nat) (v : Byte) (s : State) : HwFrame s (hostStore a v s) ∧
    (∀ b, b ≠ a → captureCovers s b = false → Memory.read (hostStore a v s).mem b = Memory.read s.mem b) ∧
    Memory.read (hostStore a v s).mem a = v := by
  have h := settle_frames a s
  refine ⟨h.1.trans (storeByte_hwFrame _ _ _), fun b hb hc => ?_, ?_⟩
  · unfold hostStore; rw [storeByte_mem, Memory.read_write_other hb]; exact h.2.read b hc
  · unfold hostStore; rw [storeByte_mem, Memory.read_write_same]

/-! ### block transfers -/

theorem moveBlock_hwFrame (d : Dir) (e : Eng) (k : Nat) (s : State) : HwFrame s (moveBlock d e k s) := by
  cases d with
  | play => exact (fetchBytes_frames e _ k s).1.trans (HwFrame.emit _ _)
  | record => exact (captureBytes_hwFrame e _ k s).trans (HwFrame.emit _ _)

theorem Drew.trace {s t : State} (h : Drew s t) : t.trace = s.trace := by
  obtain ⟨n, x, -, rfl⟩ := h; rfl

theorem captureByte_trace (e : Eng) (a : Nat) (s : State) : (captureByte e a s).2.trace = s.trace := by
  rcases captureByte_eq e a s with ⟨b, -, h⟩ | ⟨-, h⟩ <;> rw [h]
  exact (drawByte_drew s).trace

theorem captureBytes_trace (e : Eng) (a n : Nat) (s : State) : (captureBytes e a n s).2.trace = s.trace := by
  induction n generalizing a s with
  | zero => rfl
  | succ n ih => exact (ih (a + 1) (captureByte e a s).2).trans (captureByte_trace e a s)

theorem mayCapture_trace (e : Eng) (a : Nat) (s : State) : (mayCapture e a s).trace = s.trace := by
  unfold mayCapture
  split
  · dsimp only
    split
    · exact (drawPick_drew s).trace
    · exact (captureByte_trace e a (drawPick s).2).trans (drawPick_drew s).trace
  · rfl

theorem settle_trace (a : Nat) (s : State) : (settle a s).trace = s.trace := by
  unfold settle
  dsimp only
  split
  · exact mayCapture_trace _ a s
  · exact (mayCapture_trace _ a _).trans (mayCapture_trace _ a s)

theorem fetchByte_trace (e : Eng) (a : Nat) (s : State) : (fetchByte e a s).2.trace = s.trace := by
  unfold fetchByte
  dsimp only
  split
  · exact settle_trace a s
  · exact (drawPick_drew _).trace.trans (settle_trace a s)

theorem fetchBytes_trace (e : Eng) (a n : Nat) (s : State) : (fetchBytes e a n s).2.trace = s.trace := by
  induction n generalizing a s with
  | zero => rfl
  | succ n ih => exact (ih (a + 1) (fetchByte e a s).2).trans (fetchByte_trace e a s)

/-- A transfer records one event, with as many bytes as it moves (`44_dma_engine.md` R271, R274). -/
theorem moveBlock_trace (d : Dir) (e : Eng) (k : Nat) (s : State) : ∃ bytes : List Byte, bytes.length = k ∧
    (moveBlock d e k s).trace = s.trace ++ [transferEvent d e (s.engine d e).addr bytes] := by
  cases d with
  | play => exact ⟨_, fetchBytes_length e _ k s, congrArg (· ++ _) (fetchBytes_trace e _ k s)⟩
  | record => exact ⟨_, captureBytes_length e _ k s, congrArg (· ++ _) (captureBytes_trace e _ k s)⟩

theorem completeBlock_hwFrame (d : Dir) (s : State) : HwFrame s (completeBlock d s) := by
  unfold completeBlock
  split
  · exact (moveBlock_hwFrame d _ _ s).trans (DmaHw.complete_frame d _ _)
  · exact HwFrame.refl s

/-- A sub-engine has moved no more than its block. -/
theorem Engine.movedAtLeast_le (d : Dir) (g : Engine) : g.movedAtLeast d ≤ g.cnt.toNat := by
  cases d with
  | play => exact Nat.zero_le _
  | record =>
    have key : ∀ (l : List Host.Cell) (m : Nat), m ≤ g.cnt.toNat →
        (l.filter fun c => g.covers c.1).foldl (fun m c => max m (c.1 + 1 - g.addr.toNat)) m ≤ g.cnt.toNat := by
      intro l
      induction l with
      | nil => intro m hm; exact hm
      | cons c r ih =>
        intro m hm
        by_cases hc : g.covers c.1 = true
        · rw [List.filter_cons_of_pos (p := fun c : Host.Cell => g.covers c.1) hc]
          refine ih _ ?_
          simp only [Engine.covers, Bool.and_eq_true, decide_eq_true_eq] at hc
          show max m (c.1 + 1 - g.addr.toNat) ≤ g.cnt.toNat
          omega
        · rw [List.filter_cons_of_neg (p := fun c : Host.Cell => g.covers c.1) hc]
          exact ih m hm
    exact key _ 0 (Nat.zero_le _)

/-- Everything an abandonment can do (`44_dma_engine.md` R274). -/
theorem abandonBlock_eq (d : Dir) (e : Eng) (s : State) :
    ((s.engine d e).busy = false ∧ abandonBlock d e s = s) ∨
    ((s.engine d e).busy = true ∧ ∃ k t, Drew s t ∧ (s.engine d e).movedAtLeast d ≤ k ∧ k ≤ (s.engine d e).cnt.toNat ∧
      abandonBlock d e s = (if (s.engine d e).inMemory then moveBlock d e k t else t).modHw d (DmaHw.drop e)) := by
  unfold abandonBlock
  split
  · next hb =>
    have hd := drawUpTo_drew ((s.engine d e).cnt.toNat - (s.engine d e).movedAtLeast d) s
    have hk := drawUpTo_le ((s.engine d e).cnt.toNat - (s.engine d e).movedAtLeast d) s
    have hl := Engine.movedAtLeast_le d (s.engine d e)
    refine .inr ⟨hb, (s.engine d e).movedAtLeast d + (drawUpTo ((s.engine d e).cnt.toNat - (s.engine d e).movedAtLeast d) s).1, _, hd,
      Nat.le_add_right _ _, by omega, rfl⟩
  · next hb => exact .inl ⟨by simpa using hb, rfl⟩

theorem abandonBlock_hwFrame (d : Dir) (e : Eng) (s : State) : HwFrame s (abandonBlock d e s) := by
  rcases abandonBlock_eq d e s with ⟨-, h⟩ | ⟨-, k, t, hd, -, -, h⟩ <;> rw [h]
  · exact HwFrame.refl s
  · refine hd.hwFrame.trans (HwFrame.trans ?_ (DmaHw.drop_frame d e _))
    split
    · exact moveBlock_hwFrame d e k t
    · exact HwFrame.refl t

/-- A block transfer changes at most the bytes of a capture block. -/
theorem moveBlock_memFrame {d : Dir} {e : Eng} {k : Nat} {s : State} (hb : (s.engine d e).busy = true)
    (hm : (s.engine d e).inMemory = true) (hk : k ≤ (s.engine d e).cnt.toNat) : MemFrame s (moveBlock d e k s) := by
  cases d with
  | play => exact MemFrame.trans (fetchBytes_frames e _ k s).1 (fetchBytes_frames e _ k s).2 (MemFrame.of_eq rfl)
  | record =>
    have hin : (s.engine .record e).addr.toNat + (s.engine .record e).cnt.toNat ≤ Config.memSize := by
      simp [Engine.inMemory] at hm; exact hm.2
    show MemFrame s ((captureBytes e (s.engine .record e).addr.toNat k s).2.emit _)
    refine ⟨fun a ha => ?_, fun w => ?_, fun hr => absurd hb (by rw [hr.1 e]; decide)⟩
    · rw [State.emit_mem, captureBytes_read_other]
      by_contra hn
      have hcov : (s.engine .record e).covers a = true := by simp [Engine.covers]; omega
      unfold captureCovers at ha
      cases e <;> simp_all [State.engine, State.dir, DmaHw.eng]
    · exact captureBytes_wf _ _ _ _ (by omega) w

theorem completeBlock_memFrame {d : Dir} {s : State} (h : engineEnabled s d = true) : MemFrame s (completeBlock d s) := by
  unfold engineEnabled at h
  unfold completeBlock
  split at h
  · next e he =>
    simp only [Bool.and_eq_true] at h
    have := moveBlock_memFrame (k := (s.engine d e).cnt.toNat) h.1.1 h.2 le_rfl
    exact ⟨fun a ha => by simpa using this.read a ha, fun w => by simpa using this.wf w, fun hr => by simpa using this.still hr⟩
  · exact absurd h (by simp)

theorem abandonBlock_memFrame (d : Dir) (e : Eng) (s : State) : MemFrame s (abandonBlock d e s) := by
  rcases abandonBlock_eq d e s with ⟨-, h⟩ | ⟨hb, k, t, hd, -, hk, h⟩ <;> rw [h]
  · exact MemFrame.of_eq rfl
  · have he : t.engine d e = s.engine d e := by obtain ⟨n, x, -, rfl⟩ := hd; cases d <;> rfl
    have h1 : MemFrame s (if (s.engine d e).inMemory then moveBlock d e k t else t) := by
      split
      · next hm => exact MemFrame.trans hd.hwFrame (MemFrame.of_eq hd.mem) (moveBlock_memFrame (he ▸ hb) (he ▸ hm) (he ▸ hk))
      · exact MemFrame.of_eq hd.mem
    exact ⟨fun a ha => by rw [State.modHw_mem]; exact h1.read a ha, fun w => by rw [State.modHw_mem]; exact h1.wf w,
      fun hr => by rw [State.modHw_mem]; exact h1.still hr⟩

/-! ### hardware agents before a register access -/

/-- An agent of the list of enabled agents is enabled. -/
theorem engine_of_mem {d : Dir} {s : State} (h : HwAgent.engine d ∈ hwAgents s) : engineEnabled s d = true := by
  unfold hwAgents at h
  cases d <;> (by_contra hn; simp [hn] at h)

/-- A sub-engine moves only while its direction can run (`44_dma_engine.md` R270). -/
theorem canRun_of_enabled {d : Dir} {s : State} (h : engineEnabled s d = true) : dmaCanRun s d = true := by
  unfold engineEnabled at h
  split at h
  · simp only [Bool.and_eq_true] at h; exact h.1.2
  · cases h

theorem serialiser_of_mem {s : State} (h : HwAgent.serialiser ∈ hwAgents s) : s.l3.busy = true := by
  unfold hwAgents at h
  by_contra hn; simp [hn] at h

/-- Being enabled does not depend on draws. -/
theorem Drew.hwAgents {s t : State} (h : Drew s t) : hwAgents t = hwAgents s := by
  obtain ⟨n, x, -, rfl⟩ := h; rfl

/-- An enabled hardware agent's step. -/
theorem hwStep_frames {g : HwAgent} {s : State} (h : g ∈ hwAgents s) : HwFrame s (hwStep g s) ∧ MemFrame s (hwStep g s) := by
  cases g with
  | serialiser => exact ⟨serialise_hwFrame (serialiser_of_mem h), MemFrame.of_eq (serialise_mem s)⟩
  | engine d => exact ⟨completeBlock_hwFrame d s, completeBlock_memFrame (engine_of_mem h)⟩

theorem hwRounds_frames (n : Nat) (s : State) : HwFrame s (hwRounds n s) ∧ MemFrame s (hwRounds n s) := by
  induction n generalizing s with
  | zero => exact ⟨HwFrame.refl s, MemFrame.of_eq rfl⟩
  | succ n ih =>
    unfold hwRounds
    split
    · exact ⟨HwFrame.refl s, MemFrame.of_eq rfl⟩
    · have h := drawPick_drew s
      generalize drawPick s = r at h ⊢
      obtain ⟨k, t⟩ := r
      cases k with
      | zero => exact ⟨h.hwFrame, MemFrame.of_eq h.mem⟩
      | succ j =>
        dsimp only
        split
        · next g hg =>
          have hs := hwStep_frames (s := t) (g := g) (by rw [h.hwAgents]; exact List.mem_of_getElem? hg)
          have hr := ih (hwStep g t)
          exact ⟨h.hwFrame.trans (hs.1.trans hr.1),
            MemFrame.trans h.hwFrame (MemFrame.of_eq h.mem) (MemFrame.trans hs.1 hs.2 hr.2)⟩
        · exact ⟨h.hwFrame, MemFrame.of_eq h.mem⟩

/-- What may happen before a register access leaves the frame of the hardware agents alone. -/
theorem hw_hwFrame (s : State) : HwFrame s (hw s) := (hwRounds_frames 5 s).1

/-- Where no hardware agent is enabled, nothing happens before a register access. -/
theorem hw_quiet {s : State} (h : hwAgents s = []) : hw s = s := by
  show hwRounds 5 s = s
  unfold hwRounds
  split
  · rfl
  · next hne => exact absurd h hne

/-- Everything that may happen before a register access. -/
theorem hw_moved (s : State) : HardwareMoved s (hw s) := ⟨hw_hwFrame s, (hwRounds_frames 5 s).2, hw_quiet⟩

/-- `t` ms passing: the frame of the hardware agents, but for the time. -/
theorem passTime_hwFrame (t : Nat) (s : State) :
    ∃ u, HwFrame s u ∧ u.mem = s.mem ∧ passTime t s = { u with env := { u.env with now := u.env.now + t } } := by
  unfold passTime
  split
  · next h => exact ⟨_, serialise_hwFrame (by simp at h; exact h.1), serialise_mem s, rfl⟩
  · exact ⟨s, HwFrame.refl s, rfl, rfl⟩

/-- After 1 ms or more no frame is in progress (`41_control_bus.md` R188). -/
theorem passTime_busy {t : Nat} (ht : 1 ≤ t) (s : State) : (passTime t s).l3.busy = false := by
  unfold passTime
  by_cases hb : s.l3.busy = true
  · simp [hb, ht]
  · simp [hb]

/-- A register read changes nothing but what the hardware agents do and the count of draws (`40_register_access.md` R171). -/
theorem regRead_hwFrame (r : Reg) (s : State) : HwFrame s (regRead r s).2 := by
  refine (hw_hwFrame s).trans ?_
  show HwFrame (hw s) (regLoad r (hw s)).2
  cases r <;> unfold regLoad <;> dsimp only <;>
    first
    | exact HwFrame.refl _
    | exact (drawNoise_drew _).hwFrame
    | (split <;> first | exact (drawNoise_drew _).hwFrame | exact HwFrame.refl _)

theorem readWriteDone_eq (s : State) : readWriteDone s = ((hw s).regs.l3wd, hw s) := rfl

/-- Bit 16 of a read of `STATUS` is `L3WD`, whatever the draw of the reserved bits: the poll of `L3.SEND` may read the flag
(notes/assumptions/16). -/
theorem status_bit16 (s : State) : (regRead .status s).1.getLsbD 16 = (readWriteDone s).1 := by
  show (regLoad .status (hw s)).1.getLsbD 16 = (hw s).regs.l3wd
  simp only [regLoad, flagAt, Config.dts, Config.rdd]
  cases (hw s).regs.l3wd <;> cases (hw s).regs.l3rd <;> simp

end Sys2Proof.Machine
end

