-- ==== Sys2Proof/Laws/Context.lean ====
section
/-! SUPPORT. Once each, everything a write of `CS`, a start, the handler, a delivery, a wait, a choice of the next agent and a step can do. -/

namespace Sys2Proof.Machine

theorem HwFrame.streams {s t : State} (h : HwFrame s t) (hs : StreamsOk s) : StreamsOk t := fun d hr => by
  rw [h.chan d] at hr
  rw [h.cfg, h.buf d]
  exact hs d hr

theorem HwFrame.ctx {s t : State} (h : HwFrame s t) : CtxFrame s t where
  port := h.port
  seq := by rw [h.seq]
  mirror := h.mirror
  inIrq := h.inIrq
  cfg := h.cfg
  bus := h.bus
  now := h.now.ge
  rstSince := h.rstSince
  host := h.host
  trace := h.trace
  errlog := ⟨[], by rw [h.errlog, List.append_nil], rfl⟩
  chan := fun d => by rw [h.chan d]
  buf := fun d => by rw [h.buf d]
  streams := h.streams

theorem CtxFrame.refl (s : State) : CtxFrame s s := (HwFrame.refl s).ctx

theorem CtxFrame.trans {s t u : State} (h : CtxFrame s t) (k : CtxFrame t u) : CtxFrame s u where
  port := k.port.trans h.port
  seq := by rw [k.seq, h.seq]
  mirror := k.mirror.trans h.mirror
  inIrq := k.inIrq.trans h.inIrq
  cfg := k.cfg.trans h.cfg
  bus := bus_trans h.cfg h.bus k.bus
  now := h.now.trans k.now
  rstSince := k.rstSince.trans h.rstSince
  host := k.host.trans h.host
  trace := by
    obtain ⟨a, ha⟩ := h.trace; obtain ⟨b, hb⟩ := k.trace
    exact ⟨a ++ b, by rw [hb, ha, List.append_assoc]⟩
  errlog := by
    obtain ⟨a, ha, fa⟩ := h.errlog; obtain ⟨b, hb, fb⟩ := k.errlog
    exact ⟨a ++ b, by rw [hb, ha, List.append_assoc], by rw [List.filter_append, fa, fb]; rfl⟩
  chan := fun d => by rw [k.chan d, h.chan d]
  buf := fun d => by rw [k.buf d, h.buf d]
  streams := fun hs => k.streams (h.streams hs)

/-- A change of one direction that keeps the descriptors' fixed fields and the alignment of the buffer. -/
theorem CtxFrame.setDir {d : Dir} {x : Direction} {s : State}
    (h1 : x.chan = { (s.dir d).chan with generation := x.chan.generation })
    (h2 : x.buf = { (s.dir d).buf with current := x.buf.current, loopCount := x.buf.loopCount })
    (h3 : AlignedBuffer s.cfg (s.dir d).buf → AlignedBuffer s.cfg x.buf) :
    CtxFrame s (s.setDir d x) := by
  constructor <;> first
    | (cases d <;> rfl)
    | (cases d <;> exact .inl ⟨rfl, rfl, rfl, rfl⟩)
    | (cases d <;> exact le_refl _)
    | (cases d <;> exact ⟨[], (List.append_nil _).symm⟩)
    | (cases d <;> exact ⟨[], (List.append_nil _).symm, rfl⟩)
    | (intro d'; rw [State.setDir_dir]; split <;> first | rfl | (subst_vars; first | exact h1 | exact h2))
    | skip
  intro hs d' hr
  rw [State.setDir_dir] at hr ⊢
  rw [State.setDir_cfg]
  by_cases hd : d' = d
  · subst hd
    simp only [if_pos] at hr ⊢
    rw [h1] at hr
    exact h3 (hs d' hr)
  · simp only [hd, if_false] at hr ⊢
    exact hs d' hr

theorem CtxFrame.modHw (d : Dir) (f : DmaHw → DmaHw) (s : State) : CtxFrame s (s.modHw d f) :=
  CtxFrame.setDir rfl rfl id

theorem CtxFrame.log {r : LogRecord} (hr : r.isTimeout = false) (s : State) : CtxFrame s (s.log r) := by
  constructor <;> first
    | rfl
    | exact .inl ⟨rfl, rfl, rfl, rfl⟩
    | exact ⟨[], (List.append_nil _).symm⟩
    | exact ⟨[r], rfl, by simp [hr]⟩
    | (intro d; rfl)
    | exact le_refl _
    | exact id

theorem CtxFrame.emit (ev : Event) (s : State) : CtxFrame s (s.emit ev) := (HwFrame.emit ev s).ctx

/-! ### register writes of the DMA engine -/

/-- What a start leaves: the sub-engine was idle and its block startable (`10_state.md` R57, R60). -/
theorem startEngine_next {d : Dir} {e : Eng} {s t : State} (h : startEngine d e s = .next t) :
    startable s.cfg (s.engine d e) = true ∧
      t = s.modHw d (fun h =>
        { h.modEng e (fun g => { g with busy := true, raced := [] }) with
          active := h.active.or (some e) }) := by
  unfold startEngine at h
  split at h
  · next hs => exact ⟨hs, (Host.Outcome.next.inj h).symm⟩
  · exact absurd h (by simp)

/-- Everything a write of `CS[d]` can do (`10_state.md` R57): disable and abandon, or clear done bits and start at most one idle
sub-engine. -/
theorem storeCs_next {d : Dir} {w : Word} {s t : State} (h : storeCs d w s = .next t) :
    (hasBit w Config.csEn = false ∧
      t = (abandonBlock d .b (abandonBlock d .a (s.modHw d (DmaHw.clearAndEnable w)))).modHw d
        (fun h => { h with active := none })) ∨
    (hasBit w Config.csEn = true ∧
      (t = s.modHw d (DmaHw.clearAndEnable w) ∨
        ∃ e, hasBit w (startMask e) = true ∧ (s.engine d e).busy = false ∧
          startEngine d e (s.modHw d (DmaHw.clearAndEnable w)) = .next t)) := by
  unfold storeCs at h
  dsimp only at h
  split at h
  · next hen =>
    refine .inr ⟨hen, ?_⟩
    split at h
    · exact absurd h (by simp)
    · split at h
      · next hA => simp at hA; exact .inr ⟨.a, hA.1, hA.2, h⟩
      · split at h
        · next hB => simp at hB; exact .inr ⟨.b, hB.1, hB.2, h⟩
        · exact .inl (Host.Outcome.next.inj h).symm
  · next hen => exact .inl ⟨by simpa using hen, (Host.Outcome.next.inj h).symm⟩

theorem storeCs_ctx {d : Dir} {w : Word} {s t : State} (h : storeCs d w s = .next t) : CtxFrame s t := by
  rcases storeCs_next h with ⟨-, rfl⟩ | ⟨-, rfl | ⟨e, -, -, he⟩⟩
  · exact (CtxFrame.modHw d _ s).trans
      ((abandonBlock_hwFrame d .a _).ctx.trans ((abandonBlock_hwFrame d .b _).ctx.trans (CtxFrame.modHw d _ _)))
  · exact CtxFrame.modHw d _ s
  · obtain ⟨-, rfl⟩ := startEngine_next he
    exact (CtxFrame.modHw d _ s).trans (CtxFrame.modHw d _ _)

/-- A write of an address or count register: never to a busy sub-engine (`10_state.md` R58, R59). -/
theorem regStore_addr_next {d : Dir} {e : Eng} {v : Word} {s t : State} (h : regStore (.addr d e) v s = .next t) :
    (s.engine d e).busy = false ∧ t = s.modEngine d e (fun g => { g with addr := v }) := by
  simp only [regStore] at h
  split at h
  · exact absurd h (by simp)
  · next hb => exact ⟨by simpa using hb, (Host.Outcome.next.inj h).symm⟩

theorem regStore_cnt_next {d : Dir} {e : Eng} {v : Word} {s t : State} (h : regStore (.cnt d e) v s = .next t) :
    (s.engine d e).busy = false ∧ t = s.modEngine d e (fun g => { g with cnt := v }) := by
  simp only [regStore] at h
  split at h
  · exact absurd h (by simp)
  · next hb => exact ⟨by simpa using hb, (Host.Outcome.next.inj h).symm⟩

theorem regWrite_cs_ctx {d : Dir} {w : Word} {s t : State} (h : regWrite (.cs d) w s = .next t) : CtxFrame s t :=
  (hw_hwFrame s).ctx.trans (storeCs_ctx h)

theorem regWrite_addr_ctx {d : Dir} {e : Eng} {w : Word} {s t : State} (h : regWrite (.addr d e) w s = .next t) :
    CtxFrame s t := by
  obtain ⟨-, rfl⟩ := regStore_addr_next h
  exact (hw_hwFrame s).ctx.trans (CtxFrame.modHw d _ _)

theorem regWrite_cnt_ctx {d : Dir} {e : Eng} {w : Word} {s t : State} (h : regWrite (.cnt d e) w s = .next t) :
    CtxFrame s t := by
  obtain ⟨-, rfl⟩ := regStore_cnt_next h
  exact (hw_hwFrame s).ctx.trans (CtxFrame.modHw d _ _)

/-! ### starting a block -/

/-- Everything a start can do (`44_dma_engine.md` R250): refuse with nothing written, or program the next sub-engine and advance
the counter. -/
theorem startBlock_next {d : Dir} {addr len : Word} {s t : State} {st : Status}
    (h : startBlock d addr len s = .next (st, t)) :
    (len = 0 ∧ st = .einval ∧ t = s) ∨
    (len ≠ 0 ∧ st = .ebusy ∧ t = hw s) ∨
    (len ≠ 0 ∧ st = .ok ∧ ∃ s2 s3 s4,
      regWrite (.addr d (nextEngine (s.dir d).chan.generation)) addr (hw s) = .next s2 ∧
      regWrite (.cnt d (nextEngine (s.dir d).chan.generation)) len s2 = .next s3 ∧
      regWrite (.cs d) (Config.csEn ||| startMask (nextEngine (s.dir d).chan.generation)) s3 = .next s4 ∧
      t = s4.modChan d (fun c => { c with generation := c.generation + 1 })) := by
  unfold startBlock at h
  split at h
  · next hl => simp at h; exact .inl ⟨hl, h.1.symm, h.2.symm⟩
  · next hl =>
    have hg : ((hw s).dir d).chan.generation = (s.dir d).chan.generation := by rw [(hw_hwFrame s).chan d]
    dsimp only [regRead, regLoad] at h
    rw [hg] at h
    split at h
    · simp at h; exact .inr (.inl ⟨hl, h.1.symm, h.2.symm⟩)
    · obtain ⟨s2, h2, h⟩ := andThen_eq_next h
      obtain ⟨s3, h3, h⟩ := andThen_eq_next h
      obtain ⟨s4, h4, h⟩ := andThen_eq_next h
      simp at h
      exact .inr (.inr ⟨hl, h.1.symm, s2, s3, s4, h2, h3, h4, h.2.symm⟩)

theorem startBlock_ctx {d : Dir} {addr len : Word} {s t : State} {st : Status}
    (h : startBlock d addr len s = .next (st, t)) : CtxFrame s t := by
  rcases startBlock_next h with ⟨-, -, rfl⟩ | ⟨-, -, rfl⟩ | ⟨-, -, s2, s3, s4, h2, h3, h4, rfl⟩
  · exact CtxFrame.refl _
  · exact (hw_hwFrame s).ctx
  · exact (hw_hwFrame s).ctx.trans ((regWrite_addr_ctx h2).trans ((regWrite_cnt_ctx h3).trans
      ((regWrite_cs_ctx h4).trans (CtxFrame.setDir rfl rfl id))))

/-! ### the handler -/

theorem passTime_ctx (t : Nat) (s : State) : CtxFrame s (passTime t s) := by
  obtain ⟨u, hu, -, he⟩ := passTime_hwFrame t s
  rw [he]
  refine hu.ctx.trans ?_
  constructor <;> first
    | rfl
    | exact .inl ⟨rfl, rfl, rfl, rfl⟩
    | exact ⟨[], (List.append_nil _).symm⟩
    | exact ⟨[], (List.append_nil _).symm, rfl⟩
    | (intro d; rfl)
    | exact id
    | exact Nat.le_add_right _ _

theorem recoveryWait_ctx (s : State) : CtxFrame s (recoveryWait s) := by
  unfold recoveryWait
  refine CtxFrame.trans (t := { s with seq := { s.seq with recoveryDelay := true } }) ?_
    ((hw_hwFrame _).ctx.trans (passTime_ctx _ _))
  constructor <;> first
    | rfl
    | exact .inl ⟨rfl, rfl, rfl, rfl⟩
    | exact ⟨[], (List.append_nil _).symm⟩
    | exact ⟨[], (List.append_nil _).symm, rfl⟩
    | (intro d; rfl)
    | exact le_refl _
    | exact id

/-- A new streak count leaves the descriptors alone. -/
theorem CtxFrame.oppStreak (d : Dir) (n : Nat) (s : State) : CtxFrame s (s.setDir d { s.dir d with oppStreak := n }) :=
  CtxFrame.setDir rfl rfl id

theorem CtxFrame.lastServiced (d : Dir) (e : Eng) (s : State) :
    CtxFrame s (s.setDir d { s.dir d with lastServiced := some e }) := CtxFrame.setDir rfl rfl id

theorem recoverEngine_ctx (d : Dir) (x : Eng) (s : State) : CtxFrame s (recoverEngine d x s) := by
  have h1 := ((abandonBlock_hwFrame d x s).ctx.trans (CtxFrame.modHw d
    (DmaHw.modEng x (fun g => { g with busy := false, done := false, addr := 0, cnt := 0 })) _))
  unfold recoverEngine
  dsimp only
  change CtxFrame s ((abandonBlock d x s).modEngine d x _) at h1
  generalize (abandonBlock d x s).modEngine d x _ = s1 at h1 ⊢
  exact h1.trans ((CtxFrame.oppStreak d 0 s1).trans (recoveryWait_ctx _))

theorem recoveryChecks_ctx (d : Dir) (e : Eng) (s : State) : CtxFrame s (recoveryChecks d e s) := by
  unfold recoveryChecks
  have h1 := (regRead_hwFrame (.cs d) s).ctx
  generalize regRead (.cs d) s = r at h1 ⊢
  obtain ⟨cs, s0⟩ := r
  dsimp only at h1 ⊢
  replace h1 := h1.trans (hw_hwFrame s0).ctx
  generalize hw s0 = s1 at h1 ⊢
  have h2 : CtxFrame s (if (s1.dir d).lastServiced = some e then (recoverEngine d e s1).log (.repeatCompletion d e) else s1) := by
    split
    · exact h1.trans ((recoverEngine_ctx d e s1).trans (CtxFrame.log rfl _))
    · exact h1
  generalize (if (s1.dir d).lastServiced = some e then (recoverEngine d e s1).log (.repeatCompletion d e) else s1) = s2 at h2 ⊢
  have h3 := h2.trans (CtxFrame.oppStreak d (if hasBit cs (startMask e.other) then (s2.dir d).oppStreak + 1 else 0) s2)
  generalize s2.setDir d _ = s3 at h3 ⊢
  split
  · exact h3.trans ((recoverEngine_ctx d e.other _).trans (CtxFrame.log rfl _))
  · exact h3

theorem callback_ctx (d : Dir) (s : State) : CtxFrame s (callback d s) := by
  unfold callback; split
  · exact CtxFrame.emit _ _
  · exact CtxFrame.refl s

theorem rearm_ctx {d : Dir} {addr len : Word} {s t : State} (h : rearm d addr len s = .next t) : CtxFrame s t := by
  obtain ⟨⟨st, u⟩, hu, h⟩ := andThen_eq_next h
  have hc := startBlock_ctx hu
  cases st <;> simp at h <;> subst h <;> first | exact hc | exact hc.trans (CtxFrame.log rfl _)

/-- A change of the pointer or the loop counter leaves the rest of the descriptor alone. -/
theorem CtxFrame.modBuf (d : Dir) (s : State) {f : Buffer → Buffer}
    (h : f (s.dir d).buf = { (s.dir d).buf with
      current := (f (s.dir d).buf).current, loopCount := (f (s.dir d).buf).loopCount })
    (h3 : AlignedBuffer s.cfg (s.dir d).buf → AlignedBuffer s.cfg (f (s.dir d).buf)) : CtxFrame s (s.modBuf d f) :=
  CtxFrame.setDir rfl h h3

/-- The pointer after the advance (`45_rearm_sequencer.md` R295). -/
def Buffer.advanced (b : Buffer) : Nat := min (b.current.toNat + b.period.toNat) b.limit

/-- The descriptor after the advance is aligned if it was. -/
theorem AlignedBuffer.advance {p : Params} {b : Buffer} (hl : b.limit < Config.memSize) (h : AlignedBuffer p b) :
    AlignedBuffer p { b with current := BitVec.ofNat 32 b.advanced } := by
  obtain ⟨h1, h2, h3, h4, h5⟩ := h
  refine ⟨h1, ?_, h3, h4, h5⟩
  have hlt : b.advanced < 2 ^ 32 := lt_of_le_of_lt (min_le_right _ _) (by simpa [Config.memSize] using hl)
  show p.dmaAlign ∣ (BitVec.ofNat 32 b.advanced).toNat
  rw [BitVec.toNat_ofNat, Nat.mod_eq_of_lt hlt]
  unfold Buffer.advanced
  rcases min_choice (b.current.toNat + b.period.toNat) b.limit with hm | hm <;> rw [hm]
  · exact dvd_add h2 h3
  · exact dvd_add h1 h4

theorem wellFormedBuffer_iff (x : Direction) : wellFormedBuffer x = true ↔
    x.chan.bufferRef = true ∧ x.buf.size ≠ 0 ∧ x.buf.period ≠ 0 ∧ x.buf.period.toNat ≤ x.buf.size.toNat ∧
      x.buf.limit < Config.memSize ∧ x.buf.start.toNat ≤ x.buf.current.toNat ∧ x.buf.current.toNat < x.buf.limit := by
  simp [wellFormedBuffer, and_assoc]

theorem advanceBuffer_ctx {d : Dir} {s t : State} (hw : wellFormedBuffer (s.dir d) = true)
    (h : advanceBuffer d s = .next t) : CtxFrame s t := by
  have hl := ((wellFormedBuffer_iff _).1 hw).2.2.2.2.1
  unfold advanceBuffer at h
  dsimp only at h
  change (if (s.dir d).buf.advanced < _ then _ else _) = _ at h
  have h1 := CtxFrame.modBuf d s (f := fun b => { b with current := BitVec.ofNat 32 (s.dir d).buf.advanced }) rfl
    (AlignedBuffer.advance hl)
  change CtxFrame s (s.modBuf d (fun b => { b with current := BitVec.ofNat 32 (min _ _) })) at h1
  generalize s.modBuf d (fun b => { b with current := BitVec.ofNat 32 (min _ _) }) = s1 at h h1
  have h2 := h1.trans (CtxFrame.modBuf d s1 (f := fun b => { b with loopCount := b.loopCount + 1 }) rfl id)
  generalize s1.modBuf d (fun b => { b with loopCount := b.loopCount + 1 }) = s2 at h h2
  have h3 := h2.trans (CtxFrame.modBuf d s2 (f := fun c => { c with current := c.start }) rfl
    (fun ⟨a, _, b⟩ => ⟨a, a, b⟩))
  generalize s2.modBuf d (fun c => { c with current := c.start }) = s3 at h h3
  split at h
  · split at h
    · exact h1.trans ((callback_ctx d _).trans (rearm_ctx h))
    · cases h; exact h1
  · split at h
    · exact h3.trans ((callback_ctx d _).trans (rearm_ctx h))
    · split at h
      · cases h; exact h2.trans (callback_ctx d _)
      · cases h; exact h2

theorem serviceBuffer_ctx {d : Dir} {s t : State} (h : serviceBuffer d s = .next t) : CtxFrame s t := by
  unfold serviceBuffer at h
  split at h
  · next hw => exact advanceBuffer_ctx hw h
  · cases h; exact CtxFrame.log rfl _

/-- The handler leaves the host's state alone and stays in its context (`45_rearm_sequencer.md` R290, `60_exceptions.md` R346). -/
theorem handler_ctx {id : Word} {s t : State} (h : handler id s = .next t) : CtxFrame s t := by
  unfold handler at h
  split at h
  · simp at h; subst h; exact CtxFrame.log rfl _
  · obtain ⟨s1, h1, h⟩ := andThen_eq_next h
    obtain ⟨s2, h2, h⟩ := andThen_eq_next h
    simp at h; subst h
    exact (recoveryChecks_ctx _ _ s).trans ((serviceBuffer_ctx h1).trans
      ((regWrite_cs_ctx h2).trans (CtxFrame.lastServiced _ _ s2)))

/-- A delivery from normal context leaves the host's state alone and returns to normal context (`60_exceptions.md` R346, R348). -/
theorem deliver_ctx {d : Dir} {e : Eng} {s t : State} (hn : s.inIrq = false) (h : deliver d e s = .next t) :
    CtxFrame s t := by
  obtain ⟨s1, h1, h⟩ := andThen_eq_next h
  simp at h; subst h
  have hc := handler_ctx h1
  exact {
    port := hc.port, seq := by rw [exitInterrupt_seq, hc.seq]; rfl, mirror := hc.mirror, inIrq := by simp [hn], cfg := hc.cfg
    bus := hc.bus, now := hc.now, rstSince := hc.rstSince, host := hc.host
    trace := hc.trace, errlog := hc.errlog, chan := hc.chan, buf := hc.buf, streams := hc.streams }

theorem line_of_mem {d : Dir} {e : Eng} {s : State} (h : Actor.line d e ∈ actors s) : deliverable s d e = true := by
  unfold actors lineActors at h
  cases d <;> cases e <;> (by_contra hn; simp [hn] at h)

theorem hardware_of_mem {g : HwAgent} {s : State} (h : Actor.hardware g ∈ actors s) : g ∈ hwAgents s := by
  unfold actors lineActors at h
  by_contra hn
  simp [hn] at h

/-- An enabled agent's step leaves the host's state alone. -/
theorem actorStep_ctx {g : Actor} {s t : State} (hg : g ∈ actors s) {u : State} (hu : Drew s u)
    (h : actorStep g u = .next t) : CtxFrame s t := by
  cases g with
  | hardware g =>
    simp [actorStep] at h; subst h
    exact hu.hwFrame.ctx.trans (hwStep_frames (by rw [hu.hwAgents]; exact hardware_of_mem hg)).1.ctx
  | line d e =>
    have hd := line_of_mem hg
    have hn : u.inIrq = false := by
      rw [hu.hwFrame.inIrq]; simp [deliverable] at hd; exact hd.2
    exact hu.hwFrame.ctx.trans (deliver_ctx hn h)

theorem waitRounds_ctx {n : Nat} {s t : State} (h : waitRounds n s = .next t) : CtxFrame s t := by
  induction n generalizing s with
  | zero => simp [waitRounds] at h; subst h; exact CtxFrame.refl s
  | succ n ih =>
    unfold waitRounds at h
    split at h
    · simp at h; subst h; exact CtxFrame.refl s
    · have hd := drawPick_drew s
      generalize drawPick s = r at h hd
      obtain ⟨k, u⟩ := r
      cases k with
      | zero => exact hd.hwFrame.ctx.trans (ih h)
      | succ j =>
        dsimp only at h
        split at h
        · next g hg =>
          obtain ⟨v, hv, h⟩ := andThen_eq_next h
          exact (actorStep_ctx (List.mem_of_getElem? hg) hd hv).trans (ih h)
        · exact hd.hwFrame.ctx.trans (ih h)

/-- What happens during a wait leaves the waiting operation's state alone (`20_memory.md` R121, `60_exceptions.md` R346). -/
theorem waitEvents_ctx {s t : State} (h : waitEvents s = .next t) : CtxFrame s t := by
  unfold waitEvents at h
  split at h
  · simp at h; subst h; exact CtxFrame.refl s
  · exact (drawPick_drew s).hwFrame.ctx.trans (waitRounds_ctx h)

/-- With no other agent enabled, a wait only passes time. -/
theorem waitAt_quiet {op : Instr} {g : Option Group} {pos : WaitPos} {t : Nat} {s : State} (h : actors s = []) :
    waitAt op g pos t s = .next (passTime t { s with seq := ⟨some op, g, some pos, false⟩ }) := by
  have h' : actors { s with seq := ⟨some op, g, some pos, false⟩ } = [] := h
  unfold waitAt waitEvents
  rw [h']
  rfl

/-- A wait leaves everything of the waiting operation's alone but `seq`. -/
theorem waitAt_ctx {op : Instr} {g : Option Group} {pos : WaitPos} {n : Nat} {s t : State}
    (h : waitAt op g pos n s = .next t) :
    CtxFrame { s with seq := ⟨some op, g, some pos, false⟩ } t ∧ s.env.now + n ≤ t.env.now ∧ (1 ≤ n → t.l3.busy = false) := by
  obtain ⟨s1, h1, h⟩ := andThen_eq_next h
  have hc := waitEvents_ctx h1
  cases h
  refine ⟨hc.trans (passTime_ctx n s1), ?_, fun hn => passTime_busy hn s1⟩
  obtain ⟨u, hu, -, he⟩ := passTime_hwFrame n s1
  rw [he]
  have h2 := hc.now
  have h3 := hu.now
  dsimp only at h2 h3 ⊢
  omega

/-! ## Whose turn it is -/

/-- The choice of the next agent only draws, and an agent chosen is enabled. -/
theorem choose_spec (s : State) : Drew s (choose s).2 ∧ ∀ g, (choose s).1 = some g → g ∈ actors s := by
  unfold choose
  split
  · exact ⟨Drew.refl s, by simp⟩
  · dsimp only
    split
    · exact ⟨drawPick_drew s, by simp⟩
    · next j hj => exact ⟨drawPick_drew s, fun g hg => List.mem_of_getElem? hg⟩

/-- Everything a step can be: the step of an enabled agent, or the host's turn (`00_scope.md` R10, `20_memory.md` R121). -/
theorem step_cases {s t : State} (h : step s = .next t) : s.cfg.chipAddr ≠ 0 ∧
    ((∃ g ∈ actors s, (choose s).1 = some g ∧ actorStep g (choose s).2 = .next t) ∨
      ((choose s).1 = none ∧ hostTurn exec (choose s).2 = .next t)) := by
  unfold step turn at h
  split at h
  · cases h
  · next hc =>
    refine ⟨hc, ?_⟩
    dsimp only at h
    split at h
    · next g hg => exact .inl ⟨g, (choose_spec s).2 g hg, hg, h⟩
    · next hg => exact .inr ⟨hg, h⟩

end Sys2Proof.Machine
end

