-- ==== Sys2Proof/Laws/PerInstr.lean ====
section
/-! SUPPORT. The family `TableRow` of per-instruction statements: the operation word of every well-formed operation matches the row
of the opcode table that the operation names (`30_encoding.md` R141, R142). -/

namespace Sys2Proof.Laws.TableRow

/-- The operation word of a well-formed `i` matches the mask and opcode of `i`'s row, and that row has `i`'s format. -/
def Statement (i : Instr) : Prop :=
  i.wellFormed = true → (encode i).opw &&& i.format.mask = i.opcode.setWidth 32 ∧
    (opcodeRow i.opcode).map Prod.fst = some i.format

/-- A mask that keeps the opcode and, where they are set, drops selector and `LOOP`, leaves the opcode. -/
theorem opWord_masked (opc sel : Byte) (l : Bool) (mask : Word) (hm : ∀ n, n < 8 → mask.getLsbD n = true)
    (hs : ∀ n, n < 8 → sel.getLsbD n = true → mask.getLsbD (8 + n) = false) (hl : l = true → mask.getLsbD 16 = false) :
    opWord opc sel l &&& mask = opc.setWidth 32 := by
  apply BitVec.eq_of_getLsbD_eq
  intro n hn
  simp only [opWord, BitVec.getLsbD_and, BitVec.getLsbD_append, BitVec.getLsbD_setWidth, BitVec.getLsbD_ofBool]
  by_cases a : n < 8
  · simp [a, hm n a, hn]
  · rw [BitVec.getLsbD_of_ge opc n (by omega), if_neg a]
    by_cases b : n < 16
    · have c : n - 8 < 8 := by omega
      have := hs (n - 8) c
      rw [show 8 + (n - 8) = n by omega] at this
      cases h : sel.getLsbD (n - 8) <;> simp_all
    · by_cases d : n = 16
      · subst d; cases l <;> simp_all
      · simp [show ¬ n - 8 < 8 by omega, show ¬ n - 16 < 1 by omega, Nat.sub_sub]

/-- Rows whose format reads no selector. -/
theorem plain_row (opc : Byte) : opWord opc 0 false &&& 0xFFFFFFFF = opc.setWidth 32 :=
  opWord_masked opc 0 false _ (by decide) (by decide) (by decide)

/-- Rows whose format reads the whole selector. -/
theorem sel_row (opc sel : Byte) : opWord opc sel false &&& 0xFFFF00FF = opc.setWidth 32 :=
  opWord_masked opc sel false _ (by decide)
    (fun n hn _ => (by decide : ∀ n, n < 8 → (0xFFFF00FF : Word).getLsbD (8 + n) = false) n hn) (by decide)

/-- Rows whose format reads selector and `LOOP`. -/
theorem loop_row (opc sel : Byte) (l : Bool) : opWord opc sel l &&& 0xFFFE00FF = opc.setWidth 32 :=
  opWord_masked opc sel l _ (by decide)
    (fun n hn _ => (by decide : ∀ n, n < 8 → (0xFFFE00FF : Word).getLsbD (8 + n) = false) n hn) (fun _ => by decide)

/-- Rows whose format reads one bit of selector. -/
theorem region_row (opc rgn : Byte) (h : rgn.toNat < 2) : opWord opc rgn false &&& 0xFFFFFEFF = opc.setWidth 32 := by
  refine opWord_masked opc rgn false _ (by decide) (fun n _ hr => ?_) (by decide)
  have : n = 0 := by
    by_contra hn
    rw [BitVec.getLsbD, Nat.testBit_lt_two_pow (Nat.lt_of_lt_of_le h (Nat.pow_le_pow_right (n := 2) (by decide) (by omega : 1 ≤ n)))] at hr
    cases hr
  subst this; decide

theorem regWr (rgn : Byte) (off : Word) (val : Word) : Statement (.regWr rgn off val) :=
  fun h => ⟨region_row _ _ (by simpa [Instr.wellFormed] using h), rfl⟩

theorem regRd (rgn : Byte) (off : Word) : Statement (.regRd rgn off) :=
  fun h => ⟨region_row _ _ (by simpa [Instr.wellFormed] using h), rfl⟩

theorem l3Send (addr : Byte) (data : Byte) : Statement (.l3Send addr data) :=
  fun _ => ⟨plain_row _, rfl⟩

theorem codecOpen : Statement .codecOpen :=
  fun _ => ⟨plain_row _, rfl⟩

theorem codecClose : Statement .codecClose :=
  fun _ => ⟨plain_row _, rfl⟩

theorem codecSync : Statement .codecSync :=
  fun _ => ⟨plain_row _, rfl⟩

theorem codecSetrate (rate : Word) : Statement (.codecSetrate rate) :=
  fun _ => ⟨plain_row _, rfl⟩

theorem setVol (val : Word) : Statement (.setVol val) :=
  fun _ => ⟨plain_row _, rfl⟩

theorem setBass (val : Word) : Statement (.setBass val) :=
  fun _ => ⟨plain_row _, rfl⟩

theorem setTreb (val : Word) : Statement (.setTreb val) :=
  fun _ => ⟨plain_row _, rfl⟩

theorem setMute (val : Word) : Statement (.setMute val) :=
  fun _ => ⟨plain_row _, rfl⟩

theorem setFilt (val : Word) : Statement (.setFilt val) :=
  fun _ => ⟨plain_row _, rfl⟩

theorem getVol : Statement .getVol :=
  fun _ => ⟨plain_row _, rfl⟩

theorem getBass : Statement .getBass :=
  fun _ => ⟨plain_row _, rfl⟩

theorem getTreb : Statement .getTreb :=
  fun _ => ⟨plain_row _, rfl⟩

theorem getMute : Statement .getMute :=
  fun _ => ⟨plain_row _, rfl⟩

theorem getFilt : Statement .getFilt :=
  fun _ => ⟨plain_row _, rfl⟩

theorem ctrlInit : Statement .ctrlInit :=
  fun _ => ⟨plain_row _, rfl⟩

theorem dmaStart (dir : Byte) (addr : Word) (len : Word) : Statement (.dmaStart dir addr len) :=
  fun _ => ⟨sel_row _ _, rfl⟩

theorem dmaPoll (dir : Byte) : Statement (.dmaPoll dir) :=
  fun _ => ⟨sel_row _ _, rfl⟩

theorem dmaReset : Statement .dmaReset :=
  fun _ => ⟨plain_row _, rfl⟩

theorem irqReq (dir : Byte) : Statement (.irqReq dir) :=
  fun _ => ⟨sel_row _ _, rfl⟩

theorem irqRel (dir : Byte) : Statement (.irqRel dir) :=
  fun _ => ⟨sel_row _ _, rfl⟩

theorem irqEvt (irq : Word) : Statement (.irqEvt irq) :=
  fun _ => ⟨plain_row _, rfl⟩

theorem chOpen (dir : Byte) : Statement (.chOpen dir) :=
  fun _ => ⟨sel_row _ _, rfl⟩

theorem chClose (dir : Byte) : Statement (.chClose dir) :=
  fun _ => ⟨sel_row _ _, rfl⟩

theorem sesArm (dir : Byte) (loop : Bool) (start : Word) (size : Word) (period : Word) (ctx : Word) : Statement (.sesArm dir loop start size period ctx) :=
  fun _ => ⟨loop_row _ _ _, rfl⟩

theorem sesStop (dir : Byte) : Statement (.sesStop dir) :=
  fun _ => ⟨sel_row _ _, rfl⟩

theorem sesPos (dir : Byte) : Statement (.sesPos dir) :=
  fun _ => ⟨sel_row _ _, rfl⟩

end Sys2Proof.Laws.TableRow
end

