-- ==== Sys2Proof/Laws/Waits.lean ====
section
/-! SUPPORT. That starts, the completion handler and waits run to their end where every running session is aligned, and that
host memory stays where no capture block can move. -/

namespace Sys2Proof.Machine

/-! ### reading and writing `CS` -/

/-- The start bits of `CS[d]` read as busy (`10_state.md` R56). -/
theorem csWord_start (h : DmaHw) (e : Eng) : hasBit (csWord h) (startMask e) = (h.eng e).busy := by
  unfold csWord hasBit startMask flagAt
  generalize (h.active == some .b) = b
  cases e <;> simp only [DmaHw.eng] <;> cases h.en <;> cases h.engA.done <;> cases h.engA.busy <;> cases h.engB.done <;>
    cases h.engB.busy <;> cases b <;> decide

/-- The done bits of `CS[d]` read as done (`10_state.md` R55). -/
theorem csWord_done (h : DmaHw) (e : Eng) : hasBit (csWord h) (doneMask e) = (h.eng e).done := by
  unfold csWord hasBit doneMask flagAt
  generalize (h.active == some .b) = b
  cases e <;> simp only [DmaHw.eng] <;> cases h.en <;> cases h.engA.done <;> cases h.engA.busy <;> cases h.engB.done <;>
    cases h.engB.busy <;> cases b <;> decide

theorem startable_iff (p : Params) (g : Engine) : startable p g = true ↔ BlockOk p g.addr g.cnt := by
  simp [startable, BlockOk, and_assoc, Nat.dvd_iff_mod_eq_zero]

/-- What the start write of `DMA.START` does (`44_dma_engine.md` R252): enable, and the sub-engine busy. -/
def DmaHw.start (e : Eng) (h : DmaHw) : DmaHw :=
  { h.modEng e (fun g => { g with busy := true, raced := [] }) with
    en := true
    active := h.active.or (some e) }

theorem storeCs_start {d : Dir} {e : Eng} {s : State} (hb : (s.engine d e).busy = false)
    (hs : BlockOk s.cfg (s.engine d e).addr (s.engine d e).cnt) :
    storeCs d (Config.csEn ||| startMask e) s = .next (s.modHw d (DmaHw.start e)) := by
  have hst : startable s.cfg (s.engine d e) = true := (startable_iff _ _).2 hs
  cases e <;> cases d <;>
    simp [storeCs, startEngine, State.engine, State.modHw, State.setDir, DmaHw.eng, DmaHw.clearAndEnable, hasBit,
      startMask, Config.csEn, Config.csStartA, Config.csStartB, Config.csDoneA, Config.csDoneB, DmaHw.modEng,
      DmaHw.start] at hb hst ⊢ <;>
    simp_all [startable]

/-- What the final write of the handler does (`45_rearm_sequencer.md` R298): the done bit cleared, the channel enabled. -/
def DmaHw.serviced (e : Eng) (h : DmaHw) : DmaHw := { h.modEng e (fun g => { g with done := false }) with en := true }

theorem storeCs_done (d : Dir) (e : Eng) (s : State) :
    storeCs d (Config.csEn ||| doneMask e) s = .next (s.modHw d (DmaHw.serviced e)) := by
  cases e <;> cases d <;>
    simp [storeCs, State.modHw, State.setDir, DmaHw.clearAndEnable, hasBit,
      doneMask, Config.csEn, Config.csStartA, Config.csStartB, Config.csDoneA, Config.csDoneB, DmaHw.modEng,
      DmaHw.serviced]

theorem regStore_addr {d : Dir} {e : Eng} {s : State} (hb : (s.engine d e).busy = false) (v : Word) :
    regStore (.addr d e) v s = .next (s.modEngine d e (fun g => { g with addr := v })) := by
  simp [regStore, hb]

theorem regStore_cnt {d : Dir} {e : Eng} {s : State} (hb : (s.engine d e).busy = false) (v : Word) :
    regStore (.cnt d e) v s = .next (s.modEngine d e (fun g => { g with cnt := v })) := by
  simp [regStore, hb]

theorem State.modEngine_engine (d d' : Dir) (e e' : Eng) (f : Engine → Engine) (s : State) :
    (s.modEngine d e f).engine d' e' = if d' = d ∧ e' = e then f (s.engine d e) else s.engine d' e' := by
  cases d <;> cases d' <;> cases e <;> cases e' <;> rfl

/-- A sub-engine that is not busy stays so while hardware agents move. -/
theorem hw_idle {d : Dir} {e : Eng} {s : State} (h : (s.engine d e).busy = false) : ((hw s).engine d e).busy = false := by
  by_contra hn
  rw [(hw_hwFrame s).busy d e (by simpa using hn)] at h
  exact absurd h (by decide)

/-- A start of a block the hardware gives a meaning runs to its end (`44_dma_engine.md` R250). -/
theorem startBlock_total {d : Dir} {addr len : Word} {s : State} (hk : BlockOk s.cfg addr len) :
    ∃ r, startBlock d addr len s = .next r := by
  unfold startBlock
  rw [if_neg hk.1]
  dsimp only [regRead, regLoad]
  rw [csWord_start, csWord_start]
  split
  · exact ⟨_, rfl⟩
  · next hn =>
    generalize nextEngine _ = e at hn ⊢
    simp only [Bool.or_eq_true, not_or, Bool.not_eq_true] at hn
    have hb : ((hw s).engine d e).busy = false := hn.2
    have hcfg : (hw s).cfg = s.cfg := (hw_hwFrame s).cfg
    generalize hw s = s1 at hb hcfg ⊢
    have h1 := hw_idle hb
    have h2 : regWrite (.addr d e) addr s1 = _ := regStore_addr h1 addr
    rw [h2, andThen_next]
    have h3 := hw_idle (s := (hw s1).modEngine d e fun g => { g with addr := addr }) (d := d) (e := e)
      (by rw [State.modEngine_engine]; simpa using h1)
    have h4 : regWrite (.cnt d e) len ((hw s1).modEngine d e fun g => { g with addr := addr }) = _ := regStore_cnt h3 len
    rw [h4, andThen_next]
    have ha : ((hw ((hw s1).modEngine d e fun g => { g with addr := addr })).engine d e).addr = addr := by
      rw [(hw_hwFrame _).addr, State.modEngine_engine]; simp
    have hc : (hw ((hw s1).modEngine d e fun g => { g with addr := addr })).cfg = s.cfg := by
      rw [(hw_hwFrame _).cfg, State.modEngine_cfg, (hw_hwFrame _).cfg, hcfg]
    generalize hw ((hw s1).modEngine d e fun g => { g with addr := addr }) = s3 at ha h3 hc ⊢
    have h5 := hw_idle (s := s3.modEngine d e fun g => { g with cnt := len }) (d := d) (e := e)
      (by rw [State.modEngine_engine]; simpa using h3)
    have h6 : BlockOk (hw (s3.modEngine d e fun g => { g with cnt := len })).cfg
        ((hw (s3.modEngine d e fun g => { g with cnt := len })).engine d e).addr
        ((hw (s3.modEngine d e fun g => { g with cnt := len })).engine d e).cnt := by
      rw [(hw_hwFrame _).addr, (hw_hwFrame _).cnt, (hw_hwFrame _).cfg, State.modEngine_cfg, State.modEngine_engine, hc]
      simpa [ha] using hk
    have h7 : regWrite (.cs d) (Config.csEn ||| startMask e) (s3.modEngine d e fun g => { g with cnt := len }) = _ :=
      storeCs_start h5 h6
    rw [h7, andThen_next]
    exact ⟨_, rfl⟩

/-! ### the handler runs to its end -/

theorem rearm_total {d : Dir} {addr len : Word} {s : State} (hk : BlockOk s.cfg addr len) :
    ∃ t, rearm d addr len s = .next t := by
  obtain ⟨⟨st, u⟩, h⟩ := startBlock_total (d := d) hk
  unfold rearm
  rw [h, andThen_next]
  cases st <;> exact ⟨_, rfl⟩

/-- The block of the next period (`45_rearm_sequencer.md` R296) has a meaning where the geometry is aligned. -/
theorem AlignedBuffer.next_block {p : Params} {x : Direction} (hw : wellFormedBuffer x = true) (h : AlignedBuffer p x.buf)
    (hlt : x.buf.advanced < x.buf.limit) :
    BlockOk p (BitVec.ofNat 32 x.buf.advanced) (BitVec.ofNat 32 (min x.buf.period.toNat (x.buf.limit - x.buf.advanced))) := by
  obtain ⟨-, h2, h3, h4, h5, h6, h7⟩ := (wellFormedBuffer_iff _).1 hw
  have ha := (h.advance h5).2.1
  obtain ⟨k1, k2, k3, k4, k5⟩ := h
  have hp : x.buf.period.toNat ≠ 0 := fun h0 => h3 (by simpa using (BitVec.toNat_eq_nat.1 h0).2)
  have hpb := x.buf.period.isLt
  simp only [Config.memSize] at h5
  have e1 : (BitVec.ofNat 32 x.buf.advanced).toNat = x.buf.advanced := by
    rw [BitVec.toNat_ofNat]; exact Nat.mod_eq_of_lt (by omega)
  have e2 : (BitVec.ofNat 32 (min x.buf.period.toNat (x.buf.limit - x.buf.advanced))).toNat =
      min x.buf.period.toNat (x.buf.limit - x.buf.advanced) := by
    rw [BitVec.toNat_ofNat]; exact Nat.mod_eq_of_lt (lt_of_le_of_lt (min_le_left _ _) hpb)
  dsimp only at ha
  rw [e1] at ha
  refine ⟨fun h0 => ?_, ?_, ?_, by rw [e1]; exact ha, ?_⟩
  · have := congrArg BitVec.toNat h0
    rw [e2] at this
    simp at this
    omega
  · rw [e2]; omega
  · rw [e1, e2]; simp only [Config.memSize]; omega
  · rw [e2]
    rcases min_choice x.buf.period.toNat (x.buf.limit - x.buf.advanced) with hm | hm <;> rw [hm]
    · exact k3
    · exact Nat.dvd_sub (dvd_add k1 k4) ha

/-- The block after a wrap has a meaning where the geometry is aligned. -/
theorem AlignedBuffer.first_block {p : Params} {x : Direction} (hw : wellFormedBuffer x = true) (h : AlignedBuffer p x.buf) :
    BlockOk p x.buf.start x.buf.period := by
  obtain ⟨-, -, h3, h4, h5, -, -⟩ := (wellFormedBuffer_iff _).1 hw
  obtain ⟨k1, k2, k3, k4, k5⟩ := h
  refine ⟨h3, k5, ?_, k1, k3⟩
  unfold Buffer.limit at h5
  omega

theorem callback_cfg (d : Dir) (s : State) : (callback d s).cfg = s.cfg := (callback_ctx d s).cfg

theorem serviceBuffer_total {d : Dir} {s : State}
    (hs : (s.dir d).chan.running = true → AlignedBuffer s.cfg (s.dir d).buf) : ∃ t, serviceBuffer d s = .next t := by
  unfold serviceBuffer
  split
  · next hw =>
    unfold advanceBuffer
    dsimp only
    split
    · next hlt =>
      split
      · next hr =>
        refine rearm_total ?_
        rw [callback_cfg, State.modBuf_cfg]
        exact (hs hr).next_block hw hlt
      · exact ⟨_, rfl⟩
    · split
      · next hr =>
        simp only [Bool.and_eq_true] at hr
        refine rearm_total ?_
        rw [callback_cfg]
        simp only [State.modBuf_cfg]
        exact (hs hr.2).first_block hw
      · split <;> exact ⟨_, rfl⟩
  · exact ⟨_, rfl⟩

/-- The final write of the handler always has a meaning. -/
theorem regWrite_done (d : Dir) (e : Eng) (s : State) :
    regWrite (.cs d) (Config.csEn ||| doneMask e) s = .next ((hw s).modHw d (DmaHw.serviced e)) := storeCs_done d e (hw s)

/-- The handler runs to its end where every running session is aligned (`45_rearm_sequencer.md` R292). -/
theorem handler_total {s : State} (hs : StreamsOk s) (id : Word) : ∃ t, handler id s = .next t := by
  unfold handler
  split
  · exact ⟨_, rfl⟩
  · dsimp only
    have hc := recoveryChecks_ctx (irqDir id) (irqEng id) s
    obtain ⟨s1, h1⟩ := serviceBuffer_total (hc.streams hs (irqDir id))
    rw [h1, andThen_next, regWrite_done, andThen_next]
    exact ⟨_, rfl⟩

theorem deliver_total {s : State} (hs : StreamsOk s) (d : Dir) (e : Eng) : ∃ t, deliver d e s = .next t := by
  obtain ⟨t, ht⟩ := handler_total (s := enterInterrupt s) (fun d' => by simpa using hs d') (irqId d e)
  unfold deliver
  rw [ht, andThen_next]
  exact ⟨_, rfl⟩

/-! ### waits run to their end -/

theorem actorStep_total {s : State} (hs : StreamsOk s) (g : Actor) : ∃ t, actorStep g s = .next t := by
  cases g with
  | hardware g => exact ⟨_, rfl⟩
  | line d e => exact deliver_total hs d e

theorem waitRounds_total (n : Nat) {s : State} (hs : StreamsOk s) : ∃ t, waitRounds n s = .next t := by
  induction n generalizing s with
  | zero => exact ⟨_, rfl⟩
  | succ n ih =>
    unfold waitRounds
    split
    · exact ⟨_, rfl⟩
    · have hd := drawPick_drew s
      generalize drawPick s = r at hd ⊢
      obtain ⟨k, u⟩ := r
      have hu := hd.hwFrame.streams hs
      cases k with
      | zero => exact ih hu
      | succ j =>
        dsimp only
        split
        · next g hg =>
          obtain ⟨v, hv⟩ := actorStep_total hu g
          rw [hv, andThen_next]
          exact ih ((actorStep_ctx (List.mem_of_getElem? hg) hd hv).streams hs)
        · exact ih hu

theorem waitEvents_total {s : State} (hs : StreamsOk s) : ∃ t, waitEvents s = .next t := by
  unfold waitEvents
  split
  · exact ⟨_, rfl⟩
  · exact waitRounds_total _ ((drawPick_drew s).hwFrame.streams hs)

/-- A wait runs to its end where every running session is aligned. -/
theorem waitAt_total {s : State} (hs : StreamsOk s) (op : Instr) (g : Option Group) (pos : WaitPos) (n : Nat) :
    ∃ t, waitAt op g pos n s = .next t := by
  obtain ⟨t, ht⟩ := waitEvents_total (s := { s with seq := ⟨some op, g, some pos, false⟩ }) hs
  unfold waitAt
  rw [ht, andThen_next]
  exact ⟨_, rfl⟩

/-! ### host memory while the host waits -/

theorem MemStill.refl (s : State) : MemStill s s := fun h => ⟨h, rfl⟩

theorem MemStill.trans {s t u : State} (h : MemStill s t) (k : MemStill t u) : MemStill s u := fun hs =>
  ⟨(k (h hs).1).1, (k (h hs).1).2.trans (h hs).2⟩

theorem MemStill.of_eq {s t : State} (h1 : t.record = s.record) (h2 : t.mem = s.mem) : MemStill s t := fun h =>
  ⟨by unfold RecordStill State.engine State.dir at h ⊢; rw [h1]; exact h, h2⟩

theorem MemStill.setPlay (x : Direction) (s : State) : MemStill s (s.setDir .play x) := MemStill.of_eq rfl rfl

theorem HardwareMoved.memStill {s t : State} (h : HardwareMoved s t) : MemStill s t := fun hs =>
  ⟨h.1.recordStill hs, h.2.1.still hs⟩

theorem hw_memStill (s : State) : MemStill s (hw s) := (hw_moved s).memStill

theorem Drew.memStill {s t : State} (h : Drew s t) : MemStill s t := by
  obtain ⟨n, x, -, rfl⟩ := h; exact MemStill.of_eq rfl rfl

theorem abandonBlock_memStill (d : Dir) (e : Eng) (s : State) : MemStill s (abandonBlock d e s) := fun h =>
  ⟨(abandonBlock_hwFrame d e s).recordStill h, (abandonBlock_memFrame d e s).still h⟩

theorem passTime_memStill (n : Nat) (s : State) : MemStill s (passTime n s) := by
  obtain ⟨u, hu, hm, he⟩ := passTime_hwFrame n s
  rw [he]
  exact fun h => ⟨hu.recordStill h, hm⟩

theorem storeCs_play_memStill {w : Word} {s t : State} (h : storeCs .play w s = .next t) : MemStill s t := by
  rcases storeCs_next h with ⟨-, rfl⟩ | ⟨-, rfl | ⟨e, -, -, he⟩⟩
  · exact (MemStill.of_eq (t := s.modHw .play (DmaHw.clearAndEnable w)) rfl rfl).trans
      ((abandonBlock_memStill .play .a _).trans ((abandonBlock_memStill .play .b _).trans (MemStill.of_eq rfl rfl)))
  · exact MemStill.of_eq rfl rfl
  · obtain ⟨-, rfl⟩ := startEngine_next he
    exact MemStill.of_eq rfl rfl

theorem startBlock_play_memStill {addr len : Word} {s t : State} {st : Status}
    (h : startBlock .play addr len s = .next (st, t)) : MemStill s t := by
  rcases startBlock_next h with ⟨-, -, rfl⟩ | ⟨-, -, rfl⟩ | ⟨-, -, s2, s3, s4, h2, h3, h4, rfl⟩
  · exact MemStill.refl _
  · exact hw_memStill s
  · obtain ⟨-, rfl⟩ := regStore_addr_next h2
    obtain ⟨-, rfl⟩ := regStore_cnt_next h3
    exact (hw_memStill s).trans ((hw_memStill _).trans ((MemStill.setPlay _ _).trans ((hw_memStill _).trans
      ((MemStill.setPlay _ _).trans ((hw_memStill _).trans ((storeCs_play_memStill h4).trans (MemStill.setPlay _ _)))))))

theorem recoverEngine_play_memStill (x : Eng) (s : State) : MemStill s (recoverEngine .play x s) := by
  have h1 : MemStill s ((abandonBlock .play x s).modEngine .play x
      (fun g => { g with busy := false, done := false, addr := 0, cnt := 0 })) :=
    (abandonBlock_memStill .play x s).trans (MemStill.setPlay _ _)
  unfold recoverEngine
  dsimp only
  generalize (abandonBlock .play x s).modEngine .play x _ = s1 at h1 ⊢
  have h2 := h1.trans (MemStill.setPlay { s1.dir .play with oppStreak := 0 } s1)
  generalize s1.setDir .play _ = s2 at h2 ⊢
  have h3 : MemStill s { s2 with seq := { s2.seq with recoveryDelay := true } } := h2.trans (MemStill.of_eq rfl rfl)
  exact h3.trans ((hw_memStill _).trans (passTime_memStill _ _))

theorem recoveryChecks_play_memStill (e : Eng) (s : State) : MemStill s (recoveryChecks .play e s) := by
  unfold recoveryChecks
  have h1 : MemStill s (regRead (.cs .play) s).2 := hw_memStill s
  generalize regRead (.cs .play) s = r at h1 ⊢
  obtain ⟨cs, s0⟩ := r
  dsimp only at h1 ⊢
  replace h1 := h1.trans (hw_memStill s0)
  generalize hw s0 = s1 at h1 ⊢
  have h2 : MemStill s (if (s1.dir .play).lastServiced = some e then
      (recoverEngine .play e s1).log (.repeatCompletion .play e) else s1) := by
    split
    · exact h1.trans ((recoverEngine_play_memStill e s1).trans (MemStill.of_eq rfl rfl))
    · exact h1
  generalize (if (s1.dir .play).lastServiced = some e then
    (recoverEngine .play e s1).log (.repeatCompletion .play e) else s1) = s2 at h2 ⊢
  have h3 : MemStill s (s2.setDir .play { s2.dir .play with
      oppStreak := if hasBit cs (startMask e.other) then (s2.dir .play).oppStreak + 1 else 0 }) :=
    h2.trans (MemStill.of_eq rfl rfl)
  generalize s2.setDir .play _ = s3 at h3 ⊢
  split
  · exact h3.trans ((recoverEngine_play_memStill e.other s3).trans (MemStill.of_eq rfl rfl))
  · exact h3

theorem rearm_play_memStill {addr len : Word} {s t : State} (h : rearm .play addr len s = .next t) : MemStill s t := by
  obtain ⟨⟨st, u⟩, hu, h⟩ := andThen_eq_next h
  have hc := startBlock_play_memStill hu
  cases st <;> simp at h <;> subst h <;> exact MemStill.trans hc (MemStill.of_eq rfl rfl)

theorem callback_memStill (d : Dir) (s : State) : MemStill s (callback d s) := by
  unfold callback; split <;> exact MemStill.of_eq rfl rfl

theorem MemStill.modPlayBuf (f : Buffer → Buffer) (s : State) : MemStill s (s.modBuf .play f) := MemStill.setPlay _ _

theorem serviceBuffer_play_memStill {s t : State} (h : serviceBuffer .play s = .next t) : MemStill s t := by
  unfold serviceBuffer at h
  split at h
  · unfold advanceBuffer at h
    dsimp only at h
    generalize BitVec.ofNat 32 (min ((s.dir .play).buf.current.toNat + (s.dir .play).buf.period.toNat)
      (s.dir .play).buf.limit) = cur at h
    have h1 := MemStill.modPlayBuf (fun b => { b with current := cur }) s
    generalize s.modBuf .play (fun b => { b with current := cur }) = s1 at h h1
    have h2 := h1.trans (MemStill.modPlayBuf (fun b => { b with loopCount := b.loopCount + 1 }) s1)
    generalize s1.modBuf .play (fun b => { b with loopCount := b.loopCount + 1 }) = s2 at h h2
    have h3 := h2.trans (MemStill.modPlayBuf (fun c => { c with current := c.start }) s2)
    generalize s2.modBuf .play (fun c => { c with current := c.start }) = s3 at h h3
    split at h
    · split at h
      · exact h1.trans ((callback_memStill _ _).trans (rearm_play_memStill h))
      · cases h; exact h1
    · split at h
      · exact h3.trans ((callback_memStill _ _).trans (rearm_play_memStill h))
      · split at h
        · cases h; exact h2.trans (callback_memStill _ _)
        · cases h; exact h2
  · cases h; exact MemStill.of_eq rfl rfl

theorem deliver_play_memStill {e : Eng} {s t : State} (h : deliver .play e s = .next t) : MemStill s t := by
  obtain ⟨s1, h1, h⟩ := andThen_eq_next h
  cases h
  have hd : irqDir (irqId .play e) = .play := by cases e <;> rfl
  have hlt : ¬ 3 < (irqId .play e).toNat := by cases e <;> decide
  unfold handler at h1
  rw [if_neg hlt, hd] at h1
  obtain ⟨s2, h2, h1⟩ := andThen_eq_next h1
  obtain ⟨s3, h3, h1⟩ := andThen_eq_next h1
  cases h1
  exact (MemStill.of_eq (t := enterInterrupt s) rfl rfl).trans ((recoveryChecks_play_memStill _ _).trans
    ((serviceBuffer_play_memStill h2).trans ((hw_memStill _).trans ((storeCs_play_memStill h3).trans (MemStill.of_eq rfl rfl)))))

theorem actorStep_memStill {g : Actor} {s t u : State} (hg : g ∈ actors s) (hu : Drew s u)
    (h : actorStep g u = .next t) : MemStill s t := by
  cases g with
  | hardware g =>
    obtain rfl := Host.Outcome.next.inj h
    have hs := hwStep_frames (s := u) (g := g) (by rw [hu.hwAgents]; exact hardware_of_mem hg)
    exact hu.memStill.trans fun hr => ⟨hs.1.recordStill hr, hs.2.still hr⟩
  | line d e =>
    cases d with
    | play => exact hu.memStill.trans (deliver_play_memStill h)
    | record =>
      intro hr
      have hd := line_of_mem hg
      simp only [deliverable, Bool.and_eq_true] at hd
      exact absurd hd.1.2 (by rw [show (s.dir .record).chan.bound e = false from hr.2 e]; decide)

theorem waitRounds_memStill {n : Nat} {s t : State} (h : waitRounds n s = .next t) : MemStill s t := by
  induction n generalizing s with
  | zero => cases h; exact MemStill.refl _
  | succ n ih =>
    unfold waitRounds at h
    split at h
    · cases h; exact MemStill.refl _
    · have hd := drawPick_drew s
      generalize drawPick s = r at h hd
      obtain ⟨k, u⟩ := r
      cases k with
      | zero => exact hd.memStill.trans (ih h)
      | succ j =>
        dsimp only at h
        split at h
        · next g hg =>
          obtain ⟨v, hv, h⟩ := andThen_eq_next h
          exact (actorStep_memStill (List.mem_of_getElem? hg) hd hv).trans (ih h)
        · exact hd.memStill.trans (ih h)

/-- While the host waits, host memory changes only where capture blocks can move. -/
theorem waitAt_memStill {op : Instr} {g : Option Group} {pos : WaitPos} {n : Nat} {s t : State}
    (h : waitAt op g pos n s = .next t) : MemStill s t := by
  obtain ⟨s1, h1, h⟩ := andThen_eq_next h
  cases h
  refine MemStill.trans (t := { s with seq := ⟨some op, g, some pos, false⟩ }) (MemStill.of_eq rfl rfl)
    (MemStill.trans ?_ (passTime_memStill n s1))
  unfold waitEvents at h1
  split at h1
  · cases h1; exact MemStill.refl _
  · exact (drawPick_drew _).memStill.trans (waitRounds_memStill h1)

end Sys2Proof.Machine
end

