-- ==== Sys2Proof/Laws/Send.lean ====
section
/-! SUPPORT. Once, everything a control-bus send and a sync can do from a state in which the bus is ready
(`41_control_bus.md` R180, `42_codec_model.md` R215). -/

namespace Sys2Proof.Machine

/-- What holds in the middle of a send started in `s`, but for the bus itself. -/
structure Mid (s t : State) : Prop where
  port : t.port = s.port
  mirror : t.mirror = s.mirror
  inIrq : t.inIrq = s.inIrq
  cfg : t.cfg = s.cfg
  lock : t.l3.lock = true
  regs : t.regs = { s.regs with
    l3addr := t.regs.l3addr, l3data := t.regs.l3data, l3wd := t.regs.l3wd, l3rd := t.regs.l3rd }
  now : s.env.now ≤ t.env.now
  rstSince : t.env.rstSince = s.env.rstSince
  host : t.env.host = s.env.host
  trace : ∃ l, t.trace = s.trace ++ l
  errlog : ∃ l, t.errlog = s.errlog ++ l ∧ l.filter LogRecord.isTimeout = []
  chan : ∀ d, (t.dir d).chan = { (s.dir d).chan with generation := (t.dir d).chan.generation }
  buf : ∀ d, (t.dir d).buf =
    { (s.dir d).buf with current := (t.dir d).buf.current, loopCount := (t.dir d).buf.loopCount }
  streams : StreamsOk t
  memStill : MemStill s t

theorem Mid.start {s : State} (hs : StreamsOk s) : Mid s { s with l3 := { s.l3 with lock := true } } := by
  constructor <;> first
    | rfl
    | exact le_refl _
    | exact ⟨[], (List.append_nil _).symm⟩
    | exact ⟨[], (List.append_nil _).symm, rfl⟩
    | (intro d; rfl)
    | exact hs
    | exact MemStill.of_eq rfl rfl

theorem Mid.ctx {s t u : State} (h : Mid s t) (k : CtxFrame t u) (m : MemStill t u) : Mid s u where
  port := k.port.trans h.port
  mirror := k.mirror.trans h.mirror
  inIrq := k.inIrq.trans h.inIrq
  cfg := k.cfg.trans h.cfg
  lock := by rw [bus_l3 k.bus]; exact h.lock
  regs := by rw [bus_regs k.bus, h.regs]
  now := h.now.trans k.now
  rstSince := k.rstSince.trans h.rstSince
  host := k.host.trans h.host
  trace := by
    obtain ⟨a, ha⟩ := h.trace; obtain ⟨b, hb⟩ := k.trace
    exact ⟨a ++ b, by rw [hb, ha, List.append_assoc]⟩
  errlog := by
    obtain ⟨a, ha, fa⟩ := h.errlog; obtain ⟨b, hb, fb⟩ := k.errlog
    exact ⟨a ++ b, by rw [hb, ha, List.append_assoc], by rw [List.filter_append, fa, fb]; rfl⟩
  chan := fun d => by rw [k.chan d, h.chan d]
  buf := fun d => by rw [k.buf d, h.buf d]
  streams := k.streams h.streams
  memStill := h.memStill.trans m

theorem Mid.seq {s t : State} (h : Mid s t) (x : Seq) : Mid s { t with seq := x } :=
  ⟨h.port, h.mirror, h.inIrq, h.cfg, h.lock, h.regs, h.now, h.rstSince, h.host, h.trace, h.errlog, h.chan, h.buf, h.streams,
    h.memStill.trans (MemStill.of_eq rfl rfl)⟩

theorem Mid.hw {s t : State} (h : Mid s t) : Mid s (hw t) := h.ctx (hw_hwFrame t).ctx (hw_memStill t)

/-- A write of the transaction registers in the middle of a send. -/
theorem Mid.regWrite {s t : State} (h : Mid s t) (wd rd : Bool) (a b : Byte) :
    Mid s { t with regs := { t.regs with l3wd := wd, l3rd := rd, l3addr := a, l3data := b } } :=
  ⟨h.port, h.mirror, h.inIrq, h.cfg, h.lock, by rw [h.regs], h.now, h.rstSince, h.host, h.trace, h.errlog, h.chan, h.buf,
    h.streams, h.memStill.trans (MemStill.of_eq rfl rfl)⟩

theorem Mid.frame {s t : State} (h : Mid s t) (a b : Byte) :
    Mid s { t with l3 := { t.l3 with busy := true, frameAddr := a, frameData := b } } :=
  ⟨h.port, h.mirror, h.inIrq, h.cfg, h.lock, h.regs, h.now, h.rstSince, h.host, h.trace, h.errlog, h.chan, h.buf,
    h.streams, h.memStill.trans (MemStill.of_eq rfl rfl)⟩

theorem Mid.operational {s t : State} (h : Mid s t) : l3Operational t = l3Operational s := by
  unfold l3Operational; rw [h.regs]

/-- Everything a trigger does with no frame in progress (`41_control_bus.md` R185). -/
theorem triggerFrame_idle {s : State} (hb : s.l3.busy = false) (hc : s.cfg.chipAddr ≠ 0) (v : Byte) :
    triggerFrame v s = .next { s with l3 := if l3Operational s then
      { s.l3 with busy := true, frameAddr := s.regs.l3addr, frameData := v } else s.l3 } := by
  unfold triggerFrame
  rw [if_neg hc, if_neg (by simp [hb])]
  split <;> rfl

/-- Everything a write of `L3DATA` does on a bus with no frame in progress (`10_state.md` R47). -/
theorem regWrite_l3data {s : State} (hb : s.l3.busy = false) (hc : s.cfg.chipAddr ≠ 0) (v : Word) :
    regWrite .l3data v s = .next { hw s with
      regs := { (hw s).regs with l3data := v.extractLsb' 0 8 }
      l3 := if l3Operational (hw s) then
          { (hw s).l3 with busy := true, frameAddr := (hw s).regs.l3addr, frameData := v.extractLsb' 0 8 }
        else (hw s).l3 } :=
  triggerFrame_idle (s := { hw s with regs := { (hw s).regs with l3data := v.extractLsb' 0 8 } })
    (by rw [← hb, ← (bus_idle (hw_hwFrame s).bus hb).1]) (by rw [← (hw_hwFrame s).cfg] at hc; exact hc) _

/-- The null frame addresses no codec (`41_control_bus.md` R189). -/
theorem codecReceive_null {p : Params} (hp : p.chipAddr ≠ 0) (c : CodecHw) : codecReceive p 0 0 c = c := by
  unfold codecReceive
  rw [if_pos]
  simpa using fun h : (0 : BitVec 6) = p.chipAddr => hp h.symm

theorem CtxFrame.withSeq {s t : State} (h : CtxFrame s t) (q : Seq) : CtxFrame { s with seq := q } { t with seq := q } :=
  ⟨h.port, rfl, h.mirror, h.inIrq, h.cfg, h.bus, h.now, h.rstSince, h.host, h.trace, h.errlog, h.chan, h.buf, h.streams⟩

theorem Mid.poll {s t u : State} {q : Seq} (h : Mid s t) (k : CtxFrame { t with seq := q } u) (m : MemStill t u) : Mid s u :=
  (h.seq q).ctx k (MemStill.trans (MemStill.of_eq rfl rfl) m)

/-- The poll loop of a send runs to its end, with the flag set or after all its waits (`41_control_bus.md` R180 step 5, R190). -/
theorem pollWriteDone_total (op : Instr) (g : Option Group) (n i : Nat) {s : State} (hs : StreamsOk s) :
    ∃ t q, pollWriteDone op g n i s = .next t ∧ CtxFrame { s with seq := q } t ∧ MemStill s t ∧
      (t.regs.l3wd = true ∨
        (s.env.now + n * Config.tPoll ≤ t.env.now ∧ (1 ≤ n ∨ s.l3.busy = false → t.l3.busy = false))) := by
  induction n generalizing i s with
  | zero => exact ⟨s, s.seq, rfl, CtxFrame.refl s, MemStill.refl s, .inr ⟨by simp, by simp⟩⟩
  | succ n ih =>
    unfold pollWriteDone
    rw [readWriteDone_eq]
    dsimp only
    have h1 := (hw_hwFrame s).ctx
    have m1 := hw_memStill s
    have n1 := (hw_hwFrame s).now
    generalize hw s = u at h1 m1 n1 ⊢
    split
    · next hd => exact ⟨u, u.seq, rfl, h1.withSeq u.seq, m1, .inl hd⟩
    · next hd =>
      obtain ⟨v, hv⟩ := waitAt_total (h1.streams hs) op g (.l3Poll i) Config.tPoll
      obtain ⟨c, hn, hb⟩ := waitAt_ctx hv
      have m := waitAt_memStill hv
      rw [hv, andThen_next]
      obtain ⟨t, q, ht, hc, hm, hl⟩ := ih (i + 1) (c.streams (h1.streams hs))
      refine ⟨t, q, ht, (h1.withSeq q).trans ((c.withSeq q).trans hc), m1.trans (m.trans hm), ?_⟩
      rcases hl with hl | ⟨hl, hl2⟩
      · exact .inl hl
      · refine .inr ⟨?_, fun _ => hl2 (.inr (hb le_rfl))⟩
        simp only [Config.tPoll] at hn hl ⊢
        omega

/-- A byte written as a word is stored whole. -/
theorem byteOperand (a : Byte) : (a.setWidth 32).extractLsb' 0 8 = a := by
  apply BitVec.eq_of_toNat_eq
  have := a.isLt
  simp
  omega

/-- A write of `L3ADDR` and then `L3DATA` in the middle of a send, with no frame in progress: the frame `(a, b)` is in progress
exactly if the bus is operational. -/
theorem sendFrame_next {s t : State} (h : Mid s t) (hc : s.cfg.chipAddr ≠ 0) (hb : t.l3.busy = false) (a b : Byte) :
    ∃ u, andThen (regWrite .l3addr (a.setWidth 32) t) (fun t1 => regWrite .l3data (b.setWidth 32) t1) = .next u ∧ Mid s u ∧
      u.l3.busy = l3Operational s ∧ (l3Operational s = true → u.l3.frameAddr = a ∧ u.l3.frameData = b) ∧
      u.regs = { t.regs with l3addr := a, l3data := b } ∧ u.codec = t.codec ∧
      u.env.script.delivered = t.env.script.delivered ∧ u.env.now = t.env.now ∧ u.seq = t.seq := by
  have ha : (a.setWidth 32).extractLsb' 0 8 = a := byteOperand a
  have hb' : (b.setWidth 32).extractLsb' 0 8 = b := byteOperand b
  have s1 := bus_idle (hw_hwFrame t).bus hb
  have n1 := (hw_hwFrame t).now
  have q1 := (hw_hwFrame t).seq
  have h1 := h.hw
  rw [show regWrite .l3addr (a.setWidth 32) t = .next { hw t with regs := { (hw t).regs with l3addr := a } } by
    simp [regWrite, regStore, ha], andThen_next]
  generalize hw t = u at h1 s1 n1 q1 ⊢
  have h2 : Mid s { u with regs := { u.regs with l3addr := a } } := h1.regWrite u.regs.l3wd u.regs.l3rd a u.regs.l3data
  have hb2 : u.l3.busy = false := by rw [s1.1]; exact hb
  rw [regWrite_l3data (by exact hb2) (by rw [h2.cfg]; exact hc), hb']
  have s2 := bus_idle (hw_hwFrame { u with regs := { u.regs with l3addr := a } }).bus hb2
  have n2 := (hw_hwFrame { u with regs := { u.regs with l3addr := a } }).now
  have q2 := (hw_hwFrame { u with regs := { u.regs with l3addr := a } }).seq
  have h3 := h2.hw
  generalize hw { u with regs := { u.regs with l3addr := a } } = v at h3 s2 n2 q2 ⊢
  have ho : l3Operational v = l3Operational s := h3.operational
  have h4 := h3.regWrite v.regs.l3wd v.regs.l3rd v.regs.l3addr b
  obtain ⟨a1, a2, a3, a4⟩ := s1
  obtain ⟨b1, b2, b3, b4⟩ := s2
  dsimp only at b1 b2 b3 b4 n2 q2
  refine ⟨_, rfl, ?_, ?_, ?_, ?_, by dsimp only; rw [b3, a3], by dsimp only; rw [b4, a4], by dsimp only; rw [n2, n1],
    by dsimp only; rw [q2, q1]⟩
  · rw [ho]
    split
    · exact h4.frame _ _
    · exact h4
  · rw [ho]; dsimp only; split
    · next hop => rw [hop]
    · next hop => rw [b1, hb2]; exact (Bool.eq_false_iff.2 hop).symm
  · intro hop
    rw [ho]; dsimp only; rw [if_pos hop]
    exact ⟨by rw [b2], rfl⟩
  · dsimp only; rw [b2, a2]

/-- Step 2 of a send: the settle delay outlasts the null frame, which the codec ignores; what is left of the answers about
deliveries (`41_control_bus.md` R188, R189). -/
theorem settleBus_total (op : Instr) (g : Option Group) {s t : State} (h : Mid s t) (hc : s.cfg.chipAddr ≠ 0)
    (hset : 1 ≤ s.cfg.tSettle) (hb : t.l3.busy = false) :
    ∃ u, settleBus op g t = .next u ∧ Mid s u ∧ u.l3.busy = false ∧ u.codec = t.codec ∧
      t.env.now + s.cfg.tSettle ≤ u.env.now ∧
      (l3Operational s = false → u.env.script.delivered = t.env.script.delivered) ∧
      (l3Operational s = true → ∀ v r, t.env.script.delivered = v :: r → u.env.script.delivered = r) := by
  obtain ⟨sA, hA, MA, bA, fA, -, cA, dA, nA, -⟩ := sendFrame_next h hc hb 0 0
  obtain ⟨x1, hx1, hx2⟩ := andThen_eq_next hA
  obtain ⟨sB, hB⟩ := waitAt_total MA.streams op g .l3Settle sA.cfg.tSettle
  obtain ⟨kB, nB, iB⟩ := waitAt_ctx hB
  rw [MA.cfg] at iB nB
  refine ⟨sB, ?_, MA.poll kB (waitAt_memStill hB), iB hset, ?_, by omega, ?_, ?_⟩
  · unfold settleBus
    rw [show regWrite .l3addr 0 t = .next x1 from hx1, andThen_next,
      show regWrite .l3data 0 x1 = .next sA from hx2, andThen_next]
    exact hB
  · rcases kB.bus with k | ⟨k0, -, w, -, -, k⟩
    · rw [k.2.2.1]; exact cA
    · obtain ⟨f1, f2⟩ := fA (by rw [← bA]; exact k0)
      rw [k]
      dsimp only
      rw [f1, f2, MA.cfg, codecReceive_null hc, ite_self, cA]
  · intro ho
    rw [(bus_idle kB.bus (by dsimp only; rw [bA, ho])).2.2.2]
    exact dA
  · intro ho v r hd
    rcases kB.bus with k | ⟨-, -, w, k, -, -⟩
    · have := k.1
      rw [show sB.l3.busy = sA.l3.busy by rw [this], bA, ho] at iB
      exact absurd (iB hset) (by decide)
    · unfold AnswersDelivery at k
      dsimp only at k
      rw [dA, hd] at k
      exact k.2

/-- Steps 3 and 4 of a send: tracking primed, the frame `(a, b)` in progress exactly if the bus is operational. -/
theorem triggerSend_total {s t : State} (h : Mid s t) (hc : s.cfg.chipAddr ≠ 0) (hb : t.l3.busy = false) (a b : Byte) :
    ∃ u, triggerSend a b t = .next u ∧ Mid s u ∧ u.l3.busy = l3Operational s ∧
      (l3Operational s = true → u.l3.frameAddr = a ∧ u.l3.frameData = b) ∧
      u.regs = { s.regs with l3addr := a, l3data := b, l3wd := false, l3rd := false } ∧ u.codec = t.codec ∧
      u.env.script.delivered = t.env.script.delivered ∧ u.env.now = t.env.now := by
  have s1 := bus_idle (hw_hwFrame t).bus hb
  have n1 := (hw_hwFrame t).now
  have h1 := h.hw
  unfold triggerSend
  dsimp only [regRead, regLoad]
  generalize hw t = u at h1 s1 n1 ⊢
  have hb1 : u.l3.busy = false := by rw [s1.1]; exact hb
  have s2 := bus_idle (hw_hwFrame u).bus hb1
  have n2 := (hw_hwFrame u).now
  have h2 := h1.hw
  rw [show regWrite .statclr (0 ||| Config.dts ||| Config.rdd) u = .next { hw u with regs := { (hw u).regs with
      l3wd := false, l3rd := false } } by simp [regWrite, regStore, hasBit, Config.dts, Config.rdd], andThen_next]
  generalize hw u = v at h2 s2 n2 ⊢
  have h3 : Mid s { v with regs := { v.regs with l3wd := false, l3rd := false } } :=
    h2.regWrite false false v.regs.l3addr v.regs.l3data
  obtain ⟨w, hw1, M, bw, fw, rw', cw, dw, nw, -⟩ := sendFrame_next h3 hc (by dsimp only; rw [s2.1]; exact hb1) a b
  refine ⟨w, hw1, M, bw, fw, ?_, ?_, ?_, ?_⟩
  · rw [rw']; dsimp only; rw [h2.regs]
  · rw [cw]; dsimp only; rw [s2.2.2.1, s1.2.2.1]
  · rw [dw]; dsimp only; rw [s2.2.2.2, s1.2.2.2]
  · rw [nw]; dsimp only; rw [n2, n1]

/-- Step 5 of a send ends with the flag telling whether the frame was delivered. -/
theorem pollStage_total (op : Instr) (g : Option Group) {s t : State} (h : Mid s t)
    (hb : t.l3.busy = l3Operational s) (hf : t.regs.l3wd = false) :
    ∃ u, pollWriteDone op g Config.pollMax 0 t = .next u ∧ Mid s u ∧ u.l3.busy = false ∧
      u.regs = { t.regs with l3wd := u.regs.l3wd } ∧ t.env.now ≤ u.env.now ∧
      (u.regs.l3wd = false → t.env.now + Config.pollMax * Config.tPoll ≤ u.env.now) ∧
      (l3Operational s = false → u.regs.l3wd = false ∧ u.codec = t.codec ∧ u.env.script.delivered = t.env.script.delivered) ∧
      (l3Operational s = true → AnswersDelivery t u u.regs.l3wd ∧
        u.codec = if u.regs.l3wd then codecReceive s.cfg t.l3.frameAddr t.l3.frameData t.codec else t.codec) := by
  obtain ⟨u, q, hu, k, m, hl⟩ := pollWriteDone_total op g Config.pollMax 0 h.streams
  refine ⟨u, hu, h.poll k m, ?_, bus_regs k.bus, k.now, ?_, ?_, ?_⟩
  · rcases hl with hl | ⟨-, hl⟩
    · rcases k.bus with b | b
      · rw [b.2.1] at hl; exact absurd hl (by dsimp only; rw [hf]; decide)
      · rw [b.2.1]
    · exact hl (.inl (by decide))
  · intro hw
    rcases hl with hl | ⟨hl, -⟩
    · rw [hl] at hw; exact absurd hw (by decide)
    · exact hl
  · intro ho
    obtain ⟨b1, b2, b3, b4⟩ := bus_idle k.bus (by dsimp only; rw [hb, ho])
    exact ⟨by rw [b2]; exact hf, b3, b4⟩
  · intro ho
    rcases k.bus with b | ⟨-, b2, w, b3, b4, b5⟩
    · exfalso
      rcases hl with hl | ⟨-, hl⟩
      · rw [b.2.1] at hl; exact absurd hl (by dsimp only; rw [hf]; decide)
      · have := hl (.inl (by decide))
        rw [b.1] at this
        dsimp only at this
        rw [hb, ho] at this
        exact absurd this (by decide)
    · have hw : u.regs.l3wd = w := by rw [b4]; dsimp only; rw [hf]; rfl
      rw [hw]
      refine ⟨b3, ?_⟩
      rw [b5, ← h.cfg]

/-- Everything a send can do from a state in which the bus is ready (`41_control_bus.md` R180, R182, R190). -/
theorem l3Send_total (op : Instr) (g : Option Group) (a b : Byte) {s : State} (h : BusReady s) :
    ∃ timedOut t, l3Send op g a b s = .next (timedOut, t) ∧ SendFrame a b timedOut s t := by
  unfold l3Send
  rw [if_neg (by rw [h.normal]; decide), if_neg (by rw [h.lock]; decide)]
  have M0 : Mid s { s with l3 := { s.l3 with lock := true } } := Mid.start h.streams
  have b0 : ({ s with l3 := { s.l3 with lock := true } } : State).l3.busy = false := h.frame
  have c0 : ({ s with l3 := { s.l3 with lock := true } } : State).codec = s.codec := rfl
  have e0 : ({ s with l3 := { s.l3 with lock := true } } : State).env = s.env := rfl
  generalize ({ s with l3 := { s.l3 with lock := true } } : State) = s0 at M0 b0 c0 e0 ⊢
  obtain ⟨s1, h1, M1, b1, c1, n1, p1, q1⟩ := settleBus_total op g M0 h.chip h.settle b0
  rw [h1, andThen_next]
  obtain ⟨s2, h2, M2, b2, f2, r2, c2, d2, n2⟩ := triggerSend_total M1 h.chip b1 a b
  rw [h2, andThen_next]
  obtain ⟨s3, h3, M3, b3, r3, nowMono, n3, p3, q3⟩ := pollStage_total op g M2 b2 (by rw [r2])
  rw [h3, andThen_next]
  unfold closeSend
  rw [readWriteDone_eq]
  dsimp only
  have k4 := bus_idle (hw_hwFrame s3).bus b3
  have n4 := (hw_hwFrame s3).now
  have M4 := M3.hw
  generalize hw s3 = s4 at k4 n4 M4 ⊢
  obtain ⟨l4, e4, t4⟩ := M4.errlog
  have b4 : s4.l3.busy = false := by rw [k4.1]; exact b3
  -- the log
  obtain ⟨s5, hs5⟩ : ∃ x, x = if s4.regs.l3wd = true then s4 else s4.log (.busTimeout a b) := ⟨_, rfl⟩
  rw [← hs5]
  have g5 : s5 = { s4 with errlog := s4.errlog ++ if s4.regs.l3wd then [] else [.busTimeout a b] } := by
    rw [hs5]; cases s4.regs.l3wd <;> simp [State.log]
  have m5 : MemStill s4 s5 := by rw [g5]; exact MemStill.of_eq rfl rfl
  have k6 := bus_idle (hw_hwFrame s5).bus (by rw [g5]; exact b4)
  have F6 := hw_hwFrame s5
  have m6 := hw_memStill s5
  rw [show regWrite .statclr (Config.dts ||| Config.rdd) s5 = .next { hw s5 with regs := { (hw s5).regs with
      l3wd := false, l3rd := false } } by simp [regWrite, regStore, hasBit, Config.dts, Config.rdd], andThen_next]
  generalize hw s5 = s6 at k6 F6 m6 ⊢
  have hwd : s4.regs.l3wd = s3.regs.l3wd := by rw [k4.2.1]
  refine ⟨!s4.regs.l3wd, _, rfl, ?_⟩
  have r6 : s6.regs = { s.regs with l3addr := a, l3data := b, l3wd := s3.regs.l3wd, l3rd := false } := by
    rw [k6.2.1, g5]; dsimp only; rw [k4.2.1, r3, r2]
  have codec6 : s6.codec = s3.codec := by rw [k6.2.2.1, g5]; exact k4.2.2.1
  have del6 : s6.env.script.delivered = s3.env.script.delivered := by rw [k6.2.2.2, g5]; exact k4.2.2.2
  have now6 : s6.env.now = s3.env.now := by rw [F6.now, g5]; exact n4
  constructor
  · dsimp only; rw [F6.port, g5]; exact M4.port
  · dsimp only; rw [F6.mirror, g5]; exact M4.mirror
  · dsimp only; rw [F6.inIrq, g5]; exact M4.inIrq
  · dsimp only; rw [F6.cfg, g5]; exact M4.cfg
  · rfl
  · dsimp only; rw [k6.1, g5]; exact b4
  · dsimp only; rw [r6]
  · dsimp only
    have n3' : s2.env.now ≤ s3.env.now := nowMono
    rw [now6]; rw [e0] at n1; omega
  · dsimp only; rw [F6.rstSince, g5]; exact M4.rstSince
  · dsimp only; rw [F6.host, g5]; exact M4.host
  · obtain ⟨x, hx⟩ := M4.trace
    obtain ⟨y, hy⟩ := F6.trace
    exact ⟨x ++ y, by dsimp only; rw [hy, g5]; dsimp only; rw [hx, List.append_assoc]⟩
  · refine ⟨l4 ++ if s4.regs.l3wd then [] else [.busTimeout a b], ?_, ?_⟩
    · dsimp only; rw [F6.errlog, g5]; dsimp only; rw [e4, List.append_assoc]
    · rw [List.filter_append, t4]; cases s4.regs.l3wd <;> rfl
  · intro d
    show (s6.dir d).chan = { (s.dir d).chan with generation := (s6.dir d).chan.generation }
    rw [F6.chan d, show (s5.dir d) = s4.dir d by rw [g5]; cases d <;> rfl]
    exact M4.chan d
  · intro d
    show (s6.dir d).buf = { (s.dir d).buf with current := (s6.dir d).buf.current, loopCount := (s6.dir d).buf.loopCount }
    rw [F6.buf d, show (s5.dir d) = s4.dir d by rw [g5]; cases d <;> rfl]
    exact M4.buf d
  · have h5 : StreamsOk s5 := by rw [g5]; exact M4.streams
    exact F6.streams h5
  · exact M4.memStill.trans (m5.trans (m6.trans (MemStill.of_eq rfl rfl)))
  · intro ho
    obtain ⟨w3, c3, d3⟩ := p3 ho
    have := n3 w3
    dsimp only
    rw [hwd, w3, codec6, c3, c2, c1, c0, del6, d3, d2, p1 ho, e0, now6]
    rw [e0] at n1
    exact ⟨rfl, rfl, rfl, by omega⟩
  · intro ho v w r hd
    rw [← e0] at hd
    have hd1 := q1 ho v (w :: r) hd
    obtain ⟨a3, c3⟩ := q3 ho
    unfold AnswersDelivery at a3
    rw [d2, hd1] at a3
    obtain ⟨hw, hr⟩ := a3
    obtain ⟨f1, f2⟩ := f2 ho
    dsimp only
    rw [hwd, hw, codec6, c3, hw, f1, f2, c2, c1, c0, del6, hr, now6]
    refine ⟨rfl, rfl, rfl, fun hw0 => ?_⟩
    have := n3 (by rw [hw, hw0])
    rw [e0] at n1
    omega

/-! ### sync -/

theorem newTimeouts_of {s t : State} {l : List LogRecord} (h : t.errlog = s.errlog ++ l) :
    newTimeouts s t = l.filter LogRecord.isTimeout := by
  unfold newTimeouts; rw [h, List.drop_left]

theorem SendFrame.ready {a b : Byte} {r : Bool} {s t : State} (h : BusReady s) (k : SendFrame a b r s t) : BusReady t :=
  ⟨k.inIrq.trans h.normal, k.lock, k.frame, by rw [k.cfg]; exact h.chip, by rw [k.cfg]; exact h.settle, k.streams⟩

theorem SendFrame.operational {a b : Byte} {r : Bool} {s t : State} (k : SendFrame a b r s t) :
    l3Operational t = l3Operational s := by
  unfold l3Operational; rw [k.regs]

theorem SyncFrame.operational {m : Mirror} {s t : State} (k : SyncFrame m s t) : l3Operational t = l3Operational s := by
  unfold l3Operational; rw [k.regs]

/-- What the group loop of a sync leaves. -/
structure GroupsFrame (sent : List Group) (timedOut : Bool) (s t : State) : Prop where
  port : t.port = s.port
  mirror : t.mirror = s.mirror
  inIrq : t.inIrq = s.inIrq
  cfg : t.cfg = s.cfg
  lock : t.l3.lock = false
  frame : t.l3.busy = false
  regs : t.regs = { s.regs with
    l3addr := t.regs.l3addr, l3data := t.regs.l3data, l3wd := t.regs.l3wd, l3rd := t.regs.l3rd }
  now : s.env.now ≤ t.env.now
  rstSince : t.env.rstSince = s.env.rstSince
  host : t.env.host = s.env.host
  trace : ∃ l, t.trace = s.trace ++ l
  errlog : ∃ l, t.errlog = s.errlog ++ l ∧ (timedOut = false ↔ l.filter LogRecord.isTimeout = []) ∧
    (l3Operational s = false →
      l.filter LogRecord.isTimeout = sent.map fun g => .busTimeout (addrOf s.cfg g) (dataOf s.cfg s.mirror g)) ∧
    (l3Operational s = true → L3Reliable (2 * sent.length) s → l.filter LogRecord.isTimeout = [])
  chan : ∀ d, (t.dir d).chan = { (s.dir d).chan with generation := (t.dir d).chan.generation }
  buf : ∀ d, (t.dir d).buf =
    { (s.dir d).buf with current := (t.dir d).buf.current, loopCount := (t.dir d).buf.loopCount }
  streams : StreamsOk t
  memStill : MemStill s t
  dead : l3Operational s = false → t.codec = s.codec
  reliable : l3Operational s = true → L3Reliable (2 * sent.length) s →
    t.codec = sent.foldl (fun c g => codecReceive s.cfg (addrOf s.cfg g) (dataOf s.cfg s.mirror g) c) s.codec ∧
    t.env.script.delivered = s.env.script.delivered.drop (2 * sent.length)

theorem L3Reliable.cons {n : Nat} {s : State} (h : L3Reliable (2 * (n + 1)) s) :
    ∃ r, s.env.script.delivered = true :: true :: r ∧ r.take (2 * n) = List.replicate (2 * n) true := by
  unfold L3Reliable at h
  rw [show 2 * (n + 1) = 2 * n + 1 + 1 by omega] at h
  match hd : s.env.script.delivered with
  | [] => rw [hd] at h; simp [List.replicate_succ] at h
  | [v] => rw [hd] at h; simp [List.replicate_succ] at h
  | v :: w :: r => rw [hd] at h; simp [List.replicate_succ] at h; exact ⟨r, by rw [h.1, h.2.1], h.2.2⟩

/-- The group loop runs to its end from a state in which the bus is ready. -/
theorem syncGroups_total (op : Instr) (gs : List Group) {s : State} (h : BusReady s) :
    ∃ r t, syncGroups op gs s = .next (r, t) ∧ GroupsFrame (gs.filter s.mirror.isDirty) r s t := by
  induction gs generalizing s with
  | nil =>
    refine ⟨false, s, rfl, ?_⟩
    constructor <;> first
      | rfl
      | exact h.lock
      | exact h.frame
      | exact le_refl _
      | exact ⟨[], (List.append_nil _).symm⟩
      | exact ⟨[], (List.append_nil _).symm, by simp, by simp, by simp⟩
      | (intro d; rfl)
      | exact h.streams
      | exact MemStill.refl s
      | (intros; exact ⟨rfl, by simp⟩)
  | cons g rest ih =>
    unfold syncGroups
    by_cases hg : s.mirror.isDirty g = true
    · rw [if_pos hg]
      obtain ⟨r1, t1, h1, k1⟩ := l3Send_total op (some g) (addrOf s.cfg g) (dataOf s.cfg s.mirror g) h
      obtain ⟨r2, t2, h2, k2⟩ := ih (k1.ready h)
      have ho := k1.operational
      rw [k1.mirror] at k2
      rw [h1, andThen_next, h2, andThen_next, List.filter_cons_of_pos hg]
      refine ⟨_, _, rfl, ?_⟩
      constructor
      · exact k2.port.trans k1.port
      · exact k2.mirror.trans k1.mirror
      · exact k2.inIrq.trans k1.inIrq
      · exact k2.cfg.trans k1.cfg
      · exact k2.lock
      · exact k2.frame
      · rw [k2.regs, k1.regs]
      · have := k1.now; have := k2.now; dsimp only; omega
      · exact k2.rstSince.trans k1.rstSince
      · exact k2.host.trans k1.host
      · obtain ⟨a, ha⟩ := k1.trace; obtain ⟨b, hb⟩ := k2.trace
        exact ⟨a ++ b, by rw [hb, ha, List.append_assoc]⟩
      · obtain ⟨l1, e1, f1⟩ := k1.errlog
        obtain ⟨l2, e2, f2, d2, c2⟩ := k2.errlog
        refine ⟨l1 ++ l2, by rw [e2, e1, List.append_assoc], ?_, ?_, ?_⟩
        · rw [List.filter_append, f1]
          cases r1
          · simpa using f2
          · simp
        · intro hop
          rw [List.filter_append, f1, (k1.dead hop).1, d2 (ho.trans hop), k1.cfg, k1.mirror]
          simp
        · intro hop hr
          obtain ⟨r, hd, hr'⟩ := L3Reliable.cons hr
          obtain ⟨p1, -, p3, -⟩ := k1.answered hop _ _ _ hd
          rw [List.filter_append, f1, p1, c2 (ho.trans hop) (by unfold L3Reliable; rw [p3]; exact hr')]
          rfl
      · exact fun d => by rw [k2.chan d, k1.chan d]
      · exact fun d => by rw [k2.buf d, k1.buf d]
      · exact k2.streams
      · exact k1.memStill.trans k2.memStill
      · exact fun hop => (k2.dead (ho.trans hop)).trans (k1.dead hop).2.1
      · intro hop hr
        obtain ⟨r, hd, hr'⟩ := L3Reliable.cons hr
        obtain ⟨-, p2, p3, -⟩ := k1.answered hop _ _ _ hd
        obtain ⟨q1, q2⟩ := k2.reliable (ho.trans hop) (by unfold L3Reliable; rw [p3]; exact hr')
        refine ⟨?_, ?_⟩
        · rw [q1, p2, k1.cfg, k1.mirror]; rfl
        · rw [q2, p3, hd]; rfl
    · rw [if_neg hg, List.filter_cons_of_neg hg]
      exact ih h

/-- A sync runs to its end from a state in which the bus is ready, and this is everything it can do. -/
theorem sync_total (op : Instr) {s : State} (h : BusReady s) :
    ∃ t, sync op s = .next t ∧ t.port = s.port ∧ SyncFrame s.mirror s t := by
  obtain ⟨r, t, ht, k⟩ := syncGroups_total op groupOrder h
  obtain ⟨l, e, f, d, c⟩ := k.errlog
  have hn := newTimeouts_of e
  unfold sync
  rw [ht, andThen_next]
  have key : ∀ u : State, u.port = t.port → u.inIrq = t.inIrq → u.cfg = t.cfg → u.l3 = t.l3 → u.regs = t.regs → u.env = t.env →
      u.trace = t.trace → u.errlog = t.errlog → u.play = t.play → u.record = t.record → u.mem = t.mem → u.codec = t.codec →
      u.mirror = (if newTimeouts s t = [] then { s.mirror with dirty := 0 } else s.mirror) →
      u.port = s.port ∧ SyncFrame s.mirror s u := by
    intro u u1 u2 u3 u4 u5 u6 u7 u8 u9 u10 u11 u12 u13
    have hd : ∀ d, u.dir d = t.dir d := fun d => by cases d; exacts [u9, u10]
    have hn' : newTimeouts s u = newTimeouts s t := by unfold newTimeouts; rw [u8]
    refine ⟨u1.trans k.port, ?_⟩
    constructor
    · rw [hn']; exact u13
    · exact u2.trans k.inIrq
    · exact u3.trans k.cfg
    · rw [u4]; exact k.lock
    · rw [u4]; exact k.frame
    · rw [u5]; exact k.regs
    · rw [u6]; exact k.now
    · rw [u6]; exact k.rstSince
    · rw [u6]; exact k.host
    · rw [u7]; exact k.trace
    · exact ⟨l, by rw [u8]; exact e⟩
    · intro d'; rw [hd]; exact k.chan d'
    · intro d'; rw [hd]; exact k.buf d'
    · intro d' hr; rw [hd] at hr ⊢; rw [u3]; exact k.streams d' hr
    · exact k.memStill.trans (MemStill.of_eq u10 u11)
    · exact fun ho => ⟨by rw [u12]; exact k.dead ho, by rw [hn', hn]; exact d ho⟩
    · exact fun ho hr => ⟨by rw [hn', hn]; exact c ho hr, by rw [u12]; exact (k.reliable ho hr).1,
        by rw [u6]; exact (k.reliable ho hr).2⟩
  cases r with
  | true =>
    refine ⟨t, rfl, key t rfl rfl rfl rfl rfl rfl rfl rfl rfl rfl rfl rfl ?_⟩
    rw [if_neg (by rw [hn]; exact fun h0 => absurd (f.2 h0) (by decide)), k.mirror]
  | false =>
    refine ⟨{ t with mirror := { t.mirror with dirty := 0 } }, rfl, key _ rfl rfl rfl rfl rfl rfl rfl rfl rfl rfl rfl rfl ?_⟩
    rw [if_pos (by rw [hn]; exact f.1 rfl), ← k.mirror]

end Sys2Proof.Machine
end

