-- ==== Sys2Proof/Laws/Seq.lean ====
section
/-! SUPPORT. The handler does not depend on where the host's operation stands: hardware agents, register accesses, recovery and the
buffer step commute with a change of `seq` (`60_exceptions.md` R346). -/

namespace Sys2Proof.Machine

/-- `s` with the host's operation elsewhere. -/
def State.withSeq (q : Seq) (s : State) : State := { s with seq := q }

@[simp] theorem State.withSeq_dir (q : Seq) (s : State) (d : Dir) : (s.withSeq q).dir d = s.dir d := by cases d <;> rfl
@[simp] theorem State.withSeq_engine (q : Seq) (s : State) (d : Dir) (e : Eng) : (s.withSeq q).engine d e = s.engine d e := by
  cases d <;> cases e <;> rfl
@[simp] theorem State.withSeq_record (q : Seq) (s : State) : (s.withSeq q).record = s.record := rfl
@[simp] theorem State.withSeq_cfg (q : Seq) (s : State) : (s.withSeq q).cfg = s.cfg := rfl
@[simp] theorem State.withSeq_setDir (q : Seq) (s : State) (d : Dir) (x : Direction) :
    (s.withSeq q).setDir d x = (s.setDir d x).withSeq q := by cases d <;> rfl
@[simp] theorem State.withSeq_modHw (q : Seq) (s : State) (d : Dir) (f : DmaHw → DmaHw) :
    (s.withSeq q).modHw d f = (s.modHw d f).withSeq q := by cases d <;> rfl
@[simp] theorem State.withSeq_modChan (q : Seq) (s : State) (d : Dir) (f : Channel → Channel) :
    (s.withSeq q).modChan d f = (s.modChan d f).withSeq q := by cases d <;> rfl
@[simp] theorem State.withSeq_modBuf (q : Seq) (s : State) (d : Dir) (f : Buffer → Buffer) :
    (s.withSeq q).modBuf d f = (s.modBuf d f).withSeq q := by cases d <;> rfl
@[simp] theorem State.withSeq_modEngine (q : Seq) (s : State) (d : Dir) (e : Eng) (f : Engine → Engine) :
    (s.withSeq q).modEngine d e f = (s.modEngine d e f).withSeq q := by cases d <;> rfl
@[simp] theorem State.withSeq_emit (q : Seq) (s : State) (ev : Event) : (s.withSeq q).emit ev = (s.emit ev).withSeq q := rfl
@[simp] theorem State.withSeq_log (q : Seq) (s : State) (r : LogRecord) : (s.withSeq q).log r = (s.log r).withSeq q := rfl

/-! ### Draws and transfers -/

theorem drawDelivered_withSeq (q : Seq) (s : State) :
    drawDelivered (s.withSeq q) = ((drawDelivered s).1, (drawDelivered s).2.withSeq q) := by
  unfold drawDelivered
  show (match s.env.script.delivered with | v :: r => _ | [] => _) = _
  cases s.env.script.delivered <;> rfl

theorem drawPick_withSeq (q : Seq) (s : State) : drawPick (s.withSeq q) = ((drawPick s).1, (drawPick s).2.withSeq q) := by
  unfold drawPick
  show (match s.env.script.picks with | v :: r => _ | [] => _) = _
  cases s.env.script.picks <;> rfl

theorem drawUpTo_withSeq (q : Seq) (n : Nat) (s : State) :
    drawUpTo n (s.withSeq q) = ((drawUpTo n s).1, (drawUpTo n s).2.withSeq q) := by
  unfold drawUpTo
  show (match s.env.script.counts with | v :: r => _ | [] => _) = _
  cases s.env.script.counts <;> rfl

theorem drawByte_withSeq (q : Seq) (s : State) : drawByte (s.withSeq q) = ((drawByte s).1, (drawByte s).2.withSeq q) := by
  unfold drawByte
  show (match s.env.script.bytes with | v :: r => _ | [] => _) = _
  cases s.env.script.bytes <;> rfl

theorem captureByte_withSeq (q : Seq) (e : Eng) (a : Nat) (s : State) :
    captureByte e a (s.withSeq q) = ((captureByte e a s).1, (captureByte e a s).2.withSeq q) := by
  unfold captureByte
  rw [State.withSeq_engine]
  cases (s.engine .record e).raced.lookup a with
  | some b => rfl
  | none => simp only [drawByte_withSeq]; rfl

theorem captureBytes_withSeq (q : Seq) (e : Eng) (a n : Nat) (s : State) :
    captureBytes e a n (s.withSeq q) = ((captureBytes e a n s).1, (captureBytes e a n s).2.withSeq q) := by
  induction n generalizing a s with
  | zero => rfl
  | succ n ih => simp only [captureBytes, captureByte_withSeq, ih]

theorem mayCapture_withSeq (q : Seq) (e : Eng) (a : Nat) (s : State) :
    mayCapture e a (s.withSeq q) = (mayCapture e a s).withSeq q := by
  unfold mayCapture
  simp only [State.withSeq_engine, drawPick_withSeq, captureByte_withSeq, State.withSeq_modEngine]
  split
  · split <;> rfl
  · rfl

theorem settle_withSeq (q : Seq) (a : Nat) (s : State) : settle a (s.withSeq q) = (settle a s).withSeq q := by
  unfold settle
  simp only [State.withSeq_record, mayCapture_withSeq, State.withSeq_engine]
  split <;> rfl

theorem fetchByte_withSeq (q : Seq) (e : Eng) (a : Nat) (s : State) :
    fetchByte e a (s.withSeq q) = ((fetchByte e a s).1, (fetchByte e a s).2.withSeq q) := by
  unfold fetchByte
  simp only [settle_withSeq, State.withSeq_engine, drawPick_withSeq]
  split <;> rfl

theorem fetchBytes_withSeq (q : Seq) (e : Eng) (a n : Nat) (s : State) :
    fetchBytes e a n (s.withSeq q) = ((fetchBytes e a n s).1, (fetchBytes e a n s).2.withSeq q) := by
  induction n generalizing a s with
  | zero => rfl
  | succ n ih => simp only [fetchBytes, fetchByte_withSeq, ih]

theorem moveBlock_withSeq (q : Seq) (d : Dir) (e : Eng) (k : Nat) (s : State) :
    moveBlock d e k (s.withSeq q) = (moveBlock d e k s).withSeq q := by
  cases d with
  | play => simp only [moveBlock, State.withSeq_engine, fetchBytes_withSeq, State.withSeq_emit]
  | record => simp only [moveBlock, State.withSeq_engine, captureBytes_withSeq, State.withSeq_emit]

theorem abandonBlock_withSeq (q : Seq) (d : Dir) (e : Eng) (s : State) :
    abandonBlock d e (s.withSeq q) = (abandonBlock d e s).withSeq q := by
  unfold abandonBlock
  simp only [State.withSeq_engine, drawUpTo_withSeq, moveBlock_withSeq]
  split
  · split <;> exact State.withSeq_modHw _ _ _ _
  · rfl

/-! ### Hardware agents and register accesses -/

theorem serialise_withSeq (q : Seq) (s : State) : serialise (s.withSeq q) = (serialise s).withSeq q := by
  unfold serialise
  simp only [drawDelivered_withSeq]
  cases (drawDelivered s).1 <;> rfl

theorem engineEnabled_withSeq (q : Seq) (s : State) (d : Dir) : engineEnabled (s.withSeq q) d = engineEnabled s d := by
  unfold engineEnabled
  simp only [State.withSeq_dir, State.withSeq_engine]
  cases (s.dir d).hw.active with
  | none => rfl
  | some e => simp only [dmaCanRun, State.withSeq_dir]; rfl

theorem hwAgents_withSeq (q : Seq) (s : State) : hwAgents (s.withSeq q) = hwAgents s := by
  unfold hwAgents
  rw [engineEnabled_withSeq, engineEnabled_withSeq]
  rfl

theorem completeBlock_withSeq (q : Seq) (d : Dir) (s : State) : completeBlock d (s.withSeq q) = (completeBlock d s).withSeq q := by
  unfold completeBlock
  rw [State.withSeq_dir]
  cases (s.dir d).hw.active with
  | none => rfl
  | some e => simp only [State.withSeq_engine, moveBlock_withSeq, State.withSeq_modHw]

theorem hwStep_withSeq (q : Seq) (g : HwAgent) (s : State) : hwStep g (s.withSeq q) = (hwStep g s).withSeq q := by
  cases g with
  | serialiser => exact serialise_withSeq q s
  | engine d => exact completeBlock_withSeq q d s

theorem hwRounds_withSeq (q : Seq) (n : Nat) (s : State) : hwRounds n (s.withSeq q) = (hwRounds n s).withSeq q := by
  induction n generalizing s with
  | zero => rfl
  | succ n ih =>
    unfold hwRounds
    rw [hwAgents_withSeq, drawPick_withSeq]
    cases hwAgents s with
    | nil => rfl
    | cons g l =>
      dsimp only
      cases (drawPick s).1 with
      | zero => rfl
      | succ j =>
        dsimp only
        cases (g :: l)[j]? with
        | none => rfl
        | some g' => dsimp only; rw [hwStep_withSeq, ih]

theorem hw_withSeq (q : Seq) (s : State) : hw (s.withSeq q) = (hw s).withSeq q := hwRounds_withSeq q 5 s

theorem regRead_cs_withSeq (q : Seq) (d : Dir) (s : State) :
    regRead (.cs d) (s.withSeq q) = ((regRead (.cs d) s).1, (regRead (.cs d) s).2.withSeq q) := by
  unfold regRead
  rw [hw_withSeq]
  simp only [regLoad, State.withSeq_dir]

/-- The outcome with the host's operation elsewhere. -/
def outSeq (q : Seq) (x : Out State) : Out State := andThen x fun t => .next (t.withSeq q)

theorem andThen_outSeq (q : Seq) (x : Out State) {k l : State → Out State}
    (h : ∀ t, k (t.withSeq q) = outSeq q (l t)) : andThen (outSeq q x) k = outSeq q (andThen x l) := by
  cases x with
  | next t => exact h t
  | fault f => rfl
  | refused r => rfl

theorem startEngine_withSeq (q : Seq) (d : Dir) (e : Eng) (s : State) :
    startEngine d e (s.withSeq q) = outSeq q (startEngine d e s) := by
  unfold startEngine
  rw [State.withSeq_engine, State.withSeq_modHw]
  show (if startable s.cfg _ then _ else _) = _
  split <;> rfl

theorem storeCs_withSeq (q : Seq) (d : Dir) (w : Word) (s : State) : storeCs d w (s.withSeq q) = outSeq q (storeCs d w s) := by
  unfold storeCs
  simp only [State.withSeq_engine, State.withSeq_modHw, startEngine_withSeq, abandonBlock_withSeq]
  split
  · split
    · rfl
    · split
      · rfl
      · split <;> rfl
  · rfl

/-- Writes of the DMA registers do not depend on `seq`. -/
theorem regWrite_withSeq (q : Seq) {r : Reg} (hr : (∃ d, r = .cs d) ∨ (∃ d e, r = .addr d e) ∨ ∃ d e, r = .cnt d e) (v : Word)
    (s : State) : regWrite r v (s.withSeq q) = outSeq q (regWrite r v s) := by
  unfold regWrite
  rw [hw_withSeq]
  rcases hr with ⟨d, rfl⟩ | ⟨d, e, rfl⟩ | ⟨d, e, rfl⟩
  · exact storeCs_withSeq q d v _
  all_goals
    simp only [regStore, State.withSeq_engine, State.withSeq_modEngine]
    split <;> rfl

/-! ### The handler -/

theorem passTime_withSeq (q : Seq) (n : Nat) (s : State) : passTime n (s.withSeq q) = (passTime n s).withSeq q := by
  unfold passTime
  rw [serialise_withSeq]
  cases h : (s.l3.busy && decide (1 ≤ n)) <;> simp only [State.withSeq, h] <;> rfl

theorem recoveryWait_withSeq (q : Seq) (s : State) :
    recoveryWait (s.withSeq q) = (recoveryWait s).withSeq { q with recoveryDelay := true } := by
  have h (r : Seq) : passTime Config.tRecovery (hw (s.withSeq r)) = (passTime Config.tRecovery (hw s)).withSeq r := by
    rw [hw_withSeq, passTime_withSeq]
  show passTime Config.tRecovery (hw (s.withSeq _)) = (passTime Config.tRecovery (hw (s.withSeq _))).withSeq _
  rw [h, h]
  rfl

theorem recoverEngine_withSeq (q : Seq) (d : Dir) (x : Eng) (s : State) :
    recoverEngine d x (s.withSeq q) = (recoverEngine d x s).withSeq { q with recoveryDelay := true } := by
  unfold recoverEngine
  simp only [abandonBlock_withSeq, State.withSeq_modEngine, State.withSeq_dir, State.withSeq_setDir, recoveryWait_withSeq]

theorem ite_withSeq (c : Prop) [Decidable c] (p q : Seq) (s t : State) :
    ∃ r, (if c then s.withSeq p else t.withSeq q) = (if c then s else t).withSeq r := by
  split
  · exact ⟨p, rfl⟩
  · exact ⟨q, rfl⟩

theorem recoveryChecks_withSeq (q : Seq) (d : Dir) (e : Eng) (s : State) :
    ∃ q', recoveryChecks d e (s.withSeq q) = (recoveryChecks d e s).withSeq q' := by
  unfold recoveryChecks
  simp only [regRead_cs_withSeq, hw_withSeq, State.withSeq_dir, recoverEngine_withSeq, State.withSeq_log]
  generalize (regRead (.cs d) s).1 = cs
  generalize hw (regRead (.cs d) s).2 = u
  obtain ⟨p, hp⟩ := ite_withSeq ((u.dir d).lastServiced = some e) { q with recoveryDelay := true } q
    ((recoverEngine d e u).log (.repeatCompletion d e)) u
  rw [hp]
  generalize (if (u.dir d).lastServiced = some e then (recoverEngine d e u).log (.repeatCompletion d e) else u) = v
  simp only [State.withSeq_dir, State.withSeq_setDir, State.withSeq_cfg, recoverEngine_withSeq, State.withSeq_log]
  exact ite_withSeq _ _ _ _ _

theorem startBlock_withSeq (q : Seq) (d : Dir) (addr len : Word) (s : State) :
    startBlock d addr len (s.withSeq q) = andThen (startBlock d addr len s) fun r => .next (r.1, r.2.withSeq q) := by
  have step {α : Type} (x : Out State) {k l : State → Out α} {f : α → α}
      (h : ∀ t, k (t.withSeq q) = andThen (l t) fun r => .next (f r)) :
      andThen (outSeq q x) k = andThen (andThen x l) fun r => .next (f r) := by
    cases x with
    | next t => exact h t
    | fault f => rfl
    | refused r => rfl
  unfold startBlock
  simp only [regRead_cs_withSeq, State.withSeq_dir]
  split
  · rfl
  · split
    · rfl
    · rw [regWrite_withSeq q (.inr (.inl ⟨_, _, rfl⟩))]
      refine step _ fun t => ?_
      rw [regWrite_withSeq q (.inr (.inr ⟨_, _, rfl⟩))]
      refine step _ fun t => ?_
      rw [regWrite_withSeq q (.inl ⟨_, rfl⟩)]
      refine step _ fun t => ?_
      simp only [State.withSeq_modChan]
      rfl

theorem callback_withSeq (q : Seq) (d : Dir) (s : State) : callback d (s.withSeq q) = (callback d s).withSeq q := by
  unfold callback
  simp only [State.withSeq_dir]
  split <;> rfl

theorem rearm_withSeq (q : Seq) (d : Dir) (addr len : Word) (s : State) :
    rearm d addr len (s.withSeq q) = outSeq q (rearm d addr len s) := by
  unfold rearm
  rw [startBlock_withSeq]
  cases startBlock d addr len s with
  | next r => obtain ⟨st, t⟩ := r; cases st <;> rfl
  | fault f => rfl
  | refused r => rfl

theorem serviceBuffer_withSeq (q : Seq) (d : Dir) (s : State) :
    serviceBuffer d (s.withSeq q) = outSeq q (serviceBuffer d s) := by
  unfold serviceBuffer advanceBuffer
  simp only [State.withSeq_dir, State.withSeq_modBuf, callback_withSeq, rearm_withSeq]
  repeat' split
  all_goals rfl

/-- The handler from the same state with the host's operation elsewhere ends in the same outcome, but for `seq`
(`60_exceptions.md` R346). -/
theorem handler_withSeq (q : Seq) (id : Word) (s : State) :
    ∃ q', handler id (s.withSeq q) = outSeq q' (handler id s) := by
  unfold handler
  split
  · exact ⟨q, rfl⟩
  · obtain ⟨q', h⟩ := recoveryChecks_withSeq q (irqDir id) (irqEng id) s
    refine ⟨q', ?_⟩
    dsimp only
    rw [h, serviceBuffer_withSeq]
    refine andThen_outSeq q' _ fun t => ?_
    rw [regWrite_withSeq q' (.inl ⟨_, rfl⟩)]
    refine andThen_outSeq q' _ fun u => ?_
    rw [State.withSeq_dir, State.withSeq_setDir]
    rfl

end Sys2Proof.Machine
end

