-- ==== Sys2Proof/Laws/Starts.lean ====
section
/-! SUPPORT. What a start of a block does, exactly, and that programming an idle sub-engine commutes with the other agents. -/

namespace Sys2Proof.Machine

theorem HardwareMoved.refl (s : State) : HardwareMoved s s := ⟨HwFrame.refl s, MemFrame.of_eq rfl, fun _ => rfl⟩

theorem HardwareMoved.trans {s t u : State} (h : HardwareMoved s t) (k : HardwareMoved t u) : HardwareMoved s u :=
  ⟨h.1.trans k.1, MemFrame.trans h.1 h.2.1 k.2.1, fun q => by obtain rfl := h.2.2 q; exact k.2.2 q⟩

theorem nextEngine_eq (x : Direction) : nextEngine x.chan.generation = turnOf x := by
  unfold nextEngine turnOf
  have : x.chan.generation.getLsbD 0 = decide (x.chan.generation.toNat % 2 = 1) := by
    simp [BitVec.getLsbD, Nat.testBit_zero]
  rw [this]
  by_cases h : x.chan.generation.toNat % 2 = 0 <;> simp [h]

/-- A change of the address or count of a sub-engine. -/
structure Reprogram (f : Engine → Engine) : Prop where
  busy : ∀ g, (f g).busy = g.busy
  done : ∀ g, (f g).done = g.done
  addr : ∀ g g' : Engine, g.addr = g'.addr → (f g).addr = (f g').addr
  cnt : ∀ g g' : Engine, g.cnt = g'.cnt → (f g).cnt = (f g').cnt

theorem Reprogram.setAddr (v : Word) : Reprogram fun g => { g with addr := v } :=
  ⟨fun _ => rfl, fun _ => rfl, fun _ _ _ => rfl, fun _ _ h => h⟩

theorem Reprogram.setCnt (v : Word) : Reprogram fun g => { g with cnt := v } :=
  ⟨fun _ => rfl, fun _ => rfl, fun _ _ h => h, fun _ _ _ => rfl⟩

theorem DmaHw.modEng_idle_enabled {d : Dir} {e : Eng} {f : Engine → Engine} {s : State} (hf : Reprogram f)
    (hb : (s.engine d e).busy = false) (d' : Dir) : engineEnabled (s.modEngine d e f) d' = engineEnabled s d' := by
  have hb' : ((s.dir d).hw.eng e).busy = false := hb
  have hfb := hf.busy ((s.dir d).hw.eng e)
  cases d <;> cases d' <;> try rfl
  all_goals
    simp only [engineEnabled, State.modEngine, State.modHw, State.setDir, State.dir, State.engine, DmaHw.modEng_active] at hb' hfb ⊢
    split
    · next e' _ =>
      rw [DmaHw.modEng_eng]
      by_cases he : e' = e
      · subst he; simp [hfb, hb']
      · simp [he, dmaCanRun, State.dir, DmaHw.modEng_en]
    · rfl

/-- Programming an idle sub-engine enables nothing and disables nothing. -/
theorem hwAgents_reprogram {d : Dir} {e : Eng} {f : Engine → Engine} {s : State} (hf : Reprogram f)
    (hb : (s.engine d e).busy = false) : hwAgents (s.modEngine d e f) = hwAgents s := by
  unfold hwAgents
  rw [DmaHw.modEng_idle_enabled hf hb, DmaHw.modEng_idle_enabled hf hb, State.modEngine_l3]

theorem State.modEngine_dir_chan (d d' : Dir) (e : Eng) (f : Engine → Engine) (s : State) :
    ((s.modEngine d e f).dir d').chan = (s.dir d').chan := by cases d <;> cases d' <;> rfl
theorem State.modEngine_dir_buf (d d' : Dir) (e : Eng) (f : Engine → Engine) (s : State) :
    ((s.modEngine d e f).dir d').buf = (s.dir d').buf := by cases d <;> cases d' <;> rfl
theorem State.modEngine_dir_lastServiced (d d' : Dir) (e : Eng) (f : Engine → Engine) (s : State) :
    ((s.modEngine d e f).dir d').lastServiced = (s.dir d').lastServiced := by cases d <;> cases d' <;> rfl
theorem State.modEngine_dir_oppStreak (d d' : Dir) (e : Eng) (f : Engine → Engine) (s : State) :
    ((s.modEngine d e f).dir d').oppStreak = (s.dir d').oppStreak := by cases d <;> cases d' <;> rfl
theorem State.modEngine_dir_en (d d' : Dir) (e : Eng) (f : Engine → Engine) (s : State) :
    ((s.modEngine d e f).dir d').hw.en = (s.dir d').hw.en := by
  cases d <;> cases d' <;> simp [State.modEngine, State.modHw, State.setDir, State.dir]

theorem captureCovers_engine (s : State) (a : Nat) : captureCovers s a =
    (((s.engine .record .a).busy && (s.engine .record .a).covers a) ||
      ((s.engine .record .b).busy && (s.engine .record .b).covers a)) := rfl

/-- Programming an idle sub-engine commutes with what the hardware agents do. -/
theorem HardwareMoved.reprogram {d : Dir} {e : Eng} {f : Engine → Engine} {s t : State} (hf : Reprogram f)
    (hb : (s.engine d e).busy = false) (h : HardwareMoved s t) : HardwareMoved (s.modEngine d e f) (t.modEngine d e f) := by
  obtain ⟨hw, hm, hq⟩ := h
  have cov : ∀ a, captureCovers (s.modEngine d e f) a = captureCovers s a := fun a => by
    rw [captureCovers_engine, captureCovers_engine]
    have one : ∀ x, (((s.modEngine d e f).engine .record x).busy && ((s.modEngine d e f).engine .record x).covers a) =
        ((s.engine .record x).busy && (s.engine .record x).covers a) := fun x => by
      rw [State.modEngine_engine]
      split
      · next hx => obtain ⟨rfl, rfl⟩ := hx; simp [hf.busy, hb]
      · rfl
    rw [one, one]
  refine ⟨?_, ⟨fun a ha => ?_, fun w => ?_, fun hr => ?_⟩, fun q => ?_⟩
  · constructor
    · simpa using hw.port
    · simpa using hw.seq
    · simpa using hw.mirror
    · simpa using hw.inIrq
    · simpa using hw.cfg
    · simpa using hw.errlog
    · have := hw.bus
      unfold BusStill FrameEnded AnswersDelivery at this ⊢
      simpa only [State.modEngine_l3, State.modEngine_regs, State.modEngine_codec, State.modEngine_env, State.modEngine_cfg] using this
    · simpa using hw.now
    · simpa using hw.rstSince
    · simpa using hw.host
    · simpa using hw.trace
    · intro d'; simpa only [State.modEngine_dir_chan] using hw.chan d'
    · intro d'; simpa only [State.modEngine_dir_buf] using hw.buf d'
    · intro d'; simpa only [State.modEngine_dir_lastServiced] using hw.lastServiced d'
    · intro d'; simpa only [State.modEngine_dir_oppStreak] using hw.oppStreak d'
    · intro d'; simpa only [State.modEngine_dir_en] using hw.en d'
    · intro d' e'
      rw [State.modEngine_engine, State.modEngine_engine]
      split
      · exact hf.addr _ _ (hw.addr d e)
      · exact hw.addr d' e'
    · intro d' e'
      rw [State.modEngine_engine, State.modEngine_engine]
      split
      · exact hf.cnt _ _ (hw.cnt d e)
      · exact hw.cnt d' e'
    · intro d' e'
      rw [State.modEngine_engine, State.modEngine_engine]
      split
      · rw [hf.busy, hf.busy]; exact hw.busy d e
      · exact hw.busy d' e'
    · intro d' e'
      rw [State.modEngine_engine, State.modEngine_engine]
      split
      · rw [hf.done, hf.done]; exact hw.done d e
      · exact hw.done d' e'
  · rw [State.modEngine_mem, State.modEngine_mem]; exact hm.read a (by rw [← cov]; exact ha)
  · rw [State.modEngine_mem] at w ⊢; exact hm.wf w
  · rw [State.modEngine_mem, State.modEngine_mem]
    refine hm.still ⟨fun x => ?_, fun x => ?_⟩
    · have := hr.1 x
      rw [State.modEngine_engine] at this
      split at this
      · next hx => obtain ⟨rfl, rfl⟩ := hx; exact hb
      · exact this
    · have := hr.2 x
      rwa [show (s.modEngine d e f).record.chan = s.record.chan from State.modEngine_dir_chan d .record e f s] at this
  · rw [hq ((hwAgents_reprogram hf hb).symm.trans q)]

/-! ### starting a block, exactly -/

theorem startBlock_empty (d : Dir) (addr : Word) (s : State) : startBlock d addr 0 s = .next (.einval, s) := by
  simp [startBlock]

/-- A start while a sub-engine of the direction is busy is refused after one read (`44_dma_engine.md` R250 steps 3, 4). -/
theorem startBlock_busy {d : Dir} {addr len : Word} {s : State} (hl : len ≠ 0)
    (hb : ((hw s).engine d .a).busy = true ∨ ((hw s).engine d .b).busy = true) :
    startBlock d addr len s = .next (.ebusy, hw s) := by
  unfold startBlock
  rw [if_neg hl]
  dsimp only [regRead, regLoad]
  rw [csWord_start, csWord_start, if_pos]
  generalize nextEngine _ = e
  show (((hw s).engine d e.other).busy || ((hw s).engine d e).busy) = true
  cases e <;> simp only [Eng.other, Bool.or_eq_true] <;> tauto

/-- The start write leaves what `started` says. -/
theorem started_eq (d : Dir) (e : Eng) (s : State) : (s.modHw d (DmaHw.start e)).modChan d
    (fun c => { c with generation := c.generation + 1 }) = started d e s := rfl

/-- The two writes that program an idle sub-engine. -/
theorem program_eq {d : Dir} {e : Eng} {s : State} (hb : (s.engine d e).busy = false) (addr len : Word) :
    ∃ w, HardwareMoved (programmed d e addr len s) w ∧ (w.engine d e).busy = false ∧
      ∀ k : State → Out (Status × State), (andThen (regWrite (.addr d e) addr s) fun s2 =>
        andThen (regWrite (.cnt d e) len s2) fun s3 =>
        andThen (regWrite (.cs d) (Config.csEn ||| startMask e) s3) k) =
        andThen (storeCs d (Config.csEn ||| startMask e) w) k := by
  have h1 := hw_idle hb
  have m1 := hw_moved s
  have w1 : regWrite (.addr d e) addr s = _ := regStore_addr h1 addr
  generalize hw s = s1 at h1 m1 w1
  have m2 := hw_moved (s1.modEngine d e fun g => { g with addr := addr })
  have h2 := hw_idle (s := s1.modEngine d e fun g => { g with addr := addr }) (d := d) (e := e)
    (by rw [State.modEngine_engine]; simpa using h1)
  have w2 : regWrite (.cnt d e) len (s1.modEngine d e fun g => { g with addr := addr }) = _ := regStore_cnt h2 len
  generalize hw (s1.modEngine d e fun g => { g with addr := addr }) = s2 at m2 h2 w2
  have m3 := hw_moved (s2.modEngine d e fun g => { g with cnt := len })
  have h3 := hw_idle (s := s2.modEngine d e fun g => { g with cnt := len }) (d := d) (e := e)
    (by rw [State.modEngine_engine]; simpa using h2)
  refine ⟨hw (s2.modEngine d e fun g => { g with cnt := len }), ?_, h3, fun k => ?_⟩
  · have a1 := m1.reprogram (Reprogram.setAddr addr) hb
    have ha : ((s.modEngine d e fun g => { g with addr := addr }).engine d e).busy = false := by
      rw [State.modEngine_engine]; simpa using hb
    have a2 := (a1.trans m2).reprogram (Reprogram.setCnt len) ha
    have e1 : (s.modEngine d e fun g => { g with addr := addr }).modEngine d e (fun g => { g with cnt := len }) =
        programmed d e addr len s := by
      cases d <;> cases e <;> rfl
    rw [e1] at a2
    exact a2.trans m3
  · rw [w1, andThen_next, w2, andThen_next]
    rfl

/-- A start where neither sub-engine of the direction is busy: the sub-engine of the counter's parity is programmed and started, or
the block has no meaning (`44_dma_engine.md` R250 steps 5 to 8). -/
theorem startBlock_idle {d : Dir} {len : Word} {s : State} (addr : Word) (hl : len ≠ 0)
    (hA : ((hw s).engine d .a).busy = false) (hB : ((hw s).engine d .b).busy = false) :
    (BlockOk s.cfg addr len → ∃ w, HardwareMoved (programmed d (turnOf (s.dir d)) addr len (hw s)) w ∧
      startBlock d addr len s = .next (.ok, started d (turnOf (s.dir d)) w)) ∧
    (¬ BlockOk s.cfg addr len → startBlock d addr len s = .fault (.reserved .notStartable)) := by
  have hg : nextEngine ((hw s).dir d).chan.generation = turnOf (s.dir d) := by
    rw [(hw_hwFrame s).chan d, nextEngine_eq]
  have hcfg : (hw s).cfg = s.cfg := (hw_hwFrame s).cfg
  have hboth : ∀ e, ((hw s).engine d e).busy = false := fun e => by cases e <;> assumption
  obtain ⟨w, hw1, hw2, hk⟩ := program_eq (hboth (turnOf (s.dir d))) addr len
  have key : startBlock d addr len s = andThen (storeCs d (Config.csEn ||| startMask (turnOf (s.dir d))) w)
      (fun s4 => .next (.ok, s4.modChan d (fun c => { c with generation := c.generation + 1 }))) := by
    rw [← hk]
    unfold startBlock
    rw [if_neg hl]
    dsimp only [regRead, regLoad]
    rw [csWord_start, csWord_start, hg, if_neg]
    show ¬ ((((hw s).engine d _).busy || ((hw s).engine d _).busy) = true)
    rw [hboth, hboth]
    decide
  have ha : (w.engine d (turnOf (s.dir d))).addr = addr ∧ (w.engine d (turnOf (s.dir d))).cnt = len ∧ w.cfg = s.cfg := by
    rw [hw1.1.addr, hw1.1.cnt, hw1.1.cfg]
    unfold programmed
    rw [State.modEngine_engine, State.modEngine_cfg, hcfg]
    simp
  refine ⟨fun hok => ⟨w, hw1, ?_⟩, fun hno => ?_⟩
  · rw [key, storeCs_start hw2 (by rw [ha.1, ha.2.1, ha.2.2]; exact hok), andThen_next, started_eq]
  · rw [key]
    have hst : startable w.cfg (w.engine d (turnOf (s.dir d))) = false := by
      by_contra hc
      exact hno (by have := (startable_iff _ _).1 (by simpa using hc); rwa [ha.1, ha.2.1, ha.2.2] at this)
    have : storeCs d (Config.csEn ||| startMask (turnOf (s.dir d))) w = .fault (.reserved .notStartable) := by
      generalize turnOf (s.dir d) = e at hw2 hst
      cases e <;> cases d <;>
        simp [storeCs, startEngine, State.engine, State.modHw, State.setDir, DmaHw.eng, DmaHw.clearAndEnable, hasBit,
          startMask, Config.csEn, Config.csStartA, Config.csStartB, Config.csDoneA, Config.csDoneB] at hw2 hst ⊢ <;>
        simp_all [startable]
    rw [this, andThen_fault]

end Sys2Proof.Machine
end

