-- ==== Sys2Proof/Tests/Slice0.lean ====
section
/-! SUPPORT. Tests: the well-formedness checks, decoding of packets written out from `30_encoding.md` R142, R144, one-step vectors
of `95_test_vectors.md` (the id stands in each docstring), and for every obligation with hypotheses a state that meets them. -/

namespace Sys2Proof.Tests

/- One theorem at a time: each kernel evaluation holds a thread while it waits for the declarations before it. -/
set_option Elab.async false

open Sys2Proof.Machine

/-! ## Well-formedness -/

/-- The one check: a region of 2 or more is not well formed (R145). -/
theorem test_wellFormed_refuses_region_2_write : Instr.wellFormed (.regWr 2 0 0) = false := by decide
theorem test_wellFormed_refuses_region_2_read : Instr.wellFormed (.regRd 2 0) = false := by decide
theorem test_wellFormed_admits_region_1 : Instr.wellFormed (.regRd 1 0x24) = true := by decide

/-! ## Decoding, every constructor, words from R142, R144, R149 and the vectors -/

theorem test_decode_regWr : decode ⟨0x00000101, 0x208, 0x7F, 9, 9⟩ = .ok (.regWr 1 0x208 0x7F) := by decide
theorem test_decode_regRd : decode ⟨0x00000002, 0x34, 9, 9, 9⟩ = .ok (.regRd 0 0x34) := by decide
theorem test_decode_l3Send : decode ⟨0x00000010, 0x114, 0x21F, 9, 9⟩ = .ok (.l3Send 0x14 0x1F) := by decide
theorem test_decode_codecOpen : decode ⟨0x00000020, 9, 9, 9, 9⟩ = .ok .codecOpen := by decide
theorem test_decode_codecClose : decode ⟨0x00000021, 0, 0, 0, 0⟩ = .ok .codecClose := by decide
theorem test_decode_codecSync : decode ⟨0x00000022, 0, 0, 0, 0⟩ = .ok .codecSync := by decide
theorem test_decode_codecSetrate : decode ⟨0x00000023, 30000, 0, 0, 0⟩ = .ok (.codecSetrate 30000) := by decide
theorem test_decode_setVol : decode ⟨0x00000028, 0xFFFFFFFF, 0, 0, 0⟩ = .ok (.setVol 0xFFFFFFFF) := by decide
theorem test_decode_setBass : decode ⟨0x00000029, 9, 0, 0, 0⟩ = .ok (.setBass 9) := by decide
theorem test_decode_setTreb : decode ⟨0x0000002A, 3, 0, 0, 0⟩ = .ok (.setTreb 3) := by decide
theorem test_decode_setMute : decode ⟨0x0000002B, 1, 0, 0, 0⟩ = .ok (.setMute 1) := by decide
theorem test_decode_setFilt : decode ⟨0x0000002C, 2, 0, 0, 0⟩ = .ok (.setFilt 2) := by decide
theorem test_decode_getVol : decode ⟨0x00000030, 0, 0, 0, 0⟩ = .ok .getVol := by decide
theorem test_decode_getBass : decode ⟨0x00000031, 0, 0, 0, 0⟩ = .ok .getBass := by decide
theorem test_decode_getTreb : decode ⟨0x00000032, 0, 0, 0, 0⟩ = .ok .getTreb := by decide
theorem test_decode_getMute : decode ⟨0x00000033, 0, 0, 0, 0⟩ = .ok .getMute := by decide
theorem test_decode_getFilt : decode ⟨0x00000034, 0, 0, 0, 0⟩ = .ok .getFilt := by decide
theorem test_decode_ctrlInit : decode ⟨0x00000040, 0xDEADBEEF, 1, 2, 3⟩ = .ok .ctrlInit := by decide
theorem test_decode_dmaStart : decode ⟨0x00000250, 0x100000, 0x400, 0, 0⟩ = .ok (.dmaStart 2 0x100000 0x400) := by decide
theorem test_decode_dmaPoll : decode ⟨0x00000151, 0, 0, 0, 0⟩ = .ok (.dmaPoll 1) := by decide
theorem test_decode_dmaReset : decode ⟨0x00000052, 0, 0, 0, 0⟩ = .ok .dmaReset := by decide
theorem test_decode_irqReq : decode ⟨0x00000153, 0, 0, 0, 0⟩ = .ok (.irqReq 1) := by decide
theorem test_decode_irqRel : decode ⟨0x00000054, 0, 0, 0, 0⟩ = .ok (.irqRel 0) := by decide
theorem test_decode_irqEvt : decode ⟨0x00000055, 3, 0, 0, 0⟩ = .ok (.irqEvt 3) := by decide
theorem test_decode_chOpen : decode ⟨0x00000260, 0, 0, 0, 0⟩ = .ok (.chOpen 2) := by decide
theorem test_decode_chClose : decode ⟨0x00000061, 0, 0, 0, 0⟩ = .ok (.chClose 0) := by decide
theorem test_decode_sesArm : decode ⟨0x0001FF62, 0x100000, 0x1000, 0x400, 7⟩ =
    .ok (.sesArm 255 true 0x100000 0x1000 0x400 7) := by decide
theorem test_decode_sesStop : decode ⟨0x00000163, 0, 0, 0, 0⟩ = .ok (.sesStop 1) := by decide
theorem test_decode_sesPos : decode ⟨0x00000064, 0, 0, 0, 0⟩ = .ok (.sesPos 0) := by decide

/-- V7, V90, V92 to V95: illegal packets, each for its own reason. -/
theorem test_decode_refusals :
    decode ⟨0x00000201, 0, 0, 0, 0⟩ = .error .unknownRegion ∧ decode ⟨0x00000000, 0, 0, 0, 0⟩ = .error .unknownOpcode ∧
    decode ⟨0x00000140, 0, 0, 0, 0⟩ = .error .selector ∧ decode ⟨0x00010050, 0x100000, 0x400, 0, 0⟩ = .error .loopBit ∧
    decode ⟨0x00020062, 0x100000, 0x1000, 0x400, 7⟩ = .error .reservedBits ∧
    decode ⟨0x00000128, 40, 0, 0, 0⟩ = .error .selector := by decide

/-! ## States for the vectors -/

/-- What is asked of the next state. -/
def next (x : Out State) (p : State → Bool) : Bool :=
  match x with
  | .next t => p t
  | .fault _ => false
  | .refused _ => false

theorem next_exists {x : Out State} {p : State → Bool} (h : next x p = true) : ∃ t, x = .next t ∧ p t = true := by
  cases x with
  | next t => exact ⟨t, rfl, h⟩
  | fault f => cases h
  | refused r => cases h

/-- Bring-up (the vectors' conventions). -/
def up : State := { State.reset with
  regs := { State.reset.regs with ctrl0 := 0x7701, ctrl1 := 0x2, pclk := 0xC, pauddiv := 7, pgpio := 0x3, l3addr := 0x16,
                                  l3data := 0x10 }
  mirror := { State.reset.mirror with status := 0x10, rate := 22050 }
  codec := { State.reset.codec with status := some 0x10 } }

/-- Answers for `n` control-bus sends with no DMA beside them: every frame delivered, no agent hurried. -/
def reliable (n : Nat) (s : State) : State := s.setScript { s.env.script with
  delivered := List.replicate (2 * n) true, picks := List.replicate (3 * n) 0 }

/-- Bring-up, then `CODEC.OPEN`. -/
def opened : State := { up with
  mirror := ⟨0x10, 0x1F, 0x00, 0x00, 0x03, 0, 22050⟩
  codec := ⟨some 0x10, some 0x1F, some 0x00, some 0x00, some 0x03⟩ }

/-- An idle sub-engine that holds a block. -/
def block (addr len : Word) : Engine := ⟨false, false, addr, len, []⟩

/-- Bring-up with a playback block of `len` bytes at 0x100 in flight on A. -/
def playing (len : Word) : State := { up with
  play := { up.play with
    hw := ⟨true, some .a, { block 0x100 len with busy := true }, block 0 0⟩
    chan := { up.play.chan with generation := 1 } }
  mem := [(0x100, 0x11), (0x101, 0x22), (0x102, 0x33), (0x103, 0x44)] }

/-- Bring-up with a capture block of 4 bytes at 0x200 in flight on A. -/
def capturing : State := { up with
  record := { up.record with
    hw := ⟨true, some .a, { block 0x200 4 with busy := true }, block 0 0⟩
    chan := { up.record.chan with generation := 1 } } }

/-- The session of V50 to V53 with the pointer at `cur`, A just completed, no line bound. -/
def session (loop : Bool) (cur : Word) : State := { up with
  play := { up.play with
    hw := ⟨true, none, { block 0x100000 0x400 with done := true }, block 0x100400 0x400⟩
    chan := ⟨true, true, 1, true, true, false, false⟩
    buf := ⟨0x1000, 0x100000, cur, 0x400, loop, 0, 7⟩ } }

/-- The same with both lines bound. -/
def bound (s : State) : State := s.modChan .play fun c => { c with boundA := true, boundB := true }

def picks (l : List Nat) (s : State) : State := s.setScript { s.env.script with picks := l }

def answers (l : List Nat) (b : List Byte) (s : State) : State := s.setScript { s.env.script with picks := l, bytes := b }

/-! ## One step per vector -/

/-- V5. -/
theorem test_regWr_reserved_bits : next (exec (.regWr 0 0 0xFFFFFFFF) State.reset) (fun t => t.regs.ctrl0 == 0xFF09) = true := by
  decide +kernel
/-- V46, its third write. -/
theorem test_regWr_start : next (exec (.regWr 0 0x34 0x11) (up.modEngine .play .a fun _ => block 0x300000 0x100))
    (fun t => csWord t.play.hw == 0x11) = true := by
  decide +kernel
/-- V3. -/
theorem test_regRd_sideband : next (exec (.regRd 1 0x200) up) (fun t => t.port.res == 0xC && t.port.sts == 0) = true := by
  decide +kernel
/-- V6. -/
theorem test_regRd_unmapped : exec (.regRd 0 0x24) State.reset = .fault (.busFault 0 0x24) := by rfl
/-- V9. -/
theorem test_l3Send_delivered : next (exec (.l3Send 0x14 0x1F) (reliable 1 up)) (fun t =>
    t.trace == [.frame 0 0, .frame 0x14 0x1F] && t.codec.volume == some 0x1F && !t.regs.l3wd && t.errlog == []) = true := by
  decide +kernel
/-- V13. -/
theorem test_l3Send_interrupt : exec (.l3Send 0x14 0x1F) (enterInterrupt up) = .refused .busSendInInterrupt := by rfl
/-- V26. -/
theorem test_codecOpen : next (exec .codecOpen (reliable 5 up)) (fun t =>
    t.codec == ⟨some 0x10, some 0x1F, some 0, some 0, some 3⟩ && t.mirror.dirty == 0 &&
    t.trace.filter (· != .frame 0 0) == [.frame 0x16 0x10, .frame 0x14 0x1F, .frame 0x14 0x40, .frame 0x14 0x80, .frame 0x14 0xC3])
    = true := by
  decide +kernel
/-- V27. -/
theorem test_codecClose : next (exec .codecClose (reliable 1 opened)) (fun t =>
    t.trace == [.frame 0 0, .frame 0x14 0xC0] && t.mirror.power == 0) = true := by
  decide +kernel
/-- The example of R215: VOLUME, then TONE. -/
theorem test_codecSync_order : next (exec .codecSync (reliable 2 { opened with mirror := { opened.mirror with dirty := 0b00110 } }))
    (fun t => t.trace == [.frame 0 0, .frame 0x14 0x1F, .frame 0 0, .frame 0x14 0x40] && t.mirror.dirty == 0) = true := by
  decide +kernel
/-- V24. -/
theorem test_codecSetrate : next (exec (.codecSetrate 30000) (reliable 1 up)) (fun t =>
    t.port.res == 29400 && t.regs.pauddiv == 9 && t.mirror.status == 0x10 && t.mirror.rate == 29400) = true := by
  decide +kernel
/-- V14. -/
theorem test_setVol : next (exec (.setVol 40) (reliable 1 opened)) (fun t =>
    t.mirror.volume == 0x17 && t.trace == [.frame 0 0, .frame 0x14 0x17] && t.mirror.dirty == 0) = true := by
  decide +kernel
/-- V15. -/
theorem test_setVol_negative : next (exec (.setVol 0xFFFFFFFF) (reliable 1 opened)) (fun t => t.mirror.volume == 0x3F) = true := by
  decide +kernel
/-- The example of R206. -/
theorem test_setBass : next (exec (.setBass 9) (reliable 1 { opened with mirror := { opened.mirror with tone := 0x02 } }))
    (fun t => t.mirror.tone == 0x26 && t.codec.tone == some 0x26) = true := by
  decide +kernel
/-- The example of R207. -/
theorem test_setTreb : next (exec (.setTreb 3) (reliable 1 { opened with mirror := { opened.mirror with tone := 0x24 } }))
    (fun t => t.mirror.tone == 0x27 && t.trace == [.frame 0 0, .frame 0x14 0x67]) = true := by
  decide +kernel
/-- V21, from the example of R208. -/
theorem test_setMute : next (exec (.setMute 5) (reliable 1 { opened with mirror := { opened.mirror with filterMute := 0x01 } }))
    (fun t => t.mirror.filterMute == 0x05 && t.trace == [.frame 0 0, .frame 0x14 0x85]) = true := by
  decide +kernel
/-- The example of R209. -/
theorem test_setFilt : next (exec (.setFilt 2) (reliable 1 { opened with mirror := { opened.mirror with filterMute := 0x04 } }))
    (fun t => t.mirror.filterMute == 0x06 && t.trace == [.frame 0 0, .frame 0x14 0x86]) = true := by
  decide +kernel
/-- V28. -/
theorem test_getVol : next (exec .getVol State.reset) (fun t => t.port.res == 63) = true := by
  decide +kernel
/-- The examples of R211 to R214. -/
theorem test_getBass : next (exec .getBass { up with mirror := { up.mirror with tone := 0x26 } }) (fun t => t.port.res == 9) = true := by
  decide +kernel
theorem test_getTreb : next (exec .getTreb { up with mirror := { up.mirror with tone := 0x27 } }) (fun t => t.port.res == 3) = true := by
  decide +kernel
theorem test_getMute : next (exec .getMute { up with mirror := { up.mirror with filterMute := 0x05 } })
    (fun t => t.port.res == 1) = true := by
  decide +kernel
theorem test_getFilt : next (exec .getFilt { up with mirror := { up.mirror with filterMute := 0x06 } })
    (fun t => t.port.res == 2) = true := by
  decide +kernel
/-- V29. -/
theorem test_ctrlInit : next (exec .ctrlInit (reliable 1 State.reset)) (fun t =>
    t.regs == up.regs && t.mirror == up.mirror && t.trace == [.amp true true, .frame 0 0, .frame 0x16 0x10]) = true := by
  decide +kernel
/-- V29b. -/
theorem test_ctrlInit_modifies : next (exec .ctrlInit (reliable 1 { State.reset with
    regs := { State.reset.regs with pctrl := 0x100, ctrl0 := 0x2200, pgpio := 0x1 } })) (fun t => t.regs == up.regs) = true := by
  decide +kernel
/-- V30. -/
theorem test_dmaStart : next (exec (.dmaStart 0 0x100000 0x400) up) (fun t => t.port.sts == 0 && csWord t.play.hw == 0x11 &&
    t.play.hw.engA.addr == 0x100000 && t.play.hw.engA.cnt == 0x400 && t.play.chan.generation == 1) = true := by
  decide +kernel
/-- V31. -/
theorem test_dmaStart_busy : next (exec (.dmaStart 0 0x100400 0x400) (picks [0] (playing 0x400))) (fun t => t.port.sts == 2 &&
    t.play.hw == (playing 0x400).play.hw && t.play.chan.generation == 1) = true := by
  decide +kernel
/-- V32: the block of 4 bytes completes before the read, then `DMA.POLL` sees it. -/
theorem test_dmaPoll : next (exec (.dmaPoll 0) (picks [1] (playing 4))) (fun t => t.port.res == 1 && csWord t.play.hw == 0x09 &&
    t.trace == [.audioOut .a 0x100 [0x11, 0x22, 0x33, 0x44]]) = true := by
  decide +kernel
/-- V38. -/
theorem test_dmaPoll_never_started : next (exec (.dmaPoll 0) up) (fun t => t.port.res == 0 && t.port.sts == 0) = true := by
  decide +kernel
/-- V40, with `k` = 2. -/
theorem test_dmaReset : next (exec .dmaReset ((picks [0] (playing 4)).setScript
    { (picks [0] (playing 4)).env.script with counts := [2] })) (fun t => csWord t.play.hw == 0 && t.play.hw.engA.addr == 0 &&
    t.play.chan.generation == 1 && t.regs.ctrl0 == 0x7701 && t.trace == [.audioOut .a 0x100 [0x11, 0x22]]) = true := by
  decide +kernel
/-- V42. -/
theorem test_irqReq : next (exec (.irqReq 0) (up.setScript { up.env.script with binds := [true, true] })) (fun t =>
    t.trace == [.irqBind .play .a, .irqBind .play .b] && t.play.chan.boundA && t.play.chan.boundB && t.port.sts == 0) = true := by
  decide +kernel
/-- V43. -/
theorem test_irqReq_unwinds : next (exec (.irqReq 1) (up.setScript { up.env.script with binds := [true, false] })) (fun t =>
    t.trace == [.irqBind .record .a, .irqUnbind .record .a] && !t.record.chan.boundA && !t.record.chan.boundB && t.port.sts == 4)
    = true := by
  decide +kernel
/-- V45. -/
theorem test_irqRel : next (exec (.irqRel 0) (bound up)) (fun t =>
    t.trace == [.irqUnbind .play .a, .irqUnbind .play .b] && !t.play.chan.boundA && !t.play.chan.boundB) = true := by
  decide +kernel
/-- V50. -/
theorem test_irqEvt_completion : next (exec (.irqEvt 0) (picks [0] (session false 0x100000))) (fun t =>
    t.play.buf.current == 0x100400 && t.trace == [.periodElapsed .play 7 1024] && csWord t.play.hw == 0xC1 &&
    t.play.hw.engB.addr == 0x100400 && t.play.chan.generation == 2 && t.play.lastServiced == some .a) = true := by
  decide +kernel
/-- V60. -/
theorem test_irqEvt_unknown : next (exec (.irqEvt 4) up) (fun t => t.errlog == [.unknownIrq 4] && t.play == up.play) = true := by
  decide +kernel
/-- V70. -/
theorem test_chOpen : next (exec (.chOpen 0) State.reset) (fun t => t.play.chan.inUse && t.port.sts == 0) = true := by
  decide +kernel
/-- V80. -/
theorem test_chClose_running : next (exec (.chClose 0) (session false 0x100000)) (fun t => t.port.sts == 2 && t.play.chan.inUse) = true := by
  decide +kernel
/-- V72. -/
theorem test_sesArm : next (exec (.sesArm 0 false 0x100000 0x1000 0x400 7) up) (fun t => t.play.chan.running &&
    t.play.buf == ⟨0x1000, 0x100000, 0x100000, 0x400, false, 0, 7⟩ && csWord t.play.hw == 0x11) = true := by
  decide +kernel
/-- V74. -/
theorem test_sesArm_geometry : next (exec (.sesArm 0 false 0xFFFFF000 0x1000 0x400 7) up) (fun t => t.port.sts == 1 &&
    t.play == up.play) = true := by
  decide +kernel
/-- V77. -/
theorem test_sesStop : next (exec (.sesStop 0) (session false 0x100400)) (fun t => !t.play.chan.running &&
    !t.play.chan.bufferRef && t.play.buf.current == 0x100000 && csWord t.play.hw == 0x09 && t.env.now == 0) = true := by
  decide +kernel
/-- V78. -/
theorem test_sesPos : next (exec (.sesPos 0) (session false 0x100400)) (fun t => t.port.res == 1024) = true := by
  decide +kernel

/-- The second event of V62: A is still busy and completed before; it is abandoned (no byte of it moved) and reset, and the event is
processed. -/
theorem test_irqEvt_repeat_busy : next (exec (.irqEvt 0) ((picks [0, 0, 0, 0, 0, 0, 0] ((session false 0x100400).setDir .play
      { (session false 0x100400).play with
        lastServiced := some .a
        hw := ⟨true, some .a, { block 0x100000 0x400 with busy := true }, block 0 0⟩ })).setScript
      { up.env.script with picks := [0, 0, 0, 0, 0, 0, 0], counts := [0] })) (fun t =>
    t.errlog == [.repeatCompletion .play .a] && t.trace == [.audioOut .a 0x100000 [], .periodElapsed .play 7 2048] &&
    t.play.hw.engA == block 0 0 && csWord t.play.hw == 0xC1 && t.play.hw.engB.addr == 0x100800) = true := by
  decide +kernel

/-- A host load inside a capture window sees the captured byte, which the block then keeps (R123). -/
theorem test_capture_seen : let t := hostLoad 0x201 (answers [1] [9, 1, 2, 3] capturing)
    t.1 = 9 ∧ (hwStep (.engine .record) t.2).trace = [.audioIn .a 0x200 [1, 9, 2, 3]] :=
  ⟨by show Memory.read (Memory.write up.mem 0x201 9) 0x201 = 9; exact Memory.read_write_same _ _ _, by decide +kernel⟩
/-- A host store inside a capture window after the block has written that byte survives the completion (R111). -/
theorem test_host_store_survives : let t := hostStore 0x201 7 (answers [1] [9, 1, 2, 3] capturing)
    Memory.read (hwStep (.engine .record) t).mem 0x201 = 7 ∧
      (hwStep (.engine .record) t).trace = [.audioIn .a 0x200 [1, 9, 2, 3]] :=
  ⟨by
    show Memory.read (((((up.mem.write 0x201 9).write 0x201 7).write 0x200 1).write 0x202 2).write 0x203 3) 0x201 = 7
    rw [Memory.read_write_other (by decide), Memory.read_write_other (by decide), Memory.read_write_other (by decide),
      Memory.read_write_same], by decide +kernel⟩

/-- A packet placed by `withFetchWord` runs at the next step (V28). -/
theorem test_step_runs_packet : next (step (State.reset.withFetchWord 32 0x30)) (fun t => t.port.res == 63 && !t.port.pending) = true := by
  decide +kernel
/-- V90: an illegal packet. -/
theorem test_step_illegal : next (step (State.reset.withFetchWord 32 0)) (fun t => t.port.sts == 3 && t.port.res == 0) = true := by
  decide +kernel
/-- A bound line is taken between two operations (R345; V50). -/
theorem test_step_delivers : next (step (picks [1, 0] (bound (session false 0x100000)))) (fun t => t.play.buf.current == 0x100400 &&
    !t.inIrq && t.play.lastServiced == some .a) = true := by
  decide +kernel

/-! ## States that meet the hypotheses of the obligations -/

/-- Every running session of a state is aligned: decided. -/
theorem streamsOk_of {s : State} (h1 : s.play.chan.running = false ∨ AlignedBuffer s.cfg s.play.buf)
    (h2 : s.record.chan.running = false ∨ AlignedBuffer s.cfg s.record.buf) : StreamsOk s := by
  intro d hr
  cases d with
  | play => exact h1.resolve_left (by rw [show s.play.chan.running = true from hr]; decide)
  | record => exact h2.resolve_left (by rw [show s.record.chan.running = true from hr]; decide)

theorem busReady_up : BusReady up := ⟨rfl, rfl, rfl, by decide, by decide, streamsOk_of (.inl rfl) (.inl rfl)⟩

theorem busReady_reliable (n : Nat) : BusReady (reliable n up) :=
  ⟨rfl, rfl, rfl, by show up.cfg.chipAddr ≠ 0; decide, by show 1 ≤ up.cfg.tSettle; decide, streamsOk_of (.inl rfl) (.inl rfl)⟩

theorem ratesIncrease_default : RatesIncrease Params.default := by unfold RatesIncrease; decide

theorem frameConfig_default : FrameConfig Params.default := by unfold FrameConfig; decide

theorem layoutConfig_default : LayoutConfig Params.default := by unfold LayoutConfig; decide

theorem witness_DecodeEncodeRoundTrip : Instr.wellFormed (.regWr 1 0x300 3) = true ∧
    Instr.wellFormed (.sesArm 255 true 0xFFFFFFFF 0 1 2) = true := by decide

theorem witness_DecodedPacketIsItsEncoding : decode ⟨0x00000010, 0x114, 0x21F, 5, 6⟩ = .ok (.l3Send 0x14 0x1F) := by decide

theorem witness_IllegalPacketsComplete : let s := issuePacket ⟨0x00010050, 1, 2, 3, 4⟩ State.reset
    s.cfg.chipAddr ≠ 0 ∧ Quiet s ∧ s.port.pending = true ∧ s.seq = Seq.idle ∧ decode (portPacket s) = .error .loopBit :=
  ⟨by decide, by unfold Quiet; decide, by decide, by decide, by decide⟩

theorem witness_IllegalPacketsComplete_chosen : let s := picks [0] (issuePacket ⟨0x00010050, 1, 2, 3, 4⟩ (playing 4))
    s.cfg.chipAddr ≠ 0 ∧ ¬ Quiet s ∧ (drawPick s).1 = 0 ∧ s.port.pending = true ∧ s.seq = Seq.idle ∧
      decode (portPacket s) = .error .loopBit :=
  ⟨by decide, by unfold Quiet; decide, by decide, by decide, by decide, by decide⟩

theorem witness_StepRunsIssuedOperation_quiet : let s := issuePacket ⟨0x30, 0, 0, 0, 0⟩ up
    s.cfg.chipAddr ≠ 0 ∧ Quiet s ∧ s.port.pending = true ∧ s.seq = Seq.idle ∧ decode (portPacket s) = .ok .getVol :=
  ⟨by decide, by unfold Quiet; decide, by decide, by decide, by decide⟩

theorem witness_StepRunsIssuedOperation_chosen : let s := picks [0] (issuePacket ⟨0x51, 0, 0, 0, 0⟩ (playing 4))
    s.cfg.chipAddr ≠ 0 ∧ ¬ Quiet s ∧ (drawPick s).1 = 0 ∧ s.port.pending = true ∧ s.seq = Seq.idle ∧
      decode (portPacket s) = .ok (.dmaPoll 0) :=
  ⟨by decide, by unfold Quiet; decide, by decide, by decide, by decide, by decide⟩

theorem witness_StepRunsIssuedOperation_placed : State.reset.cfg.chipAddr ≠ 0 ∧ State.reset.seq = Seq.idle ∧
    decodeTableWord 96 0x000000020000000400000001 = some (.regWr 0 4 2) := by decide

theorem witness_StepRunsIssuedOperation_refused : let s : State := { up with cfg := { up.cfg with chipAddr := 0 } }
    s.cfg.chipAddr = 0 ∧ step s = .refused .chipAddressZero := ⟨rfl, rfl⟩

theorem witness_UnmappedAccessFaults : (0x26 : Word).toNat % 4 ≠ 0 ∧ regAt 0 0x24 = none ∧ regAt 1 0x34 = none ∧
    exec (.regWr 0 0x5C 0) State.reset = .fault (.busFault 0 0x5C) := ⟨by decide, by decide, by decide, rfl⟩

/-- A reset hold of 4 ms and of 5 ms, and a write of `RST` = 1. -/
theorem witness_RegWrCtrl0 :
    let held (ms : Nat) : State := { up with regs := { up.regs with ctrl0 := 0x9 }, env := { up.env with now := ms } }
    HwQuiet (held 4) ∧ exec (.regWr 0 0 1) (held 4) = .refused .resetHoldTooShort ∧
    next (exec (.regWr 0 0 1) (held 5)) (fun t => t.regs.ctrl0 == 1) = true ∧
    next (exec (.regWr 0 0 8) up) (fun t => t.regs.ctrl0 == 8) = true :=
  ⟨by unfold HwQuiet; decide, by rfl, by decide +kernel, by decide +kernel⟩

/-- One state for each clause: chip address 0, a frame in progress, a dead bus, an operational one. -/
theorem witness_L3DataWriteTriggers :
    exec (.regWr 0 0x20 1) { up with cfg := { up.cfg with chipAddr := 0 } } = .refused .chipAddressZero ∧
    exec (.regWr 0 0x20 1) (picks [0] { up with l3 := { up.l3 with busy := true } }) = .fault (.reserved .frameInProgress) ∧
    next (exec (.regWr 0 0x20 1) State.reset) (fun t => !t.l3.busy && t.regs.l3data == 1) = true ∧
    next (exec (.regWr 0 0x20 1) up) (fun t => t.l3 == ⟨true, 0x16, 1, false⟩) = true :=
  ⟨by rfl, by rfl, by decide +kernel, by decide +kernel⟩

/-- One write for each clause: disable, two starts, no start (done bits cleared), a block with a meaning, one without. -/
theorem witness_CsWrite :
    let s : State := up.modHw .play fun _ => ⟨true, none, { block 0x100 4 with done := true }, block 0x104 3⟩
    HwQuiet s ∧ BlockOk s.cfg 0x100 4 ∧ ¬ BlockOk s.cfg 0x104 3 ∧
    next (exec (.regWr 0 0x34 0) s) (fun t => csWord t.play.hw == 0x08) = true ∧
    exec (.regWr 0 0x34 0x51) s = .fault (.reserved .bothStarts) ∧
    next (exec (.regWr 0 0x34 0x09) s) (fun t => csWord t.play.hw == 0x01) = true ∧
    next (exec (.regWr 0 0x34 0x11) s) (fun t => csWord t.play.hw == 0x19) = true ∧
    exec (.regWr 0 0x34 0x41) s = .fault (.reserved .notStartable) :=
  ⟨by unfold HwQuiet; decide, by unfold BlockOk; decide, by unfold BlockOk; decide, by decide +kernel, by rfl, by decide +kernel,
    by decide +kernel, by rfl⟩

theorem witness_AddressAndCountRegisters : (up.engine .play .a).busy = false ∧
    next (exec (.regWr 0 0x38 5) up) (fun t => t.play.hw.engA.addr == 5) = true ∧
    ((picks [0] (playing 4)).engine .play .a).busy = true ∧
    exec (.regWr 0 0x3C 5) (picks [0] (playing 4)) = .fault (.reserved .liveDescriptor) :=
  ⟨by decide, by decide +kernel, by decide, by rfl⟩

theorem witness_SendCompletes : BusReady up := busReady_up

theorem witness_SendOnDeadBus : Quiet State.reset ∧ State.reset.inIrq = false ∧ State.reset.l3.lock = false ∧
    State.reset.cfg.chipAddr ≠ 0 ∧ l3Operational State.reset = false :=
  ⟨by unfold Quiet; decide, by decide, by decide, by decide, by decide⟩

theorem witness_SendOnOperationalBus (v w : Bool) :
    let s := up.setScript { up.env.script with delivered := [v, w] }
    DmaStill s ∧ BusReady s ∧ l3Operational s = true ∧ s.env.script.delivered = v :: w :: [] :=
  ⟨⟨rfl, rfl, rfl⟩, ⟨rfl, rfl, rfl, by show up.cfg.chipAddr ≠ 0; decide, by show 1 ≤ up.cfg.tSettle; decide,
    streamsOk_of (.inl rfl) (.inl rfl)⟩, by show l3Operational up = true; decide, rfl⟩

theorem witness_SendsRefusedInInterrupt : (enterInterrupt up).inIrq = true := rfl

theorem witness_SendWaitsForTheLock : let s : State := { up with l3 := { up.l3 with lock := true } }
    s.inIrq = false ∧ s.l3.lock = true := ⟨rfl, rfl⟩

theorem witness_SyncSendsDirtyGroups : BusReady up ∧ up.inIrq = false ∧ up.mirror.dirty = 0 := ⟨busReady_up, rfl, rfl⟩

theorem witness_SyncFramesInOrder :
    let s : State := { reliable 2 up with mirror := { up.mirror with dirty := 0b00110 } }
    DmaStill s ∧ BusReady s ∧ l3Operational s = true ∧ (dirtyGroups s.mirror).length = 2 ∧ L3Reliable 4 s :=
  ⟨⟨rfl, rfl, rfl⟩, ⟨rfl, rfl, rfl, by show up.cfg.chipAddr ≠ 0; decide, by show 1 ≤ up.cfg.tSettle; decide,
    streamsOk_of (.inl rfl) (.inl rfl)⟩, rfl, by decide, rfl⟩

theorem witness_GroupFramesReachTheirRegisters : FrameConfig Params.default ∧ MirrorLayout opened.mirror :=
  ⟨frameConfig_default, by unfold MirrorLayout; decide⟩

theorem witness_MirrorMatchesCodec : (BusReady (reliable 5 up) ∧ FrameConfig up.cfg ∧ LayoutConfig up.cfg ∧
      l3Operational (reliable 5 up) = true ∧ L3Reliable 10 (reliable 5 up)) ∧
    BusReady (reliable 1 opened) ∧ l3Operational (reliable 1 opened) = true ∧ L3Reliable 2 (reliable 1 opened) ∧
      MirrorAgrees (reliable 1 opened) :=
  ⟨⟨busReady_reliable 5, frameConfig_default, layoutConfig_default, rfl, rfl⟩,
    ⟨rfl, rfl, rfl, by show up.cfg.chipAddr ≠ 0; decide, by show 1 ≤ up.cfg.tSettle; decide, streamsOk_of (.inl rfl) (.inl rfl)⟩,
    rfl, rfl, by unfold MirrorAgrees MirrorLayout; decide⟩

theorem witness_ControllerInit : BusReady up ∧ RatesIncrease up.cfg ∧ (⟨22050, 1, 7⟩ : RateRow) ∈ up.cfg.rateTable ∧
    (⟨22050, 1, 7⟩ : RateRow).rate = 22050 ∧ up.env.rstSince ≤ up.env.now :=
  ⟨busReady_up, ratesIncrease_default, by decide, rfl, by decide⟩

/-- The largest and smallest blocks with a meaning, and blocks just outside. -/
theorem witness_DmaStartBehaviour : BlockOk up.cfg 0xFFFFFFF0 0x10 ∧ ¬ BlockOk up.cfg 0xFFFFFFF0 0x14 ∧ BlockOk up.cfg 0 4 ∧
    ¬ BlockOk up.cfg 2 4 ∧ (up.engine .play .a).busy = false ∧ (up.engine .play .b).busy = false ∧
    ((picks [0] (playing 4)).engine .play .a).busy = true ∧ (2 : Byte).toNat = 2 := by
  unfold BlockOk; decide

/-- A controller that does not run, and a running one whose block is still in flight at the second start's read. -/
theorem witness_StartsAlternate : (∃ t, exec (.dmaStart 0 0x100 4) State.reset = .next t ∧
      (t.port.sts == 0 && (hwAgents t).isEmpty) = true) ∧
    ∃ t, exec (.dmaStart 0 0x100 4) (picks [0] up) = .next t ∧
      (t.port.sts == 0 && engineEnabled t .play && ((hw t).engine .play .a).busy) = true :=
  ⟨next_exists (by decide +kernel), next_exists (by decide +kernel)⟩

theorem witness_PollReadsLastStarted : (up.dir .play).chan.generation = 0 ∧ ((playing 4).dir .play).chan.generation ≠ 0 := by decide

/-- With `RST` 0 a frame in progress is left alone, with `RST` 1 it is lost. -/
theorem witness_DmaResetClears : 
    let s (rst : Word) : State := picks (List.replicate 12 0)
      { up with regs := { up.regs with ctrl0 := rst }, l3 := ⟨true, 1, 2, false⟩ };
    next (exec .dmaReset (s 0x1)) (fun t => t.l3 == ⟨true, 1, 2, false⟩ && t.trace == []) = true ∧
    next (exec .dmaReset (s 0x9)) (fun t => t.l3 == ⟨false, 1, 2, false⟩ && t.trace == [.frameLost 1 2]) = true :=
  ⟨by decide +kernel, by decide +kernel⟩

theorem witness_RequestBindsBothOrNeither : ((bound up).dir .play).chan.boundA = true ∧ (up.dir .play).chan.boundA = false ∧
    (up.dir .play).chan.boundB = false ∧ (drawBind (up.setScript { up.env.script with binds := [true, false] })).1 = true := by decide

theorem witness_PlaybackCompletes : engineEnabled (playing 4) .play = true ∧ (playing 4).play.hw.active = some .a ∧
    ((playing 4).engine .play .a).raced = [] ∧ ((playing 4).engine .play .a).cnt.toNat = 4 ∧
    ∀ i, i < 4 → captureCovers (playing 4) (0x100 + i) = false := by decide

/-- No byte written before, and one: a host load inside the window saw byte 0x201 captured as 9. -/
theorem witness_CaptureCompletes : engineEnabled capturing .record = true ∧ capturing.record.hw.active = some .a ∧
    (capturing.engine .record .a).raced = [] ∧ (capturing.engine .record .a).cnt.toNat ≤
      (capturing.setScript { capturing.env.script with bytes := [1, 2, 3, 4] }).env.script.bytes.length ∧
    let t := (hostLoad 0x201 (answers [1] [9] capturing)).2
    engineEnabled t .record = true ∧ (t.engine .record .a).raced.lookup 0x201 = some 9 ∧
      (t.engine .record .a).raced.lookup 0x200 = none := by decide

/-- Playback: the first and last byte inside the window, the byte after it, a byte stored twice. Capture: the first and last byte of the
window still to write, with each answer, and the byte after it. -/
theorem witness_RaceRule : let s := picks [0] (playing 4)
    ((s.engine .play .a).raced = [] ∧ captureCovers s 0x100 = false ∧ (s.engine .play .a).busy = true ∧
      (s.engine .play .a).covers 0x100 = true ∧ (s.engine .play .a).covers 0x103 = true ∧
      (s.engine .play .a).covers 0x104 = false ∧
      ((storeByte 0x100 6 (storeByte 0x100 5 s)).engine .play .a).raced.map Prod.fst = [0x100, 0x100]) ∧
    let c := answers [0] [9] capturing
    (c.engine .record .a).owes 0x200 = true ∧ (c.engine .record .a).owes 0x203 = true ∧
      (c.engine .record .b).owes 0x200 = false ∧ (c.engine .record .a).owes 0x204 = false ∧ captureCovers c 0x204 = false ∧
      c.env.script.picks = 0 :: [] ∧ (answers [1] [9] capturing).env.script.picks = (0 + 1) :: [] ∧
      (answers [1] [9] capturing).env.script.bytes = 9 :: [] := by decide

theorem witness_AbandonmentMovesAPrefix : let s := (playing 4).setScript { up.env.script with counts := [4] }
    ((s.engine .play .a).busy = true ∧ (s.engine .play .a).inMemory = true ∧ (s.engine .play .a).raced = [] ∧
      (∀ i, i < 4 → captureCovers s (0x100 + i) = false) ∧ s.env.script.counts = 4 :: []) ∧
    let c := capturing.setScript { up.env.script with counts := [4], bytes := [1, 2, 3, 4] }
    (c.engine .record .a).busy = true ∧ (c.engine .record .a).inMemory = true ∧ (c.engine .record .a).raced = [] ∧
      c.env.script.counts = 4 :: [] ∧ 4 ≤ (c.engine .record .a).cnt.toNat ∧ 4 ≤ c.env.script.bytes.length ∧
      ((hostLoad 0x201 (answers [1] [9] capturing)).2.engine .record .a).raced.lookup (0x200 + 1) = some 9 := by decide

theorem aligned_session (loop : Bool) (cur : Word) (h : cur.toNat % 4 = 0) :
    AlignedBuffer up.cfg (session loop cur).play.buf :=
  ⟨by show 4 ∣ (0x100000 : Word).toNat; decide, Nat.dvd_of_mod_eq_zero h, by show 4 ∣ (0x400 : Word).toNat; decide, by show 4 ∣ (0x1000 : Word).toNat; decide,
    by show (0x400 : Word).toNat ≤ 4294967295; decide⟩

theorem ordinary_session (loop : Bool) (cur : Word) : OrdinaryCall (session loop cur) .play .a :=
  ⟨rfl, rfl, by show (none : Option Eng) ≠ some .a; decide, by show 0 < 2; decide, rfl, rfl⟩

theorem witness_SyntheticEventCompletes : up.inIrq = false ∧ 3 < (4 : Word).toNat ∧ (3 : Word) = irqId .record .b ∧
    StreamsOk (session false 0x100000) :=
  ⟨rfl, by decide, by decide, streamsOk_of (.inr (aligned_session false _ (by decide))) (.inl rfl)⟩

theorem quiet_of_ordinary {s : State} {d : Dir} {e : Eng} (h : OrdinaryCall s d e) : QuietCall s d e := by
  obtain ⟨hi, hq, hl, hp, ha, hb⟩ := h
  have : (s.engine d e.other).busy = false := by cases e <;> assumption
  exact ⟨hi, hq, hl, by simp [streakAfter, this, hp]⟩

/-- The session with A in flight again: the first event of V62; on a controller that is disabled no agent is enabled. -/
def sessionBusy (loop : Bool) (cur ctrl0 : Word) : State := { session loop cur with
  regs := { up.regs with ctrl0 := ctrl0 }
  play := { (session loop cur).play with
    hw := ⟨true, some .a, { block 0x100000 0x400 with busy := true }, block 0x100400 0x400⟩ } }

/-- Both clauses with a busy sub-engine, for line A and (the other sub-engine busy, one below the limit) for line B. -/
theorem witness_CompletionWithinBounds_refused :
    (QuietCall (sessionBusy false 0x100800 0) .play .a ∧ QuietCall (sessionBusy false 0x100800 0) .play .b ∧
      ((sessionBusy false 0x100800 0).engine .play .a).busy = true ∧
      wellFormedBuffer ((sessionBusy false 0x100800 0).dir .play) = true) ∧
    ¬ HwQuiet (sessionBusy false 0x100000 0x7701) ∧ ((sessionBusy false 0x100000 0x7701).dir .play).lastServiced ≠ some .a ∧
    ((sessionBusy false 0x100000 0x7701).dir .play).oppStreak + 1 < (sessionBusy false 0x100000 0x7701).cfg.oppBusyLimit ∧
    wellFormedBuffer ((sessionBusy false 0x100000 0x7701).dir .play) = true := by
  unfold QuietCall HwQuiet; decide

theorem witness_CompletionWraps_refused :
    QuietCall (sessionBusy true 0x100C00 0) .play .a ∧ ((sessionBusy true 0x100C00 0).engine .play .a).busy = true ∧
    wellFormedBuffer ((sessionBusy true 0x100C00 0).dir .play) = true ∧
    ((sessionBusy true 0x100C00 0x7701).dir .play).lastServiced ≠ some .a ∧
    ((sessionBusy true 0x100C00 0x7701).dir .play).oppStreak + 1 < (sessionBusy true 0x100C00 0x7701).cfg.oppBusyLimit := by
  unfold QuietCall HwQuiet; decide

/-- The first event of V62, A not completing. -/
theorem test_irqEvt_refused : next (exec (.irqEvt 0) (picks (List.replicate 6 0) (sessionBusy false 0x100000 0x7701))) (fun t =>
    t.play.buf.current == 0x100400 && t.trace == [.periodElapsed .play 7 1024] && t.errlog == [.rearmRefused .play .ebusy] &&
    csWord t.play.hw == 0x11 && t.play.lastServiced == some .a && t.play.chan.generation == 1) = true := by
  decide +kernel

/-- The last pointer from which an advance stays within bounds is below 0x100C00. -/
theorem witness_CompletionWithinBounds : OrdinaryCall (session false 0x100800) .play .a ∧
    wellFormedBuffer ((session false 0x100800).dir .play) = true ∧ ((session false 0x100800).dir .play).chan.running = true ∧
    ((session false 0x100800).dir .play).chan.cbValid = true ∧ AlignedBuffer up.cfg (session false 0x100800).play.buf ∧
    (0x100800 : Word).toNat + (0x400 : Word).toNat < (0x100000 : Word).toNat + (0x1000 : Word).toNat :=
  ⟨ordinary_session _ _, by decide, by decide, by decide, aligned_session _ _ (by decide), by decide⟩

/-- The advance that just reaches the end. -/
theorem witness_CompletionWraps : OrdinaryCall (session true 0x100C00) .play .a ∧
    wellFormedBuffer ((session true 0x100C00).dir .play) = true ∧ ((session true 0x100C00).dir .play).chan.running = true ∧
    ((session true 0x100C00).dir .play).chan.cbValid = true ∧ AlignedBuffer up.cfg (session true 0x100C00).play.buf ∧
    ((session true 0x100C00).dir .play).buf.loop = true ∧
    (0x100000 : Word).toNat + (0x1000 : Word).toNat ≤ (0x100C00 : Word).toNat + (0x400 : Word).toNat :=
  ⟨ordinary_session _ _, by decide, by decide, by decide, aligned_session _ _ (by decide), by decide, by decide⟩

/-- One state for each clause: a pointer at the end, the end reached, and, not running, the end and short of it. -/
theorem witness_CompletionStartsNothing :
    let still (cur : Word) := (session false cur).modChan .play fun c => { c with running := false }
    QuietCall (session false 0x101000) .play .a ∧ wellFormedBuffer ((session false 0x101000).dir .play) = false ∧
    QuietCall (session false 0x100C00) .play .a ∧ wellFormedBuffer ((session false 0x100C00).dir .play) = true ∧
    QuietCall (still 0x100C00) .play .a ∧ wellFormedBuffer ((still 0x100C00).dir .play) = true ∧
    QuietCall (still 0x100800) .play .a ∧ wellFormedBuffer ((still 0x100800).dir .play) = true ∧
    QuietCall (sessionBusy false 0x100C00 0) .play .b ∧ ((sessionBusy false 0x100C00 0).engine .play .a).busy = true :=
  ⟨quiet_of_ordinary (ordinary_session _ _), by decide, quiet_of_ordinary (ordinary_session _ _), by decide,
    by unfold QuietCall HwQuiet; decide, by decide, by unfold QuietCall HwQuiet; decide, by decide,
    by unfold QuietCall HwQuiet; decide, by decide⟩

/-- A repeated completion, and a direction whose other sub-engine is stuck (its channel cannot run, so no agent is enabled). -/
theorem witness_RecoveryResetsOneEngine :
    let again := up.setDir .play { up.play with lastServiced := some .a }
    let stuck := { State.reset with play := { State.reset.play with
      hw := ⟨true, some .b, block 0 0, { block 0x100 4 with busy := true }⟩, oppStreak := 1 } }
    (again.inIrq = false ∧ HwQuiet again ∧ (again.dir .play).chan.bufferRef = false ∧ again.l3.busy = false ∧
      1 < again.cfg.oppBusyLimit ∧ (again.dir .play).lastServiced = some .a ∧ (again.engine .play .a).busy = false ∧
      (again.engine .play .b).busy = false) ∧
    (stuck.inIrq = false ∧ HwQuiet stuck ∧ (stuck.dir .play).chan.bufferRef = false ∧ stuck.l3.busy = false ∧
      1 < stuck.cfg.oppBusyLimit ∧ (stuck.dir .play).lastServiced ≠ some .a ∧ (stuck.engine .play .b).busy = true ∧
      stuck.cfg.oppBusyLimit ≤ (stuck.dir .play).oppStreak + 1) := by
  unfold HwQuiet; decide

/-- A repeated completion in a running session, the sub-engine busy again and its controller running (the second event of V62). -/
theorem witness_RecoveryResetsOneEngine_session :
    let s := (session false 0x100000).setDir .play { (session false 0x100000).play with
      lastServiced := some .a
      hw := ⟨true, some .a, { block 0x100000 0x400 with busy := true }, block 0x100400 0x400⟩ }
    ¬ HwQuiet s ∧ (s.dir .play).lastServiced = some .a ∧ 0 < s.cfg.oppBusyLimit ∧ (s.engine .play .b).busy = false ∧
      wellFormedBuffer (s.dir .play) = true ∧ (s.dir .play).chan.running = true ∧ (s.dir .play).chan.cbValid = true ∧
      AlignedBuffer up.cfg (s.dir .play).buf ∧
      (s.dir .play).buf.current.toNat + (s.dir .play).buf.period.toNat <
        (s.dir .play).buf.start.toNat + (s.dir .play).buf.size.toNat :=
  ⟨by unfold HwQuiet; decide, by decide, by decide, by decide, by decide, by decide, by decide,
    aligned_session false 0x100000 (by decide), by decide⟩

theorem witness_DeliveryLeavesTheHostAlone : let s := picks [1] (bound (session false 0x100000))
    s.cfg.chipAddr ≠ 0 ∧ StreamsOk s ∧ (actors s)[0]? = some (.line .play .a) ∧ (drawPick s).1 = 0 + 1 :=
  ⟨by show up.cfg.chipAddr ≠ 0; decide, streamsOk_of (.inr (aligned_session false 0x100000 (by decide))) (.inl rfl), by decide,
    by decide⟩

theorem streamInv_session : StreamInv (picks [0] (session false 0x100000)) := by
  intro d
  cases d <;> decide

theorem witness_OneTransitionPerCall : StreamInv (picks [0] (session false 0x100000)) ∧
    (∃ t, exec (.irqEvt 0) (picks [0] (session false 0x100000)) = .next t ∧
      (phase t.play == some .running) = true) ∧
    ((session false 0x100000).dir .play).buf.loopCount ≠ 0xFFFFFFFF ∧
    phase ((session false 0x100000).dir .play) = some .armed :=
  ⟨streamInv_session, next_exists (by decide +kernel), by decide, by decide⟩

theorem witness_ChannelOpenAndClose : (up.dir .play).chan.inUse = false ∧ ((session false 0).dir .play).chan.inUse = true ∧
    ((session false 0).dir .play).chan.running = true ∧ (up.dir .play).chan.running = false := by decide

/-- Geometry at the boundary: the end at 2^32 - 1 is good, at 2^32 is not; a period of the whole buffer is good. -/
theorem witness_ArmStartsASession : ((session false 0).dir .play).chan.running = true ∧ (up.dir .play).chan.running = false ∧
    (0xFFFFEFFF : Word).toNat + (0x1000 : Word).toNat < 4294967296 ∧ ¬ (0xFFFFF000 : Word).toNat + (0x1000 : Word).toNat < 4294967296 ∧
    (0x1000 : Word) ≠ 0 ∧ (0x1000 : Word).toNat ≤ (0x1000 : Word).toNat ∧ BlockOk up.cfg 0xFFFFE000 0x1000 ∧
    ¬ BlockOk up.cfg 0xFFFFEFFF 0x1000 ∧ ((playing 4).engine .play .a).busy = true := by
  unfold BlockOk; decide

theorem witness_StopEndsASession : (session false 0x100000).inIrq = false ∧ StreamsOk (session false 0x100000) ∧ Quiet up ∧
    (up.dir .play).chan.generation = 0 ∧ StreamsOk up ∧
    (playing 4).inIrq = false ∧ StreamsOk (playing 4) ∧ ((playing 4).engine .play .a).busy = true :=
  ⟨rfl, streamsOk_of (.inr (aligned_session false _ (by decide))) (.inl rfl), by unfold Quiet; decide, rfl,
    streamsOk_of (.inl rfl) (.inl rfl), rfl, streamsOk_of (.inl rfl) (.inl rfl), rfl⟩

theorem witness_PositionIsTheOffset : (up.dir .play).chan.bufferRef = false ∧
    ((session false 0x100000).dir .play).chan.bufferRef = true ∧ StreamInv (picks [0] (session false 0x100000)) :=
  ⟨by decide, by decide, streamInv_session⟩

theorem witness_GettersReadTheMirror : BusReady up := busReady_up

theorem witness_SettersStoreAndSync : BusReady up := busReady_up

theorem witness_SettersReadBack : BusReady up := busReady_up

theorem witness_CodecOpenAndClose : BusReady up ∧ RatesIncrease up.cfg ∧ (⟨22050, 1, 7⟩ : RateRow) ∈ up.cfg.rateTable :=
  ⟨busReady_up, ratesIncrease_default, by decide⟩

theorem witness_SetRateSnapsAndSyncs : BusReady up ∧ RatesIncrease up.cfg := ⟨busReady_up, ratesIncrease_default⟩

theorem witness_SnapRounding : RatesIncrease Params.default := ratesIncrease_default

/-- A packet to issue in a state that meets every invariant. -/
def ready : State := issuePacket ⟨0x50, 0x100000, 0x400, 0, 0⟩ up

theorem ready_steps : ∃ t, step ready = .next t ∧ (csWord t.play.hw == 0x11) = true := next_exists (by decide +kernel)

theorem witness_StepKeepsMemoryCanonical : MemInv ready ∧ ∃ t, step ready = .next t ∧ (csWord t.play.hw == 0x11) = true :=
  ⟨by unfold MemInv; decide, ready_steps⟩

theorem witness_StepKeepsReservedBits : RegsInv ready ∧ ∃ t, step ready = .next t ∧ (csWord t.play.hw == 0x11) = true :=
  ⟨by unfold RegsInv; decide, ready_steps⟩

theorem witness_StepKeepsDmaConsistent : DmaInv ready ∧ ∃ t, step ready = .next t ∧ (csWord t.play.hw == 0x11) = true :=
  ⟨fun d => by
    cases d <;> exact ⟨fun e h => by cases e <;> exact absurd h (by decide), fun e h => by cases e <;> exact absurd h (by decide)⟩,
    ready_steps⟩

theorem witness_StepEndsInNormalContext : ContextInv ready ∧ ∃ t, step ready = .next t ∧ (csWord t.play.hw == 0x11) = true :=
  ⟨by unfold ContextInv; decide, ready_steps⟩

theorem witness_StepKeepsBufferInvariant : StreamInv ready ∧ ∃ t, step ready = .next t ∧ (csWord t.play.hw == 0x11) = true :=
  ⟨fun d => by cases d <;> decide, ready_steps⟩

/-- A running looping session whose pointer is about to wrap. -/
theorem witness_StepKeepsBufferInvariant_loop : let s := picks [1, 0] (bound (session true 0x100C00))
    StreamInv s ∧ LoopInv s ∧ (s.dir .play).chan.running = true ∧ (s.dir .play).buf.loop = true ∧
      ∃ t, step s = .next t ∧ (t.play.buf.current == 0x100000 && t.play.buf.loopCount == 1) = true :=
  ⟨fun d => by cases d <;> decide, fun d => by cases d <;> decide, rfl, rfl, next_exists (by decide +kernel)⟩

theorem witness_StepKeepsMirrorLayout : LayoutConfig ready.cfg ∧ MirrorLayout ready.mirror ∧
    ∃ t, step ready = .next t ∧ (csWord t.play.hw == 0x11) = true :=
  ⟨layoutConfig_default, by unfold MirrorLayout; decide, ready_steps⟩

theorem witness_WhatNoOperationChanges : ∃ t, exec .getVol up = .next t ∧ (t.port.res == 63) = true := next_exists (by decide +kernel)

/-! A fair run: a block in flight completes first, then nothing is left to do and time passes. -/

/-- Bring-up with a block of 4 bytes in flight, and the answer that it completes. -/
def fair0 : State := picks [1] (playing 4)

/-- The block has completed, and `n` ms have passed. -/
def fairDone (n : Nat) : State :=
  let t := completeBlock .play (playing 4)
  { t with env := { t.env with now := n } }

def fairRun : Nat → State
  | 0 => fair0
  | n + 1 => fairDone n

theorem fairRun_isRun : IsRun fairRun := by
  intro n
  cases n with
  | zero => rfl
  | succ n => rfl

theorem fairDone_still (n : Nat) : hwAgents (fairDone n) = [] ∧ ∀ d e, deliverable (fairDone n) d e = false :=
  ⟨rfl, fun d e => by cases d <;> cases e <;> rfl⟩

theorem fairRun_fair : WeaklyFair fairRun where
  hardware := fun g n h => by
    have := h (n + 1) (Nat.le_succ n)
    rw [show fairRun (n + 1) = fairDone n from rfl, (fairDone_still n).1] at this
    cases this
  lines := fun d e n h => by
    have := (h (n + 1) (Nat.le_succ n)).1
    rw [show fairRun (n + 1) = fairDone n from rfl, (fairDone_still n).2 d e] at this
    cases this

theorem witness_FairRunsProgress : IsRun fairRun ∧ WeaklyFair fairRun ∧ HostIdle (fairRun 0) ∧
    engineEnabled (fairRun 0) .play = true ∧ HostIdle (bound (session false 0x100000)) ∧
    deliverable (bound (session false 0x100000)) .play .a = true :=
  ⟨fairRun_isRun, fairRun_fair, ⟨rfl, rfl⟩, by decide, ⟨rfl, rfl⟩, by decide⟩

/-- A block in flight whose controller has been disabled (U20): time passes and it stays busy. -/
theorem witness_FairRunsProgress_stuck : let s : State := { playing 4 with regs := { up.regs with ctrl0 := 0x7700 } }
    (s.engine .play .a).busy = true ∧ dmaCanRun s .play = false ∧ HostIdle s ∧ (∀ e', deliverable s .play e' = false) ∧
      ∃ t, step s = .next t ∧ (csWord t.play.hw == 0x11 && t.env.now == 1) = true :=
  ⟨by decide, by decide, ⟨rfl, rfl⟩, fun e => by cases e <;> rfl, next_exists (by decide +kernel)⟩

end Sys2Proof.Tests
end

section
/-! Once, everything a step is made of, as far as the registers, the DMA hardware and the descriptors go: the relation `Moves`, and
that every step and every operation is a sequence of its moves. An invariant that each move keeps is kept by every step. -/

namespace Sys2Proof.Machine

/-! ### what a transfer leaves of the sub-engines -/

/-- The flags of the DMA hardware are as they were (`10_state.md` R55, R80). -/
structure FlagsKept (s t : State) : Prop where
  active : ∀ d, (t.dir d).hw.active = (s.dir d).hw.active
  busy : ∀ d e, (t.engine d e).busy = (s.engine d e).busy
  done : ∀ d e, (t.engine d e).done = (s.engine d e).done

theorem FlagsKept.refl (s : State) : FlagsKept s s := ⟨fun _ => rfl, fun _ _ => rfl, fun _ _ => rfl⟩

theorem FlagsKept.trans {s t u : State} (h : FlagsKept s t) (k : FlagsKept t u) : FlagsKept s u :=
  ⟨fun d => (k.active d).trans (h.active d), fun d e => (k.busy d e).trans (h.busy d e),
    fun d e => (k.done d e).trans (h.done d e)⟩

theorem FlagsKept.of_dirs {s t : State} (h : ∀ d, t.dir d = s.dir d) : FlagsKept s t := by
  refine ⟨fun d => by rw [h], fun d e => ?_, fun d e => ?_⟩ <;> unfold State.engine <;> rw [h]

theorem Drew.flags {s t : State} (h : Drew s t) : FlagsKept s t := by
  obtain ⟨n, x, -, rfl⟩ := h
  exact FlagsKept.of_dirs fun d => by cases d <;> rfl

/-- Remembering what a sub-engine's window saw touches no flag. -/
theorem FlagsKept.modRaced (d : Dir) (e : Eng) (l : List Host.Cell) (s : State) :
    FlagsKept s (s.modEngine d e fun g => { g with raced := l ++ g.raced }) := by
  refine ⟨fun d' => by cases d <;> cases d' <;> cases e <;> rfl, fun d' e' => ?_, fun d' e' => ?_⟩ <;>
    rw [State.modEngine_engine] <;> split
  · next h => rw [h.1, h.2]
  · rfl
  · next h => rw [h.1, h.2]
  · rfl

theorem storeByte_flags (a : Nat) (v : Byte) (s : State) : FlagsKept s (storeByte a v s) := by
  obtain ⟨r1, h1⟩ := Engine.noteRace_eq a (Memory.read s.mem a) s.play.hw.engA
  obtain ⟨r2, h2⟩ := Engine.noteRace_eq a (Memory.read s.mem a) s.play.hw.engB
  unfold storeByte
  simp only [h1, h2]
  exact ⟨fun d => by cases d <;> rfl, fun d e => by cases d <;> cases e <;> rfl, fun d e => by cases d <;> cases e <;> rfl⟩

theorem captureByte_flags (e : Eng) (a : Nat) (s : State) : FlagsKept s (captureByte e a s).2 := by
  rcases captureByte_eq e a s with ⟨b, -, h⟩ | ⟨-, h⟩ <;> rw [h]
  · exact FlagsKept.refl s
  · exact (drawByte_drew s).flags.trans (storeByte_flags _ _ _)

theorem captureBytes_flags (e : Eng) (a n : Nat) (s : State) : FlagsKept s (captureBytes e a n s).2 := by
  induction n generalizing a s with
  | zero => exact FlagsKept.refl s
  | succ n ih => exact (captureByte_flags e a s).trans (ih (a + 1) (captureByte e a s).2)

theorem mayCapture_flags (e : Eng) (a : Nat) (s : State) : FlagsKept s (mayCapture e a s) := by
  unfold mayCapture
  split
  · dsimp only
    split
    · exact (drawPick_drew s).flags
    · exact (drawPick_drew s).flags.trans ((captureByte_flags e a _).trans
        (FlagsKept.modRaced .record e [(a, (captureByte e a (drawPick s).2).1)] _))
  · exact FlagsKept.refl s

theorem settle_flags (a : Nat) (s : State) : FlagsKept s (settle a s) := by
  unfold settle
  dsimp only
  split
  · exact mayCapture_flags _ a s
  · exact (mayCapture_flags _ a s).trans (mayCapture_flags _ a _)

theorem fetchByte_flags (e : Eng) (a : Nat) (s : State) : FlagsKept s (fetchByte e a s).2 := by
  unfold fetchByte
  dsimp only
  split
  · exact settle_flags a s
  · exact (settle_flags a s).trans (drawPick_drew _).flags

theorem fetchBytes_flags (e : Eng) (a n : Nat) (s : State) : FlagsKept s (fetchBytes e a n s).2 := by
  induction n generalizing a s with
  | zero => exact FlagsKept.refl s
  | succ n ih => exact (fetchByte_flags e a s).trans (ih (a + 1) (fetchByte e a s).2)

/-- A transfer by itself neither ends a block nor starts one (`44_dma_engine.md` R271). -/
theorem moveBlock_flags (d : Dir) (e : Eng) (k : Nat) (s : State) : FlagsKept s (moveBlock d e k s) := by
  cases d with
  | play => exact (fetchBytes_flags e _ k s).trans (FlagsKept.of_dirs fun _ => State.emit_dir _ _ _)
  | record => exact (captureBytes_flags e _ k s).trans (FlagsKept.of_dirs fun _ => State.emit_dir _ _ _)

theorem hostStore_flags (a : Nat) (v : Byte) (s : State) : FlagsKept s (hostStore a v s) :=
  (settle_flags a s).trans (storeByte_flags a v _)

/-! ### relations between two states -/

/-- The registers but `L3WD`, the configuration, the DMA hardware and the descriptors are as they were. -/
structure SameControl (s t : State) : Prop where
  cfg : t.cfg = s.cfg
  regs : t.regs = { s.regs with l3wd := t.regs.l3wd }
  chan : ∀ d, (t.dir d).chan = (s.dir d).chan
  buf : ∀ d, (t.dir d).buf = (s.dir d).buf
  oppStreak : ∀ d, (t.dir d).oppStreak = (s.dir d).oppStreak
  en : ∀ d, (t.dir d).hw.en = (s.dir d).hw.en
  active : ∀ d, (t.dir d).hw.active = (s.dir d).hw.active
  busy : ∀ d e, (t.engine d e).busy = (s.engine d e).busy
  addr : ∀ d e, (t.engine d e).addr = (s.engine d e).addr
  cnt : ∀ d e, (t.engine d e).cnt = (s.engine d e).cnt

/-- What agents that end no block leave. -/
theorem HwFrame.same {s t : State} (h : HwFrame s t) (k : FlagsKept s t) : SameControl s t :=
  ⟨h.cfg, bus_regs h.bus, h.chan, h.buf, h.oppStreak, h.en, k.active, k.busy, h.addr, h.cnt⟩

theorem SameControl.of_dirs {s t : State} (h1 : t.cfg = s.cfg) (h2 : t.regs = s.regs) (h : ∀ d, t.dir d = s.dir d) :
    SameControl s t := by
  refine ⟨h1, by rw [h2], fun d => by rw [h], fun d => by rw [h], fun d => by rw [h], fun d => by rw [h],
    fun d => by rw [h], fun d e => ?_, fun d e => ?_, fun d e => ?_⟩ <;> unfold State.engine <;> rw [h]

/-- What no part of an operation touches before its completion: the command port, the configuration and the host's coming actions;
the two histories only grow (`10_state.md` R21, R86, R96). -/
structure HostFrame (s t : State) : Prop where
  port : t.port = s.port
  cfg : t.cfg = s.cfg
  host : t.env.host = s.env.host
  trace : ∃ l, t.trace = s.trace ++ l
  errlog : ∃ l, t.errlog = s.errlog ++ l

theorem CtxFrame.hostFrame {s t : State} (h : CtxFrame s t) : HostFrame s t :=
  ⟨h.port, h.cfg, h.host, h.trace, let ⟨l, hl, _⟩ := h.errlog; ⟨l, hl⟩⟩

theorem HwFrame.hostFrame {s t : State} (h : HwFrame s t) : HostFrame s t := h.ctx.hostFrame

theorem HostFrame.of_eq {s t : State} (h1 : t.port = s.port) (h2 : t.cfg = s.cfg) (h3 : t.env.host = s.env.host)
    (h4 : t.trace = s.trace) (h5 : t.errlog = s.errlog) : HostFrame s t :=
  ⟨h1, h2, h3, ⟨[], by rw [h4, List.append_nil]⟩, ⟨[], by rw [h5, List.append_nil]⟩⟩

theorem HostFrame.refl (s : State) : HostFrame s s := HostFrame.of_eq rfl rfl rfl rfl rfl

theorem HostFrame.trans {s t u : State} (h : HostFrame s t) (k : HostFrame t u) : HostFrame s u where
  port := k.port.trans h.port
  cfg := k.cfg.trans h.cfg
  host := k.host.trans h.host
  trace := by
    obtain ⟨a, ha⟩ := h.trace; obtain ⟨b, hb⟩ := k.trace
    exact ⟨a ++ b, by rw [hb, ha, List.append_assoc]⟩
  errlog := by
    obtain ⟨a, ha⟩ := h.errlog; obtain ⟨b, hb⟩ := k.errlog
    exact ⟨a ++ b, by rw [hb, ha, List.append_assoc]⟩

/-! ### the invariant of one direction's descriptors -/

/-- `StreamInv` of one direction (`10_state.md` R77, R81). -/
def SessionInv (p : Params) (x : Direction) : Prop :=
  (x.chan.running = true → x.chan.bufferRef = true) ∧
    (x.chan.bufferRef = true →
      x.buf.size ≠ 0 ∧ x.buf.period ≠ 0 ∧ x.buf.period.toNat ≤ x.buf.size.toNat ∧
        x.buf.start.toNat + x.buf.size.toNat < Config.memSize ∧ x.buf.start.toNat ≤ x.buf.current.toNat ∧
        x.buf.current.toNat ≤ x.buf.start.toNat + x.buf.size.toNat) ∧
    (x.oppStreak = 0 ∨ x.oppStreak < p.oppBusyLimit)

/-- `LoopInv` of one direction (`10_state.md` R77, `90_conflicts.md` C7). -/
def LoopBound (x : Direction) : Prop := x.chan.running = true → x.buf.loop = true →
  x.buf.current.toNat < x.buf.start.toNat + x.buf.size.toNat

/-- A change of a direction's software state: the hardware is as it was, and the descriptors keep their invariants. -/
structure SessionKept (p : Params) (x y : Direction) : Prop where
  hw : y.hw = x.hw
  session : SessionInv p x → SessionInv p y
  loop : SessionInv p x → LoopBound x → LoopBound y

/-! ### the moves -/

/-- What the recovery of sub-engine `(d,e)` leaves at once (`45_rearm_sequencer.md` R293). -/
def recovered (d : Dir) (e : Eng) (s : State) : State :=
  let s1 := (abandonBlock d e s).modEngine d e fun g => { g with busy := false, done := false, addr := 0, cnt := 0 }
  s1.setDir d { s1.dir d with oppStreak := 0 }

/-- `opp_streak[d]` counts to `n`. -/
def withStreak (d : Dir) (n : Nat) (s : State) : State := s.setDir d { s.dir d with oppStreak := n }

/-- One move of a step. -/
inductive Move : State → State → Prop
  /-- Nothing of the registers but `L3WD`, of the DMA hardware or of the descriptors. -/
  | quiet {s t : State} : SameControl s t → HostFrame s t → Move s t
  /-- A sub-engine completes its block. -/
  | complete {s : State} (d : Dir) : engineEnabled s d = true → Move s (completeBlock d s)
  /-- A register is written. -/
  | store {s t : State} {r : Reg} {v : Word} : regStore r v s = .next t → Move s t
  /-- The software state of a direction changes. -/
  | software {s : State} (d : Dir) {x : Direction} : SessionKept s.cfg (s.dir d) x → Move s (s.setDir d x)
  /-- A sub-engine is recovered, with whatever streak was counted. -/
  | recover {s : State} (d : Dir) (e : Eng) (n : Nat) : Move s (recovered d e (withStreak d n s))

/-- Any number of moves. -/
def Moves (s t : State) : Prop := Relation.ReflTransGen Move s t

theorem Moves.refl (s : State) : Moves s s := Relation.ReflTransGen.refl

theorem Moves.trans {s t u : State} (h : Moves s t) (k : Moves t u) : Moves s u := Relation.ReflTransGen.trans h k

theorem Move.moves {s t : State} (h : Move s t) : Moves s t := Relation.ReflTransGen.single h

/-- What every move keeps, any number of moves keeps. -/
theorem Moves.keep {I : State → Prop} (hI : ∀ {s t}, Move s t → I s → I t) {s t : State} (h : Moves s t) (hs : I s) : I t := by
  induction h with
  | refl => exact hs
  | tail _ m ih => exact hI m ih

theorem HwFrame.moves {s t : State} (h : HwFrame s t) (k : FlagsKept s t) : Moves s t :=
  (Move.quiet (h.same k) h.hostFrame).moves

theorem Drew.moves {s t : State} (h : Drew s t) : Moves s t := h.hwFrame.moves h.flags

/-- Bookkeeping: anything but registers, configuration, directions, command port, host and histories. -/
theorem Moves.book {s t : State} (h1 : t.cfg = s.cfg) (h2 : t.regs = s.regs) (h3 : t.play = s.play) (h4 : t.record = s.record)
    (h5 : t.port = s.port) (h6 : t.env.host = s.env.host) (h7 : t.trace = s.trace) (h8 : t.errlog = s.errlog) : Moves s t :=
  (Move.quiet (SameControl.of_dirs h1 h2 fun d => by cases d; exacts [h3, h4]) (HostFrame.of_eq h5 h1 h6 h7 h8)).moves

theorem Moves.emit (ev : Event) (s : State) : Moves s (s.emit ev) :=
  (HwFrame.emit ev s).moves (FlagsKept.of_dirs fun _ => State.emit_dir _ _ _)

theorem Moves.log (r : LogRecord) (s : State) : Moves s (s.log r) :=
  (Move.quiet (s := s) (t := s.log r) (SameControl.of_dirs rfl rfl fun _ => State.log_dir _ _ _)
    ⟨rfl, rfl, rfl, ⟨[], (List.append_nil _).symm⟩, ⟨[r], rfl⟩⟩).moves

theorem Moves.seq (q : Seq) (s : State) : Moves s { s with seq := q } := Moves.book rfl rfl rfl rfl rfl rfl rfl rfl

theorem Moves.mirror (m : Mirror) (s : State) : Moves s { s with mirror := m } :=
  Moves.book rfl rfl rfl rfl rfl rfl rfl rfl

theorem Moves.lock (b : Bool) (s : State) : Moves s { s with l3 := { s.l3 with lock := b } } :=
  Moves.book rfl rfl rfl rfl rfl rfl rfl rfl

theorem enterInterrupt_moves (s : State) : Moves s (enterInterrupt s) := Moves.book rfl rfl rfl rfl rfl rfl rfl rfl

theorem exitInterrupt_moves (s : State) : Moves s (exitInterrupt s) := Moves.book rfl rfl rfl rfl rfl rfl rfl rfl

theorem Moves.software {d : Dir} {x : Direction} {s : State} (h : SessionKept s.cfg (s.dir d) x) : Moves s (s.setDir d x) :=
  (Move.software d h).moves

/-- A change of the channel descriptor. -/
theorem Moves.modChan {d : Dir} {f : Channel → Channel} {s : State}
    (h : SessionKept s.cfg (s.dir d) { s.dir d with chan := f (s.dir d).chan }) : Moves s (s.modChan d f) :=
  (Move.software d h).moves

/-- A change of the channel descriptor that leaves the session's two marks alone. -/
theorem Moves.modChan_marks {d : Dir} {f : Channel → Channel} {s : State}
    (h1 : (f (s.dir d).chan).running = (s.dir d).chan.running)
    (h2 : (f (s.dir d).chan).bufferRef = (s.dir d).chan.bufferRef) : Moves s (s.modChan d f) := by
  refine Moves.modChan ⟨rfl, fun hi => ?_, fun _ hl => ?_⟩
  · unfold SessionInv at hi ⊢; dsimp only; rw [h1, h2]; exact hi
  · unfold LoopBound at hl ⊢; dsimp only; rw [h1]; exact hl

/-! ### hardware agents, time and register accesses -/

theorem hwStep_moves {g : HwAgent} {s : State} (h : g ∈ hwAgents s) : Moves s (hwStep g s) := by
  cases g with
  | serialiser =>
    refine (serialise_hwFrame (serialiser_of_mem h)).moves (FlagsKept.of_dirs fun d => ?_)
    obtain ⟨b, n, x, -, he⟩ := serialise_eq s
    rw [he]
    cases d <;> rfl
  | engine d => exact (Move.complete d (engine_of_mem h)).moves

theorem hwRounds_moves (n : Nat) (s : State) : Moves s (hwRounds n s) := by
  induction n generalizing s with
  | zero => exact Moves.refl s
  | succ n ih =>
    unfold hwRounds
    split
    · exact Moves.refl s
    · have hd := drawPick_drew s
      generalize drawPick s = r at hd ⊢
      obtain ⟨k, t⟩ := r
      cases k with
      | zero => exact hd.moves
      | succ j =>
        dsimp only
        split
        · next g hg =>
          exact hd.moves.trans ((hwStep_moves (by rw [hd.hwAgents]; exact List.mem_of_getElem? hg)).trans (ih _))
        · exact hd.moves

theorem hw_moves (s : State) : Moves s (hw s) := hwRounds_moves 5 s

/-- A register read only draws. -/
theorem regLoad_drew (r : Reg) (s : State) : Drew s (regLoad r s).2 := by
  have open_if_busy (b : Bool) (v : Word) : Drew s (if b then drawNoise s else (v, s)).2 := by
    split
    · exact drawNoise_drew s
    · exact Drew.refl s
  cases r with
  | status => exact drawNoise_drew s
  | addr d e => exact open_if_busy _ _
  | cnt d e => exact open_if_busy _ _
  | _ => exact Drew.refl s

theorem regRead_moves (r : Reg) (s : State) : Moves s (regRead r s).2 := (hw_moves s).trans (regLoad_drew r (hw s)).moves

theorem regWrite_moves {r : Reg} {v : Word} {s t : State} (h : regWrite r v s = .next t) : Moves s t :=
  (hw_moves s).trans (Move.store h).moves

theorem regUpdate_moves {r : Reg} {f : Word → Word} {s t : State} (h : regUpdate r f s = .next t) : Moves s t :=
  (regRead_moves r s).trans (regWrite_moves h)

theorem passTime_moves (n : Nat) (s : State) : Moves s (passTime n s) := by
  unfold passTime
  have tick (u : State) : Moves u { u with env := { u.env with now := u.env.now + n } } :=
    Moves.book rfl rfl rfl rfl rfl rfl rfl rfl
  dsimp only
  split
  · next h =>
    have hb : s.l3.busy = true := by simp at h; exact h.1
    exact (hwStep_moves (g := .serialiser) (by simp [hwAgents, hb])).trans (tick _)
  · exact tick s

/-! ### the DMA engine -/

/-- Everything a start does (`44_dma_engine.md` R250). -/
theorem startBlock_moves {d : Dir} {addr len : Word} {s t : State} {st : Status}
    (h : startBlock d addr len s = .next (st, t)) : Moves s t := by
  rcases startBlock_next h with ⟨-, -, rfl⟩ | ⟨-, -, rfl⟩ | ⟨-, -, s2, s3, s4, h2, h3, h4, rfl⟩
  · exact Moves.refl _
  · exact hw_moves s
  · exact (hw_moves s).trans ((regWrite_moves h2).trans ((regWrite_moves h3).trans ((regWrite_moves h4).trans
      (Moves.modChan_marks rfl rfl))))

theorem pollDone_moves (d : Dir) (s : State) : Moves s (pollDone d s).2 := by
  unfold pollDone
  split
  · exact Moves.refl s
  · exact regRead_moves (.cs d) s

theorem resetDirection_moves {d : Dir} {s t : State} (h : resetDirection d s = .next t) : Moves s t := by
  obtain ⟨s1, h1, h⟩ := andThen_eq_next h
  obtain ⟨s2, h2, h⟩ := andThen_eq_next h
  obtain ⟨s3, h3, h⟩ := andThen_eq_next h
  obtain ⟨s4, h4, h⟩ := andThen_eq_next h
  exact (regWrite_moves h1).trans ((regWrite_moves h2).trans ((regWrite_moves h3).trans ((regWrite_moves h4).trans
    (regWrite_moves h))))

theorem Channel.setBound_marks (e : Eng) (v : Bool) (c : Channel) :
    (c.setBound e v).running = c.running ∧ (c.setBound e v).bufferRef = c.bufferRef := by cases e <;> exact ⟨rfl, rfl⟩

theorem bindLine_moves (d : Dir) (e : Eng) (s : State) : Moves s (bindLine d e s) :=
  (Moves.modChan_marks (Channel.setBound_marks e true _).1 (Channel.setBound_marks e true _).2).trans (Moves.emit _ _)

theorem unbindLine_moves (d : Dir) (e : Eng) (s : State) : Moves s (unbindLine d e s) :=
  (Moves.modChan_marks (Channel.setBound_marks e false _).1 (Channel.setBound_marks e false _).2).trans (Moves.emit _ _)

theorem releaseLine_moves (d : Dir) (e : Eng) (s : State) : Moves s (releaseLine d e s) := by
  unfold releaseLine
  split
  · exact unbindLine_moves d e s
  · exact Moves.refl s

theorem releaseLines_moves (d : Dir) (s : State) : Moves s (releaseLines d s) :=
  (releaseLine_moves d .a s).trans (releaseLine_moves d .b _)

/-! ### the handler -/

theorem withStreak_self (d : Dir) (s : State) : withStreak d (s.dir d).oppStreak s = s := by cases d <;> rfl

/-- A recovery with any streak counted before it (`45_rearm_sequencer.md` R293). -/
theorem recoverEngine_withStreak_moves (d : Dir) (e : Eng) (n : Nat) (s : State) :
    Moves s (recoverEngine d e (withStreak d n s)) := by
  have h : Moves s (recovered d e (withStreak d n s)) := (Move.recover d e n).moves
  show Moves s (recoveryWait (recovered d e (withStreak d n s)))
  exact h.trans ((Moves.seq _ _).trans ((hw_moves _).trans (passTime_moves _ _)))

theorem recoverEngine_moves (d : Dir) (e : Eng) (s : State) : Moves s (recoverEngine d e s) := by
  have h := recoverEngine_withStreak_moves d e (s.dir d).oppStreak s
  rwa [withStreak_self] at h

/-- A streak below its limit may be counted. -/
theorem withStreak_moves {d : Dir} {n : Nat} {s : State} (h : n < s.cfg.oppBusyLimit) : Moves s (withStreak d n s) :=
  Moves.software ⟨rfl, fun hi => ⟨hi.1, hi.2.1, .inr h⟩, fun _ hl => hl⟩

theorem recoveryChecks_moves (d : Dir) (e : Eng) (s : State) : Moves s (recoveryChecks d e s) := by
  unfold recoveryChecks
  have h1 := regRead_moves (.cs d) s
  generalize regRead (.cs d) s = r at h1 ⊢
  obtain ⟨cs, s0⟩ := r
  dsimp only at h1 ⊢
  replace h1 := h1.trans (hw_moves s0)
  generalize hw s0 = s1 at h1 ⊢
  have h2 : Moves s (if (s1.dir d).lastServiced = some e then (recoverEngine d e s1).log (.repeatCompletion d e) else s1) := by
    split
    · exact h1.trans ((recoverEngine_moves d e s1).trans (Moves.log _ _))
    · exact h1
  generalize (if (s1.dir d).lastServiced = some e then (recoverEngine d e s1).log (.repeatCompletion d e) else s1) = s2 at h2 ⊢
  generalize (if hasBit cs (startMask e.other) then (s2.dir d).oppStreak + 1 else 0) = n
  change Moves s (if (withStreak d n s2).cfg.oppBusyLimit ≤ ((withStreak d n s2).dir d).oppStreak then
    (recoverEngine d e.other (withStreak d n s2)).log (.stuckBusy d e.other) else withStreak d n s2)
  unfold withStreak
  rw [State.setDir_cfg, State.setDir_dir_same]
  split
  · exact h2.trans ((recoverEngine_withStreak_moves d e.other n s2).trans (Moves.log _ _))
  · next hn => exact h2.trans (withStreak_moves (by dsimp only at hn; omega))

theorem callback_moves (d : Dir) (s : State) : Moves s (callback d s) := by
  unfold callback
  split
  · exact Moves.emit _ s
  · exact Moves.refl s

theorem rearm_moves {d : Dir} {addr len : Word} {s t : State} (h : rearm d addr len s = .next t) : Moves s t := by
  obtain ⟨⟨st, u⟩, hu, h⟩ := andThen_eq_next h
  have hm := startBlock_moves hu
  cases st with
  | ok => cases h; exact hm
  | _ => cases h; exact hm.trans (Moves.log _ _)

/-- The descriptor after the buffer step of a well-formed direction (`45_rearm_sequencer.md` R295): the pointer advanced, or wrapped
or at the end with one more loop counted. -/
def Buffer.stepped (b : Buffer) (running : Bool) : Buffer :=
  if b.advanced < b.limit then { b with current := BitVec.ofNat 32 b.advanced }
  else if b.loop && running then { b with current := b.start, loopCount := b.loopCount + 1 }
  else { b with current := BitVec.ofNat 32 b.advanced, loopCount := b.loopCount + 1 }

theorem State.modBuf_modBuf (d : Dir) (f g : Buffer → Buffer) (s : State) :
    (s.modBuf d f).modBuf d g = s.modBuf d fun b => g (f b) := by cases d <;> rfl

/-- Everything the buffer step does: the descriptor steps, and a running session may call back and re-arm. -/
theorem advanceBuffer_next {d : Dir} {s t : State} (h : advanceBuffer d s = .next t) :
    ∃ u, u = s.modBuf d (fun b => b.stepped (s.dir d).chan.running) ∧
      (t = u ∨ t = callback d u ∨ ∃ addr len, rearm d addr len (callback d u) = .next t) := by
  unfold advanceBuffer at h
  dsimp only at h
  change (if (s.dir d).buf.advanced < _ then _ else _) = _ at h
  simp only [State.modBuf_modBuf] at h
  refine ⟨_, rfl, ?_⟩
  have at_d {f : Buffer → Buffer} (hf : f (s.dir d).buf = (s.dir d).buf.stepped (s.dir d).chan.running) :
      s.modBuf d f = s.modBuf d fun b => b.stepped (s.dir d).chan.running := by
    unfold State.modBuf; rw [hf]
  split at h
  · next hlt =>
    rw [at_d (by simp only [Buffer.stepped, if_pos hlt]; rfl)] at h
    split at h
    · exact .inr (.inr ⟨_, _, h⟩)
    · exact .inl (Host.Outcome.next.inj h).symm
  · next hge =>
    split at h
    · next hl =>
      rw [at_d (by simp only [Buffer.stepped, if_neg hge, if_pos hl])] at h
      exact .inr (.inr ⟨_, _, h⟩)
    · next hl =>
      rw [at_d (by simp only [Buffer.stepped, if_neg hge, if_neg hl]; rfl)] at h
      split at h
      · exact .inr (.inl (Host.Outcome.next.inj h).symm)
      · exact .inl (Host.Outcome.next.inj h).symm

/-- The pointer after the advance lies past the old one and at most at the end. -/
theorem advanced_bounds {x : Direction} (hw : wellFormedBuffer x = true) :
    x.buf.current.toNat < x.buf.advanced ∧ x.buf.advanced ≤ x.buf.limit ∧
      (BitVec.ofNat 32 x.buf.advanced).toNat = x.buf.advanced := by
  obtain ⟨-, -, h3, -, h5, -, h7⟩ := (wellFormedBuffer_iff _).1 hw
  have hp : x.buf.period.toNat ≠ 0 := fun h0 => h3 (BitVec.eq_of_toNat_eq h0)
  have hle : x.buf.advanced ≤ x.buf.limit := min_le_right _ _
  refine ⟨lt_min (by omega) h7, hle, ?_⟩
  simp only [Config.memSize] at h5
  rw [BitVec.toNat_ofNat]
  exact Nat.mod_eq_of_lt (by omega)

/-- The buffer step keeps the descriptor's invariants (`10_state.md` R77). -/
theorem stepped_kept (p : Params) {x : Direction} (hw : wellFormedBuffer x = true) :
    SessionKept p x { x with buf := x.buf.stepped x.chan.running } := by
  obtain ⟨-, h2, h3, h4, h5, h6, h7⟩ := (wellFormedBuffer_iff _).1 hw
  obtain ⟨hlo, hhi, hto⟩ := advanced_bounds hw
  unfold Buffer.limit at h5 h7 hhi
  refine ⟨rfl, fun hi => ⟨hi.1, fun _ => ?_, hi.2.2⟩, fun _ hl hr hloop => ?_⟩
  · dsimp only
    unfold Buffer.stepped
    split
    · exact ⟨h2, h3, h4, h5, by dsimp only; omega, by dsimp only; omega⟩
    · split
      · exact ⟨h2, h3, h4, h5, le_refl _, Nat.le_add_right _ _⟩
      · exact ⟨h2, h3, h4, h5, by dsimp only; omega, by dsimp only; omega⟩
  · have hrun : x.chan.running = true := hr
    dsimp only at hloop ⊢
    unfold Buffer.stepped Buffer.limit at hloop ⊢
    split at hloop
    · next hlt => rw [if_pos hlt]; dsimp only; omega
    · next hge =>
      split at hloop
      · next hl => rw [if_neg hge, if_pos hl]; dsimp only; omega
      · next hl => exact absurd (by rw [hrun, Bool.and_true]; exact hloop) hl

theorem serviceBuffer_moves {d : Dir} {s t : State} (h : serviceBuffer d s = .next t) : Moves s t := by
  unfold serviceBuffer at h
  split at h
  · next hw =>
    obtain ⟨u, hu, ht⟩ := advanceBuffer_next h
    have hm : Moves s u := hu ▸ (Move.software d (stepped_kept s.cfg hw)).moves
    rcases ht with rfl | rfl | ⟨addr, len, ht⟩
    · exact hm
    · exact hm.trans (callback_moves d u)
    · exact hm.trans ((callback_moves d u).trans (rearm_moves ht))
  · cases h; exact Moves.log _ s

theorem handler_moves {id : Word} {s t : State} (h : handler id s = .next t) : Moves s t := by
  unfold handler at h
  split at h
  · cases h; exact Moves.log _ s
  · obtain ⟨s1, h1, h⟩ := andThen_eq_next h
    obtain ⟨s2, h2, h⟩ := andThen_eq_next h
    cases h
    exact (recoveryChecks_moves _ _ s).trans ((serviceBuffer_moves h1).trans ((regWrite_moves h2).trans
      (Moves.software ⟨rfl, fun hi => hi, fun _ hl => hl⟩)))

theorem deliver_moves {d : Dir} {e : Eng} {s t : State} (h : deliver d e s = .next t) : Moves s t := by
  obtain ⟨s1, h1, h⟩ := andThen_eq_next h
  cases h
  exact (enterInterrupt_moves s).trans ((handler_moves h1).trans (exitInterrupt_moves s1))

/-! ### waits -/

theorem actorStep_moves {g : Actor} {s t u : State} (hg : g ∈ actors s) (hu : Drew s u) (h : actorStep g u = .next t) :
    Moves s t := by
  refine hu.moves.trans ?_
  cases g with
  | hardware g =>
    cases h
    exact hwStep_moves (by rw [hu.hwAgents]; exact hardware_of_mem hg)
  | line d e => exact deliver_moves h

theorem waitRounds_moves {n : Nat} {s t : State} (h : waitRounds n s = .next t) : Moves s t := by
  induction n generalizing s with
  | zero => cases h; exact Moves.refl _
  | succ n ih =>
    unfold waitRounds at h
    split at h
    · cases h; exact Moves.refl _
    · have hd := drawPick_drew s
      generalize drawPick s = r at h hd
      obtain ⟨k, u⟩ := r
      cases k with
      | zero => exact hd.moves.trans (ih h)
      | succ j =>
        dsimp only at h
        split at h
        · next g hg =>
          obtain ⟨v, hv, h⟩ := andThen_eq_next h
          exact (actorStep_moves (List.mem_of_getElem? hg) hd hv).trans (ih h)
        · exact hd.moves.trans (ih h)

theorem waitAt_moves {op : Instr} {g : Option Group} {pos : WaitPos} {n : Nat} {s t : State}
    (h : waitAt op g pos n s = .next t) : Moves s t := by
  obtain ⟨s1, h1, h⟩ := andThen_eq_next h
  cases h
  refine (Moves.seq ⟨some op, g, some pos, false⟩ s).trans (Moves.trans ?_ (passTime_moves n s1))
  unfold waitEvents at h1
  split at h1
  · cases h1; exact Moves.refl _
  · exact (drawPick_drew _).moves.trans (waitRounds_moves (s := (drawPick _).2) h1)

/-! ### the control bus and the codec -/

theorem pollWriteDone_moves {op : Instr} {g : Option Group} {n i : Nat} {s t : State}
    (h : pollWriteDone op g n i s = .next t) : Moves s t := by
  induction n generalizing i s with
  | zero => cases h; exact Moves.refl _
  | succ n ih =>
    unfold pollWriteDone at h
    rw [readWriteDone_eq] at h
    dsimp only at h
    split at h
    · cases h; exact hw_moves s
    · obtain ⟨u, hu, h⟩ := andThen_eq_next h
      exact (hw_moves s).trans ((waitAt_moves hu).trans (ih h))

theorem settleBus_moves {op : Instr} {g : Option Group} {s t : State} (h : settleBus op g s = .next t) : Moves s t := by
  obtain ⟨s1, h1, h⟩ := andThen_eq_next h
  obtain ⟨s2, h2, h⟩ := andThen_eq_next h
  exact (regWrite_moves h1).trans ((regWrite_moves h2).trans (waitAt_moves h))

theorem triggerSend_moves {a b : Byte} {s t : State} (h : triggerSend a b s = .next t) : Moves s t := by
  unfold triggerSend at h
  obtain ⟨s2, h2, h⟩ := andThen_eq_next h
  obtain ⟨s3, h3, h⟩ := andThen_eq_next h
  exact (regRead_moves .statclr s).trans ((regWrite_moves h2).trans ((regWrite_moves h3).trans (regWrite_moves h)))

theorem closeSend_moves {a b : Byte} {s t : State} {r : Bool} (h : closeSend a b s = .next (r, t)) : Moves s t := by
  unfold closeSend at h
  rw [readWriteDone_eq] at h
  dsimp only at h
  obtain ⟨s3, h3, h⟩ := andThen_eq_next h
  cases h
  refine (hw_moves s).trans (Moves.trans ?_ ((regWrite_moves h3).trans (Moves.lock false s3)))
  split
  · exact Moves.refl _
  · exact Moves.log _ _

theorem l3Send_moves {op : Instr} {g : Option Group} {a b : Byte} {s t : State} {r : Bool}
    (h : l3Send op g a b s = .next (r, t)) : Moves s t := by
  unfold l3Send at h
  split at h
  · cases h
  · split at h
    · cases h
    · obtain ⟨s1, h1, h⟩ := andThen_eq_next h
      obtain ⟨s2, h2, h⟩ := andThen_eq_next h
      obtain ⟨s3, h3, h⟩ := andThen_eq_next h
      exact (Moves.lock true s).trans ((settleBus_moves h1).trans ((triggerSend_moves h2).trans
        ((pollWriteDone_moves h3).trans (closeSend_moves h))))

theorem syncGroups_moves {op : Instr} {gs : List Group} {s t : State} {r : Bool}
    (h : syncGroups op gs s = .next (r, t)) : Moves s t := by
  induction gs generalizing s r with
  | nil => cases h; exact Moves.refl _
  | cons g rest ih =>
    unfold syncGroups at h
    split at h
    · obtain ⟨⟨r1, t1⟩, h1, h⟩ := andThen_eq_next h
      obtain ⟨⟨r2, t2⟩, h2, h⟩ := andThen_eq_next h
      cases h
      exact (l3Send_moves h1).trans (ih h2)
    · exact ih h

theorem sync_moves {op : Instr} {s t : State} (h : sync op s = .next t) : Moves s t := by
  obtain ⟨⟨r, u⟩, hu, h⟩ := andThen_eq_next h
  refine (syncGroups_moves hu).trans ?_
  dsimp only at h
  split at h <;> cases h
  · exact Moves.refl _
  · exact Moves.mirror _ _

theorem setRate_moves {op : Instr} {rate v : Word} {s t : State} (h : setRate op rate s = .next (v, t)) : Moves s t := by
  unfold setRate at h
  obtain ⟨s2, h2, h⟩ := andThen_eq_next h
  obtain ⟨s3, h3, h⟩ := andThen_eq_next h
  cases h
  exact (Moves.mirror _ s).trans ((regWrite_moves h2).trans ((Moves.mirror _ s2).trans (sync_moves h3)))

/-! ### controller init and the session -/

theorem initSideband_moves {s t : State} (h : initSideband s = .next t) : Moves s t := by
  obtain ⟨s1, h1, h⟩ := andThen_eq_next h
  obtain ⟨s2, h2, h⟩ := andThen_eq_next h
  exact (regUpdate_moves h1).trans ((Moves.emit _ _).trans ((regUpdate_moves h2).trans (regUpdate_moves h)))

theorem initController_moves {op : Instr} {s t : State} (h : initController op s = .next t) : Moves s t := by
  obtain ⟨s1, h1, h⟩ := andThen_eq_next h
  obtain ⟨s2, h2, h⟩ := andThen_eq_next h
  obtain ⟨s3, h3, h⟩ := andThen_eq_next h
  obtain ⟨s4, h4, h⟩ := andThen_eq_next h
  exact (regUpdate_moves h1).trans ((waitAt_moves h2).trans ((regUpdate_moves h3).trans ((regUpdate_moves h4).trans
    (regUpdate_moves h))))

theorem pollDone_chan (d d' : Dir) (s : State) : ((pollDone d s).2.dir d').chan = (s.dir d').chan := by
  unfold pollDone
  split
  · rfl
  · exact (regRead_hwFrame (.cs d) s).chan d'

/-- The polls of `SES.STOP` start no session. -/
theorem stopPolls_spec {op : Instr} {d : Dir} {n i : Nat} {s t : State} (h : stopPolls op d n i s = .next t) :
    Moves s t ∧ ∀ d', (t.dir d').chan.running = (s.dir d').chan.running := by
  induction n generalizing i s with
  | zero => cases h; exact ⟨Moves.refl _, fun _ => rfl⟩
  | succ n ih =>
    unfold stopPolls at h
    have hm := pollDone_moves d s
    have hr := fun d' => pollDone_chan d d' s
    generalize pollDone d s = r at h hm hr
    obtain ⟨done, s1⟩ := r
    dsimp only at h hm hr
    split at h
    · cases h; exact ⟨hm, fun d' => by rw [hr]⟩
    · obtain ⟨u, hu, h⟩ := andThen_eq_next h
      obtain ⟨ht, hk⟩ := ih h
      refine ⟨hm.trans ((waitAt_moves hu).trans ht), fun d' => ?_⟩
      rw [hk, (waitAt_ctx hu).1.chan d', ← hr d']
      rfl

/-- A new descriptor with good geometry meets the buffer invariant (`46_streaming_session.md` R312). -/
theorem armed_kept (p : Params) (x : Direction) (loop : Bool) {start size period : Word} (ctx : Word)
    (hg : geometryOk start size period = true) : SessionKept p x { x with
      buf := ⟨size, start, start, period, loop, 0, ctx⟩
      chan := { x.chan with bufferRef := true, cbValid := true, running := true } } := by
  simp only [geometryOk, Bool.and_eq_true, bne_iff_ne, decide_eq_true_eq] at hg
  obtain ⟨⟨⟨h1, h2⟩, h3⟩, h4⟩ := hg
  have hpos : size.toNat ≠ 0 := fun h0 => h1 (BitVec.eq_of_toNat_eq h0)
  exact ⟨rfl, fun hi => ⟨fun _ => rfl, fun _ => ⟨h1, h2, h3, h4, le_refl _, Nat.le_add_right _ _⟩, hi.2.2⟩,
    fun _ _ _ _ => by dsimp only; omega⟩

/-- A direction that is not running may drop its descriptor. -/
theorem Moves.dropDescriptor {d : Dir} {f : Channel → Channel} {s : State} (h1 : (f (s.dir d).chan).running = false)
    (h2 : (f (s.dir d).chan).bufferRef = false) : Moves s (s.modChan d f) :=
  Moves.modChan ⟨rfl, fun hi => ⟨fun h => absurd (h1.symm.trans h) (by decide), fun h => absurd (h2.symm.trans h) (by decide),
    hi.2.2⟩, fun _ _ h => absurd (h1.symm.trans h) (by decide)⟩

/-- A descriptor that is not in use may hold anything. -/
theorem Moves.modBuf_free {d : Dir} {f : Buffer → Buffer} {s : State} (h1 : (s.dir d).chan.running = false)
    (h2 : (s.dir d).chan.bufferRef = false) : Moves s (s.modBuf d f) :=
  Moves.software ⟨rfl, fun hi => ⟨hi.1, fun h => absurd (h2.symm.trans h) (by decide), hi.2.2⟩,
    fun _ _ h => absurd (h1.symm.trans h) (by decide)⟩

/-! ### operations -/

/-- The operation completes: moves, then its result and status (`10_state.md` R21, R24). -/
def Completes (s t : State) : Prop := ∃ v st u, Moves s u ∧ t = finish v st u

theorem Completes.of_moves {s u : State} (h : Moves s u) (v : Word) (st : Status) : Completes s (finish v st u) := ⟨v, st, u, h, rfl⟩

/-- An operation on a direction: the rejection of a bad one completes too (`60_exceptions.md` R332). -/
theorem onDirection_completes {sel : Byte} {s t : State} {k : Dir → Out State} (h : onDirection sel s k = .next t)
    (hk : ∀ d, k d = .next t → Completes s t) : Completes s t := by
  unfold onDirection at h
  split at h
  · next d _ => exact hk d h
  · cases h; exact .of_moves (Moves.refl s) _ _

theorem inNormalContext_next {s t : State} {k : State → Out State} (h : inNormalContext s k = .next t) : k s = .next t := by
  unfold inNormalContext at h
  split at h
  · cases h
  · exact h

theorem noteAmp_moves (old : Word) (s : State) : Moves s (noteAmp old s) := by
  unfold noteAmp
  split
  · exact Moves.refl s
  · exact Moves.emit _ s

theorem execRegWr_completes {rgn : Byte} {off v : Word} {s t : State} (h : execRegWr rgn off v s = .next t) : Completes s t := by
  unfold execRegWr at h
  split at h
  · cases h
  · obtain ⟨u, hu, h⟩ := andThen_eq_next h
    cases h
    exact .of_moves ((regWrite_moves hu).trans (noteAmp_moves _ _)) _ _

theorem execRegRd_completes {rgn : Byte} {off : Word} {s t : State} (h : execRegRd rgn off s = .next t) : Completes s t := by
  unfold execRegRd at h
  split at h <;> cases h
  exact .of_moves (regRead_moves _ s) _ _

theorem execL3Send_completes {a b : Byte} {s t : State} (h : execL3Send a b s = .next t) : Completes s t := by
  obtain ⟨⟨r, u⟩, hu, h⟩ := andThen_eq_next h
  cases h
  exact .of_moves (l3Send_moves hu) _ _

theorem changeMirror_completes {op : Instr} {f : Params → Mirror → Mirror} {s t : State}
    (h : changeMirror op f s = .next t) : Completes s t := by
  obtain ⟨u, hu, h⟩ := andThen_eq_next (inNormalContext_next h)
  cases h
  exact .of_moves ((Moves.mirror _ s).trans (sync_moves hu)) _ _

theorem execCodecSetrate_completes {rate : Word} {s t : State} (h : execCodecSetrate rate s = .next t) : Completes s t := by
  obtain ⟨⟨v, u⟩, hu, h⟩ := andThen_eq_next (inNormalContext_next h)
  cases h
  exact .of_moves (setRate_moves hu) _ _

theorem execCtrlInit_completes {s t : State} (h : execCtrlInit s = .next t) : Completes s t := by
  obtain ⟨s1, h1, h⟩ := andThen_eq_next (inNormalContext_next h)
  obtain ⟨s2, h2, h⟩ := andThen_eq_next h
  obtain ⟨⟨v, u⟩, h3, h⟩ := andThen_eq_next h
  cases h
  exact .of_moves ((initSideband_moves h1).trans ((initController_moves h2).trans (setRate_moves h3))) _ _

theorem execDmaStart_completes {dir : Byte} {addr len : Word} {s t : State} (h : execDmaStart dir addr len s = .next t) :
    Completes s t := by
  refine onDirection_completes h fun d h => ?_
  obtain ⟨⟨st, u⟩, hu, h⟩ := andThen_eq_next h
  cases h
  exact .of_moves (startBlock_moves hu) _ _

theorem execDmaPoll_completes {dir : Byte} {s t : State} (h : execDmaPoll dir s = .next t) : Completes s t := by
  refine onDirection_completes h fun d h => ?_
  cases h
  exact .of_moves (pollDone_moves d s) _ _

theorem execDmaReset_completes {s t : State} (h : execDmaReset s = .next t) : Completes s t := by
  obtain ⟨s1, h1, h⟩ := andThen_eq_next h
  obtain ⟨s2, h2, h⟩ := andThen_eq_next h
  obtain ⟨s3, h3, h⟩ := andThen_eq_next h
  cases h
  exact .of_moves ((resetDirection_moves h1).trans ((resetDirection_moves h2).trans (regUpdate_moves h3))) _ _

theorem execIrqReq_completes {dir : Byte} {s t : State} (h : execIrqReq dir s = .next t) : Completes s t := by
  refine onDirection_completes h fun d h => ?_
  split at h
  · cases h; exact .of_moves (Moves.refl s) _ _
  · have hA := (drawBind_drew s).moves
    generalize drawBind s = r at h hA
    obtain ⟨okA, s1⟩ := r
    dsimp only at h hA
    split at h
    · have hB := hA.trans ((bindLine_moves d .a s1).trans (drawBind_drew _).moves)
      generalize drawBind (bindLine d .a s1) = q at h hB
      obtain ⟨okB, s2⟩ := q
      dsimp only at h hB
      split at h <;> cases h
      · exact .of_moves (hB.trans (bindLine_moves d .b s2)) _ _
      · exact .of_moves (hB.trans (unbindLine_moves d .a s2)) _ _
    · cases h; exact .of_moves hA _ _

theorem execIrqRel_completes {dir : Byte} {s t : State} (h : execIrqRel dir s = .next t) : Completes s t := by
  refine onDirection_completes h fun d h => ?_
  cases h
  exact .of_moves (releaseLines_moves d s) _ _

theorem execIrqEvt_completes {irq : Word} {s t : State} (h : execIrqEvt irq s = .next t) : Completes s t := by
  obtain ⟨u, hu, h⟩ := andThen_eq_next h
  cases h
  exact .of_moves ((Moves.seq _ s).trans ((enterInterrupt_moves _).trans ((handler_moves hu).trans
    (exitInterrupt_moves u)))) _ _

/-- An opened direction has no session (`46_streaming_session.md` R310). -/
theorem opened_kept (p : Params) (x : Direction) : SessionKept p x { x with
    chan := { x.chan with inUse := true, running := false, generation := 0, bufferRef := false, cbValid := false }
    lastServiced := none
    oppStreak := 0 } :=
  ⟨rfl, fun _ => ⟨fun h => h, fun h => (Bool.false_ne_true h).elim, .inl rfl⟩,
    fun _ _ h => (Bool.false_ne_true h).elim⟩

theorem execChOpen_completes {dir : Byte} {s t : State} (h : execChOpen dir s = .next t) : Completes s t := by
  refine onDirection_completes h fun d h => ?_
  split at h <;> cases h
  · exact .of_moves (Moves.refl s) _ _
  · exact .of_moves (Moves.software (opened_kept s.cfg (s.dir d)))  _ _

theorem execChClose_completes {dir : Byte} {s t : State} (h : execChClose dir s = .next t) : Completes s t := by
  refine onDirection_completes h fun d h => ?_
  split at h <;> cases h
  · exact .of_moves (Moves.refl s) _ _
  · exact .of_moves (Moves.modChan_marks rfl rfl) _ _

theorem execSesArm_completes {dir : Byte} {loop : Bool} {start size period ctx : Word} {s t : State}
    (h : execSesArm dir loop start size period ctx s = .next t) : Completes s t := by
  refine onDirection_completes h fun d h => ?_
  split at h
  · cases h; exact .of_moves (Moves.refl s) _ _
  · split at h
    · next hg =>
      obtain ⟨⟨st, u⟩, hu, h⟩ := andThen_eq_next h
      have hm := (Move.software d (armed_kept s.cfg (s.dir d) loop ctx hg)).moves.trans (startBlock_moves hu)
      cases st with
      | ok => cases h; exact .of_moves hm _ _
      | _ => cases h; exact .of_moves (hm.trans (Moves.dropDescriptor rfl rfl)) _ _
    · cases h; exact .of_moves (Moves.refl s) _ _

theorem releaseLine_running (d : Dir) (e : Eng) (s : State) :
    ((releaseLine d e s).dir d).chan.running = (s.dir d).chan.running := by
  unfold releaseLine unbindLine
  split
  · rw [State.emit_dir, State.modChan_dir, if_pos rfl, (Channel.setBound_marks _ _ _).1]
  · rfl

theorem execSesStop_completes {dir : Byte} {s t : State} (h : execSesStop dir s = .next t) : Completes s t := by
  refine onDirection_completes h fun d h => ?_
  obtain ⟨u, hu, h⟩ := andThen_eq_next h
  cases h
  obtain ⟨hm, hr⟩ := stopPolls_spec hu
  have hrun : ((releaseLines d u).dir d).chan.running = false := by
    unfold releaseLines
    rw [releaseLine_running, releaseLine_running, hr, State.modChan_dir, if_pos rfl]
  have hstop : Moves s (s.modChan d fun c => { c with running := false }) :=
    Moves.modChan ⟨rfl, fun hi => ⟨fun h => (Bool.false_ne_true h).elim, hi.2⟩, fun _ _ h => (Bool.false_ne_true h).elim⟩
  refine .of_moves (hstop.trans (hm.trans ((releaseLines_moves d u).trans ((Moves.dropDescriptor hrun rfl).trans
    (Moves.modBuf_free ?_ ?_))))) _ _ <;> rw [State.modChan_dir, if_pos rfl]
  exact hrun

theorem execSesPos_completes {dir : Byte} {s t : State} (h : execSesPos dir s = .next t) : Completes s t := by
  refine onDirection_completes h fun d h => ?_
  cases h
  exact .of_moves (Moves.refl s) _ _

/-- A getter only answers (`42_codec_model.md` R210 to R214). -/
theorem Completes.answer {v : Word} {s t : State} (h : (.next (finish v .ok s) : Out State) = .next t) : Completes s t :=
  Host.Outcome.next.inj h ▸ .of_moves (Moves.refl s) _ _

/-- Every operation that completes is a sequence of moves, its result and its status. -/
theorem exec_completes {i : Instr} {s t : State} (h : exec i s = .next t) : Completes s t := by
  unfold exec at h
  cases i with
  | regWr rgn off val => exact execRegWr_completes h
  | regRd rgn off => exact execRegRd_completes h
  | l3Send addr data => exact execL3Send_completes h
  | codecOpen => exact changeMirror_completes h
  | codecClose => exact changeMirror_completes h
  | codecSync => exact changeMirror_completes h
  | codecSetrate rate => exact execCodecSetrate_completes h
  | setVol val => exact changeMirror_completes h
  | setBass val => exact changeMirror_completes h
  | setTreb val => exact changeMirror_completes h
  | setMute val => exact changeMirror_completes h
  | setFilt val => exact changeMirror_completes h
  | getVol => exact Completes.answer h
  | getBass => exact Completes.answer h
  | getTreb => exact Completes.answer h
  | getMute => exact Completes.answer h
  | getFilt => exact Completes.answer h
  | ctrlInit => exact execCtrlInit_completes h
  | dmaStart dir addr len => exact execDmaStart_completes h
  | dmaPoll dir => exact execDmaPoll_completes h
  | dmaReset => exact execDmaReset_completes h
  | irqReq dir => exact execIrqReq_completes h
  | irqRel dir => exact execIrqRel_completes h
  | irqEvt irq => exact execIrqEvt_completes h
  | chOpen dir => exact execChOpen_completes h
  | chClose dir => exact execChClose_completes h
  | sesArm dir loop start size period ctx => exact execSesArm_completes h
  | sesStop dir => exact execSesStop_completes h
  | sesPos dir => exact execSesPos_completes h

/-! ### steps -/

theorem finish_same (v : Word) (st : Status) (s : State) : SameControl s (finish v st s) :=
  SameControl.of_dirs rfl rfl fun _ => finish_dir _ _ _ _

/-- What the host does between operations: nothing of the control state changes, and then time may pass. -/
theorem hostAction_reaches (s : State) : ∃ u, SameControl s u ∧ Moves u (hostAction s) := by
  have next (r : List HostAct) : SameControl s { s with env := { s.env with host := r } } :=
    SameControl.of_dirs rfl rfl fun d => by cases d <;> rfl
  unfold hostAction
  split
  · exact ⟨s, SameControl.of_dirs rfl rfl fun _ => rfl, passTime_moves 1 s⟩
  · next p r _ =>
    exact ⟨issuePacket p { s with env := { s.env with host := r } },
      SameControl.of_dirs rfl rfl fun d => by cases d <;> rfl, Moves.refl _⟩
  · next a v r _ => exact ⟨_, next r, (hostStore_frames a.toNat v _).1.moves (hostStore_flags _ _ _)⟩
  · next a r _ =>
    exact ⟨_, next r, ((hostLoad_frames a.toNat _).1.moves (settle_flags _ _)).trans
      (Moves.book rfl rfl rfl rfl rfl rfl rfl rfl)⟩
  · exact ⟨_, next _, passTime_moves 1 _⟩

/-- Every step is a sequence of moves, but for what the host and the completion of an operation write beside the control state. -/
theorem step_reaches {s t : State} (h : step s = .next t) : ∃ u v, Moves s u ∧ SameControl u v ∧ Moves v t := by
  obtain ⟨-, ⟨g, hg, -, h⟩ | ⟨-, h⟩⟩ := step_cases h
  · exact ⟨t, t, actorStep_moves hg (choose_spec s).1 h, SameControl.of_dirs rfl rfl fun _ => rfl, Moves.refl t⟩
  · have hm := (choose_spec s).1.moves
    generalize (choose s).2 = s1 at h hm
    unfold hostTurn runPacket at h
    split at h
    · split at h
      · split at h
        · obtain ⟨v, st, u, hu, rfl⟩ := exec_completes h
          exact ⟨u, _, hm.trans hu, finish_same v st u, Moves.refl _⟩
        · cases h; exact ⟨s1, _, hm, finish_same _ _ s1, Moves.refl _⟩
      · cases h
    · cases h
      obtain ⟨u, hu, hk⟩ := hostAction_reaches s1
      exact ⟨s1, u, hm, hu, hk⟩

/-- What the control state determines and every move keeps, every step keeps. -/
theorem step_keeps {I : State → Prop} (hsame : ∀ {s t}, SameControl s t → I s → I t)
    (hmove : ∀ {s t}, Move s t → I s → I t) {s t : State} (hs : I s) (h : step s = .next t) : I t := by
  obtain ⟨u, v, hu, huv, hv⟩ := step_reaches h
  exact hv.keep hmove (hsame huv (hu.keep hmove hs))

end Sys2Proof.Machine
end

section
/-! What a write of each register and the end of a block leave, and from these the invariants that every step keeps: reserved bits,
the DMA hardware, the descriptors. -/

namespace Sys2Proof.Machine

/-! ### register writes -/

/-- A frame in progress is lost, and nothing else happens (`41_control_bus.md` R187). -/
theorem abandonFrame_eq (s : State) : abandonFrame s = { s with
    l3 := { s.l3 with busy := false }
    trace := s.trace ++ if s.l3.busy then [.frameLost s.l3.frameAddr s.l3.frameData] else [] } := by
  unfold abandonFrame
  split
  · rfl
  · next h =>
    have hb : ({ s.l3 with busy := false } : Serial) = s.l3 := by rw [← Bool.eq_false_iff.2 h]
    dsimp only at hb ⊢
    rw [hb, List.append_nil]

/-- A write of `CTRL0` that sets `RST` (`10_state.md` R42, `41_control_bus.md` R187). -/
theorem storeCtrl0_rst {new : Word} {s : State} (h : hasBit new Config.rst = true) : storeCtrl0 new s = .next { s with
    regs := { s.regs with ctrl0 := new, l3wd := false, l3rd := false }
    l3 := { s.l3 with busy := false }
    trace := s.trace ++ if s.l3.busy then [.frameLost s.l3.frameAddr s.l3.frameData] else []
    env := { s.env with rstSince := if hasBit s.regs.ctrl0 Config.rst then s.env.rstSince else s.env.now } } := by
  unfold storeCtrl0
  rw [abandonFrame_eq]
  exact if_pos h

/-- A write of `CTRL0` that clears `RST` too early (`70_reset_and_hazards.md` R381). -/
theorem storeCtrl0_short {new : Word} {s : State} (h : hasBit new Config.rst = false)
    (hr : hasBit s.regs.ctrl0 Config.rst = true) (ht : s.env.now - s.env.rstSince < Config.tReset) :
    storeCtrl0 new s = .refused .resetHoldTooShort := by
  unfold storeCtrl0
  simp [h, hr, ht]

/-- Every other write of `CTRL0`. -/
theorem storeCtrl0_clear {new : Word} {s : State} (h : hasBit new Config.rst = false)
    (ht : hasBit s.regs.ctrl0 Config.rst = true → Config.tReset ≤ s.env.now - s.env.rstSince) :
    storeCtrl0 new s = .next { s with regs := { s.regs with ctrl0 := new } } := by
  unfold storeCtrl0
  have hn : (hasBit s.regs.ctrl0 Config.rst && decide (s.env.now - s.env.rstSince < Config.tReset)) = false := by
    simpa using ht
  simp [h, hn]

/-- The three writes of `CTRL0` are all there are. -/
theorem storeCtrl0_next {new : Word} {s t : State} (h : storeCtrl0 new s = .next t) :
    (∃ wd rd, (s.regs.l3rd = false → rd = false) ∧ t.regs = { s.regs with ctrl0 := new, l3wd := wd, l3rd := rd }) ∧
      HostFrame s t ∧ t.play = s.play ∧ t.record = s.record := by
  by_cases hn : hasBit new Config.rst = true
  · rw [storeCtrl0_rst hn] at h
    cases h
    exact ⟨⟨false, false, fun _ => rfl, rfl⟩, ⟨rfl, rfl, rfl, ⟨_, rfl⟩, ⟨[], (List.append_nil _).symm⟩⟩, rfl, rfl⟩
  · rw [Bool.not_eq_true] at hn
    by_cases ht : hasBit s.regs.ctrl0 Config.rst = true → Config.tReset ≤ s.env.now - s.env.rstSince
    · rw [storeCtrl0_clear hn ht] at h
      cases h
      exact ⟨⟨_, _, fun hr => hr, rfl⟩, HostFrame.of_eq rfl rfl rfl rfl rfl, rfl, rfl⟩
    · rw [Classical.not_imp, not_le] at ht
      rw [storeCtrl0_short hn ht.1 ht.2] at h
      cases h

/-- A trigger changes the serialiser only (`41_control_bus.md` R185). -/
theorem triggerFrame_next {v : Byte} {s t : State} (h : triggerFrame v s = .next t) : ∃ l, t = { s with l3 := l } := by
  unfold triggerFrame at h
  split at h
  · cases h
  · split at h
    · cases h
    · split at h <;> cases h <;> exact ⟨_, rfl⟩

/-- A register of the DMA engine (`10_state.md` R55 to R59). -/
def Reg.isDma : Reg → Bool
  | .cs _ => true
  | .addr _ _ => true
  | .cnt _ _ => true
  | _ => false

/-- A write of any other register leaves both directions alone. -/
theorem regStore_plain {r : Reg} {v : Word} {s t : State} (hr : r.isDma = false) (h : regStore r v s = .next t) :
    HostFrame s t ∧ t.play = s.play ∧ t.record = s.record := by
  cases r with
  | ctrl0 => exact (storeCtrl0_next h).2
  | l3data => obtain ⟨l, rfl⟩ := triggerFrame_next h; exact ⟨HostFrame.of_eq rfl rfl rfl rfl rfl, rfl, rfl⟩
  | cs d => cases hr
  | addr d e => cases hr
  | cnt d e => cases hr
  | _ => cases h; exact ⟨HostFrame.of_eq rfl rfl rfl rfl rfl, rfl, rfl⟩

/-- A write of a register of the DMA engine stays within the frame of the other agents. -/
theorem regStore_dma_ctx {r : Reg} {v : Word} {s t : State} (hr : r.isDma = true) (h : regStore r v s = .next t) : CtxFrame s t := by
  cases r with
  | cs d => exact storeCs_ctx h
  | addr d e => obtain ⟨-, rfl⟩ := regStore_addr_next h; exact CtxFrame.modHw d _ s
  | cnt d e => obtain ⟨-, rfl⟩ := regStore_cnt_next h; exact CtxFrame.modHw d _ s
  | _ => cases hr

theorem regStore_hostFrame {r : Reg} {v : Word} {s t : State} (h : regStore r v s = .next t) : HostFrame s t := by
  cases hr : r.isDma with
  | true => exact (regStore_dma_ctx hr h).hostFrame
  | false => exact (regStore_plain hr h).1

/-! ### an abandonment -/

/-- Everything an abandonment does to the sub-engines: nothing to an idle one; a busy one moves bytes and drops its block
(`44_dma_engine.md` R274). -/
theorem abandonBlock_cases (d : Dir) (e : Eng) (s : State) :
    ((s.engine d e).busy = false ∧ abandonBlock d e s = s) ∨
    ∃ u, HwFrame s u ∧ FlagsKept s u ∧ abandonBlock d e s = u.modHw d (DmaHw.drop e) := by
  rcases abandonBlock_eq d e s with h | ⟨-, k, t, ht, -, -, h⟩
  · exact .inl h
  · refine .inr ⟨_, ?_, ?_, h⟩ <;> split
    · exact ht.hwFrame.trans (moveBlock_hwFrame d e k t)
    · exact ht.hwFrame
    · exact ht.flags.trans (moveBlock_flags d e k t)
    · exact ht.flags

theorem State.modHw_engine (d d' : Dir) (e : Eng) (f : DmaHw → DmaHw) (s : State) :
    (s.modHw d f).engine d' e = if d' = d then (f (s.dir d).hw).eng e else s.engine d' e := by
  cases d <;> cases d' <;> rfl

/-- Sub-engines after an abandonment: the abandoned one is idle, the others are as busy as they were, no done bit is set. -/
theorem abandonBlock_engine (d d' : Dir) (e e' : Eng) (s : State) :
    ((abandonBlock d e s).engine d' e').busy = ((s.engine d' e').busy && !decide (d' = d ∧ e' = e)) ∧
      ((abandonBlock d e s).engine d' e').done = (s.engine d' e').done := by
  rcases abandonBlock_cases d e s with ⟨hb, h⟩ | ⟨u, -, hk, h⟩ <;> rw [h]
  · by_cases hx : d' = d ∧ e' = e
    · obtain ⟨rfl, rfl⟩ := hx; simp [hb]
    · simp [hx]
  · rw [State.modHw_engine]
    split
    · next hd =>
      subst hd
      rw [DmaHw.drop_eng]
      split
      · next he => subst he; exact ⟨by simp, hk.done d' e'⟩
      · next he => exact ⟨(hk.busy d' e').trans (by simp [he]), hk.done d' e'⟩
    · next hd => exact ⟨(hk.busy d' e').trans (by simp [hd]), hk.done d' e'⟩

/-- The other direction is not touched. -/
theorem abandonBlock_active_other {d d' : Dir} (hd : d' ≠ d) (e : Eng) (s : State) :
    ((abandonBlock d e s).dir d').hw.active = (s.dir d').hw.active := by
  rcases abandonBlock_cases d e s with ⟨-, h⟩ | ⟨u, -, hk, h⟩ <;> rw [h]
  rw [State.modHw_dir, if_neg hd]
  exact hk.active d'

/-! ### the host's side (`10_state.md` R21, R86, R96) -/

theorem recovered_ctx (d : Dir) (e : Eng) (n : Nat) (s : State) : CtxFrame s (recovered d e (withStreak d n s)) :=
  (CtxFrame.oppStreak d n s).trans ((abandonBlock_hwFrame d e _).ctx.trans
    ((CtxFrame.modHw d _ _).trans (CtxFrame.oppStreak d 0 _)))

theorem Move.hostFrame {s t : State} (h : Move s t) : HostFrame s t := by
  cases h with
  | quiet _ k => exact k
  | complete d _ => exact (completeBlock_hwFrame d s).hostFrame
  | store h => exact regStore_hostFrame h
  | software d _ => apply HostFrame.of_eq <;> simp
  | recover d e n => exact (recovered_ctx d e n s).hostFrame

theorem Moves.hostFrame {s t : State} (h : Moves s t) : HostFrame s t :=
  h.keep (I := HostFrame s) (fun m k => k.trans m.hostFrame) (HostFrame.refl s)

theorem Status.code_le (st : Status) : st.code.toNat ≤ 4 := by cases st <;> decide

/-! ### reserved bits (`10_state.md` R41, R44) -/

theorem RegsInv.of_regs {s t : State} (h : t.regs = { s.regs with l3wd := t.regs.l3wd }) (hs : RegsInv s) : RegsInv t := by
  unfold RegsInv
  rw [h]
  exact hs

/-- A register that keeps only the bits of its fields has none of the others. -/
theorem masked_reserved {m k : Word} (h : m &&& k = 0) (v : Word) : v &&& m &&& k = 0 := by
  rw [BitVec.and_assoc, h]; exact BitVec.and_zero

theorem regStore_regsInv {r : Reg} {v : Word} {s t : State} (h : regStore r v s = .next t) (hs : RegsInv s) : RegsInv t := by
  have kept := hs
  obtain ⟨h0, h1, h2, h3, h4, h5, h6⟩ := hs
  cases r with
  | ctrl0 =>
    obtain ⟨⟨wd, rd, hrd, ht⟩, -⟩ := storeCtrl0_next h
    unfold RegsInv
    rw [ht]
    exact ⟨masked_reserved (by decide) v, h1, h2, h3, h4, h5, hrd h6⟩
  | ctrl1 => cases h; exact ⟨h0, masked_reserved (by decide) v, h2, h3, h4, h5, h6⟩
  | status => cases h; exact kept
  | statclr => cases h; exact ⟨h0, h1, h2, h3, h4, h5, by simp [h6]⟩
  | l3addr => cases h; exact kept
  | l3data => obtain ⟨l, rfl⟩ := triggerFrame_next h; exact kept
  | cs d => exact kept.of_regs (bus_regs (regStore_dma_ctx (r := .cs d) rfl h).bus)
  | addr d e => exact kept.of_regs (bus_regs (regStore_dma_ctx (r := .addr d e) rfl h).bus)
  | cnt d e => exact kept.of_regs (bus_regs (regStore_dma_ctx (r := .cnt d e) rfl h).bus)
  | pctrl => cases h; exact ⟨h0, h1, masked_reserved (by decide) v, h3, h4, h5, h6⟩
  | pclk => cases h; exact ⟨h0, h1, h2, masked_reserved (by decide) v, h4, h5, h6⟩
  | pauddiv => cases h; exact ⟨h0, h1, h2, h3, masked_reserved (by decide) v, h5, h6⟩
  | pgpio => cases h; exact ⟨h0, h1, h2, h3, h4, masked_reserved (by decide) v, h6⟩

theorem Move.regsInv {s t : State} (h : Move s t) (hs : RegsInv s) : RegsInv t := by
  cases h with
  | quiet k _ => exact hs.of_regs k.regs
  | complete d _ => exact hs.of_regs (bus_regs (completeBlock_hwFrame d s).bus)
  | store h => exact regStore_regsInv h hs
  | software d _ => exact hs.of_regs (by rw [State.setDir_regs])
  | recover d e n => exact hs.of_regs (bus_regs (recovered_ctx d e n s).bus)

/-! ### the DMA hardware (`10_state.md` R57, R60, R80) -/

/-- `EngineInv` reads `EN`, what is active, and the busy sub-engines' blocks. -/
theorem EngineInv.of_same {p : Params} {h k : DmaHw} (h1 : k.en = h.en) (h2 : k.active = h.active)
    (h3 : ∀ e, (k.eng e).busy = (h.eng e).busy) (h4 : ∀ e, (k.eng e).addr = (h.eng e).addr)
    (h5 : ∀ e, (k.eng e).cnt = (h.eng e).cnt) (hi : EngineInv p h) : EngineInv p k := by
  unfold EngineInv
  simp only [h1, h2, h3, h4, h5]
  exact hi

/-- With nothing in flight and nothing active all is consistent. -/
theorem EngineInv.of_idle {p : Params} {h : DmaHw} (ha : h.active = none) (hb : ∀ e, (h.eng e).busy = false) : EngineInv p h :=
  ⟨fun e he => absurd (ha.symm.trans he) (by simp), fun e he => absurd ((hb e).symm.trans he) (by decide)⟩

/-- A change of an idle sub-engine that leaves it idle. -/
theorem EngineInv.modIdle {p : Params} {h : DmaHw} {e : Eng} {f : Engine → Engine} (hb : (h.eng e).busy = false)
    (hf : (f (h.eng e)).busy = false) (hi : EngineInv p h) : EngineInv p (h.modEng e f) := by
  refine ⟨fun e' he => ?_, fun e' he => ?_⟩
  · rw [DmaHw.modEng_active] at he
    have := hi.1 e' he
    rw [DmaHw.modEng_eng, if_neg fun heq => absurd this (by rw [heq, hb]; decide)]
    exact this
  · rw [DmaHw.modEng_eng] at he ⊢
    split at he
    · rw [hf] at he; cases he
    · next hne =>
      rw [if_neg hne, DmaHw.modEng_active, DmaHw.modEng_en]
      exact hi.2 e' he

/-- A sub-engine that stops being busy leaves its place to a pending one (`44_dma_engine.md` R272, R273). -/
theorem EngineInv.drop {p : Params} {h : DmaHw} (e : Eng) (hi : EngineInv p h) : EngineInv p (h.drop e) := by
  have ha : (h.drop e).active = if h.active = some e then h.nextActive e else h.active := rfl
  refine ⟨fun e' he => ?_, fun e' he => ?_⟩
  · rw [ha] at he
    rw [DmaHw.drop_eng]
    split at he
    · unfold DmaHw.nextActive at he
      split at he
      · next hb => cases he; rw [if_neg (Eng.other_ne e)]; exact hb
      · cases he
    · next hne => rw [if_neg fun heq : e' = e => hne (heq ▸ he)]; exact hi.1 e' he
  · rw [DmaHw.drop_eng] at he ⊢
    split at he
    · cases he
    · next hne =>
      rw [if_neg hne, ha]
      obtain ⟨h1, h2, h3⟩ := hi.2 e' he
      refine ⟨?_, by cases e <;> exact h2, h3⟩
      split
      · have ho : e.other = e' := by cases e <;> cases e' <;> first | rfl | exact absurd rfl hne
        unfold DmaHw.nextActive
        rw [ho, if_pos he]
        simp
      · exact h1

/-- A completion of the active sub-engine is, but for the done bit, a drop. -/
theorem EngineInv.complete {p : Params} {h : DmaHw} {e : Eng} (ha : h.active = some e) (hi : EngineInv p h) :
    EngineInv p (h.complete e) := by
  refine EngineInv.of_same (h := h.drop e) ?_ ?_ ?_ ?_ ?_ (hi.drop e)
  · cases e <;> rfl
  · show h.nextActive e = if h.active = some e then h.nextActive e else h.active
    rw [if_pos ha]
  all_goals
    intro e'
    rw [DmaHw.complete_eng, DmaHw.drop_eng]
    split <;> rfl

/-- A start of a block the hardware gives a meaning, on an enabled channel (`10_state.md` R57 step 4). -/
theorem EngineInv.start {p : Params} {h : DmaHw} {e : Eng} (hen : h.en = true) (hok : BlockOk p (h.eng e).addr (h.eng e).cnt)
    (hi : EngineInv p h) : EngineInv p { h.modEng e (fun g => { g with busy := true, raced := [] }) with
      active := h.active.or (some e) } := by
  have heng (e' : Eng) : DmaHw.eng { h.modEng e (fun g => { g with busy := true, raced := [] }) with
      active := h.active.or (some e) } e' = if e' = e then { h.eng e with busy := true, raced := [] } else h.eng e' := by
    cases e <;> cases e' <;> rfl
  refine ⟨fun e' he => ?_, fun e' he => ?_⟩
  · rw [heng]
    split
    · rfl
    · next hne =>
      refine hi.1 e' ?_
      cases ha : h.active with
      | none => dsimp only at he; rw [ha] at he; cases he; exact absurd rfl hne
      | some x => dsimp only at he; rw [ha] at he; exact he
  · rw [heng] at he ⊢
    refine ⟨by cases h.active <;> simp, by cases e <;> exact hen, ?_⟩
    split
    · exact hok
    · next hne => rw [if_neg hne] at he; exact (hi.2 e' he).2.2

theorem DmaInv.of_hw {s t : State} (h1 : t.cfg = s.cfg) (h : ∀ d, (t.dir d).hw = (s.dir d).hw) (hs : DmaInv s) : DmaInv t :=
  fun d => by rw [h1, h]; exact hs d

theorem DmaInv.modHw {d : Dir} {f : DmaHw → DmaHw} {s : State} (hd : EngineInv s.cfg (f (s.dir d).hw)) (hs : DmaInv s) :
    DmaInv (s.modHw d f) := fun d' => by
  rw [State.modHw_cfg, State.modHw_dir]
  split
  · exact hd
  · exact hs d'

theorem SameControl.dmaInv {s t : State} (h : SameControl s t) (hs : DmaInv s) : DmaInv t := fun d => by
  rw [h.cfg]
  exact (hs d).of_same (h.en d) (h.active d) (h.busy d) (h.addr d) (h.cnt d)

theorem abandonBlock_dmaInv (d : Dir) (e : Eng) {s : State} (hs : DmaInv s) : DmaInv (abandonBlock d e s) := by
  rcases abandonBlock_cases d e s with ⟨-, h⟩ | ⟨u, hu, hk, h⟩ <;> rw [h]
  · exact hs
  · have hi := (hu.same hk).dmaInv hs
    exact hi.modHw ((hi d).drop e)

theorem completeBlock_dmaInv (d : Dir) {s : State} (hs : DmaInv s) : DmaInv (completeBlock d s) := by
  unfold completeBlock
  split
  · next e he =>
    have hk := moveBlock_flags d e (s.engine d e).cnt.toNat s
    have hi := ((moveBlock_hwFrame d e (s.engine d e).cnt.toNat s).same hk).dmaInv hs
    exact hi.modHw ((hi d).complete ((hk.active d).trans he))
  · exact hs

theorem recovered_dmaInv (d : Dir) (e : Eng) (n : Nat) {s : State} (hs : DmaInv s) :
    DmaInv (recovered d e (withStreak d n s)) := by
  have h1 : DmaInv (withStreak d n s) := hs.of_hw (State.setDir_cfg _ _ _) fun d' => by
    unfold withStreak; rw [State.setDir_dir]; split <;> simp_all
  have h2 := abandonBlock_dmaInv d e h1
  have hb := (abandonBlock_engine d d e e (withStreak d n s)).1
  have h3 : DmaInv ((abandonBlock d e (withStreak d n s)).modEngine d e
      fun g => { g with busy := false, done := false, addr := 0, cnt := 0 }) :=
    h2.modHw ((h2 d).modIdle (hb.trans (by simp)) rfl)
  refine h3.of_hw (State.setDir_cfg _ _ _) fun d' => ?_
  unfold recovered
  rw [State.setDir_dir]
  split <;> simp_all

theorem DmaHw.clearAndEnable_eng (w : Word) (h : DmaHw) (e : Eng) :
    (h.clearAndEnable w).eng e = { h.eng e with done := (h.eng e).done && !hasBit w (doneMask e) } := by cases e <;> rfl

/-- Clearing done bits and enabling keeps the hardware consistent. -/
theorem EngineInv.enable {p : Params} {h : DmaHw} {w : Word} (hen : hasBit w Config.csEn = true) (hi : EngineInv p h) :
    EngineInv p (h.clearAndEnable w) := by
  refine ⟨fun e he => by rw [DmaHw.clearAndEnable_eng]; exact hi.1 e he, fun e he => ?_⟩
  rw [DmaHw.clearAndEnable_eng] at he ⊢
  obtain ⟨h1, -, h3⟩ := hi.2 e he
  exact ⟨h1, hen, h3⟩

/-- What a write of `w` to `CS[d]` with `EN` = 0 leaves: both sub-engines abandoned, nothing active (`10_state.md` R57 step 3). -/
def disabled (d : Dir) (w : Word) (s : State) : State :=
  (abandonBlock d .b (abandonBlock d .a (s.modHw d (DmaHw.clearAndEnable w)))).modHw d fun h => { h with active := none }

/-- A disabled channel has nothing in flight, and the other one is as it was. -/
theorem disabled_dmaInv (d : Dir) (w : Word) {s : State} (hs : DmaInv s) : DmaInv (disabled d w s) := by
  unfold disabled
  have hf := (abandonBlock_hwFrame d .a (s.modHw d (DmaHw.clearAndEnable w))).trans (abandonBlock_hwFrame d .b _)
  have hb (d' : Dir) (e : Eng) := abandonBlock_engine d d' .b e (abandonBlock d .a (s.modHw d (DmaHw.clearAndEnable w)))
  have ha (d' : Dir) (e : Eng) := abandonBlock_engine d d' .a e (s.modHw d (DmaHw.clearAndEnable w))
  intro d'
  rw [State.modHw_cfg, hf.cfg, State.modHw_cfg, State.modHw_dir]
  split
  · refine EngineInv.of_idle rfl fun e => ?_
    show (State.engine _ d e).busy = false
    rw [(hb d e).1, (ha d e).1]
    cases e <;> simp
  · next hd =>
    have old (e : Eng) : (s.modHw d (DmaHw.clearAndEnable w)).engine d' e = s.engine d' e := by
      rw [State.modHw_engine, if_neg hd]
    refine (hs d').of_same ?_ ?_ (fun e => ?_) (fun e => ?_) fun e => ?_
    · rw [hf.en, State.modHw_dir, if_neg hd]
    · rw [abandonBlock_active_other hd, abandonBlock_active_other hd, State.modHw_dir, if_neg hd]
    · show (State.engine _ d' e).busy = (s.engine d' e).busy
      rw [(hb d' e).1, (ha d' e).1, old]
      simp [hd]
    · exact (hf.addr d' e).trans (by rw [old]; rfl)
    · exact (hf.cnt d' e).trans (by rw [old]; rfl)

theorem storeCs_dmaInv {d : Dir} {w : Word} {s t : State} (h : storeCs d w s = .next t) (hs : DmaInv s) : DmaInv t := by
  rcases storeCs_next h with ⟨-, rfl⟩ | ⟨hen, h⟩
  · exact disabled_dmaInv d w hs
  · have hi := hs.modHw ((hs d).enable hen)
    rcases h with rfl | ⟨e, -, -, h⟩
    · exact hi
    · obtain ⟨hst, rfl⟩ := startEngine_next h
      refine hi.modHw ((hi d).start ?_ ((startable_iff _ _).1 hst))
      rw [State.modHw_dir, if_pos rfl]
      exact hen

theorem regStore_dmaInv {r : Reg} {v : Word} {s t : State} (h : regStore r v s = .next t) (hs : DmaInv s) : DmaInv t := by
  cases hr : r.isDma with
  | false =>
    obtain ⟨hf, hp, hrec⟩ := regStore_plain hr h
    exact hs.of_hw hf.cfg fun d => by cases d <;> simp [hp, hrec]
  | true =>
    cases r with
    | cs d => exact storeCs_dmaInv h hs
    | addr d e => obtain ⟨hb, rfl⟩ := regStore_addr_next h; exact hs.modHw ((hs d).modIdle hb hb)
    | cnt d e => obtain ⟨hb, rfl⟩ := regStore_cnt_next h; exact hs.modHw ((hs d).modIdle hb hb)
    | _ => cases hr

theorem Move.dmaInv {s t : State} (h : Move s t) (hs : DmaInv s) : DmaInv t := by
  cases h with
  | quiet k _ => exact k.dmaInv hs
  | complete d _ => exact completeBlock_dmaInv d hs
  | store h => exact regStore_dmaInv h hs
  | software d k =>
    refine hs.of_hw (State.setDir_cfg _ _ _) fun d' => ?_
    rw [State.setDir_dir]
    split
    · next hd => rw [hd]; exact k.hw
    · rfl
  | recover d e n => exact recovered_dmaInv d e n hs

/-! ### the descriptors (`10_state.md` R77, R81) -/

/-- Nothing of the software state of a direction changed, nor the configuration. -/
def SoftKept (s t : State) : Prop := t.cfg = s.cfg ∧ ∀ d, ∃ h, t.dir d = { s.dir d with hw := h }

theorem SoftKept.trans {s t u : State} (h : SoftKept s t) (k : SoftKept t u) : SoftKept s u :=
  ⟨k.1.trans h.1, fun d => by
    obtain ⟨x, hx⟩ := h.2 d; obtain ⟨y, hy⟩ := k.2 d
    exact ⟨y, by rw [hy, hx]⟩⟩

theorem HwFrame.soft {s t : State} (h : HwFrame s t) : SoftKept s t :=
  ⟨h.cfg, fun d => ⟨(t.dir d).hw, by dsimp only; rw [← h.chan d, ← h.buf d, ← h.lastServiced d, ← h.oppStreak d]⟩⟩

theorem SoftKept.modHw (d : Dir) (f : DmaHw → DmaHw) (s : State) : SoftKept s (s.modHw d f) :=
  ⟨State.modHw_cfg _ _ _, fun d' => by
    rw [State.modHw_dir]
    split
    · next h => exact ⟨_, by rw [h]⟩
    · exact ⟨_, rfl⟩⟩

theorem storeCs_soft {d : Dir} {w : Word} {s t : State} (h : storeCs d w s = .next t) : SoftKept s t := by
  rcases storeCs_next h with ⟨-, rfl⟩ | ⟨-, rfl | ⟨e, -, -, h⟩⟩
  · exact (SoftKept.modHw d _ s).trans ((abandonBlock_hwFrame d .a _).soft.trans
      ((abandonBlock_hwFrame d .b _).soft.trans (SoftKept.modHw d _ _)))
  · exact SoftKept.modHw d _ s
  · obtain ⟨-, rfl⟩ := startEngine_next h
    exact (SoftKept.modHw d _ s).trans (SoftKept.modHw d _ _)

/-- No register write changes software state. -/
theorem regStore_soft {r : Reg} {v : Word} {s t : State} (h : regStore r v s = .next t) : SoftKept s t := by
  cases hr : r.isDma with
  | false =>
    obtain ⟨hf, hp, hrec⟩ := regStore_plain hr h
    exact ⟨hf.cfg, fun d => ⟨(s.dir d).hw, by cases d <;> simp [hp, hrec]⟩⟩
  | true =>
    cases r with
    | cs d => exact storeCs_soft h
    | addr d e => obtain ⟨-, rfl⟩ := regStore_addr_next h; exact SoftKept.modHw d _ s
    | cnt d e => obtain ⟨-, rfl⟩ := regStore_cnt_next h; exact SoftKept.modHw d _ s
    | _ => cases hr

theorem SoftKept.streamInv {s t : State} (h : SoftKept s t) (hs : StreamInv s) : StreamInv t := fun d => by
  obtain ⟨x, hx⟩ := h.2 d
  rw [h.1, hx]
  exact hs d

theorem SoftKept.loopInv {s t : State} (h : SoftKept s t) (hs : LoopInv s) : LoopInv t := fun d => by
  obtain ⟨x, hx⟩ := h.2 d
  rw [hx]
  exact hs d

/-- What an update of one direction has to keep. -/
theorem StreamInv.setDir {d : Dir} {x : Direction} {s : State} (hx : SessionInv s.cfg x) (hs : StreamInv s) :
    StreamInv (s.setDir d x) := fun d' => by
  show SessionInv _ _
  rw [State.setDir_cfg, State.setDir_dir]
  split
  · exact hx
  · exact hs d'

theorem LoopInv.setDir {d : Dir} {x : Direction} {s : State} (hx : LoopBound x) (hs : LoopInv s) :
    LoopInv (s.setDir d x) := fun d' => by
  show LoopBound _
  rw [State.setDir_dir]
  split
  · exact hx
  · exact hs d'

theorem SameControl.streamInv {s t : State} (h : SameControl s t) (hs : StreamInv s) : StreamInv t := fun d => by
  rw [h.chan, h.buf, h.oppStreak, h.cfg]
  exact hs d

theorem SameControl.loopInv {s t : State} (h : SameControl s t) (hs : LoopInv s) : LoopInv t := fun d => by
  rw [h.chan, h.buf]
  exact hs d

/-- The software state after a recovery: the streak of the direction is 0, the rest as it was. -/
theorem recovered_dir (d d' : Dir) (e : Eng) (n : Nat) (s : State) : ∃ h,
    (recovered d e (withStreak d n s)).dir d' =
      { s.dir d' with hw := h, oppStreak := if d' = d then 0 else (s.dir d').oppStreak } := by
  obtain ⟨h, hu⟩ := ((abandonBlock_hwFrame d e (withStreak d n s)).soft.trans (SoftKept.modHw d
    (DmaHw.modEng e fun g => { g with busy := false, done := false, addr := 0, cnt := 0 }) _)).2 d'
  refine ⟨h, ?_⟩
  change ((abandonBlock d e (withStreak d n s)).modEngine d e _).dir d' = _ at hu
  unfold recovered
  unfold withStreak at hu ⊢
  dsimp only
  rw [State.setDir_dir] at hu ⊢
  split
  · next hd => subst hd; rw [hu, if_pos rfl]
  · next hd => rw [hu, if_neg hd]

theorem recovered_streamInv (d : Dir) (e : Eng) (n : Nat) {s : State} (hs : StreamInv s) :
    StreamInv (recovered d e (withStreak d n s)) := fun d' => by
  obtain ⟨h, hu⟩ := recovered_dir d d' e n s
  rw [hu, (recovered_ctx d e n s).cfg]
  refine ⟨(hs d').1, (hs d').2.1, ?_⟩
  dsimp only
  split
  · exact .inl rfl
  · exact (hs d').2.2

theorem recovered_loopInv (d : Dir) (e : Eng) (n : Nat) {s : State} (hs : LoopInv s) :
    LoopInv (recovered d e (withStreak d n s)) := fun d' => by
  obtain ⟨h, hu⟩ := recovered_dir d d' e n s
  rw [hu]
  exact hs d'

theorem Move.streamInv {s t : State} (h : Move s t) (hs : StreamInv s) : StreamInv t := by
  cases h with
  | quiet k _ => exact k.streamInv hs
  | complete d _ => exact (completeBlock_hwFrame d s).soft.streamInv hs
  | store h => exact (regStore_soft h).streamInv hs
  | software d k => exact hs.setDir (k.session (hs d))
  | recover d e n => exact recovered_streamInv d e n hs

theorem Move.loopInv {s t : State} (h : Move s t) (hi : StreamInv s) (hs : LoopInv s) : LoopInv t := by
  cases h with
  | quiet k _ => exact k.loopInv hs
  | complete d _ => exact (completeBlock_hwFrame d s).soft.loopInv hs
  | store h => exact (regStore_soft h).loopInv hs
  | software d k => exact hs.setDir (k.loop (hi d) (hs d))
  | recover d e n => exact recovered_loopInv d e n hs

end Sys2Proof.Machine

namespace Sys2Proof.Proofs

open Sys2Proof.Machine

/-- Settles O54: every step is a sequence of moves, and each move keeps the reserved bits 0. -/
theorem stepKeepsReservedBits : Obligations.StepKeepsReservedBits := fun _ _ hs h =>
  step_keeps (fun k hi => hi.of_regs k.regs) Move.regsInv hs h

/-- Settles O55: every step is a sequence of moves, and each move keeps the DMA hardware consistent. -/
theorem stepKeepsDmaConsistent : Obligations.StepKeepsDmaConsistent := fun _ _ hs h =>
  step_keeps SameControl.dmaInv Move.dmaInv hs h

/-- Settles O57: each move keeps the buffer invariant, and with it the strict bound of a running looping session. -/
theorem stepKeepsBufferInvariant : Obligations.StepKeepsBufferInvariant := by
  refine ⟨fun s t hs h => step_keeps SameControl.streamInv Move.streamInv hs h, fun s t hs hl h => ?_⟩
  have both : StreamInv t ∧ LoopInv t := step_keeps (I := fun u => StreamInv u ∧ LoopInv u)
    (fun k ⟨hi, hk⟩ => ⟨k.streamInv hi, k.loopInv hk⟩) (fun m ⟨hi, hk⟩ => ⟨m.streamInv hi, m.loopInv hi hk⟩) ⟨hs, hl⟩ h
  exact both.2

/-- Settles O59: an operation is a sequence of moves, none of which touches the host's side, and then its result and status. -/
theorem whatNoOperationChanges : Obligations.WhatNoOperationChanges := by
  intro i s t h
  obtain ⟨v, st, u, hm, rfl⟩ := exec_completes h
  obtain ⟨hport, hcfg, hhost, htrace, herr⟩ := hm.hostFrame
  exact ⟨by rw [finish_port, hport], Status.code_le st, rfl, hcfg, hhost, htrace, herr⟩

end Sys2Proof.Proofs
end

section
/-! `REG.WR` and `REG.RD`: the register map, single bits of a written word, and what a write of `CTRL0` and each write and read of the
registers of the DMA engine does exactly. -/

namespace Sys2Proof.Machine

/-! ### `REG.WR` and `REG.RD` of a mapped register -/

theorem regAt_cs (d : Dir) : regAt 0 (csOff d) = some (.cs d) := by cases d <;> rfl

theorem regAt_addr (d : Dir) (e : Eng) : regAt 0 (addrOff d e) = some (.addr d e) := by cases d <;> cases e <;> rfl

theorem regAt_cnt (d : Dir) (e : Eng) : regAt 0 (addrOff d e + 4) = some (.cnt d e) := by cases d <;> cases e <;> rfl

/-- A write of any register but `PGPIO` emits no `Amp` event (`40_register_access.md` R170). -/
theorem exec_regWr_next {rgn : Byte} {off v : Word} {r : Reg} {s t : State} (hr : regAt rgn off = some r)
    (h : regStore r v (hw s) = .next t) (hp : t.regs.pgpio = (hw s).regs.pgpio) :
    exec (.regWr rgn off v) s = .next (answered 0 0 t) := by
  have hold : t.regs.pgpio = s.regs.pgpio := by rw [hp, bus_regs (hw_hwFrame s).bus]
  have hrun : exec (.regWr rgn off v) s = andThen (regWrite r v s) fun u => .next (finish 0 .ok (noteAmp s.regs.pgpio u)) := by
    show execRegWr rgn off v s = _
    unfold execRegWr
    rw [hr]
  rw [hrun, show regWrite r v s = .next t from h, andThen_next, noteAmp, if_pos hold]
  rfl

theorem exec_regWr_fault {rgn : Byte} {off v : Word} {r : Reg} {s : State} {f : Fault} (hr : regAt rgn off = some r)
    (h : regStore r v (hw s) = .fault f) : exec (.regWr rgn off v) s = .fault f := by
  show execRegWr rgn off v s = _
  unfold execRegWr
  rw [hr]
  dsimp only
  rw [show regWrite r v s = .fault f from h, andThen_fault]

theorem exec_regWr_refused {rgn : Byte} {off v : Word} {r : Reg} {s : State} {f : Refusal} (hr : regAt rgn off = some r)
    (h : regStore r v (hw s) = .refused f) : exec (.regWr rgn off v) s = .refused f := by
  show execRegWr rgn off v s = _
  unfold execRegWr
  rw [hr]
  dsimp only
  rw [show regWrite r v s = .refused f from h, andThen_refused]

theorem exec_regRd {rgn : Byte} {off : Word} {r : Reg} {s : State} (hr : regAt rgn off = some r) :
    exec (.regRd rgn off) s = .next (answered (regLoad r (hw s)).1 0 (regLoad r (hw s)).2) := by
  show execRegRd rgn off s = _
  unfold execRegRd
  rw [hr]
  rfl

/-! ### single bits of a written word (`10_state.md` R42, R55) -/

theorem hasBit_twoPow (w : Word) (k : Nat) (hk : k < 32) : hasBit w (BitVec.twoPow 32 k) = w.getLsbD k := by
  unfold hasBit
  rw [BitVec.and_twoPow]
  cases w.getLsbD k with
  | false => rfl
  | true =>
    have hne : BitVec.twoPow 32 k ≠ 0 := fun h0 => by
      have hbit := congrArg (BitVec.getLsbD · k) h0
      simp [hk] at hbit
    simpa using hne

theorem hasBit_rst (w : Word) : hasBit w Config.rst = w.getLsbD 3 := hasBit_twoPow w 3 (by decide)

theorem hasBit_csEn (w : Word) : hasBit w Config.csEn = w.getLsbD 0 := hasBit_twoPow w 0 (by decide)

theorem hasBit_doneMask (w : Word) (e : Eng) : hasBit w (doneMask e) = if e = .a then w.getLsbD 3 else w.getLsbD 5 := by
  cases e
  · exact hasBit_twoPow w 3 (by decide)
  · exact hasBit_twoPow w 5 (by decide)

theorem hasBit_startMask (w : Word) (e : Eng) : hasBit w (startMask e) = if e = .a then w.getLsbD 4 else w.getLsbD 6 := by
  cases e
  · exact hasBit_twoPow w 4 (by decide)
  · exact hasBit_twoPow w 6 (by decide)

/-- `RST` is a field of `CTRL0`: dropping the reserved bits keeps it. -/
theorem hasBit_fields_rst (v : Word) : hasBit (v &&& Config.ctrl0Fields) Config.rst = v.getLsbD 3 := by
  rw [← hasBit_rst]
  unfold hasBit
  rw [BitVec.and_assoc, show Config.ctrl0Fields &&& Config.rst = Config.rst by decide]

/-! ### a write of `CS[d]`, exactly (`10_state.md` R57) -/

/-- The write asks to start sub-engine `e`, and it is idle. -/
def startsEngine (s : State) (d : Dir) (w : Word) (e : Eng) : Bool := hasBit w (startMask e) && !(s.engine d e).busy

theorem storeCs_disable {d : Dir} {w : Word} {s : State} (h : hasBit w Config.csEn = false) : storeCs d w s =
    .next (disabled d w s) := by
  unfold storeCs
  dsimp only
  rw [h]
  rfl

theorem storeCs_both {d : Dir} {w : Word} {s : State} (h : hasBit w Config.csEn = true) (hA : startsEngine s d w .a = true)
    (hB : startsEngine s d w .b = true) : storeCs d w s = .fault (.reserved .bothStarts) := by
  unfold startsEngine startMask at hA hB
  unfold storeCs
  dsimp only
  rw [if_pos h, hA, hB]
  rfl

theorem storeCs_none {d : Dir} {w : Word} {s : State} (h : hasBit w Config.csEn = true) (hA : startsEngine s d w .a = false)
    (hB : startsEngine s d w .b = false) : storeCs d w s = .next (s.modHw d (DmaHw.clearAndEnable w)) := by
  unfold startsEngine startMask at hA hB
  unfold storeCs
  dsimp only
  rw [if_pos h, hA, hB]
  rfl

theorem storeCs_one {d : Dir} {w : Word} {e : Eng} {s : State} (h : hasBit w Config.csEn = true)
    (he : startsEngine s d w e = true) (ho : startsEngine s d w e.other = false) :
    storeCs d w s = startEngine d e (s.modHw d (DmaHw.clearAndEnable w)) := by
  unfold storeCs
  dsimp only
  rw [if_pos h]
  cases e <;> unfold startsEngine startMask at he ho <;> dsimp only [Eng.other] at he ho <;> rw [he, ho] <;> rfl

theorem State.modHw_congr {d : Dir} {f g : DmaHw → DmaHw} {s : State} (h : f (s.dir d).hw = g (s.dir d).hw) :
    s.modHw d f = s.modHw d g := by unfold State.modHw; rw [h]

theorem State.modHw_modHw (d : Dir) (f g : DmaHw → DmaHw) (s : State) : (s.modHw d f).modHw d g = s.modHw d fun h => g (f h) := by
  cases d <;> rfl

theorem clearAndEnable_engine (d d' : Dir) (w : Word) (e : Eng) (s : State) :
    (s.modHw d (DmaHw.clearAndEnable w)).engine d' e =
      { s.engine d' e with done := (s.engine d' e).done && !(decide (d' = d) && hasBit w (doneMask e)) } := by
  rw [State.modHw_engine]
  split
  · next h => rw [h, DmaHw.clearAndEnable_eng]; simp [State.engine]
  · next h => simp [h]

/-- A start where the block has a meaning, and where it has none (`10_state.md` R60). -/
theorem startEngine_ok {d : Dir} {e : Eng} {s : State} (h : BlockOk s.cfg (s.engine d e).addr (s.engine d e).cnt) :
    startEngine d e s = .next (s.modHw d fun h =>
      { h.modEng e (fun g => { g with busy := true, raced := [] }) with active := h.active.or (some e) }) :=
  if_pos ((startable_iff _ _).2 h)

theorem startEngine_bad {d : Dir} {e : Eng} {s : State} (h : ¬ BlockOk s.cfg (s.engine d e).addr (s.engine d e).cnt) :
    startEngine d e s = .fault (.reserved .notStartable) := if_neg fun hs => h ((startable_iff _ _).1 hs)

/-! ### what a disabling write leaves alone -/

/-- What is active is not part of the frame of the hardware agents. -/
theorem HwFrame.setActive (d : Dir) (x : Option Eng) (s : State) : HwFrame s (s.modHw d fun h => { h with active := x }) := by
  apply HwFrame.modHw rfl <;> intro e <;> cases e <;> first | rfl | exact id

theorem HwFrame.setActives {s t : State} (x y : Option Eng) (h : HwFrame s t) : HwFrame s { t with
    play := { t.play with hw := { t.play.hw with active := x } }
    record := { t.record with hw := { t.record.hw with active := y } } } :=
  h.trans ((HwFrame.setActive .play x t).trans (HwFrame.setActive .record y _))

/-- Clearing done bits and writing `EN` touches no block in flight. -/
theorem MemFrame.of_clearAndEnable {d : Dir} {w : Word} {s t : State}
    (h : MemFrame (s.modHw d (DmaHw.clearAndEnable w)) t) : MemFrame s t := by
  refine ⟨fun a ha => ?_, fun hwf => h.wf (by rw [State.modHw_mem]; exact hwf), fun hr => ?_⟩
  · rw [h.read a, State.modHw_mem]
    rw [captureCovers_engine] at ha ⊢
    rw [clearAndEnable_engine, clearAndEnable_engine]
    exact ha
  · rw [h.still, State.modHw_mem]
    refine ⟨fun e => by rw [clearAndEnable_engine]; exact hr.1 e, fun e => ?_⟩
    rw [← State.dir_record, State.modHw_dir]
    split
    · next hd => rw [← hd]; exact hr.2 e
    · exact hr.2 e

theorem disabled_hwFrame (d : Dir) (w : Word) (s : State) :
    HwFrame (s.modHw d (DmaHw.clearAndEnable w)) (disabled d w s) :=
  (abandonBlock_hwFrame d .a _).trans ((abandonBlock_hwFrame d .b _).trans (HwFrame.setActive d none _))

theorem disabled_memFrame (d : Dir) (w : Word) (s : State) : MemFrame s (disabled d w s) := by
  have h := MemFrame.trans (abandonBlock_hwFrame d .a (s.modHw d (DmaHw.clearAndEnable w)))
    (abandonBlock_memFrame d .a _) (abandonBlock_memFrame d .b _)
  exact (MemFrame.trans ((abandonBlock_hwFrame d .a _).trans (abandonBlock_hwFrame d .b _)) h
    (MemFrame.of_eq (State.modHw_mem _ _ _))).of_clearAndEnable

/-- Nothing of the direction is busy, and no done bit was set. -/
theorem disabled_engine (d : Dir) (w : Word) (e : Eng) (s : State) : ((disabled d w s).engine d e).busy = false ∧
    ((disabled d w s).engine d e).done = ((s.engine d e).done && !hasBit w (doneMask e)) := by
  have old : (disabled d w s).engine d e =
      (abandonBlock d .b (abandonBlock d .a (s.modHw d (DmaHw.clearAndEnable w)))).engine d e := by
    unfold disabled
    rw [State.modHw_engine, if_pos rfl]
    cases e <;> rfl
  have hb := abandonBlock_engine d d .b e (abandonBlock d .a (s.modHw d (DmaHw.clearAndEnable w)))
  have ha := abandonBlock_engine d d .a e (s.modHw d (DmaHw.clearAndEnable w))
  rw [old, hb.1, hb.2, ha.1, ha.2, clearAndEnable_engine]
  cases e <;> simp

end Sys2Proof.Machine

namespace Sys2Proof.Proofs

open Sys2Proof.Machine

/-- Settles O8: the two sides of the map, register by register. -/
theorem registerMap : Obligations.RegisterMap := by
  intro rgn off r
  unfold regAt
  generalize rgn.toNat = n, off.toNat = m
  constructor
  · intro h
    split at h
    case h_21 => cases h
    all_goals
      cases h
      decide
  · intro h
    simp only [List.mem_cons, Prod.mk.injEq, List.not_mem_nil, or_false] at h
    casesm* _ ∨ _, _ ∧ _ <;> subst_vars <;> rfl

/-- Settles O11: the three writes of `CTRL0`, from the state the hardware agents leave. -/
theorem regWrCtrl0 : Obligations.RegWrCtrl0 := by
  intro s v
  have hmap : regAt 0 0x00 = some .ctrl0 := rfl
  refine ⟨hw s, hw_moved s, fun hv => ?_, fun hv hr ht => ?_, fun hv ht => ?_⟩
  · have hst := storeCtrl0_rst (s := hw s) ((hasBit_fields_rst v).trans hv)
    rw [hasBit_rst] at hst
    exact exec_regWr_next hmap hst rfl
  · exact exec_regWr_refused hmap
      (storeCtrl0_short ((hasBit_fields_rst v).trans hv) ((hasBit_rst _).trans hr) ht)
  · exact exec_regWr_next hmap
      (storeCtrl0_clear ((hasBit_fields_rst v).trans hv) fun hr => ht ((hasBit_rst _).symm.trans hr)) rfl

/-- Settles O14: the two write rules and the two read rules of an idle and of a busy sub-engine. -/
theorem addressAndCountRegisters : Obligations.AddressAndCountRegisters := by
  intro s d e v
  refine ⟨hw s, hw_moved s, fun hb => ⟨?_, ?_, ?_, ?_⟩, fun hb => ⟨?_, ?_, ?_⟩⟩
  · exact exec_regWr_next (regAt_addr d e) (regStore_addr hb v) (by simp)
  · exact exec_regWr_next (regAt_cnt d e) (regStore_cnt hb v) (by simp)
  · rw [exec_regRd (regAt_addr d e)]; simp [regLoad, hb]
  · rw [exec_regRd (regAt_cnt d e)]; simp [regLoad, hb]
  · exact exec_regWr_fault (regAt_addr d e) (if_pos hb)
  · exact exec_regWr_fault (regAt_cnt d e) (if_pos hb)
  · have hd := drawNoise_drew (hw s)
    refine ⟨(drawNoise (hw s)).1, (drawNoise (hw s)).2, ?_, ?_, hd.hwFrame, hd.mem, fun r hr => ?_⟩
    · rw [exec_regRd (regAt_addr d e)]; simp [regLoad, hb]
    · rw [exec_regRd (regAt_cnt d e)]; simp [regLoad, hb]
    · unfold drawNoise; rw [hr]

/-- Settles O13: the four cases of a write of `CS[d]`, from the state the hardware agents leave. -/
theorem csWrite : Obligations.CsWrite := by
  intro s d w
  have hcfg : (hw s).cfg = s.cfg := (hw_hwFrame s).cfg
  refine ⟨hw s, hw_moved s, ?_⟩
  generalize hu : hw s = u at hcfg
  have pgpio {f : DmaHw → DmaHw} : (u.modHw d f).regs.pgpio = (hw s).regs.pgpio := by rw [State.modHw_regs, hu]
  intro cleared starts kept
  have hcleared (e : Eng) : cleared e = hasBit w (doneMask e) := (hasBit_doneMask w e).symm
  have hstarts (e : Eng) : starts e = startsEngine u d w e := by
    unfold startsEngine; rw [hasBit_startMask]
  have hkept : kept = (u.dir d).hw.clearAndEnable w := by
    show DmaHw.mk _ _ _ _ = DmaHw.mk _ _ _ _
    rw [hcleared, hcleared, ← hasBit_csEn]
    rfl
  have hmod : (u.modHw d fun _ => kept) = u.modHw d (DmaHw.clearAndEnable w) := State.modHw_congr hkept
  rw [hmod, ← hasBit_csEn]
  have store {x : Out State} (h : storeCs d w u = x) : regStore (.cs d) w (hw s) = x := by rw [hu]; exact h
  refine ⟨fun hen => ?_, fun hen hA hB => ?_, fun hen hA hB => ?_, fun e hen he ho => ?_⟩
  · refine ⟨disabled d w u, exec_regWr_next (regAt_cs d) (store (storeCs_disable hen)) ?_, rfl,
      (disabled_hwFrame d w u).setActives _ _, disabled_memFrame d w u, ?_, fun e => ?_⟩
    · rw [bus_regs (disabled_hwFrame d w u).bus]; exact pgpio
    · unfold disabled; rw [State.modHw_dir, if_pos rfl]
    · rw [hcleared]; exact disabled_engine d w e u
  · rw [hstarts] at hA hB
    exact exec_regWr_fault (regAt_cs d) (store (storeCs_both hen hA hB))
  · rw [hstarts] at hA hB
    exact exec_regWr_next (regAt_cs d) (store (storeCs_none hen hA hB)) pgpio
  · rw [hstarts] at he ho
    have hone := store (storeCs_one hen he ho)
    have hblock : BlockOk (u.modHw d (DmaHw.clearAndEnable w)).cfg ((u.modHw d (DmaHw.clearAndEnable w)).engine d e).addr
        ((u.modHw d (DmaHw.clearAndEnable w)).engine d e).cnt ↔ BlockOk s.cfg (u.engine d e).addr (u.engine d e).cnt := by
      rw [clearAndEnable_engine, State.modHw_cfg, hcfg]
    refine ⟨fun hok => ?_, fun hbad => ?_⟩
    · rw [startEngine_ok (hblock.2 hok), State.modHw_modHw] at hone
      refine (exec_regWr_next (regAt_cs d) hone pgpio).trans (congrArg (fun x => Host.Outcome.next (answered 0 0 x)) ?_)
      refine State.modHw_congr ?_
      rw [hkept]
      show DmaHw.mk _ _ _ _ = DmaHw.mk _ _ _ _
      have hactive : ((u.dir d).hw.clearAndEnable w).active.or (some e) =
          if (u.dir d).hw.active = none then some e else (u.dir d).hw.active := by
        show (u.dir d).hw.active.or (some e) = _
        cases (u.dir d).hw.active <;> rfl
      rw [hactive]
    · exact exec_regWr_fault (regAt_cs d) (hone.trans (startEngine_bad fun h => hbad (hblock.1 h)))

end Sys2Proof.Proofs
end

section
/-! Whose turn a step is, and what a synthetic completion event does to the phase of a session. -/

namespace Sys2Proof.Machine

/-! ### the host's turn (`10_state.md` R21, `20_memory.md` R121) -/

theorem choose_quiet {s : State} (h : actors s = []) : choose s = (none, s) := by
  unfold choose
  rw [h]

theorem choose_host {s s1 : State} (h : actors s ≠ []) (hd : drawPick s = (0, s1)) : choose s = (none, s1) := by
  unfold choose
  split
  · next hn => exact absurd hn h
  · rw [hd]

/-- Where the choice falls on the host, the step runs the packet in the command port. -/
theorem step_host {s s1 : State} {i : Instr} (hc : s.cfg.chipAddr ≠ 0) (hs : choose s = (none, s1))
    (hp : s1.port.pending = true) (hq : s1.seq = Seq.idle) (hd : decode (portPacket s1) = .ok i) : step s = exec i s1 := by
  unfold step turn
  rw [if_neg hc, hs]
  show hostTurn exec s1 = exec i s1
  unfold hostTurn runPacket
  rw [if_pos hp, if_pos hq, hd]

theorem actors_issuePacket (p : Packet) (s : State) : actors (issuePacket p s) = actors s := rfl

/-- The choice after a packet has been placed falls on the host, and leaves the packet issued and the script as it was. -/
theorem choose_placePacket (p : Packet) (s : State) : choose (placePacket p s) = (none, issuePacket p s) := by
  unfold placePacket
  split
  · next h => exact choose_quiet ((actors_issuePacket p s).trans h)
  · next h => exact choose_host (fun hn => h ((actors_issuePacket p s).symm.trans hn)) rfl

theorem placePacket_cfg (p : Packet) (s : State) : (placePacket p s).cfg = s.cfg := by
  unfold placePacket
  split <;> rfl

/-! ### the buffer under the handler (`45_rearm_sequencer.md` R290, R295) -/

/-- Every buffer descriptor is as it was. -/
def BufsKept (s t : State) : Prop := ∀ d, (t.dir d).buf = (s.dir d).buf

theorem BufsKept.refl (s : State) : BufsKept s s := fun _ => rfl

theorem BufsKept.trans {s t u : State} (h : BufsKept s t) (k : BufsKept t u) : BufsKept s u := fun d => (k d).trans (h d)

theorem SoftKept.bufs {s t : State} (h : SoftKept s t) : BufsKept s t := fun d => by
  obtain ⟨x, hx⟩ := h.2 d
  rw [hx]

theorem BufsKept.setDir {d : Dir} {x : Direction} {s : State} (h : x.buf = (s.dir d).buf) : BufsKept s (s.setDir d x) :=
  fun d' => by
    rw [State.setDir_dir]
    split
    · next hd => rw [hd]; exact h
    · rfl

theorem hw_bufs (s : State) : BufsKept s (hw s) := (hw_hwFrame s).buf

theorem regWrite_bufs {r : Reg} {v : Word} {s t : State} (h : regWrite r v s = .next t) : BufsKept s t :=
  (hw_bufs s).trans (regStore_soft h).bufs

theorem startBlock_bufs {d : Dir} {addr len : Word} {s t : State} {st : Status}
    (h : startBlock d addr len s = .next (st, t)) : BufsKept s t := by
  rcases startBlock_next h with ⟨-, -, rfl⟩ | ⟨-, -, rfl⟩ | ⟨-, -, s2, s3, s4, h2, h3, h4, rfl⟩
  · exact BufsKept.refl _
  · exact hw_bufs s
  · exact (hw_bufs s).trans ((regWrite_bufs h2).trans ((regWrite_bufs h3).trans ((regWrite_bufs h4).trans
      (BufsKept.setDir rfl))))

theorem rearm_bufs {d : Dir} {addr len : Word} {s t : State} (h : rearm d addr len s = .next t) : BufsKept s t := by
  obtain ⟨⟨st, u⟩, hu, h⟩ := andThen_eq_next h
  have hb := startBlock_bufs hu
  cases st <;> cases h <;> exact hb

theorem callback_bufs (d : Dir) (s : State) : BufsKept s (callback d s) := by
  unfold callback
  split <;> exact BufsKept.refl s

theorem passTime_bufs (n : Nat) (s : State) : BufsKept s (passTime n s) := by
  obtain ⟨u, hu, -, hp⟩ := passTime_hwFrame n s
  rw [hp]
  exact hu.buf

theorem recoveryWait_bufs (s : State) : BufsKept s (recoveryWait s) :=
  (hw_bufs { s with seq := { s.seq with recoveryDelay := true } }).trans (passTime_bufs Config.tRecovery _)

theorem recoverEngine_bufs (d : Dir) (e : Eng) (s : State) : BufsKept s (recoverEngine d e s) := by
  have h1 : BufsKept s (recovered d e s) := fun d' => by
    obtain ⟨h, hr⟩ := recovered_dir d d' e (s.dir d).oppStreak s
    rw [withStreak_self] at hr
    rw [hr]
  exact h1.trans (recoveryWait_bufs _)

theorem recoveryChecks_bufs (d : Dir) (e : Eng) (s : State) : BufsKept s (recoveryChecks d e s) := by
  unfold recoveryChecks
  have h1 : BufsKept s (regRead (.cs d) s).2 := (regRead_hwFrame (.cs d) s).buf
  generalize regRead (.cs d) s = r at h1 ⊢
  obtain ⟨cs, s0⟩ := r
  dsimp only at h1 ⊢
  replace h1 := h1.trans (hw_bufs s0)
  generalize hw s0 = s1 at h1 ⊢
  have h2 : BufsKept s (if (s1.dir d).lastServiced = some e then (recoverEngine d e s1).log (.repeatCompletion d e) else s1) := by
    split
    · exact h1.trans (recoverEngine_bufs d e s1)
    · exact h1
  generalize (if (s1.dir d).lastServiced = some e then (recoverEngine d e s1).log (.repeatCompletion d e) else s1) = s2 at h2 ⊢
  generalize (if hasBit cs (startMask e.other) then (s2.dir d).oppStreak + 1 else 0) = n
  have h3 : BufsKept s (s2.setDir d { s2.dir d with oppStreak := n }) := h2.trans (BufsKept.setDir rfl)
  split
  · exact h3.trans (recoverEngine_bufs d e.other _)
  · exact h3

/-- Everything steps 2 to 4 of the handler do to the buffers. -/
theorem serviceBuffer_buf {d : Dir} {s t : State} (h : serviceBuffer d s = .next t) (d' : Dir) :
    (t.dir d').buf = (s.dir d').buf ∨
      (wellFormedBuffer (s.dir d') = true ∧ (t.dir d').buf = (s.dir d').buf.stepped (s.dir d').chan.running) := by
  unfold serviceBuffer at h
  split at h
  · next hw =>
    obtain ⟨u, hu, ht⟩ := advanceBuffer_next h
    have hb : BufsKept u t := by
      rcases ht with rfl | rfl | ⟨addr, len, ht⟩
      · exact BufsKept.refl _
      · exact callback_bufs d u
      · exact (callback_bufs d u).trans (rearm_bufs ht)
    rw [hb d', hu, State.modBuf_dir]
    split
    · next hd => subst hd; exact .inr ⟨hw, rfl⟩
    · exact .inl rfl
  · cases h; exact .inl rfl

theorem wellFormedBuffer_congr {x y : Direction} (h1 : y.chan.bufferRef = x.chan.bufferRef) (h2 : y.buf = x.buf) :
    wellFormedBuffer y = wellFormedBuffer x := by
  unfold wellFormedBuffer
  rw [h1, h2]

/-- The handler leaves each buffer descriptor, or steps it once (`45_rearm_sequencer.md` R291). -/
theorem handler_buf {id : Word} {s t : State} (h : handler id s = .next t) (d : Dir) : (t.dir d).buf = (s.dir d).buf ∨
    (wellFormedBuffer (s.dir d) = true ∧ (t.dir d).buf = (s.dir d).buf.stepped (s.dir d).chan.running) := by
  unfold handler at h
  split at h
  · cases h; exact .inl rfl
  · obtain ⟨s1, h1, h⟩ := andThen_eq_next h
    obtain ⟨s2, h2, h⟩ := andThen_eq_next h
    cases h
    have hbuf := recoveryChecks_bufs (irqDir id) (irqEng id) s d
    have hchan := (recoveryChecks_ctx (irqDir id) (irqEng id) s).chan d
    have hend := ((regWrite_bufs h2).trans (BufsKept.setDir (x := { s2.dir (irqDir id) with
      lastServiced := some (irqEng id) }) rfl)) d
    have hstep := serviceBuffer_buf h1 d
    rw [wellFormedBuffer_congr (by rw [hchan]) hbuf, hbuf, hchan] at hstep
    rw [hend]
    exact hstep

/-! ### phases (`10_state.md` R78) -/

theorem phase_congr {x y : Direction} (h1 : y.chan.running = x.chan.running) (h2 : y.buf = x.buf) : phase y = phase x := by
  unfold phase
  rw [h1, h2]

theorem phase_idle {x : Direction} (hr : x.chan.running = false) : phase x = some .idle := by
  simp [phase, hr]

/-- A running session whose pointer is before the end. -/
theorem phase_inside {x : Direction} (hr : x.chan.running = true) (h1 : x.buf.start.toNat ≤ x.buf.current.toNat)
    (h2 : x.buf.current.toNat < x.buf.limit) : phase x =
      if x.buf.loopCount = 0 then if x.buf.current = x.buf.start then some .armed else some .running
      else if x.buf.loop then some .looping else none := by
  have hne : x.buf.current.toNat ≠ x.buf.limit := by omega
  by_cases hc : x.buf.loopCount = 0
  · by_cases hs : x.buf.current = x.buf.start
    · rw [hs] at hne
      simp [phase, hr, hc, hs, hne]
    · have hlt : x.buf.start.toNat < x.buf.current.toNat :=
        lt_of_le_of_ne h1 fun h => hs (BitVec.eq_of_toNat_eq h.symm)
      simp [phase, hr, hc, hs, hne, hlt, h2]
  · replace hc : ¬ x.buf.loopCount = 0#32 := hc
    simp [phase, hr, hc, hne]

/-- A running session that has wrapped. -/
theorem phase_wrapped {x : Direction} (hr : x.chan.running = true) (hl : x.buf.loop = true) (hc : x.buf.loopCount ≠ 0) :
    phase x = some .looping := by
  replace hc : ¬ x.buf.loopCount = 0#32 := hc
  simp [phase, hr, hl, hc]

/-- A running session without a loop whose pointer is at the end. -/
theorem phase_end {x : Direction} (hr : x.chan.running = true) (hl : x.buf.loop = false)
    (hc : x.buf.current.toNat = x.buf.limit) : phase x = some .stopped := by
  simp [phase, hr, hl, hc]

/-- The phase of a running session after a step of its buffer: before the end, wrapped, or at the end. -/
theorem phase_stepped {x y : Direction} (hw : wellFormedBuffer x = true) (hc : x.buf.loopCount ≠ 0xFFFFFFFF)
    (hrun : y.chan.running = true) (hbuf : y.buf = x.buf.stepped true) : phase y =
      if x.buf.advanced < x.buf.limit then
        if x.buf.loopCount = 0 then some .running else if x.buf.loop then some .looping else none
      else if x.buf.loop then some .looping else some .stopped := by
  obtain ⟨-, -, -, -, -, hstart, -⟩ := (wellFormedBuffer_iff x).1 hw
  obtain ⟨hlo, hhi, hto⟩ := advanced_bounds hw
  unfold Buffer.stepped at hbuf
  rw [Bool.and_true] at hbuf
  split at hbuf
  · next hlt =>
    have hcur : y.buf.current.toNat = x.buf.advanced := by rw [hbuf]; exact hto
    have hst : y.buf.start = x.buf.start := by rw [hbuf]
    have hlim : y.buf.limit = x.buf.limit := by rw [hbuf]; rfl
    have hne : y.buf.current ≠ y.buf.start := fun h => by
      rw [h, hst] at hcur
      omega
    rw [phase_inside hrun (by rw [hst]; omega) (by omega), if_neg hne, if_pos hlt, hbuf]
  · next hge =>
    rw [if_neg hge]
    split at hbuf
    · next hl =>
      rw [if_pos hl]
      exact phase_wrapped hrun (by rw [hbuf]; exact hl) (by rw [hbuf]; exact fun h => hc (by bv_omega))
    · next hl =>
      rw [if_neg hl]
      exact phase_end hrun (by rw [hbuf]; exact Bool.eq_false_iff.2 hl)
        (by rw [hbuf]; exact hto.trans (le_antisymm hhi (not_lt.1 hge)))

/-- The edges of `10_state.md` R78 that a step of the buffer can take. -/
theorem phase_edge {x y : Direction} {p q : Phase} (hw : wellFormedBuffer x = true) (hc : x.buf.loopCount ≠ 0xFFFFFFFF)
    (hrun : y.chan.running = x.chan.running) (hbuf : y.buf = x.buf.stepped x.chan.running) (hp : phase x = some p)
    (hq : phase y = some q) : p = q ∨ (p, q) ∈ [(Phase.armed, Phase.running), (.running, .looping), (.running, .stopped),
      (.armed, .looping), (.armed, .stopped)] := by
  obtain ⟨-, -, -, -, -, hstart, hcur⟩ := (wellFormedBuffer_iff x).1 hw
  cases hr : x.chan.running with
  | false =>
    rw [phase_idle hr] at hp
    rw [phase_idle (hrun.trans hr)] at hq
    exact .inl (Option.some.inj (hp.symm.trans hq))
  | true =>
    rw [hr] at hrun hbuf
    rw [phase_inside hr hstart hcur] at hp
    rw [phase_stepped hw hc hrun hbuf] at hq
    by_cases h0 : x.buf.loopCount = 0
    · rw [if_pos h0] at hp hq
      have before : p = .armed ∨ p = .running := by
        split at hp
        · exact .inl (Option.some.inj hp).symm
        · exact .inr (Option.some.inj hp).symm
      have after : q = .running ∨ q = .looping ∨ q = .stopped := by
        split at hq
        · exact .inl (Option.some.inj hq).symm
        · split at hq
          · exact .inr (.inl (Option.some.inj hq).symm)
          · exact .inr (.inr (Option.some.inj hq).symm)
      rcases before with rfl | rfl <;> rcases after with rfl | rfl | rfl <;> decide
    · rw [if_neg h0] at hp hq
      -- a session that has wrapped keeps looping
      cases hl : x.buf.loop <;> simp [hl] at hp hq
      exact .inl (hp.symm.trans hq)

end Sys2Proof.Machine

namespace Sys2Proof.Proofs

open Sys2Proof.Machine

/-- Settles O5: in each of the three cases the choice falls on the host, whose turn runs the packet. -/
theorem stepRunsIssuedOperation : Obligations.StepRunsIssuedOperation := by
  refine ⟨fun s i hc hquiet hp hq hd => ?_, fun s s1 i hc hbusy hpick hp hq hd => ?_, fun s nbits w i hc hq hd => ?_,
    fun s hc => if_pos hc⟩
  · exact step_host hc (choose_quiet hquiet) hp hq hd
  · have hdrew := drawPick_drew s
    rw [hpick] at hdrew
    obtain ⟨n, x, -, hs1⟩ := hdrew
    dsimp only at hs1
    subst hs1
    exact step_host hc (choose_host hbusy hpick) hp hq hd
  · have hdec : decode (packetOfBits nbits w) = .ok i := by
      unfold decodeTableWord at hd
      split at hd
      · next j hj => rw [hj]; exact congrArg _ (Option.some.inj hd)
      · cases hd
    refine step_host ?_ (choose_placePacket _ s) rfl hq hdec
    unfold State.withFetchWord
    rw [placePacket_cfg]
    exact hc

/-- Settles O48: the handler leaves the buffer of a direction or steps it once, and a step of the buffer takes one edge. -/
theorem oneTransitionPerCall : Obligations.OneTransitionPerCall := by
  intro s t id d p q _ h hc hp hq
  obtain ⟨u, hu, h⟩ := andThen_eq_next h
  cases h
  have hdir (d : Dir) : (enterInterrupt { s with seq := ⟨some (.irqEvt id), none, none, false⟩ }).dir d = s.dir d := by
    cases d <;> rfl
  have hbuf := handler_buf hu d
  have hchan := (handler_ctx hu).chan d
  rw [hdir] at hbuf hchan
  rw [finish_dir, exitInterrupt_dir] at hq
  have hrun : (u.dir d).chan.running = (s.dir d).chan.running := by rw [hchan]
  rcases hbuf with hsame | ⟨hw, hstep⟩
  · rw [phase_congr hrun hsame, hp] at hq
    exact .inl (Option.some.inj hq)
  · exact phase_edge hw hc hrun hstep hp hq

end Sys2Proof.Proofs
end

section
/-! The race rule: the bytes a playback block may deliver, and what one capture block in flight may do before another access to a byte
of its window (`20_memory.md` R110, R111, R123). -/

namespace Sys2Proof.Machine

/-! ### scripted draws -/

theorem drawPick_cons {s : State} {k : Nat} {r : List Nat} (h : s.env.script.picks = k :: r) :
    drawPick s = (k, s.setScript { s.env.script with picks := r }) := by unfold drawPick; rw [h]

theorem drawByte_cons {s : State} {b : Byte} {r : List Byte} (h : s.env.script.bytes = b :: r) :
    drawByte s = (b, s.setScript { s.env.script with bytes := r }) := by unfold drawByte; rw [h]

theorem State.setScript_engine (x : Script) (s : State) (d : Dir) (e : Eng) : (s.setScript x).engine d e = s.engine d e := by
  unfold State.engine; rw [State.setScript_dir]

theorem Drew.engine {s t : State} (h : Drew s t) (d : Dir) (e : Eng) : t.engine d e = s.engine d e := by
  obtain ⟨n, x, -, rfl⟩ := h; cases d <;> rfl

/-! ### playback -/

/-- The values of byte `a` that a playback block remembers from before they were overwritten (R123). -/
def Engine.oldValues (g : Engine) (a : Nat) : List Byte := (g.raced.filter fun c => c.1 == a).map Prod.snd

theorem Engine.mem_oldValues {g : Engine} {a : Nat} {v : Byte} : v ∈ g.oldValues a ↔ (a, v) ∈ g.raced := by
  simp [Engine.oldValues]

/-- The byte fetched outside capture blocks in flight: the remembered value that the draw names, else the present one. -/
theorem fetchByte_uncovered {a : Nat} {s : State} (h : captureCovers s a = false) (e : Eng) : (fetchByte e a s).1 =
    (((s.engine .play e).oldValues a)[(drawPick s).1]?).getD (Memory.read s.mem a) := by
  unfold fetchByte Engine.oldValues
  rw [settle_uncovered h]
  dsimp only
  split
  · next hnone => rw [hnone]; rfl
  · rfl

/-- What is fetched is the present value or a remembered one (R110, R123). -/
theorem fetchByte_present_or_old {a : Nat} {s : State} (h : captureCovers s a = false) (e : Eng) :
    (fetchByte e a s).1 = Memory.read s.mem a ∨ (a, (fetchByte e a s).1) ∈ (s.engine .play e).raced := by
  rw [fetchByte_uncovered h]
  cases hk : ((s.engine .play e).oldValues a)[(drawPick s).1]? with
  | none => exact .inl rfl
  | some v => exact .inr (Engine.mem_oldValues.1 (List.mem_of_getElem? hk))

/-- Each of these values is fetched under some draw: a remembered one at its own index, the present one past the last index. -/
theorem fetchByte_each_possible {a : Nat} {s : State} (h : captureCovers s a = false) (e : Eng) {v : Byte}
    (hv : v = Memory.read s.mem a ∨ (a, v) ∈ (s.engine .play e).raced) :
    ∃ l, (fetchByte e a (s.setScript { s.env.script with picks := l })).1 = v := by
  have scripted (k : Nat) : (fetchByte e a (s.setScript { s.env.script with picks := [k] })).1 =
      (((s.engine .play e).oldValues a)[k]?).getD (Memory.read s.mem a) := by
    refine (fetchByte_uncovered (s := s.setScript { s.env.script with picks := [k] }) h e).trans ?_
    rw [drawPick_cons rfl, State.setScript_engine, State.setScript_mem]
  rcases hv with rfl | hold
  · exact ⟨[((s.engine .play e).oldValues a).length], by rw [scripted, List.getElem?_eq_none le_rfl]; rfl⟩
  · obtain ⟨k, hk⟩ := List.mem_iff_getElem?.1 (Engine.mem_oldValues.2 hold)
    exact ⟨[k], by rw [scripted, hk]; rfl⟩

theorem storeByte_play_engine (a : Nat) (v : Byte) (s : State) (e : Eng) :
    (storeByte a v s).engine .play e = (s.engine .play e).noteRace a (Memory.read s.mem a) := by cases e <;> rfl

/-- A store remembers the value it overwrites exactly where the block is in flight and holds the address. -/
theorem Engine.noteRace_raced (a : Nat) (old : Byte) (g : Engine) : (g.noteRace a old).raced =
    if g.busy = true ∧ g.covers a = true then (a, old) :: g.raced else g.raced := by
  unfold Engine.noteRace
  simp only [Bool.and_eq_true]
  split <;> rfl

/-! ### capture -/

theorem storeByte_record (a : Nat) (v : Byte) (s : State) (e : Eng) :
    (storeByte a v s).engine .record e = s.engine .record e := by cases e <;> rfl

/-- The state after capture sub-engine `e` has written byte `b` at `a` ahead of its completion (R111). -/
def captured (e : Eng) (a : Nat) (b : Byte) (s : State) : State :=
  (storeByte a b s).modEngine .record e fun g => { g with raced := (a, b) :: g.raced }

theorem captured_read (e : Eng) (a : Nat) (b : Byte) (s : State) : Memory.read (captured e a b s).mem a = b := by
  unfold captured; rw [State.modEngine_mem, storeByte_mem, Memory.read_write_same]

theorem captured_engine (e e' : Eng) (a : Nat) (b : Byte) (s : State) : (captured e a b s).engine .record e' =
    if e' = e then { s.engine .record e with raced := (a, b) :: (s.engine .record e).raced } else s.engine .record e' := by
  unfold captured; simp [State.modEngine_engine, storeByte_record]

theorem captured_lookup (e : Eng) (a : Nat) (b : Byte) (s : State) :
    ((captured e a b s).engine .record e).raced.lookup a = some b := by simp [captured_engine]

/-- A byte already written is not owed any more. -/
theorem owes_of_lookup {g : Engine} {a : Nat} {b : Byte} (h : g.raced.lookup a = some b) : g.owes a = false := by
  simp [Engine.owes, h]

theorem lookup_of_owes {g : Engine} {a : Nat} (h : g.owes a = true) : g.raced.lookup a = none := by
  simp only [Engine.owes, Bool.and_eq_true, Option.isNone_iff_eq_none] at h
  exact h.2

theorem mayCapture_not_owing {e : Eng} {a : Nat} {s : State} (h : (s.engine .record e).owes a = false) : mayCapture e a s = s := by
  unfold mayCapture; rw [h]; rfl

/-- What a sub-engine that owes the byte does: draw 0 leaves it owing, any other draw has it write a drawn byte now. -/
theorem mayCapture_owing {e : Eng} {a : Nat} {s : State} (h : (s.engine .record e).owes a = true) : mayCapture e a s =
    if (drawPick s).1 = 0 then (drawPick s).2
    else captured e a (drawByte (drawPick s).2).1 (drawByte (drawPick s).2).2 := by
  have hnone : ((drawPick s).2.engine .record e).raced.lookup a = none := by
    rw [(drawPick_drew s).engine]; exact lookup_of_owes h
  have hfresh : captureByte e a (drawPick s).2 =
      ((drawByte (drawPick s).2).1, storeByte a (drawByte (drawPick s).2).1 (drawByte (drawPick s).2).2) := by
    rcases captureByte_eq e a (drawPick s).2 with ⟨b, hb, -⟩ | ⟨-, hc⟩
    · rw [hnone] at hb; cases hb
    · exact hc
  unfold mayCapture captured
  rw [if_pos h]
  dsimp only
  rw [hfresh]

/-- A sub-engine that may write the byte has drawn at most, or has written it and remembers that. -/
theorem mayCapture_cases (e : Eng) (a : Nat) (s : State) : Drew s (mayCapture e a s) ∨
    ∃ b u, Drew s u ∧ mayCapture e a s = captured e a b u := by
  by_cases h : (s.engine .record e).owes a = true
  · have hd := drawPick_drew s
    rw [mayCapture_owing h]
    split
    · exact .inl hd
    · exact .inr ⟨_, _, hd.trans (drawByte_drew _), rfl⟩
  · rw [mayCapture_not_owing (by simpa using h)]
    exact .inl (Drew.refl s)

/-- Before an access to `a`, the capture blocks leave memory as it was there, or one of them has written the byte there and keeps it:
where both do, the later one (`20_memory.md` R123). -/
theorem settle_old_or_captured (a : Nat) (s : State) : Memory.read (settle a s).mem a = Memory.read s.mem a ∨
    ∃ e, ((settle a s).engine .record e).raced.lookup a = some (Memory.read (settle a s).mem a) := by
  unfold settle
  generalize s.record.hw.active.getD .a = e
  dsimp only
  have holds {u v : State} {b : Byte} {x : Eng} (hv : v = captured x a b u) :
      (v.engine .record x).raced.lookup a = some (Memory.read v.mem a) := by
    rw [hv, captured_lookup, captured_read]
  rcases mayCapture_cases e a s with hd | ⟨b, u, -, hu⟩
  · split
    · exact .inl (by rw [hd.mem])
    · rcases mayCapture_cases e.other a (mayCapture e a s) with hd' | ⟨b, u, -, hu⟩
      · exact .inl (by rw [hd'.mem, hd.mem])
      · exact .inr ⟨e.other, holds hu⟩
  · have hkept := holds hu
    split
    · exact .inr ⟨e, hkept⟩
    · rcases mayCapture_cases e.other a (mayCapture e a s) with hd' | ⟨b', u', -, hu'⟩
      · exact .inr ⟨e, by rw [hd'.engine, hd'.mem]; exact hkept⟩
      · exact .inr ⟨e.other, holds hu'⟩

theorem mayCapture_other_owes {e : Eng} {a : Nat} {s : State} (h : (s.engine .record e.other).owes a = false) :
    ((mayCapture e a s).engine .record e.other).owes a = false := by
  rcases mayCapture_cases e a s with hd | ⟨b, u, hd, hu⟩
  · rw [hd.engine]; exact h
  · rw [hu, captured_engine, if_neg (Eng.other_ne e), hd.engine]; exact h

/-- Where one sub-engine alone owes the byte, the order of the two does not matter. -/
theorem settle_sole {e : Eng} {a : Nat} {s : State} (he : (s.engine .record e).owes a = true)
    (ho : (s.engine .record e.other).owes a = false) : settle a s = mayCapture e a s := by
  have hx : s.record.hw.active.getD .a = e ∨ s.record.hw.active.getD .a = e.other := by
    generalize s.record.hw.active.getD .a = x
    cases x <;> cases e <;> decide
  unfold settle
  dsimp only
  rcases hx with hx | hx <;> rw [hx]
  · split
    · rfl
    · exact mayCapture_not_owing (mayCapture_other_owes ho)
  · rw [mayCapture_not_owing ho, Eng.other_other, if_neg (by rw [ho]; decide)]

/-- The draw 0: the byte is still to be written. -/
theorem settle_sole_zero {e : Eng} {a : Nat} {s : State} {r : List Nat} (he : (s.engine .record e).owes a = true)
    (ho : (s.engine .record e.other).owes a = false) (hp : s.env.script.picks = 0 :: r) :
    settle a s = s.setScript { s.env.script with picks := r } := by
  rw [settle_sole he ho, mayCapture_owing he, drawPick_cons hp]; rfl

/-- Any other draw: the byte is written now, with the next byte of the script. -/
theorem settle_sole_succ {e : Eng} {a k : Nat} {s : State} {r : List Nat} {b : Byte} {bs : List Byte}
    (he : (s.engine .record e).owes a = true) (ho : (s.engine .record e.other).owes a = false)
    (hp : s.env.script.picks = (k + 1) :: r) (hb : s.env.script.bytes = b :: bs) :
    settle a s = captured e a b (s.setScript { s.env.script with picks := r, bytes := bs }) := by
  have hb' : (s.setScript { s.env.script with picks := r }).env.script.bytes = b :: bs := hb
  rw [settle_sole he ho, mayCapture_owing he, drawPick_cons hp, drawByte_cons hb']
  rfl

end Sys2Proof.Machine

namespace Sys2Proof.Proofs

open Sys2Proof.Machine

/-- Settles O40: a fetch delivers the remembered value that its draw names, else the present one, and an access to a byte that one
capture block owes finds the byte written or not as the draw says. -/
theorem raceRule : Obligations.RaceRule := by
  refine ⟨fun s e a h => ⟨fetchByte_present_or_old h e, fun v hv => fetchByte_each_possible h e hv⟩,
    fun s e a v => ⟨Memory.read_write_same _ _ _, ?_⟩, fun s a h => ?_, fun s a => ⟨rfl, settle_old_or_captured a s⟩,
    fun s e a v he ho => ⟨fun r hp => ?_, fun k r b bs hp hb => ?_⟩⟩
  · rw [storeByte_play_engine, Engine.noteRace_raced]
  · unfold hostLoad; rw [settle_uncovered h]
  · unfold hostLoad hostStore
    rw [settle_sole_zero he ho hp, storeByte_record, State.setScript_engine]
    exact ⟨rfl, he, he⟩
  · unfold hostLoad hostStore
    rw [settle_sole_succ he ho hp hb, storeByte_record]
    refine ⟨captured_read _ _ _ _, ?_, Memory.read_write_same _ _ _, owes_of_lookup (captured_lookup _ _ _ _)⟩
    rw [captured_engine, if_pos rfl, State.setScript_engine]

end Sys2Proof.Proofs
end

section
/-! What the other agents do to the DMA hardware of one direction while the host is idle: the moves that the service of a line is made
of, none of which takes a block away from a direction that can run without moving it, or touches one that cannot run. -/

namespace Sys2Proof.Machine

/-! ### what shows in the trace -/

/-- Whether an agent acted is read off the events appended (`10_state.md` R96). -/
theorem acted_iff {g : HwAgent} {s t : State} {l : List Event} (h : t.trace = s.trace ++ l) :
    Acted g s t ↔ ∃ ev ∈ l, g.emits ev = true := by unfold Acted; rw [h, List.drop_left]

/-- What acted in the first part of a run acted in all of it. -/
theorem Acted.before {g : HwAgent} {s t u : State} (h : Acted g s t) (k : ∃ a, t.trace = s.trace ++ a)
    (m : ∃ b, u.trace = t.trace ++ b) : Acted g s u := by
  obtain ⟨a, ha⟩ := k
  obtain ⟨b, hb⟩ := m
  obtain ⟨ev, hev, he⟩ := (acted_iff ha).1 h
  exact (acted_iff (by rw [hb, ha, List.append_assoc])).2 ⟨ev, List.mem_append_left b hev, he⟩

/-- What acted in the last part of a run acted in all of it. -/
theorem Acted.after {g : HwAgent} {s t u : State} (k : ∃ a, t.trace = s.trace ++ a) (m : ∃ b, u.trace = t.trace ++ b)
    (h : Acted g t u) : Acted g s u := by
  obtain ⟨a, ha⟩ := k
  obtain ⟨b, hb⟩ := m
  obtain ⟨ev, hev, he⟩ := (acted_iff hb).1 h
  exact (acted_iff (by rw [hb, ha, List.append_assoc])).2 ⟨ev, List.mem_append_right a hev, he⟩

/-- The event of a transfer is one of its own direction's DMA hardware. -/
theorem emits_transferEvent (x d : Dir) (e : Eng) (addr : Word) (bytes : List Byte) :
    (HwAgent.engine x).emits (transferEvent d e addr bytes) = decide (x = d) := by cases x <;> cases d <;> rfl

theorem completeBlock_trace {d : Dir} {s : State} (h : engineEnabled s d = true) : ∃ e addr bytes,
    (completeBlock d s).trace = s.trace ++ [transferEvent d e addr bytes] := by
  unfold engineEnabled at h
  unfold completeBlock
  split at h
  · next e _ =>
    obtain ⟨bytes, -, hb⟩ := moveBlock_trace d e (s.engine d e).cnt.toNat s
    exact ⟨e, _, bytes, by rw [State.modHw_trace]; exact hb⟩
  · cases h

/-! ### one direction's DMA hardware left alone -/

/-- The DMA hardware of direction `x` and what decides whether it can run are as they were, and none of its bytes moved; of its
sub-engines, only what their access windows saw may differ. -/
structure Untouched (x : Dir) (s t : State) : Prop where
  regs : t.regs = { s.regs with l3wd := t.regs.l3wd }
  en : (t.dir x).hw.en = (s.dir x).hw.en
  active : (t.dir x).hw.active = (s.dir x).hw.active
  busy : ∀ e, (t.engine x e).busy = (s.engine x e).busy
  done : ∀ e, (t.engine x e).done = (s.engine x e).done
  addr : ∀ e, (t.engine x e).addr = (s.engine x e).addr
  cnt : ∀ e, (t.engine x e).cnt = (s.engine x e).cnt
  trace : ∃ l, t.trace = s.trace ++ l ∧ ∀ ev ∈ l, (HwAgent.engine x).emits ev = false

theorem Untouched.trans {x : Dir} {s t u : State} (h : Untouched x s t) (k : Untouched x t u) : Untouched x s u where
  regs := by rw [k.regs, h.regs]
  en := k.en.trans h.en
  active := k.active.trans h.active
  busy := fun e => (k.busy e).trans (h.busy e)
  done := fun e => (k.done e).trans (h.done e)
  addr := fun e => (k.addr e).trans (h.addr e)
  cnt := fun e => (k.cnt e).trans (h.cnt e)
  trace := by
    obtain ⟨a, ha, ea⟩ := h.trace
    obtain ⟨b, hb, eb⟩ := k.trace
    exact ⟨a ++ b, by rw [hb, ha, List.append_assoc], fun ev hev => (List.mem_append.1 hev).elim (ea ev) (eb ev)⟩

/-- Agents that end no block, and record no transfer of direction `x`. -/
theorem Untouched.of_frame {x : Dir} {s t : State} (h : HwFrame s t) (k : FlagsKept s t)
    (ht : ∃ l, t.trace = s.trace ++ l ∧ ∀ ev ∈ l, (HwAgent.engine x).emits ev = false) : Untouched x s t :=
  ⟨bus_regs h.bus, h.en x, k.active x, k.busy x, k.done x, h.addr x, h.cnt x, ht⟩

theorem Untouched.of_hw {x : Dir} {s t : State} (h1 : t.regs = s.regs) (h2 : (t.dir x).hw = (s.dir x).hw)
    (h3 : t.trace = s.trace) : Untouched x s t := by
  refine ⟨by rw [h1], by rw [h2], by rw [h2], fun e => ?_, fun e => ?_, fun e => ?_, fun e => ?_, [], by simp [h3], by simp⟩ <;>
    unfold State.engine <;> rw [h2]

theorem Untouched.refl (x : Dir) (s : State) : Untouched x s s := .of_hw rfl rfl rfl

theorem Drew.untouched {s t : State} (h : Drew s t) (x : Dir) : Untouched x s t :=
  .of_frame h.hwFrame h.flags ⟨[], by simp [h.trace], by simp⟩

/-- The serialiser is no DMA engine. -/
theorem serialise_untouched {s : State} (h : s.l3.busy = true) (x : Dir) : Untouched x s (serialise s) := by
  obtain ⟨b, n, y, -, he⟩ := serialise_eq s
  refine .of_frame (serialise_hwFrame h) (FlagsKept.of_dirs fun d => ?_) ⟨_, by rw [he], fun ev hev => ?_⟩
  · rw [he]; cases d <;> rfl
  · rw [List.mem_singleton.1 hev]; cases b <;> cases x <;> rfl

/-- A change of the other direction's hardware. -/
theorem Untouched.modHw_other {x d : Dir} (h : x ≠ d) (f : DmaHw → DmaHw) (s : State) : Untouched x s (s.modHw d f) :=
  .of_hw (State.modHw_regs _ _ _) (by rw [State.modHw_dir, if_neg h]) (State.modHw_trace _ _ _)

/-- A transfer of the other direction. -/
theorem moveBlock_untouched {x d : Dir} (h : x ≠ d) (e : Eng) (k : Nat) (s : State) : Untouched x s (moveBlock d e k s) := by
  obtain ⟨bytes, -, hb⟩ := moveBlock_trace d e k s
  refine .of_frame (moveBlock_hwFrame d e k s) (moveBlock_flags d e k s) ⟨_, hb, fun ev hev => ?_⟩
  rw [List.mem_singleton.1 hev, emits_transferEvent]
  exact decide_eq_false h

theorem completeBlock_untouched {x d : Dir} (h : x ≠ d) (s : State) : Untouched x s (completeBlock d s) := by
  unfold completeBlock
  split
  · exact (moveBlock_untouched h _ _ s).trans (.modHw_other h _ _)
  · exact .refl x s

theorem abandonBlock_untouched {x d : Dir} (h : x ≠ d) (e : Eng) (s : State) : Untouched x s (abandonBlock d e s) := by
  rcases abandonBlock_eq d e s with ⟨-, ha⟩ | ⟨-, k, t, ht, -, -, ha⟩ <;> rw [ha]
  · exact .refl x s
  · refine (ht.untouched x).trans (Untouched.trans ?_ (.modHw_other h _ _))
    split
    · exact moveBlock_untouched h e k t
    · exact .refl x t

/-- A hardware agent but the direction's own. -/
theorem hwStep_untouched {x : Dir} {g : HwAgent} {s : State} (h : g ∈ hwAgents s) (hg : g ≠ .engine x) :
    Untouched x s (hwStep g s) := by
  cases g with
  | serialiser => exact serialise_untouched (serialiser_of_mem h) x
  | engine d => exact completeBlock_untouched (fun hx => hg (by rw [hx])) s

/-- Whether the direction can run has not changed (`44_dma_engine.md` R270). -/
theorem Untouched.canRun {x : Dir} {s t : State} (h : Untouched x s t) : dmaCanRun t x = dmaCanRun s x := by
  unfold dmaCanRun; rw [h.en, h.regs]

theorem Untouched.stays {x : Dir} {e : Eng} {s t : State} (h : Untouched x s t) (hb : (s.engine x e).busy = true) :
    StaysInFlight x e s t := by
  obtain ⟨l, hl, hev⟩ := h.trace
  refine ⟨(h.busy e).trans hb, h.done e, h.addr e, h.cnt e, h.active, fun ha => ?_⟩
  obtain ⟨ev, hm, he⟩ := (acted_iff hl).1 ha
  rw [hev ev hm] at he
  cases he

/-! ### when the active block can move -/

/-- The channel is enabled, and its active sub-engine has a block in host memory in flight. -/
def DmaHw.Ready (h : DmaHw) : Prop :=
  h.en = true ∧ ∃ e, h.active = some e ∧ (h.eng e).busy = true ∧ (h.eng e).inMemory = true

/-- What `dma_can_run` asks of the registers that are not the DMA engine's (`44_dma_engine.md` R270). -/
def Regs.dmaClocked (r : Regs) : Bool :=
  hasBit r.ctrl0 Config.enb && !hasBit r.ctrl0 Config.rst && hasBit r.pclk Config.i2sClkEn && !hasBit r.pctrl Config.acSel

theorem engineEnabled_iff (s : State) (d : Dir) :
    engineEnabled s d = true ↔ s.regs.dmaClocked = true ∧ (s.dir d).hw.Ready := by
  unfold engineEnabled dmaCanRun DmaHw.Ready Regs.dmaClocked State.engine
  cases (s.dir d).hw.active with
  | none => simp
  | some e => simp only [Bool.and_eq_true, Option.some.injEq, exists_eq_left']; tauto

theorem Untouched.ready {x : Dir} {s t : State} (h : Untouched x s t) (hr : (s.dir x).hw.Ready) : (t.dir x).hw.Ready := by
  obtain ⟨hen, e, ha, hb, hm⟩ := hr
  have haddr : ((t.dir x).hw.eng e).addr = ((s.dir x).hw.eng e).addr := h.addr e
  have hcnt : ((t.dir x).hw.eng e).cnt = ((s.dir x).hw.eng e).cnt := h.cnt e
  refine ⟨h.en.trans hen, e, h.active.trans ha, (h.busy e).trans hb, ?_⟩
  unfold Engine.inMemory at hm ⊢
  rw [haddr, hcnt]
  exact hm

theorem Untouched.enabled {x : Dir} {s t : State} (h : Untouched x s t) (he : engineEnabled s x = true) :
    engineEnabled t x = true := by
  obtain ⟨hc, hr⟩ := (engineEnabled_iff s x).1 he
  exact (engineEnabled_iff t x).2 ⟨by rw [h.regs]; exact hc, h.ready hr⟩

/-- A change of a sub-engine that is not the active one. -/
theorem DmaHw.Ready.modEng_other {h : DmaHw} {e : Eng} (f : Engine → Engine) (ha : h.active ≠ some e) (hr : h.Ready) :
    (h.modEng e f).Ready := by
  obtain ⟨hen, x, hx, hb, hm⟩ := hr
  have hne : x ≠ e := fun hxe => ha (hxe ▸ hx)
  refine ⟨(DmaHw.modEng_en e f h).trans hen, x, (DmaHw.modEng_active e f h).trans hx, ?_⟩
  rw [DmaHw.modEng_eng, if_neg hne]
  exact ⟨hb, hm⟩

/-- The active sub-engine of a channel that is ready is busy. -/
theorem DmaHw.Ready.active_ne {h : DmaHw} {e : Eng} (hr : h.Ready) (hb : (h.eng e).busy = false) : h.active ≠ some e := by
  obtain ⟨-, x, hx, hbx, -⟩ := hr
  intro he
  rw [hx] at he
  cases he
  rw [hb] at hbx
  cases hbx

theorem DmaHw.Ready.modIdle {h : DmaHw} {e : Eng} (f : Engine → Engine) (hb : (h.eng e).busy = false) (hr : h.Ready) :
    (h.modEng e f).Ready := hr.modEng_other f (hr.active_ne hb)

/-- A block started while another one is active waits for it (`44_dma_engine.md` R273). -/
theorem DmaHw.Ready.start {h : DmaHw} {e : Eng} (f : Engine → Engine) (hb : (h.eng e).busy = false) (hr : h.Ready) :
    DmaHw.Ready { h.modEng e f with active := h.active.or (some e) } := by
  have hor : h.active.or (some e) = (h.modEng e f).active := by
    obtain ⟨-, x, hx, -⟩ := hr
    rw [DmaHw.modEng_active, hx]
    rfl
  rw [hor]
  exact hr.modIdle f hb

theorem DmaHw.Ready.enable {h : DmaHw} {w : Word} (hen : hasBit w Config.csEn = true) (hr : h.Ready) :
    (h.clearAndEnable w).Ready := by
  obtain ⟨-, x, hx, hb, hm⟩ := hr
  refine ⟨hen, x, hx, ?_⟩
  rw [DmaHw.clearAndEnable_eng]
  exact ⟨hb, hm⟩

/-- The abandonment of a block that is not the active one. -/
theorem DmaHw.Ready.drop_other {h : DmaHw} {e : Eng} (ha : h.active ≠ some e) (hr : h.Ready) : (h.drop e).Ready := by
  have hk := hr.modEng_other (fun g => { g with busy := false, raced := [] }) ha
  have hsame : h.drop e = h.modEng e fun g => { g with busy := false, raced := [] } := by
    unfold DmaHw.drop; rw [if_neg ha]; cases e <;> rfl
  rw [hsame]
  exact hk

/-! ### the moves of the service of a line -/

/-- One move of the service of a line of direction `d`, hardware agents moving beside it. -/
inductive LineMove (d : Dir) : State → State → Prop
  /-- A hardware agent takes its step. -/
  | agent {s : State} {g : HwAgent} : g ∈ hwAgents s → LineMove d s (hwStep g s)
  /-- Nothing of the DMA hardware. -/
  | quiet {s t : State} : (∀ x, Untouched x s t) → LineMove d s t
  /-- A block of the direction is abandoned in a recovery (`45_rearm_sequencer.md` R293). -/
  | abandon {s : State} (e : Eng) : LineMove d s (abandonBlock d e s)
  /-- The direction's hardware is programmed, started or enabled. -/
  | hardware {s : State} {f : DmaHw → DmaHw} : ((s.dir d).hw.Ready → (f (s.dir d).hw).Ready) → LineMove d s (s.modHw d f)

/-- Any number of them. -/
def LineMoves (d : Dir) (s t : State) : Prop := Relation.ReflTransGen (LineMove d) s t

theorem LineMoves.refl (d : Dir) (s : State) : LineMoves d s s := Relation.ReflTransGen.refl

theorem LineMoves.trans {d : Dir} {s t u : State} (h : LineMoves d s t) (k : LineMoves d t u) : LineMoves d s u :=
  Relation.ReflTransGen.trans h k

theorem LineMove.moves {d : Dir} {s t : State} (h : LineMove d s t) : LineMoves d s t := Relation.ReflTransGen.single h

theorem Drew.lineMoves {s t : State} (h : Drew s t) (d : Dir) : LineMoves d s t := (LineMove.quiet h.untouched).moves

/-- Bookkeeping outside the registers, the directions and the trace. -/
theorem LineMoves.book {d : Dir} {s t : State} (h1 : t.regs = s.regs) (h2 : ∀ x, t.dir x = s.dir x) (h3 : t.trace = s.trace) :
    LineMoves d s t := (LineMove.quiet fun x => .of_hw h1 (by rw [h2]) h3).moves

/-- A change of a direction's software state. -/
theorem LineMoves.software {d d' : Dir} {y : Direction} {s : State} (h : y.hw = (s.dir d').hw) :
    LineMoves d s (s.setDir d' y) := by
  refine (LineMove.quiet fun x => .of_hw (State.setDir_regs _ _ _) ?_ (State.setDir_trace _ _ _)).moves
  rw [State.setDir_dir]
  split
  · next hx => rw [hx]; exact h
  · rfl

theorem hwRounds_lineMoves (d : Dir) (n : Nat) (s : State) : LineMoves d s (hwRounds n s) := by
  induction n generalizing s with
  | zero => exact .refl d s
  | succ n ih =>
    unfold hwRounds
    split
    · exact .refl d s
    · have hd := drawPick_drew s
      generalize drawPick s = r at hd ⊢
      obtain ⟨k, t⟩ := r
      cases k with
      | zero => exact hd.lineMoves d
      | succ j =>
        dsimp only
        split
        · next g hg =>
          have hm : g ∈ hwAgents t := by rw [hd.hwAgents]; exact List.mem_of_getElem? hg
          exact (hd.lineMoves d).trans ((LineMove.agent hm).moves.trans (ih _))
        · exact hd.lineMoves d

theorem hw_lineMoves (d : Dir) (s : State) : LineMoves d s (hw s) := hwRounds_lineMoves d 5 s

theorem passTime_lineMoves (d : Dir) (n : Nat) (s : State) : LineMoves d s (passTime n s) := by
  have tick (u : State) : LineMoves d u { u with env := { u.env with now := u.env.now + n } } :=
    .book rfl (fun x => by cases x <;> rfl) rfl
  unfold passTime
  dsimp only
  split
  · next h =>
    rw [Bool.and_eq_true] at h
    exact (LineMove.quiet (serialise_untouched h.1)).moves.trans (tick _)
  · exact tick s

/-! ### register accesses and starts -/

theorem regRead_lineMoves (d : Dir) (r : Reg) (s : State) : LineMoves d s (regRead r s).2 :=
  (hw_lineMoves d s).trans ((regLoad_drew r (hw s)).lineMoves d)

/-- A write of `CS[d]` with `EN` = 1 (`10_state.md` R57). -/
theorem regWrite_cs_lineMoves {d : Dir} {w : Word} {s t : State} (hen : hasBit w Config.csEn = true)
    (h : regWrite (.cs d) w s = .next t) : LineMoves d s t := by
  refine (hw_lineMoves d s).trans ?_
  have hon : LineMoves d (hw s) ((hw s).modHw d (DmaHw.clearAndEnable w)) := (LineMove.hardware fun hr => hr.enable hen).moves
  rcases storeCs_next h with ⟨hoff, -⟩ | ⟨-, rfl | ⟨e, -, hb, hstart⟩⟩
  · rw [hen] at hoff; cases hoff
  · exact hon
  · obtain ⟨-, rfl⟩ := startEngine_next hstart
    refine hon.trans (LineMove.hardware fun hr => hr.start _ ?_).moves
    rw [State.modHw_dir, if_pos rfl, DmaHw.clearAndEnable_eng]
    exact hb

theorem regWrite_addr_lineMoves {d : Dir} {e : Eng} {v : Word} {s t : State} (h : regWrite (.addr d e) v s = .next t) :
    LineMoves d s t := by
  obtain ⟨hb, rfl⟩ := regStore_addr_next h
  exact (hw_lineMoves d s).trans (LineMove.hardware fun hr => hr.modIdle _ hb).moves

theorem regWrite_cnt_lineMoves {d : Dir} {e : Eng} {v : Word} {s t : State} (h : regWrite (.cnt d e) v s = .next t) :
    LineMoves d s t := by
  obtain ⟨hb, rfl⟩ := regStore_cnt_next h
  exact (hw_lineMoves d s).trans (LineMove.hardware fun hr => hr.modIdle _ hb).moves

theorem startBlock_lineMoves {d : Dir} {addr len : Word} {s t : State} {st : Status}
    (h : startBlock d addr len s = .next (st, t)) : LineMoves d s t := by
  rcases startBlock_next h with ⟨-, -, rfl⟩ | ⟨-, -, rfl⟩ | ⟨-, -, s2, s3, s4, h2, h3, h4, rfl⟩
  · exact .refl d _
  · exact hw_lineMoves d s
  · have hen (e : Eng) : hasBit (Config.csEn ||| startMask e) Config.csEn = true := by cases e <;> decide
    exact (hw_lineMoves d s).trans ((regWrite_addr_lineMoves h2).trans ((regWrite_cnt_lineMoves h3).trans
      ((regWrite_cs_lineMoves (hen _) h4).trans (LineMoves.software rfl))))

/-! ### the handler -/

theorem LineMoves.log (d : Dir) (r : LogRecord) (s : State) : LineMoves d s (s.log r) := .book rfl (State.log_dir r s) rfl

theorem recoverEngine_lineMoves (d : Dir) (e : Eng) (s : State) : LineMoves d s (recoverEngine d e s) := by
  have hidle : ((abandonBlock d e s).engine d e).busy = false := by rw [(abandonBlock_engine d d e e s).1]; simp
  have hcleared : LineMoves d s ((abandonBlock d e s).modEngine d e
      fun g => { g with busy := false, done := false, addr := 0, cnt := 0 }) :=
    (LineMove.abandon e).moves.trans (LineMove.hardware fun hr => hr.modIdle _ hidle).moves
  have hwait (u : State) : LineMoves d u (recoveryWait u) := by
    refine LineMoves.trans (t := { u with seq := { u.seq with recoveryDelay := true } }) ?_
      ((hw_lineMoves d _).trans (passTime_lineMoves d _ _))
    exact .book rfl (fun x => by cases x <;> rfl) rfl
  unfold recoverEngine
  dsimp only
  generalize (abandonBlock d e s).modEngine d e _ = s1 at hcleared ⊢
  exact hcleared.trans ((LineMoves.software (y := { s1.dir d with oppStreak := 0 }) rfl).trans (hwait _))

theorem recoveryChecks_lineMoves (d : Dir) (e : Eng) (s : State) : LineMoves d s (recoveryChecks d e s) := by
  unfold recoveryChecks
  have h1 := regRead_lineMoves d (.cs d) s
  generalize regRead (.cs d) s = r at h1 ⊢
  obtain ⟨cs, s0⟩ := r
  dsimp only at h1 ⊢
  replace h1 := h1.trans (hw_lineMoves d s0)
  generalize hw s0 = s1 at h1 ⊢
  have h2 : LineMoves d s
      (if (s1.dir d).lastServiced = some e then (recoverEngine d e s1).log (.repeatCompletion d e) else s1) := by
    split
    · exact h1.trans ((recoverEngine_lineMoves d e s1).trans (.log d _ _))
    · exact h1
  generalize (if (s1.dir d).lastServiced = some e then (recoverEngine d e s1).log (.repeatCompletion d e) else s1) = s2 at h2 ⊢
  have h3 : LineMoves d s (s2.setDir d { s2.dir d with
      oppStreak := if hasBit cs (startMask e.other) then (s2.dir d).oppStreak + 1 else 0 }) := h2.trans (.software rfl)
  generalize s2.setDir d _ = s3 at h3 ⊢
  split
  · exact h3.trans ((recoverEngine_lineMoves d e.other s3).trans (.log d _ _))
  · exact h3

theorem callback_lineMoves (d : Dir) (s : State) : LineMoves d s (callback d s) := by
  unfold callback
  split
  · refine (LineMove.quiet fun x => .of_frame (HwFrame.emit _ s) (FlagsKept.of_dirs fun _ => State.emit_dir _ _ _)
      ⟨_, State.emit_trace _ _, fun ev hev => ?_⟩).moves
    rw [List.mem_singleton.1 hev]
    cases x <;> rfl
  · exact .refl d s

theorem rearm_lineMoves {d : Dir} {addr len : Word} {s t : State} (h : rearm d addr len s = .next t) : LineMoves d s t := by
  obtain ⟨⟨st, u⟩, hu, h⟩ := andThen_eq_next h
  have hm := startBlock_lineMoves hu
  cases st with
  | ok => cases h; exact hm
  | _ => cases h; exact hm.trans (.log d _ _)

theorem serviceBuffer_lineMoves {d : Dir} {s t : State} (h : serviceBuffer d s = .next t) : LineMoves d s t := by
  unfold serviceBuffer at h
  split at h
  · obtain ⟨u, hu, ht⟩ := advanceBuffer_next h
    have hm : LineMoves d s u := hu ▸ LineMoves.software rfl
    rcases ht with rfl | rfl | ⟨addr, len, ht⟩
    · exact hm
    · exact hm.trans (callback_lineMoves d u)
    · exact hm.trans ((callback_lineMoves d u).trans (rearm_lineMoves ht))
  · cases h; exact .log d _ s

/-- The delivery of a line is moves of its direction (`60_exceptions.md` R346 to R348). -/
theorem deliver_lineMoves {d : Dir} {e : Eng} {s t : State} (h : deliver d e s = .next t) : LineMoves d s t := by
  have hd : irqDir (irqId d e) = d := by cases d <;> cases e <;> rfl
  have hknown : ¬ 3 < (irqId d e).toNat := by cases d <;> cases e <;> decide
  have hen (e : Eng) : hasBit (Config.csEn ||| doneMask e) Config.csEn = true := by cases e <;> decide
  obtain ⟨s1, h1, h⟩ := andThen_eq_next h
  cases h
  unfold handler at h1
  rw [if_neg hknown, hd] at h1
  obtain ⟨s2, h2, h1⟩ := andThen_eq_next h1
  obtain ⟨s3, h3, h1⟩ := andThen_eq_next h1
  cases h1
  have henter : LineMoves d s (enterInterrupt s) := .book rfl (enterInterrupt_dir s) rfl
  have hexit (u : State) : LineMoves d u (exitInterrupt u) := .book rfl (exitInterrupt_dir u) rfl
  have hserviced : LineMoves d s3 (s3.setDir d { s3.dir d with lastServiced := some (irqEng (irqId d e)) }) := .software rfl
  exact henter.trans ((recoveryChecks_lineMoves d _ _).trans ((serviceBuffer_lineMoves h2).trans
    ((regWrite_cs_lineMoves (hen _) h3).trans (hserviced.trans (hexit _)))))

/-! ### a direction that cannot run, one that can -/

/-- A direction that cannot run is not touched by moves of the other one (`44_dma_engine.md` R270). -/
theorem LineMove.stuck {d x : Dir} (hx : x ≠ d) {s t : State} (h : LineMove d s t) (hr : dmaCanRun s x = false) :
    Untouched x s t := by
  cases h with
  | agent hg =>
    refine hwStep_untouched hg fun hgx => ?_
    rw [canRun_of_enabled (engine_of_mem (hgx ▸ hg))] at hr
    cases hr
  | quiet hq => exact hq x
  | abandon e => exact abandonBlock_untouched hx e s
  | hardware _ => exact .modHw_other hx _ s

theorem LineMoves.stuck {d x : Dir} (hx : x ≠ d) {s t : State} (h : LineMoves d s t) (hr : dmaCanRun s x = false) :
    Untouched x s t := by
  induction h with
  | refl => exact .refl x s
  | tail _ m ih => exact ih.trans (m.stuck hx (ih.canRun.trans hr))

/-- The trace has grown, and a block of direction `x` that could move still can, or bytes of that direction have moved. -/
structure Progress (x : Dir) (s t : State) : Prop where
  trace : ∃ l, t.trace = s.trace ++ l
  enabled : engineEnabled s x = true → engineEnabled t x = true ∨ Acted (.engine x) s t

theorem Progress.trans {x : Dir} {s t u : State} (h : Progress x s t) (k : Progress x t u) : Progress x s u where
  trace := by
    obtain ⟨a, ha⟩ := h.trace
    obtain ⟨b, hb⟩ := k.trace
    exact ⟨a ++ b, by rw [hb, ha, List.append_assoc]⟩
  enabled := fun he => by
    rcases h.enabled he with ht | ha
    · exact (k.enabled ht).imp_right (Acted.after h.trace k.trace)
    · exact .inr (ha.before h.trace k.trace)

theorem Untouched.progress {x : Dir} {s t : State} (h : Untouched x s t) : Progress x s t :=
  ⟨let ⟨l, hl, _⟩ := h.trace; ⟨l, hl⟩, fun he => .inl (h.enabled he)⟩

theorem completeBlock_progress {x : Dir} {s : State} (h : engineEnabled s x = true) : Progress x s (completeBlock x s) := by
  obtain ⟨e, addr, bytes, ht⟩ := completeBlock_trace h
  exact ⟨⟨_, ht⟩, fun _ => .inr ((acted_iff ht).2 ⟨_, List.mem_singleton_self _, by simp [emits_transferEvent]⟩)⟩

theorem hardware_progress {x : Dir} {f : DmaHw → DmaHw} {s : State} (h : (s.dir x).hw.Ready → (f (s.dir x).hw).Ready) :
    Progress x s (s.modHw x f) := by
  refine ⟨⟨[], by simp⟩, fun he => .inl ?_⟩
  obtain ⟨hc, hr⟩ := (engineEnabled_iff s x).1 he
  refine (engineEnabled_iff _ x).2 ⟨by rw [State.modHw_regs]; exact hc, ?_⟩
  rw [State.modHw_dir, if_pos rfl]
  exact h hr

/-- The abandonment of the active block shows in the trace, however many bytes it moves; that of a pending one leaves the active one
alone (`44_dma_engine.md` R274). -/
theorem abandonBlock_progress (x : Dir) (e : Eng) (s : State) : Progress x s (abandonBlock x e s) := by
  refine ⟨(abandonBlock_hwFrame x e s).trace, fun he => ?_⟩
  obtain ⟨hc, hr⟩ := (engineEnabled_iff s x).1 he
  rcases abandonBlock_eq x e s with ⟨-, ha⟩ | ⟨-, k, t, ht, -, -, ha⟩
  · rw [ha]; exact .inl he
  by_cases hm : (s.engine x e).inMemory = true
  · rw [if_pos hm] at ha
    obtain ⟨bytes, -, hb⟩ := moveBlock_trace x e k t
    have htr : (abandonBlock x e s).trace = s.trace ++ [transferEvent x e (t.engine x e).addr bytes] := by
      rw [ha, State.modHw_trace, hb, ht.trace]
    exact .inr ((acted_iff htr).2 ⟨_, List.mem_singleton_self _, by simp [emits_transferEvent]⟩)
  · rw [if_neg hm] at ha
    have hne : (s.dir x).hw.active ≠ some e := fun hae => by
      obtain ⟨-, y, hy, -, hym⟩ := hr
      rw [hae] at hy
      cases hy
      exact hm hym
    have hu := ht.untouched x
    rw [ha]
    refine ((hu.progress).trans (hardware_progress fun hrt => hrt.drop_other ?_)).enabled he
    rw [hu.active]
    exact hne

theorem LineMove.progress {d : Dir} {s t : State} (h : LineMove d s t) (x : Dir) : Progress x s t := by
  cases h with
  | @agent g hg =>
    by_cases hgx : g = .engine x
    · subst hgx; exact completeBlock_progress (engine_of_mem hg)
    · exact (hwStep_untouched hg hgx).progress
  | quiet hq => exact (hq x).progress
  | abandon e =>
    by_cases hx : x = d
    · subst hx; exact abandonBlock_progress x e s
    · exact (abandonBlock_untouched hx e s).progress
  | hardware hf =>
    by_cases hx : x = d
    · subst hx; exact hardware_progress hf
    · exact (Untouched.modHw_other hx _ s).progress

theorem LineMoves.progress {d : Dir} {s t : State} (h : LineMoves d s t) (x : Dir) : Progress x s t := by
  induction h with
  | refl => exact (Untouched.refl x s).progress
  | tail _ m ih => exact ih.trans (m.progress x)

/-! ### steps with an idle host -/

/-- An idle host only lets time pass. -/
theorem hostTurn_idle {s t : State} (hi : HostIdle s) (h : hostTurn exec s = .next t) : t = passTime 1 s := by
  obtain ⟨hp, hh⟩ := hi
  unfold hostTurn hostAction at h
  rw [hp, hh] at h
  exact (Host.Outcome.next.inj h).symm

theorem Drew.hostIdle {s t : State} (h : Drew s t) (hi : HostIdle s) : HostIdle t := by
  obtain ⟨n, x, -, rfl⟩ := h; exact hi

/-- A step with an idle host is moves that belong to no line, or the service of a deliverable one. -/
theorem step_idle_lineMoves {s t : State} (hi : HostIdle s) (h : step s = .next t) :
    (∀ d, LineMoves d s t) ∨ ∃ d e, deliverable s d e = true ∧ LineMoves d s t := by
  have hd := (choose_spec s).1
  obtain ⟨-, ⟨g, hg, -, h⟩ | ⟨-, h⟩⟩ := step_cases h
  · cases g with
    | hardware g =>
      cases h
      have hm : g ∈ hwAgents (choose s).2 := by rw [hd.hwAgents]; exact hardware_of_mem hg
      exact .inl fun d => (hd.lineMoves d).trans (LineMove.agent hm).moves
    | line d e => exact .inr ⟨d, e, line_of_mem hg, (hd.lineMoves d).trans (deliver_lineMoves h)⟩
  · rw [hostTurn_idle (hd.hostIdle hi) h]
    exact .inl fun d => (hd.lineMoves d).trans (passTime_lineMoves d 1 _)

/-- A host that is idle stays so: other agents issue nothing (`60_exceptions.md` R346). -/
theorem step_hostIdle {s t : State} (hi : HostIdle s) (h : step s = .next t) : HostIdle t := by
  have hc : CtxFrame s t := by
    have hd := (choose_spec s).1
    obtain ⟨-, ⟨g, hg, -, h⟩ | ⟨-, h⟩⟩ := step_cases h
    · exact actorStep_ctx hg hd h
    · rw [hostTurn_idle (hd.hostIdle hi) h]; exact hd.hwFrame.ctx.trans (passTime_ctx 1 _)
  unfold HostIdle
  rw [hc.port, hc.host]
  exact hi

theorem step_idle_progress {s t : State} (hi : HostIdle s) (h : step s = .next t) (x : Dir) : Progress x s t := by
  rcases step_idle_lineMoves hi h with hm | ⟨d, e, -, hm⟩
  · exact (hm x).progress x
  · exact hm.progress x

theorem Dir.exists_ne (x : Dir) : ∃ d, x ≠ d := by
  cases x
  · exact ⟨.record, by decide⟩
  · exact ⟨.play, by decide⟩

/-- Hardware agents leave a direction that cannot run alone. -/
theorem hw_stuck {x : Dir} {s : State} (hr : dmaCanRun s x = false) : Untouched x s (hw s) := by
  obtain ⟨d, hd⟩ := Dir.exists_ne x
  exact (hw_lineMoves d s).stuck hd hr

/-- So does a step with an idle host and no line of that direction to deliver. -/
theorem step_idle_stuck {x : Dir} {s t : State} (hi : HostIdle s) (hl : ∀ e, deliverable s x e = false)
    (h : step s = .next t) (hr : dmaCanRun s x = false) : Untouched x s t := by
  rcases step_idle_lineMoves hi h with hm | ⟨d, e, hde, hm⟩
  · obtain ⟨d, hd⟩ := Dir.exists_ne x
    exact (hm d).stuck hd hr
  · have hd : x ≠ d := fun hxd => by rw [← hxd, hl e] at hde; cases hde
    exact hm.stuck hd hr

/-! ### runs -/

theorem run_hostIdle {r : Nat → State} {n : Nat} (hr : IsRun r) (hi : HostIdle (r n)) {m : Nat} (hm : n ≤ m) :
    HostIdle (r m) := Nat.le_induction hi (fun k _ ih => step_hostIdle ih (hr k)) m hm

/-- A block that can move, and of whose direction no byte is ever moved, can always move. -/
theorem run_enabled {r : Nat → State} {n : Nat} {d : Dir} (hr : IsRun r) (hi : HostIdle (r n))
    (he : engineEnabled (r n) d = true) (hno : ∀ m, n ≤ m → ¬ Acted (.engine d) (r m) (r (m + 1))) {m : Nat} (hm : n ≤ m) :
    engineEnabled (r m) d = true :=
  Nat.le_induction he (fun k hk ih =>
    ((step_idle_progress (run_hostIdle hr hi hk) (hr k) d).enabled ih).resolve_right (hno k hk)) m hm

theorem mem_of_engine {d : Dir} {s : State} (h : engineEnabled s d = true) : HwAgent.engine d ∈ hwAgents s := by
  unfold hwAgents; cases d <;> simp [h]

end Sys2Proof.Machine

namespace Sys2Proof.Proofs

open Sys2Proof.Machine

/-- Settles O60: a block that never moved would stay able to move, and a line never taken would stay deliverable, against fairness;
and the moves of a step with an idle host leave a direction that cannot run as it is. -/
theorem fairRunsProgress : Obligations.FairRunsProgress := by
  refine ⟨fun r n hrun hfair hi => ⟨fun d he => ?_, fun d e hd => ?_⟩, fun s d e hb hr => ⟨fun hm => ?_, ?_, fun t hi hl h => ?_⟩⟩
  · by_contra! hno
    obtain ⟨m, hm, ha⟩ := hfair.hardware (.engine d) n fun m hm => mem_of_engine (run_enabled hrun hi he hno hm)
    exact hno m hm ha
  · by_contra! hno
    have hstays (m : Nat) (hm : n ≤ m) : deliverable (r m) d e = true := by simpa using (hno m hm).2
    obtain ⟨m, hm, hc⟩ := hfair.lines d e n fun m hm => ⟨hstays m hm, run_hostIdle hrun hi hm⟩
    exact (hno m hm).1 hc
  · rw [canRun_of_enabled (engine_of_mem hm)] at hr; cases hr
  · exact (hw_stuck hr).stays hb
  · have hu := step_idle_stuck hi hl h hr
    exact ⟨hu.stays hb, hu.canRun.trans hr⟩

end Sys2Proof.Proofs
end

section
/-! The command packet: an operation word is its four fields, a row's mask tests them one by one, and each row of the opcode table builds
the operation whose packet has the words its format reads (`30_encoding.md` R140 to R145). -/

namespace Sys2Proof

open Sys2Proof.Machine

/-! ### the fields of an operation word (`30_encoding.md` R140) -/

/-- A word from its four fields, high to low: bits 31:17, `LOOP`, `SEL`, `OPC`. -/
def fieldWord (zero : BitVec 15) (loop : Bool) (sel opc : Byte) : Word := zero ++ BitVec.ofBool loop ++ sel ++ opc

theorem opWord_eq_fieldWord (opc sel : Byte) (loop : Bool) : opWord opc sel loop = fieldWord 0 loop sel opc := rfl

@[simp] theorem opcOf_fieldWord (z : BitVec 15) (l : Bool) (sel opc : Byte) : opcOf (fieldWord z l sel opc) = opc :=
  BitVec.extractLsb'_append_eq_right

@[simp] theorem selOf_fieldWord (z : BitVec 15) (l : Bool) (sel opc : Byte) : selOf (fieldWord z l sel opc) = sel := by
  unfold selOf fieldWord
  rw [BitVec.extractLsb'_append_eq_of_le (by decide)]
  exact BitVec.extractLsb'_append_eq_right

@[simp] theorem loopOf_fieldWord (z : BitVec 15) (l : Bool) (sel opc : Byte) : loopOf (fieldWord z l sel opc) = l := by
  simp only [loopOf, fieldWord, BitVec.getLsbD_append]
  exact BitVec.getLsbD_ofBool l 0

@[simp] theorem zeroOf_fieldWord (z : BitVec 15) (l : Bool) (sel opc : Byte) : zeroOf (fieldWord z l sel opc) = z := by
  unfold zeroOf fieldWord
  rw [BitVec.extractLsb'_append_eq_of_le (by decide), BitVec.extractLsb'_append_eq_of_le (by decide)]
  exact BitVec.extractLsb'_append_eq_left

theorem ofBool_loopOf (w : Word) : BitVec.ofBool (loopOf w) = w.extractLsb' 16 1 := by
  apply BitVec.eq_of_getLsbD_eq
  intro n hn
  obtain rfl : n = 0 := by omega
  simp [loopOf]

/-- A word is made of its fields. -/
theorem fieldWord_of (w : Word) : fieldWord (zeroOf w) (loopOf w) (selOf w) (opcOf w) = w := by
  unfold fieldWord zeroOf selOf opcOf
  rw [ofBool_loopOf, BitVec.extractLsb'_append_extractLsb'_eq_extractLsb' (by decide),
    BitVec.extractLsb'_append_extractLsb'_eq_extractLsb' (by decide),
    BitVec.extractLsb'_append_extractLsb'_eq_extractLsb' (by decide)]
  exact BitVec.extractLsb'_eq_self

theorem fieldWord_inj {z z' : BitVec 15} {l l' : Bool} {sel sel' opc opc' : Byte} :
    fieldWord z l sel opc = fieldWord z' l' sel' opc' ↔ z = z' ∧ l = l' ∧ sel = sel' ∧ opc = opc' := by
  refine ⟨fun h => ⟨?_, ?_, ?_, ?_⟩, fun ⟨hz, hl, hs, ho⟩ => by rw [hz, hl, hs, ho]⟩
  · simpa using congrArg zeroOf h
  · simpa using congrArg loopOf h
  · simpa using congrArg selOf h
  · simpa using congrArg opcOf h

theorem fieldWord_and (z z' : BitVec 15) (l l' : Bool) (sel sel' opc opc' : Byte) :
    fieldWord z l sel opc &&& fieldWord z' l' sel' opc' =
      fieldWord (z &&& z') (l && l') (sel &&& sel') (opc &&& opc') := by
  unfold fieldWord
  rw [BitVec.and_append, BitVec.and_append, BitVec.and_append, BitVec.ofBool_and_ofBool]

/-- An opcode, widened, is the word whose other fields are 0. -/
theorem setWidth_eq_fieldWord (opc : Byte) : opc.setWidth 32 = fieldWord 0 false 0 opc := by
  rw [BitVec.setWidth_eq_append (by decide : 8 ≤ 32)]
  rfl

/-! ### masks (`30_encoding.md` R141) -/

/-- The bits of `SEL` that a format's mask tests. -/
def Format.selMask : Format → Byte
  | .n | .v | .l3 => 0xFF
  | .rr | .rw => 0xFE
  | .s | .st | .ar => 0x00

/-- The selectors a format admits: none but 0, a region, or any. -/
def Format.admits : Format → Byte → Prop
  | .n, sel | .v, sel | .l3, sel => sel = 0
  | .rr, sel | .rw, sel => sel.toNat < 2
  | .s, _ | .st, _ | .ar, _ => True

theorem Format.mask_eq (f : Format) : f.mask = fieldWord (BitVec.allOnes 15) (f ≠ .ar) f.selMask (BitVec.allOnes 8) := by
  cases f <;> decide

/-- Bits 7:1 of a selector are 0 exactly when it names region 0 or 1. -/
theorem region_masked_iff (sel : Byte) : sel &&& 0xFE = 0 ↔ sel.toNat < 2 := by
  have hsplit : sel.extractLsb' 1 7 ++ sel.extractLsb' 0 1 = sel := by
    rw [BitVec.extractLsb'_append_extractLsb'_eq_extractLsb' (by decide)]
    exact BitVec.extractLsb'_eq_self
  have hmask : sel &&& 0xFE = sel.extractLsb' 1 7 ++ 0#1 := by
    conv_lhs => rw [← hsplit, show (0xFE : Byte) = BitVec.allOnes 7 ++ 0#1 by decide, BitVec.and_append, BitVec.and_allOnes,
      BitVec.and_zero]
  rw [hmask, show (0 : Byte) = 0#7 ++ 0#1 by decide, BitVec.append_left_inj, ← BitVec.toNat_inj, BitVec.extractLsb'_toNat,
    BitVec.toNat_ofNat, Nat.shiftRight_eq_div_pow]
  have := sel.isLt
  omega

theorem Format.selMask_iff (f : Format) (sel : Byte) : sel &&& f.selMask = 0 ↔ f.admits sel := by
  have hall : sel &&& 0xFF = sel := BitVec.and_allOnes
  cases f with
  | n | v | l3 => exact Eq.congr_left hall
  | rr | rw => exact region_masked_iff sel
  | s | st | ar => exact iff_of_true BitVec.and_zero trivial

/-- What a mask leaves of each field. -/
theorem and_mask (f : Format) (w : Word) :
    w &&& f.mask = fieldWord (zeroOf w) (loopOf w && decide (f ≠ .ar)) (selOf w &&& f.selMask) (opcOf w) := by
  conv_lhs => rw [← fieldWord_of w, f.mask_eq, fieldWord_and, BitVec.and_allOnes, BitVec.and_allOnes]

/-- A row's mask tests bits 31:17, `LOOP` on every format but `SES.ARM`'s, and the selector as the format reads it. -/
theorem masked_iff (f : Format) (w : Word) (opc : Byte) : w &&& f.mask = opc.setWidth 32 ↔
    zeroOf w = 0 ∧ (loopOf w = true → f = .ar) ∧ f.admits (selOf w) ∧ opcOf w = opc := by
  rw [and_mask, setWidth_eq_fieldWord, fieldWord_inj, f.selMask_iff]
  simp

/-! ### the decoder (`30_encoding.md` R141, R145) -/

/-- A packet decodes to what its opcode's row builds, when the row's mask admits the operation word. -/
theorem decode_ok_iff {p : Packet} {i : Instr} : decode p = .ok i ↔ ∃ f build, opcodeRow (opcOf p.opw) = some (f, build) ∧
    p.opw &&& f.mask = (opcOf p.opw).setWidth 32 ∧ build p = i := by
  unfold decode
  split
  · next hrow => simp [hrow]
  · next f build hrow => by_cases hm : p.opw &&& f.mask = (opcOf p.opw).setWidth 32 <;> simp [hm, hrow]

theorem decode_error_iff {p : Packet} : (∃ e, decode p = .error e) ↔ ¬ ∃ i, decode p = .ok i := by
  cases decode p <;> simp

/-! ### the rows (`30_encoding.md` R142, R144) -/

/-- The operation word of which a format's row keeps the fields it reads. -/
def Format.opwRead (w : Word) : Format → Word
  | .n | .v | .l3 => opWord (opcOf w) 0 false
  | .rr | .rw | .s | .st => opWord (opcOf w) (selOf w) false
  | .ar => opWord (opcOf w) (selOf w) (loopOf w)

/-- Where the mask admits the word, the fields that are not read are 0. -/
theorem Format.opwRead_of_masked {f : Format} {w : Word} (h : w &&& f.mask = (opcOf w).setWidth 32) : f.opwRead w = w := by
  obtain ⟨hz, hl, hs, -⟩ := (masked_iff f w _).1 h
  have hw := fieldWord_of w
  rw [hz] at hw
  have hno (hf : f ≠ .ar) : loopOf w = false := by simpa using mt hl hf
  cases f with
  | n | v | l3 => rwa [hno (by decide), show selOf w = 0 from hs] at hw
  | rr | rw | s | st => rwa [hno (by decide)] at hw
  | ar => exact hw

/-- A row's operation: its opcode and format are the row's, its packet holds the words the format reads, and it is well formed when
the mask admits the selector. -/
structure BuildsRow (opc : Byte) (f : Format) (p : Packet) (i : Instr) : Prop where
  opcode : i.opcode = opc
  format : i.format = f
  packet : encode i = { wordsRead f p with opw := f.opwRead p.opw }
  wellFormed : f.admits (selOf p.opw) → i.wellFormed = true

/-- `A[7:0]` and `B[7:0]` of `L3.SEND` (R144), as the low byte of a word. -/
theorem lowByte_eq_and (w : Word) : (w.extractLsb' 0 8).setWidth 32 = w &&& 0xFF := by
  have hmod : w.toNat &&& 255 = w.toNat % 256 := Nat.and_two_pow_sub_one_eq_mod _ 8
  apply BitVec.eq_of_toNat_eq
  rw [BitVec.toNat_and, show (0xFF : Word).toNat = 255 by rfl, hmod, BitVec.toNat_setWidth, BitVec.extractLsb'_toNat,
    Nat.shiftRight_zero]
  omega

theorem eq_ofNat_of_toNat {opc : Byte} {n : Nat} (h : opc.toNat = n) : opc = BitVec.ofNat 8 n := by
  rw [← h, BitVec.ofNat_toNat, BitVec.setWidth_eq]

/-- Row by row: the operation read from the packet is that of the opcode, and writing it out again gives the words that were read. -/
theorem opcodeRow_builds {p : Packet} {f : Format} {build : Packet → Instr}
    (h : opcodeRow (opcOf p.opw) = some (f, build)) : BuildsRow (opcOf p.opw) f p (build p) := by
  unfold opcodeRow at h
  split at h
  case h_30 => cases h
  all_goals
    next hopc =>
    cases h
    have ho := eq_ofNat_of_toNat hopc
    constructor
    · simp [Instr.opcode, ho]
    · simp [Instr.format]
    · simp [encode, wordsRead, Format.opwRead, ho, lowByte_eq_and]
    · simp [Instr.wellFormed, Format.admits]

/-- Every operation is what its opcode's row builds from its packet. -/
theorem opcodeRow_reads (i : Instr) : ∃ build, opcodeRow i.opcode = some (i.format, build) ∧ build (encode i) = i := by
  cases i with
  | l3Send a b => exact ⟨_, rfl, congrArg₂ Instr.l3Send (byteOperand a) (byteOperand b)⟩
  | _ => exact ⟨_, rfl, by simp [encode, opWord_eq_fieldWord]⟩

theorem opcOf_encode (i : Instr) : opcOf (encode i).opw = i.opcode := by
  cases i <;> exact opcOf_fieldWord _ _ _ _

/-- The encoding of a well-formed operation passes the mask of the operation's row. -/
theorem encode_masked {i : Instr} (h : i.wellFormed = true) : (encode i).opw &&& i.format.mask = i.opcode.setWidth 32 := by
  cases i with
  | regWr | regRd => exact Laws.TableRow.region_row _ _ (by simpa [Instr.wellFormed] using h)
  | dmaStart | dmaPoll | irqReq | irqRel | chOpen | chClose | sesStop | sesPos => exact Laws.TableRow.sel_row _ _
  | sesArm => exact Laws.TableRow.loop_row _ _ _
  | _ => exact Laws.TableRow.plain_row _

/-! ### legal and illegal packets (`30_encoding.md` R145) -/

/-- A packet decodes exactly when some row matches its operation word. -/
theorem decode_ok_iff_matches {p : Packet} :
    (∃ i, decode p = .ok i) ↔ ∃ i : Instr, p.opw &&& i.format.mask = i.opcode.setWidth 32 := by
  constructor
  · rintro ⟨i, hi⟩
    obtain ⟨f, build, hrow, hm, rfl⟩ := decode_ok_iff.1 hi
    have hb := opcodeRow_builds hrow
    exact ⟨build p, by rw [hb.format, hb.opcode, hm]⟩
  · rintro ⟨i, hm⟩
    obtain ⟨-, -, -, ho⟩ := (masked_iff _ _ _).1 hm
    obtain ⟨build, hrow, -⟩ := opcodeRow_reads i
    exact ⟨build p, decode_ok_iff.2 ⟨i.format, build, by rw [ho, hrow], by rw [ho, hm], rfl⟩⟩

theorem Instr.format_ar_iff (i : Instr) : i.format = .ar ↔ i.opcode = 0x62 := by
  cases i <;> simp [Instr.format, Instr.opcode]

theorem Instr.format_region_iff (i : Instr) : i.format = .rr ∨ i.format = .rw ↔ i.opcode = 0x01 ∨ i.opcode = 0x02 := by
  cases i <;> simp [Instr.format, Instr.opcode]

theorem Format.not_admits_iff (f : Format) (sel : Byte) : ¬ f.admits sel ↔
    (2 ≤ sel.toNat ∧ (f = .rr ∨ f = .rw)) ∨ (sel ≠ 0 ∧ (f = .n ∨ f = .v ∨ f = .l3)) := by
  cases f <;> simp [Format.admits, Nat.succ_le_iff]

/-- The reasons R145 gives for the operation word of a known opcode. -/
theorem not_masked_iff {p : Packet} {f : Format} {build : Packet → Instr} (h : opcodeRow (opcOf p.opw) = some (f, build)) :
    ¬ p.opw &&& f.mask = (opcOf p.opw).setWidth 32 ↔
      zeroOf p.opw ≠ 0 ∨ (loopOf p.opw = true ∧ opcOf p.opw ≠ 0x62) ∨
        (2 ≤ (selOf p.opw).toNat ∧ (opcOf p.opw = 0x01 ∨ opcOf p.opw = 0x02)) ∨
        (selOf p.opw ≠ 0 ∧ (f = .n ∨ f = .v ∨ f = .l3)) := by
  have hb := opcodeRow_builds h
  have har := (build p).format_ar_iff
  have hregion := (build p).format_region_iff
  rw [hb.format, hb.opcode] at har hregion
  rw [masked_iff, ← hregion, ← f.not_admits_iff, ne_eq, ne_eq, ← har]
  tauto

end Sys2Proof

namespace Sys2Proof.Machine

/-! ### an illegal packet runs (`30_encoding.md` R145) -/

/-- Where the choice falls on the host and its packet is illegal, the step completes the operation with `EILLEGAL`. -/
theorem step_illegal {s s1 : State} {e : DecodeError} (hc : s.cfg.chipAddr ≠ 0) (hs : choose s = (none, s1))
    (hp : s1.port.pending = true) (hq : s1.seq = Seq.idle) (hd : decode (portPacket s1) = .error e) :
    step s = .next (answered 0 3 s1) := by
  unfold step turn
  rw [if_neg hc, hs]
  show hostTurn exec s1 = .next (answered 0 3 s1)
  unfold hostTurn runPacket
  rw [if_pos hp, if_pos hq, hd]
  rfl

theorem Drew.port {s t : State} (h : Drew s t) : t.port = s.port := by obtain ⟨n, x, -, rfl⟩ := h; rfl

theorem Drew.seq {s t : State} (h : Drew s t) : t.seq = s.seq := by obtain ⟨n, x, -, rfl⟩ := h; rfl

end Sys2Proof.Machine

namespace Sys2Proof.Proofs

open Sys2Proof.Machine

/-- Settles O1: the opcode of the encoding finds the operation's row, whose mask it passes and which reads every operand back. -/
theorem decodeEncodeRoundTrip : Obligations.DecodeEncodeRoundTrip := by
  intro i hi
  obtain ⟨build, hrow, hread⟩ := opcodeRow_reads i
  exact decode_ok_iff.2 ⟨i.format, build, by rw [opcOf_encode, hrow], by rw [opcOf_encode, encode_masked hi], hread⟩

/-- Settles O2: the mask leaves nothing in the operation word beyond the fields that the row's operation keeps. -/
theorem decodedPacketIsItsEncoding : Obligations.DecodedPacketIsItsEncoding := by
  intro p i h
  obtain ⟨f, build, hrow, hmask, rfl⟩ := decode_ok_iff.1 h
  obtain ⟨-, -, hsel, -⟩ := (masked_iff _ _ _).1 hmask
  have hb := opcodeRow_builds hrow
  refine ⟨?_, hb.wellFormed hsel⟩
  rw [hb.packet, hb.format, Format.opwRead_of_masked hmask]
  cases f <;> rfl

/-- Settles O3: a row matches or the opcode or the mask refuses; the count of opcodes is evaluated; and an illegal packet's turn is the
host's. -/
theorem illegalPacketsComplete : Obligations.IllegalPacketsComplete := by
  refine ⟨fun p => ?_, fun p => ?_, ?_, fun s e hc hquiet hp hq hd => ?_, fun s s1 e hc hbusy hpick hp hq hd => ?_⟩
  · rw [decode_error_iff, decode_ok_iff_matches, not_exists]
  · rw [decode_error_iff]
    cases hrow : opcodeRow (opcOf p.opw) with
    | none => simp [decode_ok_iff, hrow]
    | some row =>
      obtain ⟨f, build⟩ := row
      have hlegal : (∃ i, decode p = .ok i) ↔ p.opw &&& f.mask = (opcOf p.opw).setWidth 32 := by
        simp [decode_ok_iff, hrow]
      rw [hlegal, not_masked_iff hrow]
      simp
  · rfl
  · exact step_illegal hc (choose_quiet hquiet) hp hq hd
  · have hdrew := drawPick_drew s
    rw [hpick] at hdrew
    have hpacket : portPacket s1 = portPacket s := by unfold portPacket; rw [hdrew.port]
    exact step_illegal hc (choose_host hbusy hpick) (by rw [hdrew.port, hp]) (by rw [hdrew.seq, hq]) (hpacket ▸ hd)

/-- Settles O4: each packet is the encoding of its operation. -/
theorem specPacketsDecode : Obligations.SpecPacketsDecode :=
  ⟨decodeEncodeRoundTrip (.regWr 0 0x04 0x2) rfl,
    decodeEncodeRoundTrip (.regRd 1 0x200) rfl,
    decodeEncodeRoundTrip (.l3Send 0x14 0x1F) rfl,
    decodeEncodeRoundTrip (.setVol 40) rfl,
    decodeEncodeRoundTrip (.dmaStart 0 0x100000 1024) rfl,
    decodeEncodeRoundTrip (.dmaStart 1 0x200000 512) rfl,
    decodeEncodeRoundTrip (.sesArm 0 true 0x100000 4096 1024 7) rfl,
    decodeEncodeRoundTrip (.irqEvt 1) rfl⟩

end Sys2Proof.Proofs
end

section
/-! `REG.WR` of the registers that only store, the values `REG.RD` reads, and that no other operation can end in a bus fault. -/

namespace Sys2Proof.Machine

/-! ### `REG.WR` of `PGPIO` (`10_state.md` R65, R96) -/

/-- A change of the amplifier lines is one `Amp` event. -/
theorem noteAmp_eq (old : Word) (s : State) : noteAmp old s = { s with
    trace := s.trace ++ if s.regs.pgpio = old then []
      else [.amp (s.regs.pgpio.getLsbD 0) (s.regs.pgpio.getLsbD 1)] } := by
  unfold noteAmp
  rw [← hasBit_twoPow _ 0 (by decide), ← hasBit_twoPow _ 1 (by decide)]
  split
  · rw [List.append_nil]
  · rfl

theorem exec_regWr_pgpio {rgn : Byte} {off : Word} (hr : regAt rgn off = some .pgpio) (v : Word) (s : State) :
    exec (.regWr rgn off v) s = .next (answered 0 0 { hw s with
      regs := { (hw s).regs with pgpio := v &&& 0x3 }
      trace := (hw s).trace ++ if v &&& 0x3 = s.regs.pgpio then [] else [.amp (v.getLsbD 0) (v.getLsbD 1)] }) := by
  have hrun : exec (.regWr rgn off v) s =
      .next (finish 0 .ok (noteAmp s.regs.pgpio { hw s with regs := { (hw s).regs with pgpio := v &&& 0x3 } })) := by
    show execRegWr rgn off v s = _
    unfold execRegWr
    rw [hr]
    rfl
  have bit0 : (v &&& 0x3).getLsbD 0 = v.getLsbD 0 := by simp
  have bit1 : (v &&& 0x3).getLsbD 1 = v.getLsbD 1 := by simp
  rw [hrun, noteAmp_eq, bit0, bit1]
  rfl

theorem lowByte_eq_setWidth (w : Word) : w.extractLsb' 0 8 = w.setWidth 8 := by
  apply BitVec.eq_of_getLsbD_eq
  intro n hn
  simp [hn]

/-! ### the bits of `CS[d]` and `STATUS` (`10_state.md` R44, R56) -/

theorem flagAt_twoPow_getLsbD (b : Bool) {k : Nat} (hk : k < 32) (n : Nat) :
    (flagAt b (BitVec.twoPow 32 k)).getLsbD n = (b && decide (k = n)) := by
  cases b <;> simp [flagAt, hk]

theorem csWord_getLsbD (h : DmaHw) (n : Nat) : (csWord h).getLsbD n =
    (h.en && decide (0 = n) || h.engA.done && decide (3 = n) || h.engA.busy && decide (4 = n) ||
      h.engB.done && decide (5 = n) || h.engB.busy && decide (6 = n) || (h.active == some .b) && decide (7 = n)) := by
  have hword : csWord h = flagAt h.en (BitVec.twoPow 32 0) ||| flagAt h.engA.done (BitVec.twoPow 32 3) |||
    flagAt h.engA.busy (BitVec.twoPow 32 4) ||| flagAt h.engB.done (BitVec.twoPow 32 5) |||
    flagAt h.engB.busy (BitVec.twoPow 32 6) ||| flagAt (h.active == some .b) (BitVec.twoPow 32 7) := rfl
  simp (disch := decide) only [hword, BitVec.getLsbD_or, flagAt_twoPow_getLsbD]

theorem regLoad_status_getLsbD (s : State) (n : Nat) : (regLoad .status s).1.getLsbD n =
    ((drawNoise s).1.getLsbD n && decide (16 ≠ n) && decide (17 ≠ n) || s.regs.l3wd && decide (16 = n) ||
      s.regs.l3rd && decide (17 = n)) := by
  have hword : (regLoad .status s).1 = ((drawNoise s).1 &&& ~~~(BitVec.twoPow 32 16 ||| BitVec.twoPow 32 17)) |||
    flagAt s.regs.l3wd (BitVec.twoPow 32 16) ||| flagAt s.regs.l3rd (BitVec.twoPow 32 17) := rfl
  have hlt : (drawNoise s).1.getLsbD n = ((drawNoise s).1.getLsbD n && decide (n < 32)) := by
    by_cases hn : n < 32
    · simp [hn]
    · simp [hn, BitVec.getLsbD_of_ge _ n (Nat.le_of_not_lt hn)]
  rw [hword, hlt]
  simp (disch := decide) only [BitVec.getLsbD_or, BitVec.getLsbD_and, BitVec.getLsbD_not, BitVec.getLsbD_twoPow,
    flagAt_twoPow_getLsbD]
  simp [Bool.and_assoc]

theorem drawNoise_head {s : State} {v : Word} {r : List Word} (h : s.env.script.noise = v :: r) : (drawNoise s).1 = v := by
  unfold drawNoise; rw [h]

/-! ### who can end in a bus fault (`40_register_access.md` R172) -/

/-- The computation does not end in a bus fault. -/
def NoBusFault {α : Type} (x : Out α) : Prop := ∀ rgn off, x ≠ .fault (.busFault rgn off)

theorem NoBusFault.next {α : Type} (a : α) : NoBusFault (.next a : Out α) := nofun

theorem NoBusFault.refused {α : Type} (r : Refusal) : NoBusFault (.refused r : Out α) := nofun

theorem NoBusFault.reserved {α : Type} (why : ReservedWrite) : NoBusFault (.fault (.reserved why) : Out α) := nofun

theorem NoBusFault.lock {α : Type} : NoBusFault (.fault .waitsForBusLock : Out α) := nofun

theorem NoBusFault.andThen {α β : Type} {x : Out α} {k : α → Out β} (hx : NoBusFault x) (hk : ∀ a, NoBusFault (k a)) :
    NoBusFault (Machine.andThen x k) := by
  cases x with
  | next a => exact hk a
  | fault f => exact fun rgn off h => hx rgn off (Host.Outcome.fault.inj h ▸ rfl)
  | refused r => exact .refused r

theorem NoBusFault.ite {α : Type} {c : Prop} [Decidable c] {x y : Out α} (hx : NoBusFault x) (hy : NoBusFault y) :
    NoBusFault (if c then x else y) := by
  split
  · exact hx
  · exact hy

/-! ### register writes and the DMA engine end in no bus fault -/

theorem startEngine_noBusFault (d : Dir) (e : Eng) (s : State) : NoBusFault (startEngine d e s) :=
  .ite (.next _) (.reserved _)

theorem storeCs_noBusFault (d : Dir) (w : Word) (s : State) : NoBusFault (storeCs d w s) :=
  .ite (.ite (.reserved _) (.ite (startEngine_noBusFault d .a _) (.ite (startEngine_noBusFault d .b _) (.next _)))) (.next _)

theorem storeCtrl0_noBusFault (new : Word) (s : State) : NoBusFault (storeCtrl0 new s) :=
  .ite (.next _) (.ite (.refused _) (.next _))

theorem triggerFrame_noBusFault (v : Byte) (s : State) : NoBusFault (triggerFrame v s) :=
  .ite (.refused _) (.ite (.reserved _) (.ite (.next _) (.next _)))

theorem regStore_noBusFault (r : Reg) (v : Word) (s : State) : NoBusFault (regStore r v s) := by
  cases r with
  | ctrl0 => exact storeCtrl0_noBusFault _ s
  | l3data => exact triggerFrame_noBusFault _ _
  | cs d => exact storeCs_noBusFault d v s
  | addr d e => exact .ite (.reserved _) (.next _)
  | cnt d e => exact .ite (.reserved _) (.next _)
  | _ => exact .next _

theorem regWrite_noBusFault (r : Reg) (v : Word) (s : State) : NoBusFault (regWrite r v s) := regStore_noBusFault r v (hw s)

theorem regUpdate_noBusFault (r : Reg) (f : Word → Word) (s : State) : NoBusFault (regUpdate r f s) :=
  regWrite_noBusFault r _ _

theorem startBlock_noBusFault (d : Dir) (addr len : Word) (s : State) : NoBusFault (startBlock d addr len s) :=
  .ite (.next _) (.ite (.next _) (.andThen (regWrite_noBusFault _ _ _) fun _ => .andThen (regWrite_noBusFault _ _ _) fun _ =>
    .andThen (regWrite_noBusFault _ _ _) fun _ => .next _))

theorem resetDirection_noBusFault (d : Dir) (s : State) : NoBusFault (resetDirection d s) :=
  .andThen (regWrite_noBusFault _ _ _) fun _ => .andThen (regWrite_noBusFault _ _ _) fun _ =>
    .andThen (regWrite_noBusFault _ _ _) fun _ => .andThen (regWrite_noBusFault _ _ _) fun _ => regWrite_noBusFault _ _ _

/-! ### the handler and waits end in no bus fault -/

theorem rearm_noBusFault (d : Dir) (addr len : Word) (s : State) : NoBusFault (rearm d addr len s) := by
  refine .andThen (startBlock_noBusFault d addr len s) fun r => ?_
  split
  · exact .next _
  · exact .next _

theorem advanceBuffer_noBusFault (d : Dir) (s : State) : NoBusFault (advanceBuffer d s) :=
  .ite (.ite (rearm_noBusFault d _ _ _) (.next _)) (.ite (rearm_noBusFault d _ _ _) (.ite (.next _) (.next _)))

theorem serviceBuffer_noBusFault (d : Dir) (s : State) : NoBusFault (serviceBuffer d s) :=
  .ite (advanceBuffer_noBusFault d s) (.next _)

theorem handler_noBusFault (id : Word) (s : State) : NoBusFault (handler id s) :=
  .ite (.next _) (.andThen (serviceBuffer_noBusFault _ _) fun _ => .andThen (regWrite_noBusFault _ _ _) fun _ => .next _)

theorem actorStep_noBusFault (g : Actor) (s : State) : NoBusFault (actorStep g s) := by
  cases g with
  | hardware g => exact .next _
  | line d e => exact .andThen (handler_noBusFault _ _) fun _ => .next _

theorem waitRounds_noBusFault (n : Nat) (s : State) : NoBusFault (waitRounds n s) := by
  induction n generalizing s with
  | zero => exact .next s
  | succ n ih =>
    unfold waitRounds
    split
    · exact .next s
    · dsimp only
      split
      · exact ih _
      · split
        · exact .andThen (actorStep_noBusFault _ _) ih
        · exact ih _

theorem waitEvents_noBusFault (s : State) : NoBusFault (waitEvents s) := by
  unfold waitEvents
  split
  · exact .next s
  · exact waitRounds_noBusFault _ _

theorem waitAt_noBusFault (op : Instr) (g : Option Group) (pos : WaitPos) (t : Nat) (s : State) :
    NoBusFault (waitAt op g pos t s) :=
  .andThen (waitEvents_noBusFault _) fun _ => .next _

/-! ### the control bus, the codec and the session end in no bus fault -/

theorem pollWriteDone_noBusFault (op : Instr) (g : Option Group) (n i : Nat) (s : State) :
    NoBusFault (pollWriteDone op g n i s) := by
  induction n generalizing i s with
  | zero => exact .next s
  | succ n ih => exact .ite (.next _) (.andThen (waitAt_noBusFault op g _ _ _) (ih (i + 1)))

theorem settleBus_noBusFault (op : Instr) (g : Option Group) (s : State) : NoBusFault (settleBus op g s) :=
  .andThen (regWrite_noBusFault _ _ _) fun _ => .andThen (regWrite_noBusFault _ _ _) fun _ => waitAt_noBusFault op g _ _ _

theorem triggerSend_noBusFault (a b : Byte) (s : State) : NoBusFault (triggerSend a b s) := by
  unfold triggerSend
  split
  exact .andThen (regWrite_noBusFault _ _ _) fun _ => .andThen (regWrite_noBusFault _ _ _) fun _ => regWrite_noBusFault _ _ _

theorem closeSend_noBusFault (a b : Byte) (s : State) : NoBusFault (closeSend a b s) := by
  unfold closeSend
  split
  exact .andThen (regWrite_noBusFault _ _ _) fun _ => .next _

theorem l3Send_noBusFault (op : Instr) (g : Option Group) (a b : Byte) (s : State) : NoBusFault (l3Send op g a b s) :=
  .ite (.refused _) (.ite .lock (.andThen (settleBus_noBusFault op g _) fun _ => .andThen (triggerSend_noBusFault a b _) fun _ =>
    .andThen (pollWriteDone_noBusFault op g _ _ _) fun _ => closeSend_noBusFault a b _))

theorem syncGroups_noBusFault (op : Instr) (l : List Group) (s : State) : NoBusFault (syncGroups op l s) := by
  induction l generalizing s with
  | nil => exact .next _
  | cons g rest ih => exact .ite (.andThen (l3Send_noBusFault op _ _ _ s) fun _ => .andThen (ih _) fun _ => .next _) (ih s)

theorem sync_noBusFault (op : Instr) (s : State) : NoBusFault (sync op s) :=
  .andThen (syncGroups_noBusFault op _ s) fun _ => .ite (.next _) (.next _)

theorem changeMirror_noBusFault (op : Instr) (f : Params → Mirror → Mirror) (s : State) : NoBusFault (changeMirror op f s) :=
  .ite (.refused _) (.andThen (sync_noBusFault op _) fun _ => .next _)

theorem setRate_noBusFault (op : Instr) (rate : Word) (s : State) : NoBusFault (setRate op rate s) := by
  unfold setRate
  exact .andThen (regWrite_noBusFault _ _ _) fun _ => .andThen (sync_noBusFault op _) fun _ => .next _

theorem initSideband_noBusFault (s : State) : NoBusFault (initSideband s) :=
  .andThen (regUpdate_noBusFault _ _ _) fun _ => .andThen (regUpdate_noBusFault _ _ _) fun _ => regUpdate_noBusFault _ _ _

theorem initController_noBusFault (op : Instr) (s : State) : NoBusFault (initController op s) :=
  .andThen (regUpdate_noBusFault _ _ _) fun _ => .andThen (waitAt_noBusFault op _ _ _ _) fun _ =>
    .andThen (regUpdate_noBusFault _ _ _) fun _ => .andThen (regUpdate_noBusFault _ _ _) fun _ => regUpdate_noBusFault _ _ _

theorem stopPolls_noBusFault (op : Instr) (d : Dir) (n i : Nat) (s : State) : NoBusFault (stopPolls op d n i s) := by
  induction n generalizing i s with
  | zero => exact .next s
  | succ n ih => exact .ite (.next _) (.andThen (waitAt_noBusFault op _ _ _ _) (ih (i + 1)))

/-! ### no operation but `REG.WR` and `REG.RD` ends in a bus fault -/

/-- The rejection of a bad direction is a completion (`60_exceptions.md` R332). -/
theorem onDirection_noBusFault {sel : Byte} {s : State} {k : Dir → Out State} (hk : ∀ d, NoBusFault (k d)) :
    NoBusFault (onDirection sel s k) := by
  unfold onDirection
  split
  · exact hk _
  · exact .next _

theorem execIrqReq_noBusFault (dir : Byte) (s : State) : NoBusFault (execIrqReq dir s) :=
  onDirection_noBusFault fun _ => .ite (.next _) (.ite (.ite (.next _) (.next _)) (.next _))

theorem execSesArm_noBusFault (dir : Byte) (loop : Bool) (start size period ctx : Word) (s : State) :
    NoBusFault (execSesArm dir loop start size period ctx s) := by
  refine onDirection_noBusFault fun d => .ite (.next _) (.ite (.andThen (startBlock_noBusFault d start period _) fun r => ?_)
    (.next _))
  split
  · exact .next _
  · exact .next _

theorem execCtrlInit_noBusFault (s : State) : NoBusFault (execCtrlInit s) :=
  .ite (.refused _) (.andThen (initSideband_noBusFault s) fun _ => .andThen (initController_noBusFault _ _) fun _ =>
    .andThen (setRate_noBusFault _ _ _) fun _ => .next _)

theorem execDmaReset_noBusFault (s : State) : NoBusFault (execDmaReset s) :=
  .andThen (resetDirection_noBusFault .play s) fun _ => .andThen (resetDirection_noBusFault .record _) fun _ =>
    .andThen (regUpdate_noBusFault _ _ _) fun _ => .next _

/-- A register access by the host (`40_register_access.md` R170, R171). -/
def isRegAccess : Instr → Bool
  | .regWr _ _ _ => true
  | .regRd _ _ => true
  | _ => false

/-- Every operation but the register accesses writes registers at mapped offsets only. -/
theorem exec_noBusFault {i : Instr} (s : State) (hi : isRegAccess i = false) : NoBusFault (exec i s) := by
  unfold exec
  cases i with
  | regWr rgn off val => cases hi
  | regRd rgn off => cases hi
  | l3Send addr data => exact .andThen (l3Send_noBusFault _ _ addr data s) fun _ => .next _
  | codecOpen => exact changeMirror_noBusFault _ _ s
  | codecClose => exact changeMirror_noBusFault _ _ s
  | codecSync => exact changeMirror_noBusFault _ _ s
  | codecSetrate rate => exact .ite (.refused _) (.andThen (setRate_noBusFault _ rate s) fun _ => .next _)
  | setVol val => exact changeMirror_noBusFault _ _ s
  | setBass val => exact changeMirror_noBusFault _ _ s
  | setTreb val => exact changeMirror_noBusFault _ _ s
  | setMute val => exact changeMirror_noBusFault _ _ s
  | setFilt val => exact changeMirror_noBusFault _ _ s
  | getVol => exact .next _
  | getBass => exact .next _
  | getTreb => exact .next _
  | getMute => exact .next _
  | getFilt => exact .next _
  | ctrlInit => exact execCtrlInit_noBusFault s
  | dmaStart dir addr len =>
    exact onDirection_noBusFault fun d => .andThen (startBlock_noBusFault d addr len s) fun _ => .next _
  | dmaPoll dir => exact onDirection_noBusFault fun _ => .next _
  | dmaReset => exact execDmaReset_noBusFault s
  | irqReq dir => exact execIrqReq_noBusFault dir s
  | irqRel dir => exact onDirection_noBusFault fun _ => .next _
  | irqEvt irq => exact .andThen (handler_noBusFault irq _) fun _ => .next _
  | chOpen dir => exact onDirection_noBusFault fun _ => .ite (.next _) (.next _)
  | chClose dir => exact onDirection_noBusFault fun _ => .ite (.next _) (.next _)
  | sesArm dir loop start size period ctx => exact execSesArm_noBusFault dir loop start size period ctx s
  | sesStop dir => exact onDirection_noBusFault fun d => .andThen (stopPolls_noBusFault _ d _ _ _) fun _ => .next _
  | sesPos dir => exact onDirection_noBusFault fun _ => .next _

/-! ### the two register accesses -/

/-- Every register lies at a multiple of 4 (`10_state.md` R40). -/
theorem regAt_aligned {rgn : Byte} {off : Word} {r : Reg} (h : regAt rgn off = some r) : off.toNat % 4 = 0 := by
  unfold regAt at h
  split at h
  case h_21 => cases h
  all_goals omega

theorem exec_regWr_unmapped {rgn : Byte} {off : Word} (hr : regAt rgn off = none) (v : Word) (s : State) :
    exec (.regWr rgn off v) s = .fault (.busFault rgn off) := by
  show execRegWr rgn off v s = _
  unfold execRegWr
  rw [hr]

theorem exec_regRd_unmapped {rgn : Byte} {off : Word} (hr : regAt rgn off = none) (s : State) :
    exec (.regRd rgn off) s = .fault (.busFault rgn off) := by
  show execRegRd rgn off s = _
  unfold execRegRd
  rw [hr]

/-- `REG.WR` ends in a bus fault on an unmapped offset only, and names the access. -/
theorem execRegWr_busFault {rgn rgn' : Byte} {off off' v : Word} {s : State}
    (h : execRegWr rgn off v s = .fault (.busFault rgn' off')) : regAt rgn off = none ∧ rgn' = rgn ∧ off' = off := by
  unfold execRegWr at h
  split at h
  · next hr => cases h; exact ⟨hr, rfl, rfl⟩
  · exact absurd h (NoBusFault.andThen (regWrite_noBusFault _ v s) (fun _ => .next _) _ _)

/-- So does `REG.RD`. -/
theorem execRegRd_busFault {rgn rgn' : Byte} {off off' : Word} {s : State}
    (h : execRegRd rgn off s = .fault (.busFault rgn' off')) : regAt rgn off = none ∧ rgn' = rgn ∧ off' = off := by
  unfold execRegRd at h
  split at h
  · next hr => cases h; exact ⟨hr, rfl, rfl⟩
  · cases h

end Sys2Proof.Machine

namespace Sys2Proof.Proofs

open Sys2Proof.Machine

/-- Settles O9: a register lies at a multiple of 4; the two accesses look their offset up before anything else; and every other
operation writes registers by name. -/
theorem unmappedAccessFaults : Obligations.UnmappedAccessFaults := by
  refine ⟨fun rgn off hmis => ?_, fun s rgn off v hr => ⟨exec_regWr_unmapped hr v s, exec_regRd_unmapped hr s⟩,
    fun i s rgn off h => ?_⟩
  · exact Option.eq_none_iff_forall_ne_some.2 fun r hr => hmis (regAt_aligned hr)
  · cases i with
    | regWr rgn' off' v =>
      obtain ⟨hr, rfl, rfl⟩ := execRegWr_busFault h
      exact ⟨hr, .inl ⟨v, rfl⟩⟩
    | regRd rgn' off' =>
      obtain ⟨hr, rfl, rfl⟩ := execRegRd_busFault h
      exact ⟨hr, .inr rfl⟩
    | _ => exact absurd h (exec_noBusFault s rfl rgn off)

/-- Settles O10: each register's write rule, from the state the hardware agents leave; `PGPIO` alone adds an event. -/
theorem regWrPlainRegisters : Obligations.RegWrPlainRegisters := by
  intro s v
  refine ⟨hw s, hw_moved s, exec_regWr_next (r := .ctrl1) rfl rfl rfl, exec_regWr_next (r := .status) rfl rfl rfl, ?_, ?_,
    exec_regWr_next (r := .pctrl) rfl rfl rfl, exec_regWr_next (r := .pclk) rfl rfl rfl,
    exec_regWr_next (r := .pauddiv) rfl rfl rfl, exec_regWr_pgpio rfl v s⟩
  · rw [← hasBit_twoPow v 16 (by decide), ← hasBit_twoPow v 17 (by decide)]
    exact exec_regWr_next (r := .statclr) rfl rfl rfl
  · rw [← lowByte_eq_setWidth]
    exact exec_regWr_next (r := .l3addr) rfl rfl rfl

/-- Settles O15: of these registers only `STATUS` is read with a draw; `CS[d]` and `STATUS` bit by bit. -/
theorem regRdValues : Obligations.RegRdValues := by
  intro s
  refine ⟨hw s, hw_moved s, exec_regRd (r := .ctrl0) rfl, exec_regRd (r := .ctrl1) rfl, exec_regRd (r := .statclr) rfl,
    exec_regRd (r := .l3addr) rfl, exec_regRd (r := .l3data) rfl, exec_regRd (r := .pctrl) rfl, exec_regRd (r := .pclk) rfl,
    exec_regRd (r := .pauddiv) rfl, exec_regRd (r := .pgpio) rfl, fun d => ?_, ?_⟩
  · refine ⟨csWord ((hw s).dir d).hw, exec_regRd (regAt_cs d), fun n => ?_⟩
    rw [csWord_getLsbD]
    split
    case h_7 h0 h3 h4 h5 h6 h7 => simp [Ne.symm h0, Ne.symm h3, Ne.symm h4, Ne.symm h5, Ne.symm h6, Ne.symm h7]
    all_goals simp [State.engine, DmaHw.eng, beq_eq_decide]
  · have hdrew := regLoad_drew .status (hw s)
    refine ⟨_, _, exec_regRd (r := .status) rfl, hdrew.hwFrame, hdrew.mem, ?_, ?_, fun v r hv n h16 h17 => ?_⟩ <;>
      rw [regLoad_status_getLsbD]
    · simp
    · simp
    · rw [drawNoise_head hv]
      simp [h16.symm, h17.symm]

end Sys2Proof.Proofs
end

section
/-! Control-bus sends with nothing beside them: what the agents do while a frame is in progress and no sub-engine and no line can
move, what each step of `L3.SEND` does on a quiet machine, and from these the exact end of a send (`41_control_bus.md` R180 to
R190). -/

namespace Sys2Proof.Machine

/-! ### a quiet machine (`20_memory.md` R121) -/

theorem Quiet.hwQuiet {s : State} (h : Quiet s) : HwQuiet s := List.map_eq_nil_iff.1 (List.append_eq_nil_iff.1 h).1

theorem Quiet.hw {s : State} (h : Quiet s) : hw s = s := hw_quiet h.hwQuiet

theorem Quiet.idle {s : State} (h : Quiet s) : s.l3.busy = false := by
  have hb := h.hwQuiet
  by_contra hn
  simp [HwQuiet, hwAgents, hn] at hb

theorem Quiet.regWrite {s : State} (h : Quiet s) (r : Reg) (v : Word) : regWrite r v s = regStore r v s := by
  unfold Machine.regWrite; rw [h.hw]

theorem Drew.quiet {s t : State} (h : Drew s t) (hq : Quiet s) : Quiet t := by
  obtain ⟨n, x, -, rfl⟩ := h; exact hq

theorem Drew.regs {s t : State} (h : Drew s t) : t.regs = s.regs := by obtain ⟨n, x, -, rfl⟩ := h; rfl

theorem DmaStill.quiet {s : State} (h : DmaStill s) (hb : s.l3.busy = false) : Quiet s := by
  obtain ⟨hplay, hrecord, hlines⟩ := h
  simp [Quiet, actors, hwAgents, hplay, hrecord, hlines, hb]

theorem DmaStill.actors_busy {s : State} (h : DmaStill s) (hb : s.l3.busy = true) :
    actors s = [.hardware .serialiser] := by
  obtain ⟨hplay, hrecord, hlines⟩ := h
  simp [actors, hwAgents, hplay, hrecord, hlines, hb]

theorem DmaStill.hwAgents_busy {s : State} (h : DmaStill s) (hb : s.l3.busy = true) : hwAgents s = [.serialiser] := by
  obtain ⟨hplay, hrecord, -⟩ := h
  simp [hwAgents, hplay, hrecord, hb]

/-- `n` ms of waiting have passed and left the sequencer position `q`. -/
def State.waited (q : Seq) (n : Nat) (s : State) : State := { s with seq := q, env := { s.env with now := s.env.now + n } }

theorem State.waited_waited (q q' : Seq) (n n' : Nat) (s : State) : (s.waited q n).waited q' n' = s.waited q' (n + n') := by
  simp only [State.waited, Nat.add_assoc]

theorem Drew.waited {s t : State} (h : Drew s t) (q : Seq) (n : Nat) : Drew (s.waited q n) (t.waited q n) := by
  obtain ⟨m, x, hx, rfl⟩ := h; exact ⟨m, x, hx, rfl⟩

/-- With no frame in progress, time passing moves nothing. -/
theorem passTime_idle {s : State} (hb : s.l3.busy = false) (n : Nat) : passTime n s = s.waited s.seq n := by
  simp [passTime, hb, State.waited]

theorem Quiet.waitAt {s : State} (h : Quiet s) (op : Instr) (g : Option Group) (pos : WaitPos) (n : Nat) :
    waitAt op g pos n s = .next (s.waited ⟨some op, g, some pos, false⟩ n) := by
  rw [waitAt_quiet h, passTime_idle (by exact h.idle)]
  rfl

/-! ### a frame in progress with no DMA beside it (`41_control_bus.md` R186, R188) -/

/-- The event of a frame `(a, b)` that was delivered, or lost. -/
def frameEvent (delivered : Bool) (a b : Byte) : Event := if delivered then .frame a b else .frameLost a b

/-- The frame in progress has ended, the environment answering `v` to its delivery and holding the answers `r` for later ones. -/
def frameOver (v : Bool) (r : List Bool) (s : State) : State :=
  { s with
    l3 := { s.l3 with busy := false }
    regs := { s.regs with l3wd := s.regs.l3wd || v }
    codec := if v then codecReceive s.cfg s.l3.frameAddr s.l3.frameData s.codec else s.codec
    trace := s.trace ++ [frameEvent v s.l3.frameAddr s.l3.frameData]
    env := { s.env with script := { s.env.script with delivered := r } } }

/-- A frame is in progress, its delivery will be answered by `v` and later ones by `r`, and nothing else can move. -/
structure FrameAlone (v : Bool) (r : List Bool) (s : State) : Prop where
  still : DmaStill s
  busy : s.l3.busy = true
  answers : s.env.script.delivered = v :: r

section

variable {v : Bool} {r : List Bool} {s t : State}

theorem Drew.frameAlone (h : Drew s t) (hs : FrameAlone v r s) : FrameAlone v r t := by
  obtain ⟨n, x, hx, rfl⟩ := h
  exact ⟨hs.still, hs.busy, hx.trans hs.answers⟩

theorem Drew.frameOver (h : Drew s t) (v : Bool) (r : List Bool) : Drew (frameOver v r s) (frameOver v r t) := by
  obtain ⟨n, x, -, rfl⟩ := h
  exact ⟨n, { x with delivered := r }, rfl, rfl⟩

theorem FrameAlone.serialise (h : FrameAlone v r s) : serialise s = frameOver v r s := by
  unfold Machine.serialise drawDelivered
  rw [h.answers]
  cases v <;> simp [Machine.frameOver, frameEvent, State.emit, State.setScript]

theorem FrameAlone.quiet_over (h : FrameAlone v r s) : Quiet (Machine.frameOver v r s) := DmaStill.quiet h.still rfl

/-- The frame is in progress still, or has ended. -/
def FrameMoved (v : Bool) (r : List Bool) (s t : State) : Prop := Drew s t ∨ Drew (frameOver v r s) t

theorem FrameMoved.of_drew {u : State} (h : Drew s t) (k : FrameMoved v r t u) : FrameMoved v r s u :=
  k.imp h.trans (h.frameOver v r).trans

theorem FrameAlone.hwRounds (h : FrameAlone v r s) (n : Nat) : FrameMoved v r s (hwRounds (n + 1) s) := by
  unfold Machine.hwRounds
  rw [h.still.hwAgents_busy h.busy]
  have hd := drawPick_drew s
  generalize drawPick s = d at hd ⊢
  obtain ⟨k, t⟩ := d
  have ht := hd.frameAlone h
  match k with
  | 0 => exact .inl hd
  | 1 =>
    refine .of_drew hd (.inr ?_)
    show Drew _ (Machine.hwRounds n (Machine.serialise t))
    rw [ht.serialise]
    cases n with
    | zero => exact .refl _
    | succ n => unfold Machine.hwRounds; rw [ht.quiet_over.hwQuiet]; exact .refl _
  | k + 2 => exact .inl hd

/-- Before a register access the frame may end, and nothing else happens. -/
theorem FrameAlone.hw (h : FrameAlone v r s) : FrameMoved v r s (hw s) := h.hwRounds 4

theorem waitRounds_quiet (h : Quiet s) (n : Nat) : waitRounds n s = .next s := by
  cases n with
  | zero => rfl
  | succ n => unfold waitRounds; rw [show actors s = [] from h]

theorem FrameAlone.waitRounds (n : Nat) (h : FrameAlone v r s) : ∃ t, waitRounds n s = .next t ∧ FrameMoved v r s t := by
  induction n generalizing s with
  | zero => exact ⟨s, rfl, .inl (.refl s)⟩
  | succ n ih =>
    unfold Machine.waitRounds
    rw [h.still.actors_busy h.busy]
    have hd := drawPick_drew s
    generalize drawPick s = d at hd ⊢
    obtain ⟨k, t⟩ := d
    have ht := hd.frameAlone h
    have later : ∃ u, Machine.waitRounds n t = .next u ∧ FrameMoved v r s u := by
      obtain ⟨u, hu, hm⟩ := ih ht
      exact ⟨u, hu, hm.of_drew hd⟩
    match k with
    | 0 => exact later
    | 1 =>
      refine ⟨frameOver v r t, ?_, .of_drew hd (.inr (.refl _))⟩
      show Machine.waitRounds n (Machine.serialise t) = _
      rw [ht.serialise, waitRounds_quiet ht.quiet_over]
    | k + 2 => exact later

theorem FrameAlone.waitEvents (h : FrameAlone v r s) : ∃ t, waitEvents s = .next t ∧ FrameMoved v r s t := by
  unfold Machine.waitEvents
  rw [h.still.actors_busy h.busy]
  have hd := drawPick_drew s
  obtain ⟨t, ht, hm⟩ := (hd.frameAlone h).waitRounds (drawPick s).1
  exact ⟨t, ht, hm.of_drew hd⟩

/-- After 1 ms or more the frame has ended, however the other agents moved. -/
theorem FrameMoved.passTime (h : FrameAlone v r s) (k : FrameMoved v r s t) {n : Nat} (hn : 1 ≤ n) :
    Drew ((frameOver v r s).waited s.seq n) (passTime n t) := by
  rcases k with k | k
  · have ht := k.frameAlone h
    have hpass : Machine.passTime n t = (frameOver v r t).waited t.seq n := by
      unfold Machine.passTime
      rw [ht.busy, ht.serialise]
      simp [hn, State.waited, frameOver]
    rw [hpass, k.seq]
    exact (k.frameOver v r).waited _ n
  · have hseq : t.seq = s.seq := k.seq
    rw [passTime_idle (k.quiet h.quiet_over).idle n, hseq]
    exact k.waited _ n

/-- A wait of 1 ms or more outlasts the frame (`41_control_bus.md` R188). -/
theorem FrameAlone.waitAt (h : FrameAlone v r s) (op : Instr) (g : Option Group) (pos : WaitPos) {n : Nat} (hn : 1 ≤ n) :
    ∃ t, waitAt op g pos n s = .next t ∧ Drew ((frameOver v r s).waited ⟨some op, g, some pos, false⟩ n) t := by
  have hq : FrameAlone v r { s with seq := ⟨some op, g, some pos, false⟩ } := ⟨h.still, h.busy, h.answers⟩
  obtain ⟨t, ht, hm⟩ := hq.waitEvents
  refine ⟨Machine.passTime n t, ?_, hm.passTime hq hn⟩
  unfold Machine.waitAt
  rw [ht, andThen_next]

end

/-! ### the steps of a send on a quiet machine (`41_control_bus.md` R180) -/

theorem andThen_assoc {α β γ : Type} (x : Out α) (f : α → Out β) (k : β → Out γ) :
    andThen (andThen x f) k = andThen x fun a => andThen (f a) k := by cases x <;> rfl

/-- The transaction registers hold `(a, b)`, and on an operational bus that frame is in progress (`41_control_bus.md` R185). -/
def launched (a b : Byte) (s : State) : State :=
  { s with
    regs := { s.regs with l3addr := a, l3data := b }
    l3 := if l3Operational s then { s.l3 with busy := true, frameAddr := a, frameData := b } else s.l3 }

theorem launched_dead {s : State} (h : l3Operational s = false) (a b : Byte) :
    launched a b s = { s with regs := { s.regs with l3addr := a, l3data := b } } := by
  unfold launched
  rw [if_neg (by rw [h]; decide)]

theorem launched_live {s : State} (h : l3Operational s = true) (a b : Byte) :
    launched a b s = { s with
      regs := { s.regs with l3addr := a, l3data := b }
      l3 := { s.l3 with busy := true, frameAddr := a, frameData := b } } := by
  unfold launched
  rw [if_pos h]

/-- A write of `L3DATA` with no frame in progress. -/
theorem regStore_l3data {s : State} (hb : s.l3.busy = false) (hc : s.cfg.chipAddr ≠ 0) (v : Word) :
    regStore .l3data v s = .next (launched s.regs.l3addr (v.extractLsb' 0 8) s) :=
  triggerFrame_idle (s := { s with regs := { s.regs with l3data := v.extractLsb' 0 8 } }) hb hc _

theorem launch_quiet {s : State} (h : Quiet s) (hc : s.cfg.chipAddr ≠ 0) (a b : Byte) :
    andThen (regWrite .l3addr (a.setWidth 32) s) (regWrite .l3data (b.setWidth 32)) = .next (launched a b s) := by
  have hq : Quiet { s with regs := { s.regs with l3addr := a } } := h
  have haddr : regWrite .l3addr (a.setWidth 32) s = .next { s with regs := { s.regs with l3addr := a } } := by
    rw [h.regWrite]; simp only [regStore, byteOperand]
  rw [haddr, andThen_next, hq.regWrite, regStore_l3data (by exact h.idle) (by exact hc), byteOperand]
  rfl

theorem settleBus_quiet {s : State} (h : Quiet s) (hc : s.cfg.chipAddr ≠ 0) (op : Instr) (g : Option Group) :
    settleBus op g s = waitAt op g .l3Settle s.cfg.tSettle (launched 0 0 s) := by
  have hassoc : settleBus op g s = andThen (andThen (regWrite .l3addr ((0 : Byte).setWidth 32) s)
      (regWrite .l3data ((0 : Byte).setWidth 32))) fun t => waitAt op g .l3Settle t.cfg.tSettle t :=
    (andThen_assoc _ _ _).symm
  rw [hassoc, launch_quiet h hc, andThen_next]
  rfl

/-- Transaction tracking is clear and the frame `(a, b)` triggered (`41_control_bus.md` R180 steps 3, 4). -/
def triggered (a b : Byte) (s : State) : State :=
  launched a b { s with regs := { s.regs with l3wd := false, l3rd := false } }

theorem Drew.triggered {s t : State} (h : Drew s t) (a b : Byte) : Drew (triggered a b s) (triggered a b t) := by
  obtain ⟨n, x, hx, rfl⟩ := h; exact ⟨n, x, hx, rfl⟩

theorem triggerSend_quiet {s : State} (h : Quiet s) (hc : s.cfg.chipAddr ≠ 0) (a b : Byte) :
    triggerSend a b s = .next (triggered a b s) := by
  have hq : Quiet { s with regs := { s.regs with l3wd := false, l3rd := false } } := h
  have hclear : regWrite .statclr (0 ||| Config.dts ||| Config.rdd) s =
      .next { s with regs := { s.regs with l3wd := false, l3rd := false } } := by
    rw [h.regWrite]; simp [regStore, hasBit, Config.dts, Config.rdd]
  unfold triggerSend
  dsimp only [regRead, regLoad]
  rw [h.hw, hclear, andThen_next]
  exact launch_quiet hq hc a b

theorem pollWriteDone_succ (op : Instr) (g : Option Group) (n i : Nat) (s : State) :
    pollWriteDone op g (n + 1) i s = if (hw s).regs.l3wd = true then .next (hw s)
      else andThen (waitAt op g (.l3Poll i) Config.tPoll (hw s)) (pollWriteDone op g n (i + 1)) := rfl

/-- Where nothing can move, the poll loop ends at once with the flag set, and takes all its waits with the flag clear
(`41_control_bus.md` R180 step 5). -/
theorem pollWriteDone_quiet (op : Instr) (g : Option Group) (n i : Nat) {s : State} (h : Quiet s) :
    ∃ q, pollWriteDone op g n i s = .next (s.waited q (if s.regs.l3wd then 0 else n * Config.tPoll)) := by
  induction n generalizing i s with
  | zero => exact ⟨s.seq, by simp [pollWriteDone, State.waited]⟩
  | succ n ih =>
    rw [pollWriteDone_succ, h.hw]
    by_cases hf : s.regs.l3wd = true
    · rw [if_pos hf, if_pos hf]
      exact ⟨s.seq, rfl⟩
    · rw [if_neg hf, if_neg hf, h.waitAt, andThen_next]
      obtain ⟨q, hq⟩ := ih (i + 1) (s := s.waited ⟨some op, g, some (.l3Poll i), false⟩ Config.tPoll) h
      have hcount : (n + 1) * Config.tPoll = Config.tPoll + n * Config.tPoll := by rw [Nat.succ_mul, Nat.add_comm]
      exact ⟨q, by rw [hq, if_neg (by exact hf), State.waited_waited, hcount]⟩

/-- The poll loop with a frame in progress: a delivered frame is seen after at most one wait, a lost one takes them all
(`41_control_bus.md` R182, R188). -/
theorem FrameAlone.pollWriteDone {w : Bool} {r : List Bool} {s : State} (h : FrameAlone w r s) (hf : s.regs.l3wd = false)
    (op : Instr) (g : Option Group) {n : Nat} (hn : 1 ≤ n) (i : Nat) : ∃ q k t, pollWriteDone op g n i s = .next t ∧
      Drew ((frameOver w r s).waited q k) t ∧ (w = true → k ≤ Config.tPoll) ∧ (w = false → k = n * Config.tPoll) := by
  obtain ⟨n, rfl⟩ := Nat.exists_eq_add_of_le' hn
  have hover : (frameOver w r s).regs.l3wd = w := by simp [frameOver, hf]
  rcases h.hw with hm | hm
  · -- the frame is in progress at the first read, and ends in the wait that follows
    have hu := hm.frameAlone h
    have hfu : (Machine.hw s).regs.l3wd = false := by rw [hm.regs]; exact hf
    obtain ⟨t, ht, hd⟩ := hu.waitAt op g (.l3Poll i) (n := Config.tPoll) le_rfl
    have hst := ((hm.frameOver w r).waited _ _).trans hd
    have hft : t.regs.l3wd = w := by rw [hst.regs]; exact hover
    obtain ⟨q, hq⟩ := pollWriteDone_quiet op g n (i + 1) (hst.quiet (by exact h.quiet_over))
    rw [hft] at hq
    refine ⟨q, Config.tPoll + if w then 0 else n * Config.tPoll, t.waited q (if w then 0 else n * Config.tPoll),
      ?_, ?_, ?_, ?_⟩
    · rw [pollWriteDone_succ, if_neg (by rw [hfu]; decide), ht, andThen_next, hq]
    · rw [← State.waited_waited]
      exact hst.waited q _
    · rintro rfl; simp
    · rintro rfl; simp [Nat.succ_mul, Nat.add_comm]
  · -- the frame has ended before the first read
    have hqu := hm.quiet h.quiet_over
    have hfu : (Machine.hw s).regs.l3wd = w := by rw [hm.regs]; exact hover
    obtain ⟨q, hq⟩ := pollWriteDone_quiet op g (n + 1) i hqu
    rw [hfu] at hq
    refine ⟨q, if w then 0 else (n + 1) * Config.tPoll, (Machine.hw s).waited q (if w then 0 else (n + 1) * Config.tPoll),
      ?_, hm.waited q _, ?_, ?_⟩
    · rw [← hq, pollWriteDone_succ, pollWriteDone_succ, hqu.hw]
    · rintro rfl; exact Nat.zero_le _
    · rintro rfl; rfl

/-- The timeout is logged, tracking clear and the lock free (`41_control_bus.md` R180 steps 6 to 8). -/
def closed (a b : Byte) (s : State) : State :=
  { s with
    errlog := s.errlog ++ if s.regs.l3wd then [] else [.busTimeout a b]
    regs := { s.regs with l3wd := false, l3rd := false }
    l3 := { s.l3 with lock := false } }

theorem Drew.closed {s t : State} (h : Drew s t) (a b : Byte) : Drew (closed a b s) (closed a b t) := by
  obtain ⟨n, x, hx, rfl⟩ := h; exact ⟨n, x, hx, rfl⟩

theorem closeSend_quiet {s : State} (h : Quiet s) (a b : Byte) : closeSend a b s = .next (!s.regs.l3wd, closed a b s) := by
  have hlog : (if s.regs.l3wd = true then s else s.log (.busTimeout a b)) =
      { s with errlog := s.errlog ++ if s.regs.l3wd then [] else [.busTimeout a b] } := by
    cases s.regs.l3wd <;> simp [State.log]
  have hq : Quiet { s with errlog := s.errlog ++ if s.regs.l3wd then [] else [.busTimeout a b] } := h
  unfold closeSend
  rw [readWriteDone_eq, h.hw]
  dsimp only
  rw [hlog, hq.regWrite]
  simp [regStore, hasBit, Config.dts, Config.rdd, closed]

/-! ### a whole send -/

/-- The lock is held (`41_control_bus.md` R180 step 1). -/
def locked (s : State) : State := { s with l3 := { s.l3 with lock := true } }

/-- `L3.SEND` from normal context with the lock free, step by step (`41_control_bus.md` R180). -/
theorem l3Send_eq {s : State} (hirq : s.inIrq = false) (hlock : s.l3.lock = false) (op : Instr) (g : Option Group) (a b : Byte) :
    l3Send op g a b s = andThen (settleBus op g (locked s)) fun s1 =>
      andThen (triggerSend a b s1) fun s2 => andThen (pollWriteDone op g Config.pollMax 0 s2) fun s3 => closeSend a b s3 := by
  unfold l3Send
  rw [if_neg (by rw [hirq]; decide), if_neg (by rw [hlock]; decide)]
  rfl

/-- What a send on a quiet machine leaves on a bus that is not operational, but for the time it takes (`41_control_bus.md` R182). -/
def sendLost (a b : Byte) (s : State) : State :=
  { s with
    regs := { s.regs with l3addr := a, l3data := b, l3wd := false, l3rd := false }
    errlog := s.errlog ++ [.busTimeout a b] }

/-- A send on a bus that is not operational takes the settle delay and every poll. -/
theorem l3Send_dead {s : State} (h : Quiet s) (hirq : s.inIrq = false) (hlock : s.l3.lock = false) (hc : s.cfg.chipAddr ≠ 0)
    (hdead : l3Operational s = false) (op : Instr) (g : Option Group) (a b : Byte) :
    ∃ q, l3Send op g a b s = .next (true, (sendLost a b s).waited q (s.cfg.tSettle + Config.pollMax * Config.tPoll)) := by
  have hfree : { s.l3 with lock := false } = s.l3 := by rw [← hlock]
  obtain ⟨q, hq⟩ := pollWriteDone_quiet op g Config.pollMax 0 (s := { (locked (sendLost a b s)).waited
    ⟨some op, g, some .l3Settle, false⟩ s.cfg.tSettle with errlog := s.errlog }) h
  refine ⟨q, ?_⟩
  rw [l3Send_eq hirq hlock, settleBus_quiet (by exact h) (by exact hc), launched_dead (by exact hdead), Quiet.waitAt (by exact h),
    andThen_next, triggerSend_quiet (by exact h) (by exact hc), triggered, launched_dead (by exact hdead), andThen_next]
  refine (congrArg (fun x => andThen x (closeSend a b)) hq).trans ?_
  rw [andThen_next, closeSend_quiet (by exact h)]
  simp [State.waited, sendLost, closed, locked, hfree, Nat.add_assoc]

/-- What a send on an operational bus leaves where the null frame's delivery is answered by `v` and its own frame's by `w`, but for
the time it takes (`41_control_bus.md` R186, R189, R190). -/
def sendOver (v w : Bool) (r : List Bool) (a b : Byte) (s : State) : State :=
  { s with
    regs := { s.regs with l3addr := a, l3data := b, l3wd := false, l3rd := false }
    l3 := { s.l3 with frameAddr := a, frameData := b }
    codec := if w then codecReceive s.cfg a b s.codec else s.codec
    trace := s.trace ++ [frameEvent v 0 0, frameEvent w a b]
    errlog := s.errlog ++ if w then [] else [.busTimeout a b]
    env := { s.env with script := { s.env.script with delivered := r } } }

/-- The null frame has ended in the middle of a send: the codec ignored it. -/
def nullOver (v : Bool) (r : List Bool) (s : State) : State :=
  { s with
    regs := { s.regs with l3addr := 0, l3data := 0, l3wd := s.regs.l3wd || v }
    l3 := ⟨false, 0, 0, true⟩
    trace := s.trace ++ [frameEvent v 0 0]
    env := { s.env with script := { s.env.script with delivered := r } } }

theorem frameOver_null {s : State} (hc : s.cfg.chipAddr ≠ 0) (hlive : l3Operational s = true) (v : Bool) (r : List Bool) :
    frameOver v r (launched 0 0 (locked s)) = nullOver v r s := by
  have hcodec : codecReceive s.cfg 0#8 0#8 s.codec = s.codec := codecReceive_null hc s.codec
  rw [launched_live (by exact hlive)]
  simp [frameOver, nullOver, locked, hcodec]

/-- A send on an operational bus with no DMA beside it: at most one poll wait for a delivered frame, every one for a lost one. -/
theorem l3Send_live {v w : Bool} {r : List Bool} {s : State} (h : DmaStill s) (hb : BusReady s) (hlive : l3Operational s = true)
    (hd : s.env.script.delivered = v :: w :: r) (op : Instr) (g : Option Group) (a b : Byte) :
    ∃ q k t, l3Send op g a b s = .next (!w, t) ∧ Drew ((sendOver v w r a b s).waited q (s.cfg.tSettle + k)) t ∧
      (w = true → k ≤ Config.tPoll) ∧ (w = false → k = Config.pollMax * Config.tPoll) := by
  obtain ⟨hirq, hlock, hidle, hc, hsettle, -⟩ := hb
  have hnull : FrameAlone v (w :: r) (launched 0 0 (locked s)) := by
    rw [launched_live (by exact hlive)]; exact ⟨h, rfl, hd⟩
  obtain ⟨s1, hs1, hd1⟩ := hnull.waitAt op g .l3Settle (n := (locked s).cfg.tSettle) hsettle
  rw [frameOver_null hc hlive] at hd1
  have hq1 : Quiet s1 := hd1.quiet (DmaStill.quiet (by exact h) rfl)
  have hc1 : s1.cfg.chipAddr ≠ 0 := by rw [hd1.hwFrame.cfg]; exact hc
  have hsent := hd1.triggered a b
  have hframe : FrameAlone w r (triggered a b s1) := by
    refine hsent.frameAlone ?_
    rw [triggered, launched_live (by exact hlive)]
    exact ⟨h, rfl, rfl⟩
  obtain ⟨q, k, s3, hs3, hd3, hdelivered, hlost⟩ := hframe.pollWriteDone rfl op g (n := Config.pollMax) (by decide) 0
  have hover := ((hsent.frameOver w r).waited q k).trans hd3
  have hq3 : Quiet s3 := hd3.quiet (by exact hframe.quiet_over)
  have hflag : s3.regs.l3wd = w := by rw [hd3.regs]; exact Bool.false_or w
  refine ⟨q, k, closed a b s3, ?_, ?_, hdelivered, hlost⟩
  · rw [l3Send_eq hirq hlock, settleBus_quiet (by exact h.quiet hidle) (by exact hc), hs1, andThen_next,
      triggerSend_quiet hq1 hc1, andThen_next, hs3, andThen_next, closeSend_quiet hq3, hflag]
  · have hend : closed a b ((frameOver w r (triggered a b
        ((nullOver v (w :: r) s).waited ⟨some op, g, some .l3Settle, false⟩ s.cfg.tSettle))).waited q k) =
        (sendOver v w r a b s).waited q (s.cfg.tSettle + k) := by
      rw [triggered, launched_live (by exact hlive)]
      simp [closed, frameOver, nullOver, sendOver, State.waited, hidle, hlock, Nat.add_assoc]
    rw [← hend]
    exact hover.closed a b

/-! ### `L3.SEND` and the operations that contain a send -/

/-- However a send ends, the host is told `OK` (`41_control_bus.md` R181). -/
theorem exec_l3Send {a b : Byte} {s t : State} {timedOut : Bool} (h : l3Send (.l3Send a b) none a b s = .next (timedOut, t)) :
    exec (.l3Send a b) s = .next (answered 0 0 t) := by
  show execL3Send a b s = _
  unfold execL3Send
  rw [h]
  rfl

theorem l3Send_inIrq {s : State} (h : s.inIrq = true) (op : Instr) (g : Option Group) (a b : Byte) :
    l3Send op g a b s = .refused .busSendInInterrupt := if_pos h

theorem l3Send_locked {s : State} (hirq : s.inIrq = false) (hlock : s.l3.lock = true) (op : Instr) (g : Option Group) (a b : Byte) :
    l3Send op g a b s = .fault .waitsForBusLock := by
  unfold l3Send
  rw [if_neg (by rw [hirq]; decide), if_pos hlock]

end Sys2Proof.Machine

namespace Sys2Proof.Proofs

open Sys2Proof.Machine

/-- Settles O12: the cases of the trigger, from the state the hardware agents leave. -/
theorem l3DataWriteTriggers : Obligations.L3DataWriteTriggers := by
  intro s v
  have hmap : regAt 0 0x20 = some .l3data := rfl
  have hcfg : (hw s).cfg = s.cfg := (hw_hwFrame s).cfg
  rw [← hcfg, ← lowByte_eq_setWidth]
  refine ⟨hw s, hw_moved s, fun hc => ?_, fun hc hb => ?_, fun hc hb hdead => ?_, fun hc hb hlive => ?_⟩
  · exact exec_regWr_refused hmap (if_pos hc)
  · exact exec_regWr_fault hmap ((if_neg hc).trans (if_pos hb))
  · exact exec_regWr_next hmap ((regStore_l3data hb hc v).trans (by rw [launched_dead hdead])) rfl
  · exact exec_regWr_next hmap ((regStore_l3data hb hc v).trans (by rw [launched_live hlive])) rfl

/-- Settles O16: everything a send can do from a ready bus (`l3Send_total`), and its completion. -/
theorem sendCompletes : Obligations.SendCompletes := by
  intro a b s h
  obtain ⟨timedOut, t, hsend, hframe⟩ := l3Send_total (.l3Send a b) none a b h
  exact ⟨timedOut, t, exec_l3Send hsend, hframe⟩

/-- Settles O17: no wait sees an event, and no poll sees the flag. -/
theorem sendOnDeadBus : Obligations.SendOnDeadBus := by
  intro a b s hq hirq hlock hc hdead
  obtain ⟨q, hsend⟩ := l3Send_dead hq hirq hlock hc hdead (.l3Send a b) none a b
  rw [exec_l3Send hsend]
  simp [sendLost, State.waited, answered, Config.pollMax, Config.tPoll, Nat.add_assoc]

/-- Settles O18: the null frame ends in the settle delay, the frame `(a, b)` before or in the first poll wait. -/
theorem sendOnOperationalBus : Obligations.SendOnOperationalBus := by
  intro a b s v w r hstill hready hlive hd
  obtain ⟨q, k, t, hsend, ⟨n, x, hx, rfl⟩, hdelivered, hlost⟩ := l3Send_live hstill hready hlive hd (.l3Send a b) none a b
  refine ⟨_, exec_l3Send hsend, rfl, rfl, rfl, rfl, hready.frame, hready.lock, rfl, rfl, rfl, rfl, rfl, hx, ?_, ?_, ?_⟩
  · exact Nat.add_le_add_left (Nat.le_add_right _ k) _
  · intro hw
    have hk : k ≤ 1 := hdelivered hw
    show s.env.now + (s.cfg.tSettle + k) ≤ _
    omega
  · intro hw
    have hk : k = 1000 := hlost hw
    show s.env.now + (s.cfg.tSettle + k) = _
    omega

/-- Settles O19: the context is tested before anything else. -/
theorem sendsRefusedInInterrupt : Obligations.SendsRefusedInInterrupt := by
  intro s h a b v
  have hsend : exec (.l3Send a b) s = .refused .busSendInInterrupt := by
    show execL3Send a b s = _
    unfold execL3Send
    rw [l3Send_inIrq h, andThen_refused]
  exact ⟨hsend, if_pos h, if_pos h, if_pos h, if_pos h, if_pos h, if_pos h, if_pos h, if_pos h, if_pos h, if_pos h⟩

/-- Settles O20: in normal context the lock is tested before anything else. -/
theorem sendWaitsForTheLock : Obligations.SendWaitsForTheLock := by
  intro a b s hirq hlock
  show execL3Send a b s = _
  unfold execL3Send
  rw [l3Send_locked hirq hlock, andThen_fault]

end Sys2Proof.Proofs
end

section
/-! Once, what each operation makes of the codec mirror: agents, waits, sends and register accesses leave it alone, a sync only clears
its dirty bits, and the mirror operations keep the layout of its bytes (`42_codec_model.md` R201). -/

namespace Sys2Proof.Machine

/-! ### bits of the mirror bytes (`42_codec_model.md` R201) -/

/-- Bits that are clear stay clear where part of the byte is kept and a field with those bits clear put beside it. -/
theorem or_field_clear {x field mask : Byte} (keep : Byte) (hx : x &&& mask = 0) (hf : field &&& mask = 0) :
    ((x &&& keep) ||| field) &&& mask = 0 := by
  rw [BitVec.and_or_distrib_right, hf, BitVec.and_assoc, BitVec.and_comm keep, ← BitVec.and_assoc, hx]
  simp

/-- A value masked to six bits leaves the group bits of its byte clear. -/
theorem sixBits_clear (x : Byte) : x &&& 0x3F &&& 0xC0 = 0 := by
  rw [BitVec.and_assoc]
  exact BitVec.and_zero

theorem clampSigned_le (v : Word) (hi : Nat) : clampSigned v hi ≤ hi := min_le_right _ _

theorem clampSigned_eq_clampTo (v : Word) (hi : Nat) : clampSigned v hi = clampTo v hi := by
  unfold clampSigned clampTo
  omega

/-! ### layouts -/

/-- Marking a group dirty changes no byte. -/
theorem MirrorLayout.mark {m : Mirror} (g : Group) (h : MirrorLayout m) : MirrorLayout (m.mark g) := h

theorem withSc_layout {b : Byte} (h : b &&& 0xC0 = 0) (sc : BitVec 2) : withSc b sc &&& 0xC0 = 0 := by
  have hsc : ∀ sc : BitVec 2, (sc.setWidth 8 <<< 4 : Byte) &&& 0xC0 = 0 := by decide
  exact or_field_clear 0xCF h (hsc sc)

theorem openedMirror_layout {p : Params} (hp : LayoutConfig p) (m : Mirror) : MirrorLayout (openedMirror p m) := by
  have hfmt : ∀ fmt : BitVec 4, (fmt.setWidth 8 : Byte) &&& 0xC0 = 0 := by decide
  exact ⟨withSc_layout (hfmt _) _, sixBits_clear _, BitVec.zero_and, BitVec.zero_and, hp.1⟩

theorem MirrorLayout.volume {m : Mirror} (h : MirrorLayout m) (v : Word) : MirrorLayout (volumeMirror v m) := by
  obtain ⟨hstatus, -, htone, hfilter, hpower⟩ := h
  exact ⟨hstatus, sixBits_clear _, htone, hfilter, hpower⟩

theorem MirrorLayout.bass {m : Mirror} (h : MirrorLayout m) (v : Word) : MirrorLayout (bassMirror v m) := by
  have hfield : ∀ c, c ≤ 15 → (BitVec.ofNat 8 c <<< 2 : Byte) &&& 0xC0 = 0 := by decide
  obtain ⟨hstatus, hvolume, htone, hfilter, hpower⟩ := h
  exact ⟨hstatus, hvolume, or_field_clear 0x03 htone (hfield _ (clampSigned_le v 15)), hfilter, hpower⟩

theorem MirrorLayout.treble {m : Mirror} (h : MirrorLayout m) (v : Word) : MirrorLayout (trebleMirror v m) := by
  have hfield : ∀ c, c ≤ 3 → (BitVec.ofNat 8 c : Byte) &&& 0xC0 = 0 := by decide
  obtain ⟨hstatus, hvolume, htone, hfilter, hpower⟩ := h
  exact ⟨hstatus, hvolume, or_field_clear 0x3C htone (hfield _ (clampSigned_le v 3)), hfilter, hpower⟩

theorem MirrorLayout.mute {m : Mirror} (h : MirrorLayout m) (v : Word) : MirrorLayout (muteMirror v m) := by
  have hfield : ∀ c, c ≤ 1 → (BitVec.ofNat 8 c <<< 2 : Byte) &&& 0xF8 = 0 := by decide
  obtain ⟨hstatus, hvolume, htone, hfilter, hpower⟩ := h
  exact ⟨hstatus, hvolume, htone, or_field_clear 0x1B hfilter (hfield _ (clampSigned_le v 1)), hpower⟩

theorem MirrorLayout.filter {m : Mirror} (h : MirrorLayout m) (v : Word) : MirrorLayout (filterMirror v m) := by
  have hfield : ∀ c, c ≤ 3 → (BitVec.ofNat 8 c : Byte) &&& 0xF8 = 0 := by decide
  obtain ⟨hstatus, hvolume, htone, hfilter, hpower⟩ := h
  exact ⟨hstatus, hvolume, htone, or_field_clear 0x1C hfilter (hfield _ (clampSigned_le v 3)), hpower⟩

/-! ### register accesses and the DMA engine leave the mirror alone -/

theorem storeCtrl0_mirror {new : Word} {s t : State} (h : storeCtrl0 new s = .next t) : t.mirror = s.mirror := by
  unfold storeCtrl0 at h
  rw [abandonFrame_eq] at h
  dsimp only at h
  split at h
  · cases h; rfl
  · split at h <;> cases h
    rfl

theorem regStore_mirror {r : Reg} {v : Word} {s t : State} (h : regStore r v s = .next t) : t.mirror = s.mirror := by
  cases hr : r.isDma with
  | true => exact (regStore_dma_ctx hr h).mirror
  | false =>
    cases r with
    | ctrl0 => exact storeCtrl0_mirror h
    | l3data => obtain ⟨l, rfl⟩ := triggerFrame_next h; rfl
    | cs d => cases hr
    | addr d e => cases hr
    | cnt d e => cases hr
    | _ => cases h; rfl

theorem regWrite_mirror {r : Reg} {v : Word} {s t : State} (h : regWrite r v s = .next t) : t.mirror = s.mirror :=
  (regStore_mirror h).trans (hw_hwFrame s).mirror

theorem regUpdate_mirror {r : Reg} {f : Word → Word} {s t : State} (h : regUpdate r f s = .next t) : t.mirror = s.mirror :=
  (regWrite_mirror h).trans (regRead_hwFrame r s).mirror

theorem pollDone_mirror (d : Dir) (s : State) : (pollDone d s).2.mirror = s.mirror := by
  unfold pollDone
  split
  · rfl
  · exact (regRead_hwFrame (.cs d) s).mirror

theorem resetDirection_mirror {d : Dir} {s t : State} (h : resetDirection d s = .next t) : t.mirror = s.mirror := by
  obtain ⟨s1, h1, h⟩ := andThen_eq_next h
  obtain ⟨s2, h2, h⟩ := andThen_eq_next h
  obtain ⟨s3, h3, h⟩ := andThen_eq_next h
  obtain ⟨s4, h4, h⟩ := andThen_eq_next h
  rw [regWrite_mirror h, regWrite_mirror h4, regWrite_mirror h3, regWrite_mirror h2, regWrite_mirror h1]

@[simp] theorem bindLine_mirror (d : Dir) (e : Eng) (s : State) : (bindLine d e s).mirror = s.mirror := by simp [bindLine]

@[simp] theorem unbindLine_mirror (d : Dir) (e : Eng) (s : State) : (unbindLine d e s).mirror = s.mirror := by simp [unbindLine]

theorem releaseLine_mirror (d : Dir) (e : Eng) (s : State) : (releaseLine d e s).mirror = s.mirror := by
  unfold releaseLine
  split
  · exact unbindLine_mirror d e s
  · rfl

theorem releaseLines_mirror (d : Dir) (s : State) : (releaseLines d s).mirror = s.mirror :=
  (releaseLine_mirror d .b _).trans (releaseLine_mirror d .a s)

/-! ### waits and sends leave the mirror alone -/

theorem waitAt_mirror {op : Instr} {g : Option Group} {pos : WaitPos} {n : Nat} {s t : State}
    (h : waitAt op g pos n s = .next t) : t.mirror = s.mirror := (waitAt_ctx h).1.mirror

theorem stopPolls_mirror {op : Instr} {d : Dir} {n i : Nat} {s t : State} (h : stopPolls op d n i s = .next t) :
    t.mirror = s.mirror := by
  induction n generalizing i s with
  | zero => cases h; rfl
  | succ n ih =>
    unfold stopPolls at h
    have hm := pollDone_mirror d s
    generalize pollDone d s = r at h hm
    obtain ⟨done, s1⟩ := r
    dsimp only at h hm
    split at h
    · cases h; exact hm
    · obtain ⟨u, hu, h⟩ := andThen_eq_next h
      rw [ih h, waitAt_mirror hu, hm]

theorem pollWriteDone_mirror {op : Instr} {g : Option Group} {n i : Nat} {s t : State}
    (h : pollWriteDone op g n i s = .next t) : t.mirror = s.mirror := by
  induction n generalizing i s with
  | zero => cases h; rfl
  | succ n ih =>
    rw [pollWriteDone_succ] at h
    split at h
    · cases h; exact (hw_hwFrame s).mirror
    · obtain ⟨u, hu, h⟩ := andThen_eq_next h
      rw [ih h, waitAt_mirror hu, (hw_hwFrame s).mirror]

theorem settleBus_mirror {op : Instr} {g : Option Group} {s t : State} (h : settleBus op g s = .next t) :
    t.mirror = s.mirror := by
  obtain ⟨s1, h1, h⟩ := andThen_eq_next h
  obtain ⟨s2, h2, h⟩ := andThen_eq_next h
  rw [waitAt_mirror h, regWrite_mirror h2, regWrite_mirror h1]

theorem triggerSend_mirror {a b : Byte} {s t : State} (h : triggerSend a b s = .next t) : t.mirror = s.mirror := by
  unfold triggerSend at h
  obtain ⟨s2, h2, h⟩ := andThen_eq_next h
  obtain ⟨s3, h3, h⟩ := andThen_eq_next h
  rw [regWrite_mirror h, regWrite_mirror h3, regWrite_mirror h2]
  exact (regRead_hwFrame .statclr s).mirror

theorem closeSend_mirror {a b : Byte} {s t : State} {r : Bool} (h : closeSend a b s = .next (r, t)) :
    t.mirror = s.mirror := by
  unfold closeSend at h
  rw [readWriteDone_eq] at h
  dsimp only at h
  obtain ⟨s3, h3, h⟩ := andThen_eq_next h
  cases h
  have hlog : (if (hw s).regs.l3wd = true then hw s else (hw s).log (.busTimeout a b)).mirror = (hw s).mirror := by
    split <;> rfl
  exact (regWrite_mirror h3).trans (hlog.trans (hw_hwFrame s).mirror)

theorem l3Send_mirror {op : Instr} {g : Option Group} {a b : Byte} {s t : State} {r : Bool}
    (h : l3Send op g a b s = .next (r, t)) : t.mirror = s.mirror := by
  unfold l3Send at h
  split at h
  · cases h
  · split at h
    · cases h
    · obtain ⟨s1, h1, h⟩ := andThen_eq_next h
      obtain ⟨s2, h2, h⟩ := andThen_eq_next h
      obtain ⟨s3, h3, h⟩ := andThen_eq_next h
      rw [closeSend_mirror h, pollWriteDone_mirror h3, triggerSend_mirror h2, settleBus_mirror h1]

theorem syncGroups_mirror {op : Instr} {gs : List Group} {s t : State} {r : Bool}
    (h : syncGroups op gs s = .next (r, t)) : t.mirror = s.mirror := by
  induction gs generalizing s r with
  | nil => cases h; rfl
  | cons g rest ih =>
    unfold syncGroups at h
    split at h
    · obtain ⟨⟨r1, t1⟩, h1, h⟩ := andThen_eq_next h
      obtain ⟨⟨r2, t2⟩, h2, h⟩ := andThen_eq_next h
      cases h
      exact (ih h2).trans (l3Send_mirror h1)
    · exact ih h

/-- A sync changes nothing of the mirror but the dirty bits (`42_codec_model.md` R215). -/
theorem sync_mirror {op : Instr} {s t : State} (h : sync op s = .next t) :
    t.mirror = { s.mirror with dirty := t.mirror.dirty } := by
  obtain ⟨⟨r, u⟩, hu, h⟩ := andThen_eq_next h
  have hm := syncGroups_mirror hu
  dsimp only at h
  split at h <;> cases h
  · rw [hm]
  · dsimp only; rw [hm]

theorem sync_layout {op : Instr} {s t : State} (h : sync op s = .next t) (hl : MirrorLayout s.mirror) :
    MirrorLayout t.mirror := by
  rw [sync_mirror h]; exact hl

/-! ### the mirror operations keep the layout -/

theorem changeMirror_layout {op : Instr} {f : Params → Mirror → Mirror} {s t : State} (h : changeMirror op f s = .next t)
    (hl : MirrorLayout (f s.cfg s.mirror)) : MirrorLayout t.mirror := by
  obtain ⟨u, hu, h⟩ := andThen_eq_next (inNormalContext_next h)
  cases h
  show MirrorLayout u.mirror
  exact sync_layout hu hl

/-- `CODEC.SETRATE` changes the `SC` field of the status byte and no other bit of a byte (`42_codec_model.md` R217). -/
theorem setRate_layout {op : Instr} {rate v : Word} {s t : State} (h : setRate op rate s = .next (v, t))
    (hl : MirrorLayout s.mirror) : MirrorLayout t.mirror := by
  obtain ⟨hstatus, hrest⟩ := hl
  unfold setRate at h
  obtain ⟨s2, h2, h⟩ := andThen_eq_next h
  obtain ⟨s3, h3, h⟩ := andThen_eq_next h
  cases h
  refine sync_layout h3 (MirrorLayout.mark (m := { s2.mirror with rate := _ }) .status ?_)
  rw [regWrite_mirror h2]
  exact ⟨withSc_layout hstatus _, hrest⟩

theorem initSideband_mirror {s t : State} (h : initSideband s = .next t) : t.mirror = s.mirror := by
  obtain ⟨s1, h1, h⟩ := andThen_eq_next h
  obtain ⟨s2, h2, h⟩ := andThen_eq_next h
  rw [regUpdate_mirror h, regUpdate_mirror h2, State.emit_mirror, regUpdate_mirror h1]

theorem initController_mirror {op : Instr} {s t : State} (h : initController op s = .next t) : t.mirror = s.mirror := by
  obtain ⟨s1, h1, h⟩ := andThen_eq_next h
  obtain ⟨s2, h2, h⟩ := andThen_eq_next h
  obtain ⟨s3, h3, h⟩ := andThen_eq_next h
  obtain ⟨s4, h4, h⟩ := andThen_eq_next h
  rw [regUpdate_mirror h, regUpdate_mirror h4, regUpdate_mirror h3, waitAt_mirror h2, regUpdate_mirror h1]

theorem execCtrlInit_layout {s t : State} (h : execCtrlInit s = .next t) (hl : MirrorLayout s.mirror) :
    MirrorLayout t.mirror := by
  obtain ⟨s1, h1, h⟩ := andThen_eq_next (inNormalContext_next h)
  obtain ⟨s2, h2, h⟩ := andThen_eq_next h
  obtain ⟨⟨v, u⟩, h3, h⟩ := andThen_eq_next h
  cases h
  show MirrorLayout u.mirror
  refine setRate_layout h3 ?_
  rw [initController_mirror h2, initSideband_mirror h1]
  exact hl

theorem execCodecSetrate_layout {rate : Word} {s t : State} (h : execCodecSetrate rate s = .next t)
    (hl : MirrorLayout s.mirror) : MirrorLayout t.mirror := by
  obtain ⟨⟨v, u⟩, hu, h⟩ := andThen_eq_next (inNormalContext_next h)
  cases h
  show MirrorLayout u.mirror
  exact setRate_layout hu hl

/-! ### the other operations leave the mirror alone -/

theorem onDirection_mirror {sel : Byte} {s t : State} {k : Dir → Out State} (h : onDirection sel s k = .next t)
    (hk : ∀ d, k d = .next t → t.mirror = s.mirror) : t.mirror = s.mirror := by
  unfold onDirection at h
  split at h
  · next d _ => exact hk d h
  · cases h; rfl

theorem execRegWr_mirror {rgn : Byte} {off v : Word} {s t : State} (h : execRegWr rgn off v s = .next t) :
    t.mirror = s.mirror := by
  unfold execRegWr at h
  split at h
  · cases h
  · obtain ⟨u, hu, h⟩ := andThen_eq_next h
    cases h
    show (noteAmp _ u).mirror = s.mirror
    rw [noteAmp_eq, ← regWrite_mirror hu]

theorem execRegRd_mirror {rgn : Byte} {off : Word} {s t : State} (h : execRegRd rgn off s = .next t) :
    t.mirror = s.mirror := by
  unfold execRegRd at h
  split at h <;> cases h
  exact (regRead_hwFrame _ s).mirror

theorem execL3Send_mirror {a b : Byte} {s t : State} (h : execL3Send a b s = .next t) : t.mirror = s.mirror := by
  obtain ⟨⟨r, u⟩, hu, h⟩ := andThen_eq_next h
  cases h
  show u.mirror = s.mirror
  exact l3Send_mirror hu

theorem execDmaStart_mirror {dir : Byte} {addr len : Word} {s t : State} (h : execDmaStart dir addr len s = .next t) :
    t.mirror = s.mirror := by
  refine onDirection_mirror h fun d h => ?_
  obtain ⟨⟨st, u⟩, hu, h⟩ := andThen_eq_next h
  cases h
  exact (startBlock_ctx hu).mirror

theorem execDmaPoll_mirror {dir : Byte} {s t : State} (h : execDmaPoll dir s = .next t) : t.mirror = s.mirror := by
  refine onDirection_mirror h fun d h => ?_
  cases h
  exact pollDone_mirror d s

theorem execDmaReset_mirror {s t : State} (h : execDmaReset s = .next t) : t.mirror = s.mirror := by
  obtain ⟨s1, h1, h⟩ := andThen_eq_next h
  obtain ⟨s2, h2, h⟩ := andThen_eq_next h
  obtain ⟨s3, h3, h⟩ := andThen_eq_next h
  cases h
  rw [finish_mirror, regUpdate_mirror h3, resetDirection_mirror h2, resetDirection_mirror h1]

theorem drawBind_mirror (s : State) : (drawBind s).2.mirror = s.mirror := (drawBind_drew s).hwFrame.mirror

theorem execIrqReq_mirror {dir : Byte} {s t : State} (h : execIrqReq dir s = .next t) : t.mirror = s.mirror := by
  refine onDirection_mirror h fun d h => ?_
  dsimp only at h
  split at h
  · cases h; rfl
  · split at h
    · split at h <;> cases h <;> simp [drawBind_mirror]
    · cases h; exact drawBind_mirror s

theorem execIrqRel_mirror {dir : Byte} {s t : State} (h : execIrqRel dir s = .next t) : t.mirror = s.mirror := by
  refine onDirection_mirror h fun d h => ?_
  cases h
  exact releaseLines_mirror d s

theorem execIrqEvt_mirror {irq : Word} {s t : State} (h : execIrqEvt irq s = .next t) : t.mirror = s.mirror := by
  obtain ⟨u, hu, h⟩ := andThen_eq_next h
  cases h
  exact (handler_ctx hu).mirror

theorem execChOpen_mirror {dir : Byte} {s t : State} (h : execChOpen dir s = .next t) : t.mirror = s.mirror := by
  refine onDirection_mirror h fun d h => ?_
  split at h <;> cases h
  · rfl
  · exact State.setDir_mirror d _ s

theorem execChClose_mirror {dir : Byte} {s t : State} (h : execChClose dir s = .next t) : t.mirror = s.mirror := by
  refine onDirection_mirror h fun d h => ?_
  split at h <;> cases h
  · rfl
  · exact State.modChan_mirror d _ s

theorem execSesArm_mirror {dir : Byte} {loop : Bool} {start size period ctx : Word} {s t : State}
    (h : execSesArm dir loop start size period ctx s = .next t) : t.mirror = s.mirror := by
  refine onDirection_mirror h fun d h => ?_
  split at h
  · cases h; rfl
  · split at h
    · obtain ⟨⟨st, u⟩, hu, h⟩ := andThen_eq_next h
      have hm := (startBlock_ctx hu).mirror.trans (State.setDir_mirror d _ s)
      cases st <;> cases h <;> simpa using hm
    · cases h; rfl

theorem execSesStop_mirror {dir : Byte} {s t : State} (h : execSesStop dir s = .next t) : t.mirror = s.mirror := by
  refine onDirection_mirror h fun d h => ?_
  obtain ⟨u, hu, h⟩ := andThen_eq_next h
  cases h
  simp [releaseLines_mirror, stopPolls_mirror hu]

theorem execSesPos_mirror {dir : Byte} {s t : State} (h : execSesPos dir s = .next t) : t.mirror = s.mirror :=
  onDirection_mirror h fun d h => by cases h; rfl

/-! ### every operation and every step keeps the layout -/

theorem exec_keepsLayout {i : Instr} {s t : State} (hp : LayoutConfig s.cfg) (hl : MirrorLayout s.mirror)
    (h : exec i s = .next t) : MirrorLayout t.mirror := by
  have kept (hm : t.mirror = s.mirror) : MirrorLayout t.mirror := hm ▸ hl
  have answer {v : Word} (hv : (.next (finish v .ok s) : Out State) = .next t) : MirrorLayout t.mirror := by
    cases hv; exact hl
  unfold exec at h
  cases i with
  | regWr rgn off val => exact kept (execRegWr_mirror h)
  | regRd rgn off => exact kept (execRegRd_mirror h)
  | l3Send addr data => exact kept (execL3Send_mirror h)
  | codecOpen => exact changeMirror_layout h (openedMirror_layout hp s.mirror)
  | codecClose =>
    obtain ⟨hstatus, hvolume, htone, hfilter, -⟩ := hl
    exact changeMirror_layout h ⟨hstatus, hvolume, htone, hfilter, hp.2⟩
  | codecSync => exact changeMirror_layout h hl
  | codecSetrate rate => exact execCodecSetrate_layout h hl
  | setVol val => exact changeMirror_layout h (hl.volume val)
  | setBass val => exact changeMirror_layout h (hl.bass val)
  | setTreb val => exact changeMirror_layout h (hl.treble val)
  | setMute val => exact changeMirror_layout h (hl.mute val)
  | setFilt val => exact changeMirror_layout h (hl.filter val)
  | getVol => exact answer h
  | getBass => exact answer h
  | getTreb => exact answer h
  | getMute => exact answer h
  | getFilt => exact answer h
  | ctrlInit => exact execCtrlInit_layout h hl
  | dmaStart dir addr len => exact kept (execDmaStart_mirror h)
  | dmaPoll dir => exact kept (execDmaPoll_mirror h)
  | dmaReset => exact kept (execDmaReset_mirror h)
  | irqReq dir => exact kept (execIrqReq_mirror h)
  | irqRel dir => exact kept (execIrqRel_mirror h)
  | irqEvt irq => exact kept (execIrqEvt_mirror h)
  | chOpen dir => exact kept (execChOpen_mirror h)
  | chClose dir => exact kept (execChClose_mirror h)
  | sesArm dir loop start size period ctx => exact kept (execSesArm_mirror h)
  | sesStop dir => exact kept (execSesStop_mirror h)
  | sesPos dir => exact kept (execSesPos_mirror h)

/-- What the host does between operations does not reach the mirror. -/
theorem hostAction_mirror (s : State) : (hostAction s).mirror = s.mirror := by
  unfold hostAction
  split
  · exact (passTime_ctx 1 s).mirror
  · rfl
  · exact (hostStore_frames _ _ _).1.mirror
  · exact (hostLoad_frames _ _).1.mirror
  · exact (passTime_ctx 1 _).mirror

theorem hostTurn_keepsLayout {s t : State} (hp : LayoutConfig s.cfg) (hl : MirrorLayout s.mirror)
    (h : hostTurn exec s = .next t) : MirrorLayout t.mirror := by
  unfold hostTurn runPacket at h
  split at h
  · split at h
    · split at h
      · exact exec_keepsLayout hp hl h
      · cases h; exact hl
    · cases h
  · cases h; rw [hostAction_mirror]; exact hl

/-- No step writes the configuration. -/
theorem step_cfg {s t : State} (h : step s = .next t) : t.cfg = s.cfg :=
  step_keeps (I := fun u => u.cfg = s.cfg) (fun k hu => k.cfg.trans hu) (fun m hu => m.hostFrame.cfg.trans hu) rfl h

end Sys2Proof.Machine

namespace Sys2Proof.Proofs

open Sys2Proof.Machine

/-- Settles O58: a step is another agent's, which does not reach the mirror, or the host's turn, whose operations keep the layout. -/
theorem stepKeepsMirrorLayout : Obligations.StepKeepsMirrorLayout := by
  intro s t hp hl h
  refine ⟨?_, step_cfg h⟩
  obtain ⟨hdrew, -⟩ := choose_spec s
  obtain ⟨-, ⟨g, hg, -, hact⟩ | ⟨-, hhost⟩⟩ := step_cases h
  · rw [(actorStep_ctx hg hdrew hact).mirror]; exact hl
  · refine hostTurn_keepsLayout ?_ ?_ hhost
    · rw [hdrew.hwFrame.cfg]; exact hp
    · rw [hdrew.hwFrame.mirror]; exact hl

end Sys2Proof.Proofs
end

section
/-! What the codec operations do where the bus is ready: the setters' bytes and what the getters read of them, the sample-rate table,
and which codec registers the frames of a sync reach (`42_codec_model.md` R201 to R219, R230, R231). -/

namespace Sys2Proof.Machine

/-! ### fields of the mirror bytes (`42_codec_model.md` R201) -/

theorem clampTo_le (v : Word) (hi : Nat) : clampTo v hi ≤ hi := by
  unfold clampTo
  omega

/-- Reading the bits that were kept of a byte beside a field that has none of them. -/
theorem extractLsb'_kept {x keep field : Byte} {i n : Nat} (hkeep : keep.extractLsb' i n = BitVec.allOnes n)
    (hfield : field.extractLsb' i n = 0#n) : ((x &&& keep) ||| field).extractLsb' i n = x.extractLsb' i n := by
  rw [BitVec.extractLsb'_or, BitVec.extractLsb'_and, hkeep, hfield, BitVec.and_allOnes, BitVec.or_zero]

/-- Reading a field put beside bits that are kept elsewhere. -/
theorem extractLsb'_field {x keep field : Byte} {i n : Nat} (hkeep : keep.extractLsb' i n = 0#n) :
    ((x &&& keep) ||| field).extractLsb' i n = field.extractLsb' i n := by
  rw [BitVec.extractLsb'_or, BitVec.extractLsb'_and, hkeep, BitVec.and_zero, BitVec.zero_or]

theorem shiftLeft_two_eq_ofNat (n : Nat) : (BitVec.ofNat 8 n <<< 2 : Byte) = BitVec.ofNat 8 (4 * n) := by
  apply BitVec.eq_of_toNat_eq
  simp [Nat.shiftLeft_eq]
  omega

/-! ### the setters' bytes (`42_codec_model.md` R205 to R209) -/

theorem volumeMirror_eq (v : Word) (m : Mirror) : volumeMirror v m = { m with
    volume := BitVec.ofNat 8 (63 - clampTo v 63), dirty := m.dirty ||| 0b00010 } := by
  have hmask : ∀ c, c ≤ 63 → BitVec.ofNat 8 (63 - c) &&& 0x3F = BitVec.ofNat 8 (63 - c) := by decide
  unfold volumeMirror
  rw [clampSigned_eq_clampTo, hmask _ (clampTo_le v 63)]
  rfl

theorem bassMirror_eq (v : Word) (m : Mirror) : bassMirror v m = { m with
    tone := (m.tone &&& 0x03) ||| BitVec.ofNat 8 (4 * clampTo v 15), dirty := m.dirty ||| 0b00100 } := by
  unfold bassMirror
  rw [clampSigned_eq_clampTo, shiftLeft_two_eq_ofNat]
  rfl

theorem trebleMirror_eq (v : Word) (m : Mirror) : trebleMirror v m = { m with
    tone := (m.tone &&& 0x3C) ||| BitVec.ofNat 8 (clampTo v 3), dirty := m.dirty ||| 0b00100 } := by
  unfold trebleMirror
  rw [clampSigned_eq_clampTo]
  rfl

theorem muteMirror_eq (v : Word) (m : Mirror) : muteMirror v m = { m with
    filterMute := (m.filterMute &&& 0x1B) ||| BitVec.ofNat 8 (4 * clampTo v 1), dirty := m.dirty ||| 0b01000 } := by
  unfold muteMirror
  rw [clampSigned_eq_clampTo, shiftLeft_two_eq_ofNat]
  rfl

theorem filterMirror_eq (v : Word) (m : Mirror) : filterMirror v m = { m with
    filterMute := (m.filterMute &&& 0x1C) ||| BitVec.ofNat 8 (clampTo v 3), dirty := m.dirty ||| 0b01000 } := by
  unfold filterMirror
  rw [clampSigned_eq_clampTo]
  rfl

/-! ### a sync and the operations that end in one (`42_codec_model.md` R215) -/

theorem BusReady.withMirror {s : State} (h : BusReady s) (m : Mirror) : BusReady { s with mirror := m } :=
  ⟨h.normal, h.lock, h.frame, h.chip, h.settle, h.streams⟩

/-- What a sync leaves does not depend on the mirror the machine held before. -/
theorem SyncFrame.withMirror {m m1 m2 : Mirror} {s t : State} (k : SyncFrame m { s with mirror := m1 } t) :
    SyncFrame m { s with mirror := m2 } t :=
  ⟨k.mirror, k.inIrq, k.cfg, k.lock, k.frame, k.regs, k.now, k.rstSince, k.host, k.trace, k.errlog, k.chan, k.buf, k.streams,
    k.memStill, k.dead, k.reliable⟩

/-- A sync changes no byte of the mirror, whether or not its sends time out. -/
theorem SyncFrame.byteOf {m : Mirror} {s t : State} (k : SyncFrame m s t) (g : Group) : t.mirror.byteOf g = m.byteOf g := by
  rw [k.mirror]
  split
  · cases g <;> rfl
  · rfl

theorem inNormalContext_eq {s : State} (h : s.inIrq = false) (k : State → Out State) : inNormalContext s k = k s :=
  if_neg (by rw [h]; decide)

/-- Everything a mirror operation does on a ready bus: the mirror changed, then synced, and `OK`. -/
theorem changeMirror_total (op : Instr) (f : Params → Mirror → Mirror) {s : State} (h : BusReady s) :
    ∃ t, changeMirror op f s = .next (answered 0 0 t) ∧ t.port = s.port ∧ SyncFrame (f s.cfg s.mirror) s t := by
  obtain ⟨t, ht, hport, hframe⟩ := sync_total op (h.withMirror (f s.cfg s.mirror))
  refine ⟨t, ?_, hport, hframe.withMirror⟩
  unfold changeMirror
  rw [inNormalContext_eq h.normal, ht]
  rfl

/-- With nothing dirty the group loop sends nothing. -/
theorem syncGroups_clean (op : Instr) (gs : List Group) {s : State} (h : s.mirror.dirty = 0) :
    syncGroups op gs s = .next (false, s) := by
  have hclean (g : Group) : ¬ s.mirror.isDirty g = true := by simp [Mirror.isDirty, h]
  induction gs with
  | nil => rfl
  | cons g rest ih => unfold syncGroups; rw [if_neg (hclean g), ih]

theorem sync_clean (op : Instr) {s : State} (h : s.mirror.dirty = 0) : sync op s = .next s := by
  unfold sync
  rw [syncGroups_clean op groupOrder h, andThen_next, ← h]
  rfl

/-! ### the frames of a sync with no DMA beside it (`42_codec_model.md` R215, `41_control_bus.md` R189) -/

/-- The frames that bring group `g` of mirror `m` to the codec: the null frame and the group's own. -/
def groupFrames (p : Params) (m : Mirror) (g : Group) : List Event := [.frame 0 0, .frame (addrOf p g) (dataOf p m g)]

/-- Exactly the frames `fs` went over the bus, and nothing else happened that the host, the streams or memory could tell. -/
structure FramesSent (fs : List Event) (s t : State) : Prop where
  trace : t.trace = s.trace ++ fs
  mirror : t.mirror = s.mirror
  errlog : t.errlog = s.errlog
  play : t.play = s.play
  record : t.record = s.record
  mem : t.mem = s.mem
  cfg : t.cfg = s.cfg

theorem FramesSent.refl (s : State) : FramesSent [] s s := ⟨(List.append_nil _).symm, rfl, rfl, rfl, rfl, rfl, rfl⟩

theorem FramesSent.trans {fs gs : List Event} {s t u : State} (h : FramesSent fs s t) (k : FramesSent gs t u) :
    FramesSent (fs ++ gs) s u :=
  ⟨by rw [k.trace, h.trace, List.append_assoc], k.mirror.trans h.mirror, k.errlog.trans h.errlog, k.play.trans h.play,
    k.record.trans h.record, k.mem.trans h.mem, k.cfg.trans h.cfg⟩

/-- A send both of whose frames are delivered leaves the bus as ready, as operational and as alone as it was. -/
theorem l3Send_delivered {r : List Bool} {s : State} (h : DmaStill s) (hb : BusReady s) (hlive : l3Operational s = true)
    (hd : s.env.script.delivered = true :: true :: r) (op : Instr) (g : Option Group) (a b : Byte) :
    ∃ t, l3Send op g a b s = .next (false, t) ∧ FramesSent [.frame 0 0, .frame a b] s t ∧
      DmaStill t ∧ BusReady t ∧ l3Operational t = true ∧ t.env.script.delivered = r := by
  obtain ⟨q, k, t, hsend, ⟨n, x, hx, rfl⟩, -, -⟩ := l3Send_live h hb hlive hd op g a b
  exact ⟨_, hsend, ⟨rfl, rfl, List.append_nil _, rfl, rfl, rfl, rfl⟩, h,
    ⟨hb.normal, hb.lock, hb.frame, hb.chip, hb.settle, hb.streams⟩, hlive, hx⟩

theorem syncGroups_delivered (op : Instr) (gs : List Group) {s : State} (h : DmaStill s) (hb : BusReady s)
    (hlive : l3Operational s = true) (hr : L3Reliable (2 * (gs.filter s.mirror.isDirty).length) s) :
    ∃ t, syncGroups op gs s = .next (false, t) ∧
      FramesSent ((gs.filter s.mirror.isDirty).flatMap (groupFrames s.cfg s.mirror)) s t := by
  induction gs generalizing s with
  | nil => exact ⟨s, rfl, FramesSent.refl s⟩
  | cons g rest ih =>
    unfold syncGroups
    by_cases hg : s.mirror.isDirty g = true
    · rw [List.filter_cons_of_pos hg] at hr ⊢
      rw [if_pos hg]
      obtain ⟨r, hd, hrest⟩ := hr.cons
      obtain ⟨t, hsend, hsent, ht, hbt, hlivet, hdt⟩ := l3Send_delivered h hb hlive hd op (some g) (addrOf s.cfg g)
        (dataOf s.cfg s.mirror g)
      rw [← hsent.mirror, ← hdt] at hrest
      obtain ⟨u, hloop, hsentu⟩ := ih ht hbt hlivet hrest
      rw [hsent.mirror, hsent.cfg] at hsentu
      exact ⟨u, by rw [hsend, andThen_next, hloop]; rfl, hsent.trans hsentu⟩
    · rw [List.filter_cons_of_neg hg] at hr ⊢
      rw [if_neg hg]
      exact ih h hb hlive hr

/-! ### the sample-rate table (`42_codec_model.md` R217 to R219) -/

/-- One step of `snap(q)`: the row replaces the best one so far where its rate is not above `q`. -/
def betterRow (q : Word) (best row : RateRow) : RateRow := if row.rate.toNat ≤ q.toNat then row else best

theorem snapRow_eq_foldl (p : Params) (q : Word) : snapRow p q = p.rateRest.foldl (betterRow q) p.rateFirst := rfl

theorem foldl_betterRow_above {q : Word} {b : RateRow} {l : List RateRow} (h : ∀ r ∈ l, q.toNat < r.rate.toNat) :
    l.foldl (betterRow q) b = b := by
  induction l with
  | nil => rfl
  | cons x l ih =>
    have hx := h x List.mem_cons_self
    rw [List.foldl_cons, betterRow, if_neg (by omega)]
    exact ih fun r hr => h r (List.mem_cons_of_mem x hr)

/-- From a row that is not above `q`, the walk up an increasing table ends at the largest such row. -/
theorem foldl_betterRow_below {q : Word} {b : RateRow} {l : List RateRow}
    (hinc : (b :: l).Pairwise fun x y => x.rate.toNat < y.rate.toNat) (hb : b.rate.toNat ≤ q.toNat) :
    l.foldl (betterRow q) b ∈ b :: l ∧ (l.foldl (betterRow q) b).rate.toNat ≤ q.toNat ∧
      ∀ r ∈ b :: l, r.rate.toNat ≤ q.toNat → r.rate.toNat ≤ (l.foldl (betterRow q) b).rate.toNat := by
  induction l generalizing b with
  | nil => exact ⟨List.mem_cons_self, hb, fun r hr _ => by rw [List.mem_singleton.1 hr]; rfl⟩
  | cons x l ih =>
    obtain ⟨hlt, htail⟩ := List.pairwise_cons.1 hinc
    have hbx := hlt x List.mem_cons_self
    rw [List.foldl_cons]
    by_cases hx : x.rate.toNat ≤ q.toNat
    · rw [betterRow, if_pos hx]
      obtain ⟨hmem, hle, hmax⟩ := ih htail hx
      refine ⟨List.mem_cons_of_mem b hmem, hle, fun r hr hrq => ?_⟩
      rcases List.mem_cons.1 hr with rfl | hr
      · exact hbx.le.trans (hmax x List.mem_cons_self hx)
      · exact hmax r hr hrq
    · have habove : ∀ r ∈ x :: l, q.toNat < r.rate.toNat := fun r hr => by
        rcases List.mem_cons.1 hr with rfl | hr
        · omega
        · have := (List.pairwise_cons.1 htail).1 r hr
          omega
      rw [betterRow, if_neg hx, foldl_betterRow_above fun r hr => habove r (List.mem_cons_of_mem x hr)]
      refine ⟨List.mem_cons_self, hb, fun r hr hrq => ?_⟩
      rcases List.mem_cons.1 hr with rfl | hr
      · rfl
      · exact absurd hrq (by have := habove r hr; omega)

theorem snapRow_isSnap {p : Params} (h : RatesIncrease p) (q : Word) : IsSnap p q (snapRow p q) := by
  rw [snapRow_eq_foldl]
  by_cases hq : p.rateFirst.rate.toNat ≤ q.toNat
  · obtain ⟨hmem, hle, hmax⟩ := foldl_betterRow_below h hq
    exact ⟨hmem, .inl ⟨hle, hmax⟩⟩
  · obtain ⟨hlt, -⟩ := List.pairwise_cons.1 h
    have habove : ∀ r ∈ p.rateTable, q.toNat < r.rate.toNat := fun r hr => by
      rcases List.mem_cons.1 hr with rfl | hr
      · omega
      · have := hlt r hr
        omega
    rw [foldl_betterRow_above fun r hr => habove r (List.mem_cons_of_mem _ hr)]
    refine ⟨List.mem_cons_self, .inr ⟨habove, fun r hr => ?_⟩⟩
    rcases List.mem_cons.1 hr with rfl | hr
    · rfl
    · exact (hlt r hr).le

/-- An increasing table has one row for each of its rates. -/
theorem RatesIncrease.row_ext {p : Params} (h : RatesIncrease p) {x y : RateRow} (hx : x ∈ p.rateTable) (hy : y ∈ p.rateTable)
    (hxy : x.rate = y.rate) : x = y := by
  have hdistinct : (p.rateTable.map RateRow.rate).Nodup :=
    List.pairwise_map.2 (h.imp fun hlt heq => by rw [heq] at hlt; omega)
  exact List.inj_on_of_nodup_map hdistinct hx hy hxy

/-- A rate of the table snaps to its own row. -/
theorem snapRow_of_mem {p : Params} (h : RatesIncrease p) {row : RateRow} (hrow : row ∈ p.rateTable) :
    snapRow p row.rate = row := by
  obtain ⟨hmem, ⟨hle, hmax⟩ | ⟨habove, -⟩⟩ := snapRow_isSnap h row.rate
  · exact h.row_ext hmem hrow (BitVec.eq_of_toNat_eq (hle.antisymm (hmax row hrow le_rfl)))
  · exact absurd (habove row hrow) (lt_irrefl _)

/-! ### the codec's registers (`42_codec_model.md` R230, R231) -/

/-- The codec register of a group. -/
def CodecHw.reg (c : CodecHw) : Group → Option Byte
  | .status => c.status
  | .volume => c.volume
  | .tone => c.tone
  | .filter => c.filterMute
  | .power => c.power

/-- The codec register of a group takes a value. -/
def CodecHw.setReg (g : Group) (v : Byte) (c : CodecHw) : CodecHw :=
  match g with
  | .status => { c with status := some v }
  | .volume => { c with volume := some v }
  | .tone => { c with tone := some v }
  | .filter => { c with filterMute := some v }
  | .power => { c with power := some v }

theorem CodecHw.setReg_reg (g g' : Group) (v : Byte) (c : CodecHw) :
    (c.setReg g v).reg g' = if g' = g then some v else c.reg g' := by
  cases g <;> cases g' <;> rfl

/-- The register that bits 7:6 of a data frame name. -/
def dataGroup (k : BitVec 2) : Group :=
  match k.toNat with
  | 0 => .volume
  | 1 => .tone
  | 2 => .filter
  | _ => .power

theorem codecReceive_status (p : Params) (v : Byte) (c : CodecHw) :
    codecReceive p (p.chipAddr ++ p.selStatus) v c = c.setReg .status v := by
  unfold codecReceive
  rw [BitVec.extractLsb'_append_eq_left, BitVec.extractLsb'_append_eq_right, if_neg (by simp), if_pos rfl]
  rfl

/-- A frame for the data selector reaches the register that bits 7:6 name, with bits 5:0. -/
theorem codecReceive_data {p : Params} (hsel : p.selData ≠ p.selStatus) (v : Byte) (c : CodecHw) :
    codecReceive p (p.chipAddr ++ p.selData) v c = c.setReg (dataGroup (v.extractLsb' 6 2)) (v &&& 0x3F) := by
  unfold codecReceive dataGroup
  rw [BitVec.extractLsb'_append_eq_left, BitVec.extractLsb'_append_eq_right, if_neg (by simp), if_neg hsel, if_pos rfl]
  generalize (v.extractLsb' 6 2).toNat = k
  match k with
  | 0 => rfl
  | 1 => rfl
  | 2 => rfl
  | _ + 3 => rfl

/-- A byte with its upper two bits clear, put under a selector `k` of two bits: the codec finds both. -/
theorem codecReceive_selected {p : Params} (hsel : p.selData ≠ p.selStatus) {b : Byte} (hb : b &&& 0xC0 = 0) (k : BitVec 2)
    (c : CodecHw) : codecReceive p (p.chipAddr ++ p.selData) ((k ++ (0 : BitVec 6)) ||| b) c = c.setReg (dataGroup k) b := by
  have hlow : b &&& 0x3F = b := by
    calc b &&& 0x3F = (b &&& 0xC0) ||| (b &&& 0x3F) := by rw [hb]; simp
      _ = b &&& (0xC0 ||| 0x3F) := (BitVec.and_or_distrib_left ..).symm
      _ = b := BitVec.and_allOnes
  have hkind : ((k ++ (0 : BitVec 6)) ||| b).extractLsb' 6 2 = k := by
    rw [BitVec.extractLsb'_or, BitVec.extractLsb'_append_eq_left, ← hlow, BitVec.extractLsb'_and]
    exact (congrArg (k ||| ·) BitVec.and_zero).trans BitVec.or_zero
  have hvalue : ((k ++ (0 : BitVec 6)) ||| b) &&& 0x3F = b := by
    have hk : ∀ k : BitVec 2, (k ++ (0 : BitVec 6)) &&& 0x3F = 0 := by decide
    rw [BitVec.and_or_distrib_right, hk, hlow]
    simp
  rw [codecReceive_data hsel, hkind, hvalue]

/-- A mask that holds the bits of another clears them too. -/
theorem and_eq_zero_of_mask {b wide narrow : Byte} (hb : b &&& wide = 0) (hmask : wide &&& narrow = narrow) : b &&& narrow = 0 := by
  rw [← hmask, ← BitVec.and_assoc, hb]
  exact BitVec.zero_and

/-- Each group's frame reaches exactly its own codec register (`42_codec_model.md` R202, R230). -/
theorem codecReceive_group {p : Params} {m : Mirror} (hp : FrameConfig p) (hm : MirrorLayout m) (g : Group) (c : CodecHw) :
    codecReceive p (addrOf p g) (dataOf p m g) c = c.setReg g (m.byteOf g) := by
  obtain ⟨hvol, htone, hfilt, hpwr, hsel⟩ := hp
  obtain ⟨-, cvol, ctone, cfilt, cpwr⟩ := hm
  cases g with
  | status => exact codecReceive_status p m.status c
  | volume => unfold dataOf; rw [hvol]; exact codecReceive_selected hsel cvol 0 c
  | tone => unfold dataOf; rw [htone]; exact codecReceive_selected hsel ctone 1 c
  | filter => unfold dataOf; rw [hfilt]; exact codecReceive_selected hsel (and_eq_zero_of_mask cfilt rfl) 2 c
  | power => unfold dataOf; rw [hpwr]; exact codecReceive_selected hsel (and_eq_zero_of_mask cpwr rfl) 3 c

/-- What the codec holds after the frames of some groups. -/
theorem foldl_codecReceive_reg {p : Params} {m : Mirror} (hp : FrameConfig p) (hm : MirrorLayout m) (gs : List Group)
    (c : CodecHw) (g : Group) : (gs.foldl (fun c g => codecReceive p (addrOf p g) (dataOf p m g) c) c).reg g =
      if g ∈ gs then some (m.byteOf g) else c.reg g := by
  induction gs generalizing c with
  | nil => rfl
  | cons x gs ih =>
    rw [List.foldl_cons, ih, codecReceive_group hp hm, CodecHw.setReg_reg]
    by_cases hx : g = x
    · subst hx; simp
    · simp [hx]

theorem mirrorAgrees_iff (s : State) : MirrorAgrees s ↔
    MirrorLayout s.mirror ∧ s.mirror.dirty = 0 ∧ ∀ g, s.codec.reg g = some (s.mirror.byteOf g) := by
  refine ⟨fun ⟨hl, hd, h1, h2, h3, h4, h5⟩ => ⟨hl, hd, fun g => ?_⟩, fun ⟨hl, hd, hr⟩ =>
    ⟨hl, hd, hr .status, hr .volume, hr .tone, hr .filter, hr .power⟩⟩
  cases g
  exacts [h1, h2, h3, h4, h5]

theorem mem_dirtyGroups {m : Mirror} {g : Group} : g ∈ dirtyGroups m ↔ m.isDirty g = true := by
  have hall : g ∈ groupOrder := by cases g <;> decide
  unfold dirtyGroups
  rw [List.mem_filter]
  exact and_iff_right hall

/-- A reliable sync brings the codec to the mirror, where the groups that are not dirty agreed before. -/
theorem SyncFrame.agrees {m : Mirror} {s t : State} (k : SyncFrame m s t) (hp : FrameConfig s.cfg) (hl : MirrorLayout m)
    (hlive : l3Operational s = true) (hr : L3Reliable (2 * (dirtyGroups m).length) s)
    (hclean : ∀ g, m.isDirty g = false → s.codec.reg g = some (m.byteOf g)) : MirrorAgrees t := by
  obtain ⟨hnone, hcodec, -⟩ := k.reliable hlive hr
  have hmirror := k.mirror
  rw [if_pos hnone] at hmirror
  refine (mirrorAgrees_iff t).2 ⟨by rw [hmirror]; exact hl, by rw [hmirror], fun g => ?_⟩
  rw [hcodec, foldl_codecReceive_reg hp hl, k.byteOf]
  split
  · rfl
  · next hg => exact hclean g (by simpa [mem_dirtyGroups] using hg)

/-- The `SC` field beside `STATUS_FMT` (`42_codec_model.md` R203). -/
theorem withSc_statusFmt (fmt : BitVec 4) (sc : BitVec 2) :
    withSc (fmt.setWidth 8) sc = (sc.setWidth 8 <<< 4) ||| fmt.setWidth 8 := by
  have hkept : ∀ fmt : BitVec 4, (fmt.setWidth 8 : Byte) &&& 0xCF = fmt.setWidth 8 := by decide
  exact (congrArg (· ||| _) (hkept fmt)).trans (BitVec.or_comm ..)

theorem openedMirror_dirty (p : Params) (m : Mirror) : dirtyGroups (openedMirror p m) = groupOrder := by
  have hall (g : Group) : (openedMirror p m).isDirty g = true := by
    show (0b11111 &&& g.bit != 0) = true
    cases g <;> decide
  exact List.filter_eq_self.2 fun g _ => hall g

/-- The mirror byte of a group takes a value. -/
def Mirror.setByte (g : Group) (b : Byte) (m : Mirror) : Mirror :=
  match g with
  | .status => { m with status := b }
  | .volume => { m with volume := b }
  | .tone => { m with tone := b }
  | .filter => { m with filterMute := b }
  | .power => { m with power := b }

theorem Mirror.setByte_byteOf_other {g g' : Group} (h : g' ≠ g) (b : Byte) (m : Mirror) :
    (m.setByte g b).byteOf g' = m.byteOf g' := by
  cases g <;> cases g' <;> first | rfl | exact absurd rfl h

theorem Mirror.setByte_dirty (g : Group) (b : Byte) (m : Mirror) : (m.setByte g b).dirty = m.dirty := by cases g <;> rfl

theorem isDirty_mark_clean {m : Mirror} (h : m.dirty = 0) (g g' : Group) : (m.mark g).isDirty g' = decide (g' = g) := by
  unfold Mirror.isDirty Mirror.mark
  dsimp only
  rw [h]
  cases g <;> cases g' <;> rfl

theorem dirtyGroups_mark_clean {m : Mirror} (h : m.dirty = 0) (g : Group) : dirtyGroups (m.mark g) = [g] := by
  unfold dirtyGroups
  rw [show (m.mark g).isDirty = fun g' => decide (g' = g) from funext (isDirty_mark_clean h g)]
  cases g <;> rfl

/-- A reliable sync of a mirror in which one byte was changed and its group marked, where mirror and codec agreed before. -/
theorem SyncFrame.agrees_setByte {m : Mirror} {g : Group} {b : Byte} {s t : State}
    (k : SyncFrame ((m.setByte g b).mark g) s t) (hp : FrameConfig s.cfg) (hl : MirrorLayout (m.setByte g b))
    (hlive : l3Operational s = true) (hr : L3Reliable 2 s) (hclean : m.dirty = 0)
    (hcodec : ∀ g, s.codec.reg g = some (m.byteOf g)) : MirrorAgrees t := by
  have hclean' : (m.setByte g b).dirty = 0 := (Mirror.setByte_dirty g b m).trans hclean
  refine k.agrees hp (hl.mark g) hlive ?_ fun g' hg' => ?_
  · rw [dirtyGroups_mark_clean hclean']; exact hr
  · rw [isDirty_mark_clean hclean', decide_eq_false_iff_not] at hg'
    rw [hcodec]
    exact congrArg some (Mirror.setByte_byteOf_other hg' b m).symm

/-- A mirror operation that changes one byte and marks its group keeps mirror and codec in agreement. -/
theorem changeMirror_agrees {op : Instr} {f : Params → Mirror → Mirror} {g : Group} {b : Byte} {s : State} (h : BusReady s)
    (hp : FrameConfig s.cfg) (hlive : l3Operational s = true) (hr : L3Reliable 2 s) (ha : MirrorAgrees s)
    (hf : f s.cfg s.mirror = (s.mirror.setByte g b).mark g) (hl : MirrorLayout (f s.cfg s.mirror)) :
    ∃ t, changeMirror op f s = .next t ∧ MirrorAgrees t := by
  obtain ⟨-, hclean, hcodec⟩ := (mirrorAgrees_iff s).1 ha
  obtain ⟨t, ht, -, k⟩ := changeMirror_total op f h
  rw [hf] at k hl
  exact ⟨_, ht, k.agrees_setByte hp hl hlive hr hclean hcodec⟩

/-! ### `CODEC.SETRATE` (`42_codec_model.md` R217) -/

/-- The mirror after the sample rate of `row` was selected. -/
def rateMirror (row : RateRow) (m : Mirror) : Mirror :=
  Mirror.mark .status { m with status := withSc m.status row.sc, rate := row.rate }

theorem HwFrame.busReady {s t : State} (k : HwFrame s t) (h : BusReady s) : BusReady t := by
  obtain ⟨hl3, -⟩ := bus_idle k.bus h.frame
  exact ⟨k.inIrq.trans h.normal, by rw [hl3]; exact h.lock, by rw [hl3]; exact h.frame, by rw [k.cfg]; exact h.chip,
    by rw [k.cfg]; exact h.settle, k.streams h.streams⟩

/-- What hardware agents do does not depend on the mirror. -/
theorem HardwareMoved.withMirror {m : Mirror} {s t : State} (h : HardwareMoved { s with mirror := m } t) :
    HardwareMoved s { t with mirror := s.mirror } := by
  obtain ⟨hframe, hmem, hquiet⟩ := h
  refine ⟨{ hframe with mirror := rfl }, ⟨hmem.read, hmem.wf, hmem.still⟩, fun hq => ?_⟩
  rw [hquiet hq]

/-- Everything `CODEC.SETRATE` does on a ready bus. -/
theorem setRate_total (op : Instr) (q : Word) {s : State} (h : BusReady s) : ∃ u t, HardwareMoved s u ∧
    setRate op q s = .next ((snapRow s.cfg q).rate, t) ∧ t.port = s.port ∧ SyncFrame (rateMirror (snapRow s.cfg q) s.mirror)
      { u with regs := { u.regs with pauddiv := (snapRow s.cfg q).div.setWidth 32 } } t := by
  have hdiv : ∀ div : BitVec 7, div.setWidth 32 &&& Config.divField = div.setWidth 32 := by decide
  generalize hrow : snapRow s.cfg q = row
  have hmoved := hw_moved { s with mirror := { s.mirror with status := withSc s.mirror.status row.sc } }
  unfold setRate regWrite
  dsimp only [regStore]
  rw [hrow, hdiv, andThen_next]
  generalize hw { s with mirror := { s.mirror with status := withSc s.mirror.status row.sc } } = v at hmoved ⊢
  have hready : BusReady v := hmoved.1.busReady (h.withMirror _)
  obtain ⟨t, ht, hport, k⟩ := sync_total op (s := { v with
    regs := { v.regs with pauddiv := row.div.setWidth 32 }
    mirror := Mirror.mark .status { v.mirror with rate := row.rate } })
    ⟨hready.normal, hready.lock, hready.frame, hready.chip, hready.settle, hready.streams⟩
  refine ⟨{ v with mirror := s.mirror }, t, hmoved.withMirror, ?_, hport.trans hmoved.1.port, ?_⟩
  · rw [ht]; rfl
  · have hm : Mirror.mark .status { v.mirror with rate := row.rate } = rateMirror row s.mirror := by
      rw [hmoved.1.mirror]; rfl
    dsimp only at k
    rw [hm] at k
    exact SyncFrame.withMirror (s := { v with regs := { v.regs with pauddiv := row.div.setWidth 32 } }) k

theorem execCodecSetrate_total (q : Word) {s : State} (h : BusReady s) : ∃ u t, HardwareMoved s u ∧
    exec (.codecSetrate q) s = .next (answered (snapRow s.cfg q).rate 0 t) ∧ t.port = s.port ∧
      SyncFrame (rateMirror (snapRow s.cfg q) s.mirror)
        { u with regs := { u.regs with pauddiv := (snapRow s.cfg q).div.setWidth 32 } } t := by
  obtain ⟨u, t, hu, ht, hport, k⟩ := setRate_total (.codecSetrate q) q h
  refine ⟨u, t, hu, ?_, hport, k⟩
  show execCodecSetrate q s = _
  unfold execCodecSetrate
  rw [inNormalContext_eq h.normal, ht]
  rfl

theorem execCodecSetrate_agrees (q : Word) {s : State} (h : BusReady s) (hp : FrameConfig s.cfg)
    (hlive : l3Operational s = true) (hr : L3Reliable 2 s) (ha : MirrorAgrees s) :
    ∃ t, exec (.codecSetrate q) s = .next t ∧ MirrorAgrees t := by
  obtain ⟨hl, hclean, hcodec⟩ := (mirrorAgrees_iff s).1 ha
  obtain ⟨u, t, ⟨hu, -⟩, ht, -, k⟩ := execCodecSetrate_total q h
  obtain ⟨-, hregs, hcodecu, hdelivered⟩ := bus_idle hu.bus h.frame
  obtain ⟨hstatus, hrest⟩ := hl
  refine ⟨_, ht, SyncFrame.agrees_setByte (m := { s.mirror with rate := (snapRow s.cfg q).rate }) (g := .status)
    (b := withSc s.mirror.status (snapRow s.cfg q).sc) (t := t) k ?_ ?_ ?_ ?_ hclean ?_⟩
  · show FrameConfig u.cfg
    rw [hu.cfg]; exact hp
  · exact ⟨withSc_layout hstatus _, hrest⟩
  · unfold l3Operational
    dsimp only
    rw [hregs]
    exact hlive
  · unfold L3Reliable
    dsimp only
    rw [hdelivered]
    exact hr
  · show ∀ g, u.codec.reg g = _
    rw [hcodecu]
    exact fun g => (hcodec g).trans (by cases g <;> rfl)

/-! ### `CODEC.CLOSE`, `CODEC.SYNC` and the getters (`42_codec_model.md` R210 to R214) -/

/-- The mirror after `CODEC.CLOSE` (`42_codec_model.md` R204). -/
def closedMirror (p : Params) (m : Mirror) : Mirror := Mirror.mark .power { m with power := p.pwrOff }

/-- `CODEC.SYNC` from normal context is the sync of the mirror as it stands, and its completion. -/
theorem exec_codecSync_eq {s t : State} (hirq : s.inIrq = false) (h : sync .codecSync s = .next t) :
    exec .codecSync s = .next (answered 0 0 t) := by
  show changeMirror .codecSync (fun _ m => m) s = _
  unfold changeMirror
  rw [inNormalContext_eq hirq]
  exact (congrArg (fun x => andThen x fun u => .next (finish 0 .ok u)) h).trans rfl

theorem exec_getVol (s : State) :
    exec .getVol s = .next (answered (63 - (s.mirror.volume.extractLsb' 0 6).setWidth 32) 0 s) := rfl

theorem exec_getBass (s : State) :
    exec .getBass s = .next (answered ((s.mirror.tone.extractLsb' 2 4).setWidth 32) 0 s) := rfl

theorem exec_getTreb (s : State) :
    exec .getTreb s = .next (answered ((s.mirror.tone.extractLsb' 0 2).setWidth 32) 0 s) := rfl

theorem exec_getMute (s : State) :
    exec .getMute s = .next (answered ((s.mirror.filterMute.extractLsb' 2 1).setWidth 32) 0 s) := rfl

theorem exec_getFilt (s : State) :
    exec .getFilt s = .next (answered ((s.mirror.filterMute.extractLsb' 0 2).setWidth 32) 0 s) := rfl

end Sys2Proof.Machine

namespace Sys2Proof.Proofs

open Sys2Proof.Machine

/-- Settles O22: each setter changes the mirror as its rule says and syncs (`changeMirror_total`). -/
theorem settersStoreAndSync : Obligations.SettersStoreAndSync := by
  intro v s h
  have stores {op : Instr} {f : Mirror → Mirror} {m : Mirror} (hf : f s.mirror = m) :
      ∃ t, changeMirror op (fun _ => f) s = .next (answered 0 0 t) ∧ t.port = s.port ∧ SyncFrame m s t :=
    hf ▸ changeMirror_total op (fun _ => f) h
  exact ⟨stores (volumeMirror_eq v s.mirror), stores (bassMirror_eq v s.mirror), stores (trebleMirror_eq v s.mirror),
    stores (muteMirror_eq v s.mirror), stores (filterMirror_eq v s.mirror)⟩

/-- Settles O21: the getters by their definitions, and the volume byte that `SET.VOL` leaves, inverted twice. -/
theorem gettersReadTheMirror : Obligations.GettersReadTheMirror := by
  refine ⟨fun s => ⟨exec_getVol s, exec_getBass s, exec_getTreb s, exec_getMute s, exec_getFilt s⟩, fun v s h => ?_⟩
  have hinvert : ∀ c, c ≤ 63 →
      63 - ((BitVec.ofNat 8 (63 - c)).extractLsb' 0 6).setWidth 32 = BitVec.ofNat 32 c := by decide
  obtain ⟨⟨t, ht, -, k⟩, -⟩ := settersStoreAndSync v s h
  have hvolume : (answered 0 0 t).mirror.volume = BitVec.ofNat 8 (63 - clampTo v 63) := k.byteOf .volume
  exact ⟨_, ht, by rw [exec_getVol, hvolume, hinvert _ (clampTo_le v 63)]⟩

/-- Settles O23: the getter reads the field its setter put there, beside the bits that were kept. -/
theorem settersReadBack : Obligations.SettersReadBack := by
  intro v s h
  have hhigh : ∀ c, c ≤ 15 → ((BitVec.ofNat 8 (4 * c)).extractLsb' 2 4).setWidth 32 = BitVec.ofNat 32 c ∧
      (BitVec.ofNat 8 (4 * c)).extractLsb' 0 2 = 0#2 := by decide
  have hbit : ∀ c, c ≤ 1 → ((BitVec.ofNat 8 (4 * c)).extractLsb' 2 1).setWidth 32 = BitVec.ofNat 32 c ∧
      (BitVec.ofNat 8 (4 * c)).extractLsb' 0 2 = 0#2 := by decide
  have hlow : ∀ c, c ≤ 3 → ((BitVec.ofNat 8 c).extractLsb' 0 2).setWidth 32 = BitVec.ofNat 32 c ∧
      (BitVec.ofNat 8 c).extractLsb' 2 4 = 0#4 ∧ (BitVec.ofNat 8 c).extractLsb' 2 1 = 0#1 := by decide
  obtain ⟨-, ⟨b, hb, -, kb⟩, ⟨t, ht, -, kt⟩, ⟨m, hm, -, km⟩, ⟨f, hf, -, kf⟩⟩ := settersStoreAndSync v s h
  have hbass : (answered 0 0 b).mirror.tone = (s.mirror.tone &&& 0x03) ||| BitVec.ofNat 8 (4 * clampTo v 15) := kb.byteOf .tone
  have htreb : (answered 0 0 t).mirror.tone = (s.mirror.tone &&& 0x3C) ||| BitVec.ofNat 8 (clampTo v 3) := kt.byteOf .tone
  have hmute : (answered 0 0 m).mirror.filterMute = (s.mirror.filterMute &&& 0x1B) ||| BitVec.ofNat 8 (4 * clampTo v 1) :=
    km.byteOf .filter
  have hfilt : (answered 0 0 f).mirror.filterMute = (s.mirror.filterMute &&& 0x1C) ||| BitVec.ofNat 8 (clampTo v 3) :=
    kf.byteOf .filter
  refine ⟨⟨_, hb, ?_, ?_⟩, ⟨_, ht, ?_, ?_⟩, ⟨_, hm, ?_, ?_⟩, _, hf, ?_, ?_⟩
  · rw [exec_getBass, hbass, extractLsb'_field rfl, (hhigh _ (clampTo_le v 15)).1]
  · rw [hbass, extractLsb'_kept rfl (hhigh _ (clampTo_le v 15)).2]
  · rw [exec_getTreb, htreb, extractLsb'_field rfl, (hlow _ (clampTo_le v 3)).1]
  · rw [htreb, extractLsb'_kept rfl (hlow _ (clampTo_le v 3)).2.1]
  · rw [exec_getMute, hmute, extractLsb'_field rfl, (hbit _ (clampTo_le v 1)).1]
  · rw [hmute, extractLsb'_kept rfl (hbit _ (clampTo_le v 1)).2]
  · rw [exec_getFilt, hfilt, extractLsb'_field rfl, (hlow _ (clampTo_le v 3)).1]
  · rw [hfilt, extractLsb'_kept rfl (hlow _ (clampTo_le v 3)).2.2]

/-- Settles O24: everything a sync can do from a ready bus (`sync_total`), and that nothing dirty means nothing sent. -/
theorem syncSendsDirtyGroups : Obligations.SyncSendsDirtyGroups :=
  ⟨fun _ h => changeMirror_total .codecSync (fun _ m => m) h, fun _ hirq hclean =>
    exec_codecSync_eq hirq (sync_clean .codecSync hclean)⟩

/-- Settles O25: each dirty group's send puts its null frame and its frame on the bus, in the order of the group loop. -/
theorem syncFramesInOrder : Obligations.SyncFramesInOrder := by
  intro s hstill hready hlive hr
  obtain ⟨t, hloop, k⟩ := syncGroups_delivered .codecSync groupOrder hstill hready hlive hr
  have hsync : sync .codecSync s = .next { t with mirror := { t.mirror with dirty := 0 } } := by
    unfold sync
    rw [hloop, andThen_next]
    rfl
  have hmirror : { t.mirror with dirty := 0 } = { s.mirror with dirty := 0 } := by rw [k.mirror]
  exact ⟨_, exec_codecSync_eq hready.normal hsync, k.trace, hmirror, k.errlog, k.play, k.record, k.mem⟩

/-- Settles O26: `codecReceive_group`, group by group. -/
theorem groupFramesReachTheirRegisters : Obligations.GroupFramesReachTheirRegisters := fun _ _ c hp hm =>
  ⟨codecReceive_group hp hm .status c, codecReceive_group hp hm .volume c, codecReceive_group hp hm .tone c,
    codecReceive_group hp hm .filter c, codecReceive_group hp hm .power c⟩

/-- Settles O27: a reliable sync brings the codec to the mirror, after `CODEC.OPEN` in every group and after the others in the one
group they mark. -/
theorem mirrorMatchesCodec : Obligations.MirrorMatchesCodec := by
  refine ⟨fun s h hp hc hlive hr => ?_, fun s v i h hp hc hlive hr ha hi => ?_⟩
  · obtain ⟨t, ht, -, k⟩ := changeMirror_total .codecOpen openedMirror h
    refine ⟨_, ht, k.agrees (t := t) hp (openedMirror_layout hc s.mirror) hlive ?_ fun g hg => ?_⟩
    · rw [openedMirror_dirty]; exact hr
    · have hall : g ∈ dirtyGroups (openedMirror s.cfg s.mirror) := by rw [openedMirror_dirty]; cases g <;> decide
      exact absurd (mem_dirtyGroups.1 hall) (by rw [hg]; decide)
  · have hl : MirrorLayout s.mirror := ha.1
    simp only [List.mem_cons, List.not_mem_nil, or_false] at hi
    rcases hi with rfl | rfl | rfl | rfl | rfl | rfl | rfl | rfl
    · obtain ⟨hstatus, hvolume, htone, hfilter, -⟩ := hl
      exact changeMirror_agrees (f := closedMirror) h hp hlive hr ha (b := s.cfg.pwrOff) rfl
        ⟨hstatus, hvolume, htone, hfilter, hc.2⟩
    · exact ⟨_, syncSendsDirtyGroups.2 s h.normal ha.2.1, ha⟩
    · exact execCodecSetrate_agrees v h hp hlive hr ha
    · exact changeMirror_agrees (f := fun _ => volumeMirror v) h hp hlive hr ha (g := .volume) rfl (hl.volume v)
    · exact changeMirror_agrees (f := fun _ => bassMirror v) h hp hlive hr ha (g := .tone) rfl (hl.bass v)
    · exact changeMirror_agrees (f := fun _ => trebleMirror v) h hp hlive hr ha (g := .tone) rfl (hl.treble v)
    · exact changeMirror_agrees (f := fun _ => muteMirror v) h hp hlive hr ha (g := .filter) rfl (hl.mute v)
    · exact changeMirror_agrees (f := fun _ => filterMirror v) h hp hlive hr ha (g := .filter) rfl (hl.filter v)

/-- Settles O28: the row of rate 22050 is the one the default rate snaps to. -/
theorem codecOpenAndClose : Obligations.CodecOpenAndClose := by
  intro s row h
  refine ⟨fun hinc hrow hrate => ?_, changeMirror_total .codecClose closedMirror h⟩
  have hsnap : snapRow s.cfg Config.defaultRate = row := by
    have hdefault : Config.defaultRate = row.rate := hrate.symm
    rw [hdefault, snapRow_of_mem hinc hrow]
  obtain ⟨t, ht, hport, k⟩ := changeMirror_total .codecOpen openedMirror h
  unfold openedMirror at k
  rw [hsnap, withSc_statusFmt] at k
  exact ⟨t, ht, hport, k⟩

/-- Settles O29: everything `CODEC.SETRATE` does from a ready bus, with the row that `snap` selects. -/
theorem setRateSnapsAndSyncs : Obligations.SetRateSnapsAndSyncs := by
  intro q s h hinc
  obtain ⟨u, t, hu, ht, hport, k⟩ := execCodecSetrate_total q h
  exact ⟨snapRow s.cfg q, u, t, snapRow_isSnap hinc q, hu, ht, hport, k⟩

/-- Settles O30: the walk up an increasing table, and the spec's values by evaluation. -/
theorem snapRounding : Obligations.SnapRounding :=
  ⟨fun _ q h => snapRow_isSnap h q, by decide, by decide, by decide, by decide, by decide⟩

end Sys2Proof.Proofs
end

section
/-! What `CTRL.INIT` does where the bus is ready: the bring-up of the interface registers around the reset hold, then the default
rate (`43_controller_init.md` R240). -/

namespace Sys2Proof.Machine

/-! ### the values of the bring-up sequence -/

/-- Bits set by a read-modify-write of a register with no other fields. -/
theorem or_field_and_field (x m : Word) : (x ||| m) &&& m = m := by
  ext i
  simp +contextual

/-- Bits cleared by a read-modify-write of a register with no other fields. -/
theorem and_not_field_and_field (x m : Word) : x &&& ~~~m &&& m = 0 := by
  rw [BitVec.and_assoc, BitVec.and_comm (~~~m), BitVec.and_not_self]
  exact BitVec.and_zero

/-- `CTRL0` after `ENB` and `RST` were set, `RST` cleared and the thresholds set: nothing of its old value is left. -/
theorem ctrl0_broughtUp (p : Params) (c : Word) :
    withThresholds p (((c ||| (Config.enb ||| Config.rst)) &&& Config.ctrl0Fields) &&& ~~~Config.rst &&& Config.ctrl0Fields) &&&
      Config.ctrl0Fields = 0x1 ||| (p.fifoWm.setWidth 32 <<< 8) ||| (p.fifoWm.setWidth 32 <<< 12) := by
  have hfields : ∀ w : BitVec 4, ((0x1 : Word) ||| (w.setWidth 32 <<< 8) ||| (w.setWidth 32 <<< 12)) &&& Config.ctrl0Fields =
      0x1 ||| (w.setWidth 32 <<< 8) ||| (w.setWidth 32 <<< 12) := by decide
  have henb : (((c ||| (Config.enb ||| Config.rst)) &&& Config.ctrl0Fields) &&& ~~~Config.rst &&& Config.ctrl0Fields) &&&
      ~~~Config.thresholds = 0x1 := by
    have hmask : Config.ctrl0Fields &&& (~~~Config.rst &&& (Config.ctrl0Fields &&& ~~~Config.thresholds)) = Config.enb := by
      decide
    rw [BitVec.or_comm Config.enb, ← BitVec.or_assoc]
    simp only [BitVec.and_assoc]
    rw [hmask, or_field_and_field]
    rfl
  unfold withThresholds
  rw [henb, hfields]

/-! ### the frame of a part of the bring-up -/

/-- `s` with other registers, another sequencer position and another time of the last reset pulse: what the bring-up itself
writes. -/
def State.retag (r : Regs) (q : Seq) (n : Nat) (s : State) : State :=
  { s with seq := q, regs := r, env := { s.env with rstSince := n } }

/-- A part of the bring-up, from `s` with no frame in progress, has left the registers at `r` and is at `t`; all else is as
hardware agents, completions and the passing of time leave it. -/
structure BringUp (r : Regs) (s t : State) : Prop where
  idle : s.l3.busy = false
  frame : CtxFrame (s.retag r t.seq t.env.rstSince) t
  memStill : MemStill s t
  rst : s.env.rstSince ≤ s.env.now → t.env.rstSince ≤ t.env.now

/-- What agents, completions and time do depends neither on the registers nor on the sequencer position where the bus is idle. -/
theorem CtxFrame.retag {s t : State} (k : CtxFrame s t) (hidle : s.l3.busy = false) (r : Regs) (q : Seq) (n : Nat) :
    CtxFrame (s.retag r q n) (t.retag r q n) := by
  obtain ⟨hl3, -, hcodec, hdelivered⟩ := bus_idle k.bus hidle
  exact ⟨k.port, rfl, k.mirror, k.inIrq, k.cfg, .inl ⟨hl3, rfl, hcodec, hdelivered⟩, k.now, rfl, k.host, k.trace, k.errlog,
    k.chan, k.buf, k.streams⟩

theorem BringUp.still {r : Regs} {s t : State} (k : BringUp r s t) : BusStill (s.retag r t.seq t.env.rstSince) t :=
  bus_idle k.frame.bus k.idle

theorem BringUp.regs {r : Regs} {s t : State} (k : BringUp r s t) : t.regs = r := k.still.2.1

theorem BringUp.l3 {r : Regs} {s t : State} (k : BringUp r s t) : t.l3 = s.l3 := k.still.1

theorem BringUp.idle_after {r : Regs} {s t : State} (k : BringUp r s t) : t.l3.busy = false := by
  rw [k.l3]
  exact k.idle

theorem BringUp.now {r : Regs} {s t : State} (k : BringUp r s t) : s.env.now ≤ t.env.now := k.frame.now

theorem BringUp.cfg {r : Regs} {s t : State} (k : BringUp r s t) : t.cfg = s.cfg := k.frame.cfg

theorem BringUp.streams {r : Regs} {s t : State} (k : BringUp r s t) (h : StreamsOk s) : StreamsOk t := k.frame.streams h

theorem BringUp.ready {r : Regs} {s t : State} (k : BringUp r s t) (h : BusReady s) : BusReady t :=
  ⟨k.frame.inIrq.trans h.normal, by rw [k.l3]; exact h.lock, k.idle_after, by rw [k.cfg]; exact h.chip,
    by rw [k.cfg]; exact h.settle, k.streams h.streams⟩

theorem BringUp.trans {r r' : Regs} {s t u : State} (h : BringUp r s t) (k : BringUp r' t u) : BringUp r' s u :=
  ⟨h.idle, (h.frame.retag h.idle r' u.seq u.env.rstSince).trans k.frame, h.memStill.trans k.memStill,
    fun hs => k.rst (h.rst hs)⟩

/-- An event of the trace stays in it. -/
theorem BringUp.mem_trace {r : Regs} {s t : State} {e : Event} {n : Nat} (k : BringUp r s t) (h : e ∈ s.trace.drop n) :
    e ∈ t.trace.drop n := by
  obtain ⟨l, hl⟩ := k.frame.trace
  rw [show t.trace = s.trace ++ l from hl, List.drop_append]
  exact List.mem_append_left _ h

/-- A change of what the bring-up changes. -/
theorem BringUp.of_retag {s : State} (hidle : s.l3.busy = false) (r : Regs) (q : Seq) {n : Nat}
    (hn : s.env.rstSince ≤ s.env.now → n ≤ s.env.now) : BringUp r s (s.retag r q n) :=
  ⟨hidle, CtxFrame.refl _, MemStill.of_eq rfl rfl, hn⟩

/-- What agents, completions and time do on an idle bus leaves the registers alone. -/
theorem BringUp.of_ctx {s t : State} (hidle : s.l3.busy = false) (k : CtxFrame s t) (m : MemStill s t) :
    BringUp s.regs s t := by
  obtain ⟨-, hregs, -⟩ := bus_idle k.bus hidle
  have hsame : t.retag s.regs t.seq t.env.rstSince = t := by rw [← hregs]; rfl
  refine ⟨hidle, ?_, m, fun hs => ?_⟩
  · have hframe := k.retag hidle s.regs t.seq t.env.rstSince
    rwa [hsame] at hframe
  · rw [k.rstSince]
    exact hs.trans k.now

/-! ### the steps of the bring-up -/

/-- A read-modify-write is a write of the changed value after hardware agents may have moved (`20_memory.md` R105). -/
theorem regUpdate_eq {x : Reg} {get : Regs → Word} (hload : ∀ u, regLoad x u = (get u.regs, u)) (f : Word → Word) {s : State}
    (hidle : s.l3.busy = false) :
    ∃ u, HwFrame s u ∧ MemStill s u ∧ u.regs = s.regs ∧ regUpdate x f s = regStore x (f (get s.regs)) u := by
  have hregs : (hw s).regs = s.regs := (bus_idle (hw_hwFrame s).bus hidle).2.1
  have hframe := (hw_hwFrame s).trans (hw_hwFrame (hw s))
  refine ⟨hw (hw s), hframe, (hw_memStill s).trans (hw_memStill (hw s)), (bus_idle hframe.bus hidle).2.1, ?_⟩
  unfold regUpdate regRead
  rw [hload, hregs]
  rfl

/-- A read-modify-write of a register that is plain storage. -/
theorem regUpdate_plain {x : Reg} {get : Regs → Word} {set : Word → Regs → Regs} (hload : ∀ u, regLoad x u = (get u.regs, u))
    (hstore : ∀ v u, regStore x v u = .next { u with regs := set v u.regs }) (f : Word → Word) {s : State}
    (hidle : s.l3.busy = false) :
    ∃ t, regUpdate x f s = .next t ∧ BringUp (set (f (get s.regs)) s.regs) s t := by
  obtain ⟨u, hu, hmem, hregs, hrun⟩ := regUpdate_eq hload f hidle
  have hmoved := BringUp.of_ctx hidle hu.ctx hmem
  rw [hrun, hstore, hregs]
  exact ⟨_, rfl, hmoved.trans (BringUp.of_retag hmoved.idle_after _ u.seq id)⟩

/-- A read-modify-write of `CTRL0` that sets `RST` clears transaction tracking (`41_control_bus.md` R187). -/
theorem regUpdate_ctrl0_rst {f : Word → Word} {s : State} (hf : (f s.regs.ctrl0).getLsbD 3 = true) (hidle : s.l3.busy = false) :
    ∃ t, regUpdate .ctrl0 f s = .next t ∧
      BringUp { s.regs with ctrl0 := f s.regs.ctrl0 &&& Config.ctrl0Fields, l3wd := false, l3rd := false } s t := by
  obtain ⟨u, hu, hmem, hregs, hrun⟩ := regUpdate_eq (x := .ctrl0) (get := Regs.ctrl0) (fun _ => rfl) f hidle
  have hmoved := BringUp.of_ctx hidle hu.ctx hmem
  have hbusy : ({ u.l3 with busy := false } : Serial) = u.l3 := by rw [← hmoved.idle_after]
  have hstore := storeCtrl0_rst (new := f s.regs.ctrl0 &&& Config.ctrl0Fields) (s := u) (by rw [hasBit_fields_rst]; exact hf)
  rw [hmoved.idle_after, if_neg (by decide), List.append_nil, hbusy, hregs] at hstore
  rw [hrun]
  exact ⟨_, hstore, hmoved.trans (BringUp.of_retag hmoved.idle_after _ u.seq fun hs => by split; exacts [hs, le_rfl])⟩

/-- A read-modify-write of `CTRL0` that leaves `RST` clear, no reset pulse being too short (`70_reset_and_hazards.md` R381). -/
theorem regUpdate_ctrl0_clear {f : Word → Word} {s : State} (hf : (f s.regs.ctrl0).getLsbD 3 = false)
    (hhold : s.regs.ctrl0.getLsbD 3 = true → Config.tReset ≤ s.env.now - s.env.rstSince) (hidle : s.l3.busy = false) :
    ∃ t, regUpdate .ctrl0 f s = .next t ∧ BringUp { s.regs with ctrl0 := f s.regs.ctrl0 &&& Config.ctrl0Fields } s t := by
  obtain ⟨u, hu, hmem, hregs, hrun⟩ := regUpdate_eq (x := .ctrl0) (get := Regs.ctrl0) (fun _ => rfl) f hidle
  have hmoved := BringUp.of_ctx hidle hu.ctx hmem
  have hstore := storeCtrl0_clear (new := f s.regs.ctrl0 &&& Config.ctrl0Fields) (s := u)
    (by rw [hasBit_fields_rst]; exact hf) (by rw [hregs, hu.now, hu.rstSince, hasBit_rst]; exact hhold)
  rw [hregs] at hstore
  rw [hrun]
  exact ⟨_, hstore, hmoved.trans (BringUp.of_retag hmoved.idle_after _ u.seq id)⟩

/-- The reset hold (`20_memory.md` R121). -/
theorem waitAt_bringUp (op : Instr) (pos : WaitPos) (n : Nat) {s : State} (hs : StreamsOk s) (hidle : s.l3.busy = false) :
    ∃ t, waitAt op none pos n s = .next t ∧ BringUp s.regs s t ∧ s.env.now + n ≤ t.env.now ∧
      t.env.rstSince = s.env.rstSince := by
  obtain ⟨t, ht⟩ := waitAt_total hs op none pos n
  obtain ⟨hframe, hnow, -⟩ := waitAt_ctx ht
  have hseq : BringUp s.regs s { s with seq := ⟨some op, none, some pos, false⟩ } := BringUp.of_retag hidle s.regs _ id
  exact ⟨t, ht, hseq.trans (BringUp.of_ctx hseq.idle_after hframe (waitAt_memStill ht)), hnow, hframe.rstSince⟩

/-- Steps 1 to 3 of `CTRL.INIT` (`43_controller_init.md` R240): amplifier lines on with their event, serial audio mode, clocks
on. -/
theorem initSideband_total {s : State} (hidle : s.l3.busy = false) :
    ∃ t, initSideband s = .next t ∧ BringUp { s.regs with pgpio := 0x3, pctrl := 0, pclk := 0xC } s t ∧
      Event.amp true true ∈ t.trace.drop s.trace.length := by
  obtain ⟨s1, h1, k1⟩ := regUpdate_plain (x := .pgpio) (get := Regs.pgpio)
    (set := fun v r => { r with pgpio := v &&& (Config.spkAmp ||| Config.micAmp) }) (fun _ => rfl) (fun _ _ => rfl)
    (fun g => g ||| (Config.spkAmp ||| Config.micAmp)) hidle
  have kamp : BringUp s1.regs s1 (s1.emit (.amp true true)) :=
    BringUp.of_ctx k1.idle_after (CtxFrame.emit _ s1) (MemStill.of_eq rfl rfl)
  obtain ⟨s2, h2, k2⟩ := regUpdate_plain (x := .pctrl) (get := Regs.pctrl)
    (set := fun v r => { r with pctrl := v &&& Config.acSel }) (fun _ => rfl) (fun _ _ => rfl)
    (fun p => p &&& ~~~Config.acSel) kamp.idle_after
  obtain ⟨s3, h3, k3⟩ := regUpdate_plain (x := .pclk) (get := Regs.pclk)
    (set := fun v r => { r with pclk := v &&& (Config.i2sClkEn ||| Config.l3ClkEn) }) (fun _ => rfl) (fun _ _ => rfl)
    (fun k => k ||| (Config.i2sClkEn ||| Config.l3ClkEn)) k2.idle_after
  refine ⟨s3, by unfold initSideband; rw [h1, andThen_next, h2, andThen_next, h3], ?_, ?_⟩
  · rw [k2.regs, kamp.regs, k1.regs] at k3
    simp only [or_field_and_field, and_not_field_and_field] at k3
    exact k1.trans (kamp.trans (k2.trans k3))
  · obtain ⟨l, hl⟩ := k1.frame.trace
    refine k3.mem_trace (k2.mem_trace ?_)
    rw [State.emit_trace, show s1.trace = s.trace ++ l from hl, List.append_assoc, List.drop_left]
    exact List.mem_append_right _ (List.mem_singleton_self _)

/-- Steps 4 and 5 of `CTRL.INIT` (`43_controller_init.md` R240): the reset pulse is held long enough to be cleared, then
thresholds and the control-bus interface. -/
theorem initController_total (op : Instr) {s : State} (hs : StreamsOk s) (hidle : s.l3.busy = false)
    (hrst : s.env.rstSince ≤ s.env.now) :
    ∃ t, initController op s = .next t ∧ s.env.now + 5 ≤ t.env.now ∧ BringUp { s.regs with
      ctrl0 := 0x1 ||| (s.cfg.fifoWm.setWidth 32 <<< 8) ||| (s.cfg.fifoWm.setWidth 32 <<< 12)
      ctrl1 := 0x2, l3wd := false, l3rd := false } s t := by
  obtain ⟨s1, h1, k1⟩ := regUpdate_ctrl0_rst (f := fun c => c ||| (Config.enb ||| Config.rst))
    (by simp [Config.enb, Config.rst]) hidle
  obtain ⟨s2, h2, k2, hnow, hsince⟩ := waitAt_bringUp op .initResetHold Config.tReset (k1.streams hs) k1.idle_after
  have hheld : Config.tReset ≤ s2.env.now - s2.env.rstSince := by
    have hsince1 := k1.rst hrst
    omega
  obtain ⟨s3, h3, k3⟩ := regUpdate_ctrl0_clear (f := fun c => c &&& ~~~Config.rst) (s := s2) (by simp [Config.rst])
    (fun _ => hheld) k2.idle_after
  have hclear : s3.regs.ctrl0.getLsbD 3 = false := by
    rw [k3.regs]
    simp [Config.rst]
  obtain ⟨s4, h4, k4⟩ := regUpdate_ctrl0_clear (f := withThresholds s3.cfg) (s := s3)
    (by simpa [withThresholds, Config.thresholds] using hclear) (fun hset => absurd hset (by rw [hclear]; decide))
    k3.idle_after
  obtain ⟨s5, h5, k5⟩ := regUpdate_plain (x := .ctrl1) (get := Regs.ctrl1)
    (set := fun v r => { r with ctrl1 := v &&& Config.l3en }) (fun _ => rfl) (fun _ _ => rfl)
    (fun m => m ||| Config.l3en) k4.idle_after
  refine ⟨s5, by unfold initController; rw [h1, andThen_next, h2, andThen_next, h3, andThen_next, h4, andThen_next, h5], ?_, ?_⟩
  · have hset := k1.now
    have hcleared := k3.now
    have hthresholds := k4.now
    have hbus := k5.now
    unfold Config.tReset at hnow
    omega
  · rw [k4.regs, k3.regs, k2.regs, k1.regs, k3.cfg, k2.cfg, k1.cfg] at k5
    simp only [ctrl0_broughtUp, or_field_and_field] at k5
    exact k1.trans (k2.trans (k3.trans (k4.trans k5)))

/-- The registers after `CTRL.INIT`, with `div` the divider of the default rate. -/
def initRegs (p : Params) (div : BitVec 7) (r : Regs) : Regs := { r with
  ctrl0 := 0x1 ||| (p.fifoWm.setWidth 32 <<< 8) ||| (p.fifoWm.setWidth 32 <<< 12)
  ctrl1 := 0x2, l3wd := false, l3rd := false, pctrl := 0, pclk := 0xC, pauddiv := div.setWidth 32, pgpio := 0x3 }

/-- Everything `CTRL.INIT` does on a ready bus: the bring-up, up to the sync of the default rate, and that sync. -/
theorem execCtrlInit_total {s : State} (h : BusReady s) (hrst : s.env.rstSince ≤ s.env.now) :
    ∃ u t, exec .ctrlInit s = .next (answered 0 0 t) ∧ t.port = s.port ∧
      BringUp (initRegs s.cfg (snapRow s.cfg Config.defaultRate).div s.regs) s u ∧ s.env.now + 5 ≤ u.env.now ∧
      Event.amp true true ∈ u.trace.drop s.trace.length ∧
      SyncFrame (rateMirror (snapRow s.cfg Config.defaultRate) s.mirror) u t := by
  obtain ⟨s1, h1, k1, hamp⟩ := initSideband_total h.frame
  obtain ⟨s2, h2, hnow, k2⟩ := initController_total .ctrlInit (k1.streams h.streams) k1.idle_after (k1.rst hrst)
  rw [k1.regs, k1.cfg] at k2
  have k12 := k1.trans k2
  obtain ⟨v, t, hmoved, ht, hport, hsync⟩ := setRate_total .ctrlInit Config.defaultRate (k12.ready h)
  have k3 := BringUp.of_ctx k12.idle_after hmoved.1.ctx hmoved.memStill
  have k4 := BringUp.of_retag k3.idle_after (initRegs s.cfg (snapRow s.cfg Config.defaultRate).div s.regs) v.seq
    (n := v.env.rstSince) id
  rw [k12.cfg, show s2.mirror = s.mirror from k12.frame.mirror, k3.regs, k12.regs] at hsync
  refine ⟨_, t, ?_, hport.trans k12.frame.port, k12.trans (k3.trans k4), ?_,
    k4.mem_trace (k3.mem_trace (k2.mem_trace hamp)), hsync⟩
  · show execCtrlInit s = _
    unfold execCtrlInit
    rw [inNormalContext_eq h.normal, h1, andThen_next, h2, andThen_next, ht]
    rfl
  · calc s.env.now + 5 ≤ s1.env.now + 5 := Nat.add_le_add_right k1.now 5
      _ ≤ s2.env.now := hnow
      _ ≤ v.env.now := k3.now

end Sys2Proof.Machine

namespace Sys2Proof.Proofs

open Sys2Proof.Machine

/-- Settles O31: everything `CTRL.INIT` does from a ready bus, with the row of rate 22050 the one the default rate snaps to. -/
theorem controllerInit : Obligations.ControllerInit := by
  intro s row h hinc hrow hrate hrst
  have hsnap : snapRow s.cfg Config.defaultRate = row := by
    have hdefault : Config.defaultRate = row.rate := hrate.symm
    rw [hdefault, snapRow_of_mem hinc hrow]
  obtain ⟨u, t, ht, hport, k, hnow, hamp, hsync⟩ := execCtrlInit_total h hrst
  rw [hsnap] at k hsync
  exact ⟨u, t, ht, hport, k.frame, k.memStill, hnow, hamp, hsync⟩

end Sys2Proof.Proofs
end

section
/-! The operations of the DMA engine that only start a block, read a done bit, or bind and unbind the lines, each as one equation over
what the hardware agents leave (`44_dma_engine.md` R250 to R255, R260, R261). -/

namespace Sys2Proof.Machine

/-! ### operations on a direction (`60_exceptions.md` R330, R332) -/

theorem onDirection_selDir (d : Dir) (s : State) (k : Dir → Out State) : onDirection (selDir d) s k = k d := by cases d <;> rfl

theorem onDirection_none {sel : Byte} (h : 2 ≤ sel.toNat) (s : State) (k : Dir → Out State) :
    onDirection sel s k = .next (answered 0 1 s) := by
  have hnone : dirOf sel = none := by
    unfold dirOf
    split
    · omega
    · omega
    · rfl
  unfold onDirection
  rw [hnone]
  rfl

/-! ### `DMA.START` (`44_dma_engine.md` R250) -/

theorem exec_dmaStart (d : Dir) (addr len : Word) (s : State) : exec (.dmaStart (selDir d) addr len) s =
    andThen (startBlock d addr len s) fun r => .next (answered 0 r.1.code r.2) := onDirection_selDir d s _

theorem exec_dmaStart_empty (d : Dir) (addr : Word) (s : State) :
    exec (.dmaStart (selDir d) addr 0) s = .next (answered 0 1 s) := by
  rw [exec_dmaStart, startBlock_empty, andThen_next]
  rfl

theorem exec_dmaStart_busy {d : Dir} {len : Word} {s : State} (addr : Word) (hlen : len ≠ 0)
    (hb : ((hw s).engine d .a).busy = true ∨ ((hw s).engine d .b).busy = true) :
    exec (.dmaStart (selDir d) addr len) s = .next (answered 0 2 (hw s)) := by
  rw [exec_dmaStart, startBlock_busy hlen hb, andThen_next]
  rfl

theorem exec_dmaStart_started {d : Dir} {addr len : Word} {s : State} (hok : BlockOk s.cfg addr len)
    (hA : ((hw s).engine d .a).busy = false) (hB : ((hw s).engine d .b).busy = false) :
    ∃ w, HardwareMoved (programmed d (turnOf (s.dir d)) addr len (hw s)) w ∧
      exec (.dmaStart (selDir d) addr len) s = .next (answered 0 0 (started d (turnOf (s.dir d)) w)) := by
  obtain ⟨w, hmoved, hrun⟩ := (startBlock_idle addr hok.1 hA hB).1 hok
  refine ⟨w, hmoved, ?_⟩
  rw [exec_dmaStart, hrun, andThen_next]
  rfl

theorem exec_dmaStart_fault {d : Dir} {addr len : Word} {s : State} (hlen : len ≠ 0) (hbad : ¬ BlockOk s.cfg addr len)
    (hA : ((hw s).engine d .a).busy = false) (hB : ((hw s).engine d .b).busy = false) :
    exec (.dmaStart (selDir d) addr len) s = .fault (.reserved .notStartable) := by
  rw [exec_dmaStart, (startBlock_idle addr hlen hA hB).2 hbad, andThen_fault]

/-- `DMA.START` answers `OK` only where it has started the sub-engine of the counter's parity. -/
theorem started_of_exec_dmaStart {d : Dir} {addr len : Word} {s t : State}
    (h : exec (.dmaStart (selDir d) addr len) s = .next t) (hok : t.port.sts = 0) :
    ∃ w, turnOf (w.dir d) = turnOf (s.dir d) ∧ t = answered 0 0 (started d (turnOf (s.dir d)) w) := by
  by_cases hlen : len = 0
  · rw [hlen, exec_dmaStart_empty] at h
    cases h
    exact absurd hok (by decide : (1 : Word) ≠ 0)
  by_cases hb : ((hw s).engine d .a).busy = true ∨ ((hw s).engine d .b).busy = true
  · rw [exec_dmaStart_busy addr hlen hb] at h
    cases h
    exact absurd hok (by decide : (2 : Word) ≠ 0)
  obtain ⟨hA, hB⟩ : ((hw s).engine d .a).busy = false ∧ ((hw s).engine d .b).busy = false := by simpa using hb
  by_cases hblock : BlockOk s.cfg addr len
  · obtain ⟨w, hmoved, hrun⟩ := exec_dmaStart_started hblock hA hB
    rw [hrun] at h
    cases h
    have hchan : (w.dir d).chan = (s.dir d).chan := by
      rw [hmoved.1.chan d, programmed, State.modEngine_dir_chan, (hw_hwFrame s).chan d]
    exact ⟨w, by unfold turnOf; rw [hchan], rfl⟩
  · rw [exec_dmaStart_fault hlen hblock hA hB] at h
    cases h

theorem answered_dir (v st : Word) (s : State) (d : Dir) : (answered v st s).dir d = s.dir d := by cases d <;> rfl

theorem answered_engine (v st : Word) (s : State) (d : Dir) (e : Eng) : (answered v st s).engine d e = s.engine d e := by
  unfold State.engine; rw [answered_dir]

theorem started_busy (d : Dir) (e : Eng) (s : State) : ((started d e s).engine d e).busy = true := by
  cases d <;> cases e <;> rfl

/-- The counter's parity changes with every start (`44_dma_engine.md` R276). -/
theorem started_turnOf (d : Dir) (e : Eng) (s : State) : turnOf ((started d e s).dir d) = (turnOf (s.dir d)).other := by
  have hgen : ((started d e s).dir d).chan.generation = (s.dir d).chan.generation + 1 := by cases d <;> rfl
  have hparity : ((s.dir d).chan.generation + 1).toNat % 2 ≠ (s.dir d).chan.generation.toNat % 2 := by bv_omega
  unfold turnOf
  rw [hgen]
  split <;> split
  · omega
  · rfl
  · rfl
  · omega

/-! ### `DMA.POLL` (`44_dma_engine.md` R255) -/

theorem exec_dmaPoll (d : Dir) (s : State) : exec (.dmaPoll (selDir d)) s =
    .next (answered (flagAt (pollDone d s).1 1) 0 (pollDone d s).2) := onDirection_selDir d s _

theorem pollDone_never {d : Dir} {s : State} (h : (s.dir d).chan.generation = 0) : pollDone d s = (false, s) := if_pos h

theorem pollDone_started {d : Dir} {s : State} (h : (s.dir d).chan.generation ≠ 0) :
    pollDone d s = (((hw s).engine d (turnOf (s.dir d)).other).done, hw s) := by
  have hread : pollDone d s = (hasBit (csWord ((hw s).dir d).hw) (doneMask (nextEngine ((hw s).dir d).chan.generation).other),
      hw s) := if_neg h
  rw [hread, csWord_done, (hw_hwFrame s).chan d, nextEngine_eq]
  rfl

/-! ### `IRQ.REQ` (`44_dma_engine.md` R260) -/

theorem exec_irqReq_bound {d : Dir} {s : State} (h : (s.dir d).chan.boundA = true ∨ (s.dir d).chan.boundB = true) :
    exec (.irqReq (selDir d)) s = .next (answered 0 2 s) := by
  show execIrqReq (selDir d) s = _
  unfold execIrqReq
  rw [onDirection_selDir, if_pos (by simpa using h)]
  rfl

/-- Where no line is bound, the two draws decide. -/
theorem exec_irqReq_free {d : Dir} {s s1 s2 : State} {okA okB : Bool} (hA : (s.dir d).chan.boundA = false)
    (hB : (s.dir d).chan.boundB = false) (h1 : drawBind s = (okA, s1)) (h2 : drawBind (bindLine d .a s1) = (okB, s2)) :
    exec (.irqReq (selDir d)) s = .next (
      if okA then
        if okB then answered 0 0 (bindLine d .b s2) else answered 0 4 (unbindLine d .a s2)
      else answered 0 4 s1) := by
  show execIrqReq (selDir d) s = _
  unfold execIrqReq
  rw [onDirection_selDir, if_neg (by simp [hA, hB])]
  dsimp only
  rw [h1]
  dsimp only
  rw [h2]
  cases okA with
  | false => rfl
  | true => cases okB <;> rfl

/-! ### `IRQ.REL` (`44_dma_engine.md` R261) -/

theorem exec_irqRel (d : Dir) (s : State) : exec (.irqRel (selDir d)) s = .next (answered 0 0 (releaseLines d s)) :=
  onDirection_selDir d s _

theorem Channel.setBound_unbound {c : Channel} {e : Eng} (h : c.bound e = false) : c.setBound e false = c := by
  cases e <;> (unfold Channel.setBound; dsimp only; rw [← h]; rfl)

/-- A release leaves the line unbound, and shows in the trace only where the line was bound. -/
theorem releaseLine_eq (d : Dir) (e : Eng) (s : State) : releaseLine d e s =
    { s with trace := s.trace ++ if (s.dir d).chan.bound e then [Event.irqUnbind d e] else [] }.modChan d
      (Channel.setBound e false) := by
  unfold releaseLine
  split
  · cases d <;> rfl
  · next h =>
    have hsame := Channel.setBound_unbound (c := (s.dir d).chan) (by simpa using h)
    rw [List.append_nil]
    unfold State.modChan
    rw [hsame]
    cases d <;> rfl

/-- The release of line A does not touch the mark of line B. -/
theorem releaseLines_eq (d : Dir) (s : State) : releaseLines d s =
    { s with trace := s.trace ++ (if (s.dir d).chan.boundA then [Event.irqUnbind d .a] else []) ++
      (if (s.dir d).chan.boundB then [Event.irqUnbind d .b] else []) }.modChan d fun c =>
        { c with boundA := false, boundB := false } := by
  unfold releaseLines
  rw [releaseLine_eq, releaseLine_eq]
  cases d <;> rfl

end Sys2Proof.Machine

namespace Sys2Proof.Proofs

open Sys2Proof.Machine

/-- Settles O32: the cases of a start, from the state its read of `CS` leaves. -/
theorem dmaStartBehaviour : Obligations.DmaStartBehaviour := by
  intro s d addr len
  refine ⟨fun sel hsel => onDirection_none hsel s _, exec_dmaStart_empty d addr s, fun _ hA hB hok => ?_, fun hlen =>
    ⟨hw s, hw_moved s, exec_dmaStart_busy addr hlen, fun hA hB =>
      ⟨fun hok => exec_dmaStart_started hok hA hB, fun hbad => exec_dmaStart_fault hlen hbad hA hB⟩⟩⟩
  obtain ⟨w, -, hrun⟩ := exec_dmaStart_started hok (hw_idle hA) (hw_idle hB)
  exact ⟨w, hrun⟩

/-- Settles O33: the started sub-engine is busy and the turn has passed to the other one, which the next start finds. -/
theorem startsAlternate : Obligations.StartsAlternate := by
  intro s t d a1 l1 a2 l2 h hok
  obtain ⟨w, hturn, ht⟩ := started_of_exec_dmaStart h hok
  have hbusy : (t.engine d (turnOf (s.dir d))).busy = true := by rw [ht, answered_engine, started_busy]
  have hnext : turnOf (t.dir d) = (turnOf (s.dir d)).other := by rw [ht, answered_dir, started_turnOf, hturn]
  refine ⟨hbusy, hnext, fun hquiet hlen => ?_, fun hlen =>
    ⟨hw t, hw_moved t, exec_dmaStart_busy a2 hlen, fun hA hB hblock => ?_⟩⟩
  · have hone : ((hw t).engine d .a).busy = true ∨ ((hw t).engine d .b).busy = true := by
      rw [hw_quiet hquiet]
      cases hx : turnOf (s.dir d)
      · exact .inl (hx ▸ hbusy)
      · exact .inr (hx ▸ hbusy)
    rw [exec_dmaStart_busy a2 hlen hone, hw_quiet hquiet]
  · rw [← hnext]
    exact exec_dmaStart_started hblock hA hB

/-- Settles O34: a poll reads the done bit of the sub-engine whose turn it is not. -/
theorem pollReadsLastStarted : Obligations.PollReadsLastStarted := by
  intro s d
  refine ⟨fun sel hsel => onDirection_none hsel s _, fun hzero => ?_, fun hne => ⟨hw s, hw_moved s, ?_⟩⟩
  · rw [exec_dmaPoll, pollDone_never hzero]
    rfl
  · rw [exec_dmaPoll, pollDone_started hne]
    rfl

/-- Settles O36: the two draws of the binding, and the unwinding of line A. -/
theorem requestBindsBothOrNeither : Obligations.RequestBindsBothOrNeither := by
  intro s d
  exact ⟨fun sel hsel => onDirection_none hsel s _, exec_irqReq_bound, fun hA hB _ _ _ _ h1 h2 =>
    exec_irqReq_free hA hB h1 h2⟩

/-- Settles O37: the two releases, A first. -/
theorem releaseUnbinds : Obligations.ReleaseUnbinds := by
  intro s d
  refine ⟨fun sel hsel => onDirection_none hsel s _, ?_⟩
  rw [exec_irqRel, releaseLines_eq]

end Sys2Proof.Proofs
end

section
/-! The bytes a transfer moves: what a playback block that raced with nothing delivers, what a capture block stores, and how much of a
block an abandonment moves (`44_dma_engine.md` R271 to R274). -/

namespace Sys2Proof.Machine

/-! ### playback of a block that raced with nothing (`20_memory.md` R110) -/

/-- A byte of a block that raced with nothing is the byte memory holds, and fetching it changes nothing. -/
theorem fetchByte_unraced {e : Eng} {a : Nat} {s : State} (hraced : (s.engine .play e).raced = [])
    (hcover : captureCovers s a = false) : fetchByte e a s = (Memory.read s.mem a, s) := by
  unfold fetchByte
  rw [settle_uncovered hcover]
  dsimp only
  rw [hraced]
  rfl

/-- The bytes of memory at `n` addresses from `a` on, in ascending order (`20_memory.md` R101). -/
def Memory.bytesFrom (m : Memory) (a n : Nat) : List Byte := (List.range n).map fun i => Memory.read m (a + i)

theorem Memory.bytesFrom_succ (m : Memory) (a n : Nat) :
    m.bytesFrom a (n + 1) = Memory.read m a :: m.bytesFrom (a + 1) n := by
  unfold Memory.bytesFrom
  rw [List.range_succ_eq_map, List.map_cons, List.map_map]
  refine congrArg (Memory.read m a :: ·) (List.map_congr_left fun i _ => ?_)
  show Memory.read m (a + (i + 1)) = Memory.read m (a + 1 + i)
  rw [Nat.add_right_comm, Nat.add_assoc]

theorem fetchBytes_unraced {e : Eng} {a n : Nat} {s : State} (hraced : (s.engine .play e).raced = [])
    (hcover : ∀ i, i < n → captureCovers s (a + i) = false) : fetchBytes e a n s = (s.mem.bytesFrom a n, s) := by
  induction n generalizing a with
  | zero => rfl
  | succ n ih =>
    have hrest : ∀ i, i < n → captureCovers s (a + 1 + i) = false := fun i hi => by
      rw [Nat.add_right_comm, Nat.add_assoc]
      exact hcover (i + 1) (Nat.succ_lt_succ hi)
    have hfirst : fetchByte e a s = _ := fetchByte_unraced hraced (hcover 0 (Nat.succ_pos n))
    unfold fetchBytes
    rw [hfirst]
    dsimp only
    rw [ih hrest, Memory.bytesFrom_succ]

theorem moveBlock_play_unraced {e : Eng} {k : Nat} {s : State} (hraced : (s.engine .play e).raced = [])
    (hcover : ∀ i, i < k → captureCovers s ((s.engine .play e).addr.toNat + i) = false) :
    moveBlock .play e k s =
      s.emit (.audioOut e (s.engine .play e).addr (s.mem.bytesFrom (s.engine .play e).addr.toNat k)) := by
  unfold moveBlock
  dsimp only
  rw [fetchBytes_unraced hraced hcover]

theorem completeBlock_active {d : Dir} {e : Eng} {s : State} (h : (s.dir d).hw.active = some e) :
    completeBlock d s = (moveBlock d e (s.engine d e).cnt.toNat s).modHw d (DmaHw.complete e) := by
  unfold completeBlock
  rw [h]

/-! ### capture (`20_memory.md` R111) -/

/-- The state after a capture sub-engine has stored the bytes it still owed of the first `k` of its block. -/
theorem moveBlock_record (e : Eng) (k : Nat) (s : State) : moveBlock .record e k s =
    (captureBytes e (s.engine .record e).addr.toNat k s).2.emit
      (.audioIn e (s.engine .record e).addr (captureBytes e (s.engine .record e).addr.toNat k s).1) := rfl

theorem captureByte_fresh {e : Eng} {a : Nat} {s : State} {b : Byte} {r : List Byte}
    (hraced : (s.engine .record e).raced = []) (hb : s.env.script.bytes = b :: r) :
    (captureByte e a s).1 = b ∧ (captureByte e a s).2.env.script.bytes = r := by
  rcases captureByte_eq e a s with ⟨v, hv, -⟩ | ⟨-, h⟩
  · rw [hraced] at hv
    cases hv
  · rw [h, drawByte_cons hb]
    exact ⟨rfl, rfl⟩

/-- A block of which nothing was written before takes its bytes from the environment, in order (`44_dma_engine.md` R271). -/
theorem captureBytes_fresh {e : Eng} {a n : Nat} {s : State} (hraced : (s.engine .record e).raced = [])
    (hn : n ≤ s.env.script.bytes.length) : (captureBytes e a n s).1 = s.env.script.bytes.take n ∧
      (captureBytes e a n s).2.env.script.bytes = s.env.script.bytes.drop n := by
  induction n generalizing a s with
  | zero => exact ⟨rfl, rfl⟩
  | succ n ih =>
    cases hb : s.env.script.bytes with
    | nil => rw [hb] at hn; exact absurd hn (by simp)
    | cons b r =>
      obtain ⟨hbyte, hscript⟩ := captureByte_fresh (a := a) hraced hb
      have hkept : ((captureByte e a s).2.engine .record e).raced = [] := by
        unfold State.engine State.dir
        rw [captureByte_record]
        exact hraced
      have hrest := ih (a := a + 1) (s := (captureByte e a s).2) hkept (by rw [hscript]; rw [hb] at hn; simpa using hn)
      rw [hscript] at hrest
      show (captureByte e a s).1 :: (captureBytes e (a + 1) n (captureByte e a s).2).1 = _ ∧
        (captureBytes e (a + 1) n (captureByte e a s).2).2.env.script.bytes = _
      rw [hrest.1, hrest.2, hbyte]
      exact ⟨rfl, rfl⟩

/-! ### an abandonment (`44_dma_engine.md` R274) -/

theorem le_foldl_max {α : Type} (f : α → Nat) (l : List α) (m : Nat) : m ≤ l.foldl (fun m c => max m (f c)) m := by
  induction l generalizing m with
  | nil => exact le_rfl
  | cons c r ih => exact (le_max_left m (f c)).trans (ih _)

theorem le_foldl_max_of_mem {α : Type} (f : α → Nat) {l : List α} {c : α} (h : c ∈ l) (m : Nat) :
    f c ≤ l.foldl (fun m c => max m (f c)) m := by
  induction l generalizing m with
  | nil => cases h
  | cons x r ih =>
    rcases List.mem_cons.1 h with rfl | h
    · exact (le_max_right m (f c)).trans (le_foldl_max f r _)
    · exact ih h _

theorem mem_of_lookup {l : List Host.Cell} {a : Nat} {b : Byte} (h : l.lookup a = some b) : (a, b) ∈ l := by
  obtain ⟨l₁, l₂, rfl, -⟩ := List.lookup_eq_some_iff.1 h
  simp

/-- Every byte a capture block has already written lies in what it has moved at least. -/
theorem Engine.written_lt_movedAtLeast {g : Engine} {i : Nat} {b : Byte} (hi : i < g.cnt.toNat)
    (h : g.raced.lookup (g.addr.toNat + i) = some b) : i < g.movedAtLeast .record := by
  have hcover : g.covers (g.addr.toNat + i) = true := by simp [Engine.covers, hi]
  have hmem : (g.addr.toNat + i, b) ∈ g.raced.filter fun c => g.covers c.1 :=
    List.mem_filter.2 ⟨mem_of_lookup h, hcover⟩
  have hle : g.addr.toNat + i + 1 - g.addr.toNat ≤ g.movedAtLeast .record :=
    le_foldl_max_of_mem (fun c : Host.Cell => c.1 + 1 - g.addr.toNat) hmem 0
  omega

theorem Engine.movedAtLeast_unraced {d : Dir} {g : Engine} (h : g.raced = []) : g.movedAtLeast d = 0 := by
  unfold Engine.movedAtLeast
  rw [h]
  cases d <;> rfl

theorem drawUpTo_cons {n k : Nat} {s : State} {r : List Nat} (h : s.env.script.counts = k :: r) (hk : k ≤ n) :
    (drawUpTo n s).1 = k := by
  unfold drawUpTo
  rw [h]
  exact Nat.mod_eq_of_lt (Nat.lt_succ_of_le hk)

theorem drawUpTo_bytes (n : Nat) (s : State) : (drawUpTo n s).2.env.script.bytes = s.env.script.bytes := by
  unfold drawUpTo
  split <;> rfl

/-- The abandonment of a block in host memory, after the draw of how much of it has moved: `k` bytes, at least the part known to have
moved, and what the draw says where nothing of it raced. -/
structure MovedPrefix (d : Dir) (e : Eng) (s : State) (k : Nat) (u : State) : Prop where
  drew : Drew s u
  bytes : u.env.script.bytes = s.env.script.bytes
  least : (s.engine d e).movedAtLeast d ≤ k
  le : k ≤ (s.engine d e).cnt.toNat
  drawn : (s.engine d e).raced = [] → ∀ n r, s.env.script.counts = n :: r → n ≤ (s.engine d e).cnt.toNat → k = n
  eq : abandonBlock d e s = (moveBlock d e k u).modHw d (DmaHw.drop e)

theorem abandonBlock_movesPrefix {d : Dir} {e : Eng} {s : State} (hb : (s.engine d e).busy = true)
    (hm : (s.engine d e).inMemory = true) : ∃ k u, MovedPrefix d e s k u := by
  have hle := drawUpTo_le ((s.engine d e).cnt.toNat - (s.engine d e).movedAtLeast d) s
  have hleast := Engine.movedAtLeast_le d (s.engine d e)
  refine ⟨_, _, drawUpTo_drew ((s.engine d e).cnt.toNat - (s.engine d e).movedAtLeast d) s, drawUpTo_bytes _ s,
    Nat.le_add_right _ (drawUpTo ((s.engine d e).cnt.toNat - (s.engine d e).movedAtLeast d) s).1, by omega,
    fun hraced n r hn hcnt => ?_, ?_⟩
  · rw [Engine.movedAtLeast_unraced hraced, Nat.zero_add]
    exact drawUpTo_cons hn hcnt
  · unfold abandonBlock
    rw [if_pos hb]
    dsimp only
    rw [if_pos hm]

/-- The abandonment of a playback block that raced with nothing delivers the first part of it and touches nothing else. -/
theorem abandonBlock_play_unraced {s : State} {e : Eng} (hb : (s.engine .play e).busy = true)
    (hm : (s.engine .play e).inMemory = true) (hraced : (s.engine .play e).raced = [])
    (hcover : ∀ i, i < (s.engine .play e).cnt.toNat → captureCovers s ((s.engine .play e).addr.toNat + i) = false) :
    ∃ k u, MovedPrefix .play e s k u ∧ abandonBlock .play e s = (u.emit (.audioOut e (s.engine .play e).addr
      (s.mem.bytesFrom (s.engine .play e).addr.toNat k))).modHw .play (DmaHw.drop e) := by
  obtain ⟨k, u, hmoved⟩ := abandonBlock_movesPrefix hb hm
  have hsame := hmoved.drew.engine .play e
  refine ⟨k, u, hmoved, ?_⟩
  rw [hmoved.eq, moveBlock_play_unraced (by rw [hsame]; exact hraced), hsame, hmoved.drew.mem]
  intro i hi
  rw [hsame]
  exact hmoved.drew.hwFrame.covers (hcover i (hi.trans_le hmoved.le))

/-- The abandonment of a capture block stores the first part of it. -/
theorem abandonBlock_record_eq {s : State} {e : Eng} (hb : (s.engine .record e).busy = true)
    (hm : (s.engine .record e).inMemory = true) : ∃ k u, MovedPrefix .record e s k u ∧ u.engine .record e = s.engine .record e ∧
      abandonBlock .record e s = ((captureBytes e (s.engine .record e).addr.toNat k u).2.emit
        (.audioIn e (s.engine .record e).addr (captureBytes e (s.engine .record e).addr.toNat k u).1)).modHw .record
          (DmaHw.drop e) := by
  obtain ⟨k, u, hmoved⟩ := abandonBlock_movesPrefix hb hm
  have hsame := hmoved.drew.engine .record e
  exact ⟨k, u, hmoved, hsame, by rw [hmoved.eq, moveBlock_record, hsame]⟩

end Sys2Proof.Machine

namespace Sys2Proof.Proofs

open Sys2Proof.Machine

/-- Settles O38: nothing raced, so the block's bytes are those of memory and fetching them changes nothing. -/
theorem playbackCompletes : Obligations.PlaybackCompletes := by
  intro s e _ hactive hraced hcover
  show completeBlock .play s = _
  rw [completeBlock_active (d := .play) hactive, moveBlock_play_unraced hraced hcover]
  rfl

/-- Settles O39: the bytes are what the capture of the whole block puts at its addresses. -/
theorem captureCompletes : Obligations.CaptureCompletes := by
  intro s e _ hactive g t
  have ht : t = (moveBlock .record e g.cnt.toNat s).modHw .record (DmaHw.complete e) := completeBlock_active hactive
  have hframe : HwFrame s t := completeBlock_hwFrame .record s
  have hlength := captureBytes_length e g.addr.toNat g.cnt.toNat s
  have hget := captureBytes_get e g.addr.toNat g.cnt.toNat s
  rw [moveBlock_record] at ht
  have hmem : t.mem = (captureBytes e g.addr.toNat g.cnt.toNat s).2.mem := by rw [ht]; rfl
  refine ⟨(captureBytes e g.addr.toNat g.cnt.toNat s).1, hlength, fun i hi hnone => ?_, fun i b hi hsome => ?_, fun a ha => ?_,
    fun hraced hn => ?_, ?_, ?_, hframe⟩
  · rw [hmem]
    exact (hget i (hlength ▸ hi)).2 hnone
  · rw [hmem]
    exact (hget i (hlength ▸ hi)).1 b hsome
  · rw [hmem]
    exact captureBytes_read_other _ _ _ _ _ (hlength ▸ ha)
  · rw [ht]
    exact captureBytes_fresh hraced hn
  · rw [ht, State.modHw_trace, State.emit_trace, captureBytes_trace]
  · have hrecord := captureBytes_record e g.addr.toNat g.cnt.toNat s
    rw [ht, ← State.dir_record, State.modHw_dir, if_pos rfl, State.emit_dir, State.dir_record, hrecord]
    rfl

/-- Settles O41: as many bytes move as the draw says, and at least those the block is known to have moved. -/
theorem abandonmentMovesAPrefix : Obligations.AbandonmentMovesAPrefix := by
  refine ⟨fun s e hb hm hraced hcover => ?_, fun s e hb hm => ?_⟩
  · obtain ⟨k, u, hmoved, heq⟩ := abandonBlock_play_unraced hb hm hraced hcover
    refine ⟨k, hmoved.le, hmoved.drawn hraced, ?_⟩
    rw [heq]
    obtain ⟨n, x, -, rfl⟩ := hmoved.drew
    exact ⟨rfl, rfl, rfl, rfl⟩
  · intro g t
    obtain ⟨k, u, hmoved, hsame, ht⟩ := abandonBlock_record_eq hb hm
    have hlength := captureBytes_length e g.addr.toNat k u
    have hget := captureBytes_get e g.addr.toNat k u
    rw [hsame, hmoved.drew.mem] at hget
    have hmem : t.mem = (captureBytes e g.addr.toNat k u).2.mem := by show (abandonBlock .record e s).mem = _; rw [ht]; rfl
    refine ⟨(captureBytes e g.addr.toNat k u).1, hlength.trans_le hmoved.le, fun i b hi hsome => ?_, fun i hi hnone => ?_,
      fun a ha => ?_, fun n r hraced hn hcnt hlen => ?_, ?_, ?_, abandonBlock_hwFrame .record e s⟩
    · have hik : i < k := (Engine.written_lt_movedAtLeast hi hsome).trans_le hmoved.least
      rw [hmem, hlength]
      exact ⟨hik, (hget i hik).1 b hsome⟩
    · rw [hmem]
      exact (hget i (hlength ▸ hi)).2 hnone
    · rw [hmem, captureBytes_read_other _ _ _ _ _ (hlength ▸ ha), hmoved.drew.mem]
    · have hk : k = n := hmoved.drawn hraced n r hn hcnt
      have hfresh := captureBytes_fresh (a := g.addr.toNat) (n := k) (by rw [hsame]; exact hraced)
        (by rw [hmoved.bytes, hk]; exact hlen)
      rw [hfresh.1, hmoved.bytes, hk]
    · show (abandonBlock .record e s).trace = _
      rw [ht, State.modHw_trace, State.emit_trace, captureBytes_trace, hmoved.drew.trace]
    · have hrecord : (captureBytes e g.addr.toNat k u).2.record = s.record := by
        rw [captureBytes_record]
        obtain ⟨n, x, -, rfl⟩ := hmoved.drew
        rfl
      show (abandonBlock .record e s).record = _
      rw [ht, ← State.dir_record, State.modHw_dir, if_pos rfl, State.emit_dir, State.dir_record, hrecord]
      rfl

end Sys2Proof.Proofs
end

section
/-! `DMA.RESET`: each of its register writes keeps what is not the DMA engine's, takes no block into flight, and leaves a direction that
has been disabled as it is (`44_dma_engine.md` R257). -/

namespace Sys2Proof.Machine

/-! ### agents leave what the host has loaded alone (`20_memory.md` R123) -/

theorem Drew.seen {s t : State} (h : Drew s t) : t.env.seen = s.env.seen := by
  obtain ⟨n, x, -, rfl⟩ := h; rfl

theorem captureByte_seen (e : Eng) (a : Nat) (s : State) : (captureByte e a s).2.env.seen = s.env.seen := by
  rcases captureByte_eq e a s with ⟨b, -, h⟩ | ⟨-, h⟩ <;> rw [h]
  exact (drawByte_drew s).seen

theorem captureBytes_seen (e : Eng) (a n : Nat) (s : State) : (captureBytes e a n s).2.env.seen = s.env.seen := by
  induction n generalizing a s with
  | zero => rfl
  | succ n ih => exact (ih (a + 1) (captureByte e a s).2).trans (captureByte_seen e a s)

theorem mayCapture_seen (e : Eng) (a : Nat) (s : State) : (mayCapture e a s).env.seen = s.env.seen := by
  rcases mayCapture_cases e a s with hd | ⟨b, u, hd, h⟩
  · exact hd.seen
  · rw [h, captured, State.modEngine_env]
    exact hd.seen

theorem settle_seen (a : Nat) (s : State) : (settle a s).env.seen = s.env.seen := by
  unfold settle
  dsimp only
  split
  · exact mayCapture_seen _ a s
  · exact (mayCapture_seen _ a _).trans (mayCapture_seen _ a s)

theorem fetchByte_seen (e : Eng) (a : Nat) (s : State) : (fetchByte e a s).2.env.seen = s.env.seen := by
  unfold fetchByte
  dsimp only
  split
  · exact settle_seen a s
  · exact (drawPick_drew _).seen.trans (settle_seen a s)

theorem fetchBytes_seen (e : Eng) (a n : Nat) (s : State) : (fetchBytes e a n s).2.env.seen = s.env.seen := by
  induction n generalizing a s with
  | zero => rfl
  | succ n ih => exact (ih (a + 1) (fetchByte e a s).2).trans (fetchByte_seen e a s)

theorem moveBlock_seen (d : Dir) (e : Eng) (k : Nat) (s : State) : (moveBlock d e k s).env.seen = s.env.seen := by
  cases d with
  | play => exact fetchBytes_seen e _ k s
  | record => exact captureBytes_seen e _ k s

theorem abandonBlock_seen (d : Dir) (e : Eng) (s : State) : (abandonBlock d e s).env.seen = s.env.seen := by
  rcases abandonBlock_eq d e s with ⟨-, h⟩ | ⟨-, k, t, hd, -, -, h⟩ <;> rw [h]
  rw [State.modHw_env]
  split
  · exact (moveBlock_seen d e k t).trans hd.seen
  · exact hd.seen

theorem hwStep_seen (g : HwAgent) (s : State) : (hwStep g s).env.seen = s.env.seen := by
  cases g with
  | serialiser =>
    obtain ⟨b, n, x, -, he⟩ := serialise_eq s
    show (serialise s).env.seen = _
    rw [he]
  | engine d =>
    show (completeBlock d s).env.seen = _
    unfold completeBlock
    split
    · rw [State.modHw_env]
      exact moveBlock_seen d _ _ s
    · rfl

theorem hwRounds_seen (n : Nat) (s : State) : (hwRounds n s).env.seen = s.env.seen := by
  induction n generalizing s with
  | zero => rfl
  | succ n ih =>
    unfold hwRounds
    split
    · rfl
    · have hd := drawPick_drew s
      generalize drawPick s = r at hd ⊢
      obtain ⟨k, t⟩ := r
      cases k with
      | zero => exact hd.seen
      | succ j =>
        dsimp only
        split
        · exact (ih _).trans ((hwStep_seen _ t).trans hd.seen)
        · exact hd.seen

theorem hw_seen (s : State) : (hw s).env.seen = s.env.seen := hwRounds_seen 5 s

/-! ### a disabled channel -/

/-- The channel is disabled, nothing of it is active or in flight, and no done bit is set. -/
def DmaHw.Halted (h : DmaHw) : Prop :=
  h.en = false ∧ h.active = none ∧ ∀ e, (h.eng e).busy = false ∧ (h.eng e).done = false

theorem DmaHw.Halted.csWord {h : DmaHw} (hh : h.Halted) : csWord h = 0 := by
  obtain ⟨hen, hactive, heng⟩ := hh
  have hA : h.engA.busy = false ∧ h.engA.done = false := heng .a
  have hB : h.engB.busy = false ∧ h.engB.done = false := heng .b
  unfold Machine.csWord
  rw [hen, hactive, hA.1, hA.2, hB.1, hB.2]
  decide

/-- A disabled channel cannot run, so the hardware agents leave it alone (`44_dma_engine.md` R270). -/
theorem Untouched.halted {d : Dir} {s t : State} (h : Untouched d s t) (hh : (s.dir d).hw.Halted) : (t.dir d).hw.Halted := by
  obtain ⟨hen, hactive, heng⟩ := hh
  exact ⟨h.en.trans hen, h.active.trans hactive, fun e => ⟨(h.busy e).trans (heng e).1, (h.done e).trans (heng e).2⟩⟩

theorem dmaCanRun_halted {d : Dir} {s : State} (h : (s.dir d).hw.Halted) : dmaCanRun s d = false := by
  unfold dmaCanRun
  rw [h.1]
  rfl

theorem hw_halted {d : Dir} {s : State} (h : (s.dir d).hw.Halted) : ((hw s).dir d).hw.Halted :=
  (hw_stuck (dmaCanRun_halted h)).halted h

theorem abandonBlock_halted {d : Dir} (d' : Dir) (e : Eng) {s : State} (h : (s.dir d).hw.Halted) :
    ((abandonBlock d' e s).dir d).hw.Halted := by
  by_cases hd : d = d'
  · subst hd
    have hidle : abandonBlock d e s = s := if_neg (by rw [show (s.engine d e).busy = false from (h.2.2 e).1]; decide)
    rwa [hidle]
  · exact (abandonBlock_untouched hd e s).halted h

/-! ### the frame of `DMA.RESET` -/

/-- No block has come into flight: what is busy was busy, with the same block. -/
def NoneStarted (s t : State) : Prop := ∀ d e, (t.engine d e).busy = true →
  (s.engine d e).busy = true ∧ (t.engine d e).addr = (s.engine d e).addr ∧ (t.engine d e).cnt = (s.engine d e).cnt

theorem HwFrame.noneStarted {s t : State} (h : HwFrame s t) : NoneStarted s t :=
  fun d e hb => ⟨h.busy d e hb, h.addr d e, h.cnt d e⟩

theorem NoneStarted.trans {s t u : State} (h : NoneStarted s t) (k : NoneStarted t u) : NoneStarted s u := fun d e hb => by
  obtain ⟨hbt, hat, hct⟩ := k d e hb
  obtain ⟨hbs, has, hcs⟩ := h d e hbt
  exact ⟨hbs, hat.trans has, hct.trans hcs⟩

theorem NoneStarted.covers {s t : State} (h : NoneStarted s t) {a : Nat} (hc : captureCovers s a = false) :
    captureCovers t a = false := by
  have hone : ∀ e, ((s.engine .record e).busy && (s.engine .record e).covers a) = false →
      ((t.engine .record e).busy && (t.engine .record e).covers a) = false := fun e hs => by
    cases hb : (t.engine .record e).busy with
    | false => rfl
    | true =>
      obtain ⟨hbs, ha, hn⟩ := h .record e hb
      unfold Engine.covers at hs ⊢
      rw [hbs] at hs
      rw [ha, hn]
      exact hs
  rw [captureCovers_engine, Bool.or_eq_false_iff] at hc ⊢
  exact ⟨hone .a hc.1, hone .b hc.2⟩

/-- What a write of `DMA.RESET` to the registers of the DMA engine leaves alone, and what it keeps of a reset already made. -/
structure ResetFrame (s t : State) : Prop where
  port : t.port = s.port
  mirror : t.mirror = s.mirror
  inIrq : t.inIrq = s.inIrq
  errlog : t.errlog = s.errlog
  bus : BusStill s t ∨ FrameEnded s t
  now : t.env.now = s.env.now
  rstSince : t.env.rstSince = s.env.rstSince
  host : t.env.host = s.env.host
  seen : t.env.seen = s.env.seen
  trace : ∃ l, t.trace = s.trace ++ l
  soft : SoftKept s t
  mem : MemFrame s t
  noneStarted : NoneStarted s t
  halted : ∀ d, (s.dir d).hw.Halted → (t.dir d).hw.Halted
  addr : ∀ d e, (s.engine d e).addr = 0 → (t.engine d e).addr = 0
  cnt : ∀ d e, (s.engine d e).cnt = 0 → (t.engine d e).cnt = 0

theorem ResetFrame.chan {s t : State} (h : ResetFrame s t) (d : Dir) : (t.dir d).chan = (s.dir d).chan := by
  obtain ⟨x, hx⟩ := h.soft.2 d
  rw [hx]

theorem ResetFrame.recordStill {s t : State} (h : ResetFrame s t) (hr : RecordStill s) : RecordStill t := by
  refine ⟨fun e => ?_, fun e => ?_⟩
  · cases hb : (t.engine .record e).busy with
    | false => rfl
    | true => rw [← (h.noneStarted .record e hb).1]; exact hr.1 e
  · rw [show t.record.chan = s.record.chan from h.chan .record]
    exact hr.2 e

theorem ResetFrame.trans {s t u : State} (h : ResetFrame s t) (k : ResetFrame t u) : ResetFrame s u where
  port := k.port.trans h.port
  mirror := k.mirror.trans h.mirror
  inIrq := k.inIrq.trans h.inIrq
  errlog := k.errlog.trans h.errlog
  bus := bus_trans h.soft.1 h.bus k.bus
  now := k.now.trans h.now
  rstSince := k.rstSince.trans h.rstSince
  host := k.host.trans h.host
  seen := k.seen.trans h.seen
  trace := by
    obtain ⟨a, ha⟩ := h.trace; obtain ⟨b, hb⟩ := k.trace
    exact ⟨a ++ b, by rw [hb, ha, List.append_assoc]⟩
  soft := h.soft.trans k.soft
  mem := ⟨fun a ha => (k.mem.read a (h.noneStarted.covers ha)).trans (h.mem.read a ha), fun hwf => k.mem.wf (h.mem.wf hwf),
    fun hr => (k.mem.still (h.recordStill hr)).trans (h.mem.still hr)⟩
  noneStarted := h.noneStarted.trans k.noneStarted
  halted := fun d hd => k.halted d (h.halted d hd)
  addr := fun d e hz => k.addr d e (h.addr d e hz)
  cnt := fun d e hz => k.cnt d e (h.cnt d e hz)

/-- What hardware agents or an abandonment do. -/
theorem HwFrame.reset {s t : State} (h : HwFrame s t) (hmem : MemFrame s t) (hseen : t.env.seen = s.env.seen)
    (hhalted : ∀ d, (s.dir d).hw.Halted → (t.dir d).hw.Halted) : ResetFrame s t :=
  ⟨h.port, h.mirror, h.inIrq, h.errlog, h.bus, h.now, h.rstSince, h.host, hseen, h.trace, h.soft, hmem, h.noneStarted, hhalted,
    fun d e hz => (h.addr d e).trans hz, fun d e hz => (h.cnt d e).trans hz⟩

theorem hw_reset (s : State) : ResetFrame s (hw s) :=
  (hw_hwFrame s).reset (hw_moved s).2.1 (hw_seen s) fun _ => hw_halted

theorem abandonBlock_reset (d : Dir) (e : Eng) (s : State) : ResetFrame s (abandonBlock d e s) :=
  (abandonBlock_hwFrame d e s).reset (abandonBlock_memFrame d e s) (abandonBlock_seen d e s) fun _ => abandonBlock_halted d e

/-- A change of one direction's hardware that puts no block into flight, changes no address or count but to 0, and does not undo a
reset. -/
theorem ResetFrame.modHw {d : Dir} {f : DmaHw → DmaHw} {s : State}
    (hbusy : ∀ e, ((f (s.dir d).hw).eng e).busy = true → (s.engine d e).busy = true ∧
      ((f (s.dir d).hw).eng e).addr = (s.engine d e).addr ∧ ((f (s.dir d).hw).eng e).cnt = (s.engine d e).cnt)
    (haddr : ∀ e, ((f (s.dir d).hw).eng e).addr = (s.engine d e).addr ∨ ((f (s.dir d).hw).eng e).addr = 0)
    (hcnt : ∀ e, ((f (s.dir d).hw).eng e).cnt = (s.engine d e).cnt ∨ ((f (s.dir d).hw).eng e).cnt = 0)
    (hhalted : (s.dir d).hw.Halted → (f (s.dir d).hw).Halted) : ResetFrame s (s.modHw d f) := by
  have hctx := CtxFrame.modHw d f s
  refine ⟨hctx.port, hctx.mirror, hctx.inIrq, State.modHw_errlog d f s, hctx.bus, by rw [State.modHw_env], hctx.rstSince, hctx.host,
    by rw [State.modHw_env], hctx.trace, SoftKept.modHw d f s, MemFrame.of_eq (State.modHw_mem d f s), fun d' e hb => ?_,
    fun d' hd => ?_, fun d' e hz => ?_, fun d' e hz => ?_⟩
  · rw [State.modHw_engine] at hb ⊢
    split at hb
    · next hd => subst hd; rw [if_pos rfl]; exact hbusy e hb
    · next hd => rw [if_neg hd]; exact ⟨hb, rfl, rfl⟩
  · rw [State.modHw_dir]
    split
    · next hx => subst hx; exact hhalted hd
    · exact hd
  · rw [State.modHw_engine]
    split
    · next hx => subst hx; exact (haddr e).elim (·.trans hz) id
    · exact hz
  · rw [State.modHw_engine]
    split
    · next hx => subst hx; exact (hcnt e).elim (·.trans hz) id
    · exact hz

/-- A write of 0 to an address or count register of a sub-engine that is not busy. -/
theorem ResetFrame.modIdle {d : Dir} {e : Eng} {f : Engine → Engine} {s : State} (hf : Reprogram f)
    (haddr : ∀ g, (f g).addr = g.addr ∨ (f g).addr = 0) (hcnt : ∀ g, (f g).cnt = g.cnt ∨ (f g).cnt = 0)
    (hidle : (s.engine d e).busy = false) : ResetFrame s (s.modEngine d e f) := by
  refine ResetFrame.modHw (fun e' hb => ?_) (fun e' => ?_) (fun e' => ?_) fun ⟨hen, hactive, heng⟩ => ?_
  · rw [DmaHw.modEng_eng] at hb ⊢
    split at hb
    · rw [hf.busy, show ((s.dir d).hw.eng e).busy = false from hidle] at hb; cases hb
    · next he => rw [if_neg he]; exact ⟨hb, rfl, rfl⟩
  · rw [DmaHw.modEng_eng]
    split
    · next he => rw [he]; exact haddr _
    · exact .inl rfl
  · rw [DmaHw.modEng_eng]
    split
    · next he => rw [he]; exact hcnt _
    · exact .inl rfl
  · refine ⟨(DmaHw.modEng_en _ _ _).trans hen, (DmaHw.modEng_active _ _ _).trans hactive, fun e' => ?_⟩
    rw [DmaHw.modEng_eng]
    split
    · rw [hf.busy, hf.done]; exact heng e
    · exact heng e'

/-! ### the writes of `DMA.RESET` -/

/-- The value that `DMA.RESET` writes to `CS`: both done bits cleared, the channel disabled. -/
abbrev csResetWord : Word := Config.csDoneA ||| Config.csDoneB

theorem disabled_reset (d : Dir) (s : State) : ResetFrame s (disabled d csResetWord s) ∧
    ((disabled d csResetWord s).dir d).hw.Halted := by
  have hclear : ResetFrame s (s.modHw d (DmaHw.clearAndEnable csResetWord)) := by
    refine ResetFrame.modHw (fun e hb => ?_) (fun e => ?_) (fun e => ?_) fun ⟨_, hactive, heng⟩ => ⟨rfl, hactive, fun e => ?_⟩ <;>
      rw [DmaHw.clearAndEnable_eng] at *
    · exact ⟨hb, rfl, rfl⟩
    · exact .inl rfl
    · exact .inl rfl
    · exact ⟨(heng e).1, by dsimp only; rw [(heng e).2]; rfl⟩
  have hnone (u : State) : ResetFrame u (u.modHw d fun h => { h with active := none }) :=
    ResetFrame.modHw (fun e hb => by cases e <;> exact ⟨hb, rfl, rfl⟩) (fun e => by cases e <;> exact .inl rfl)
      (fun e => by cases e <;> exact .inl rfl) fun ⟨hen, _, heng⟩ => ⟨hen, rfl, fun e => by cases e; exacts [heng .a, heng .b]⟩
  refine ⟨hclear.trans ((abandonBlock_reset d .a _).trans ((abandonBlock_reset d .b _).trans (hnone _))), ?_, ?_, fun e => ?_⟩
  · rw [(disabled_hwFrame d csResetWord s).en, State.modHw_dir, if_pos rfl]
    rfl
  · unfold disabled
    rw [State.modHw_dir, if_pos rfl]
  · obtain ⟨hbusy, hdone⟩ := disabled_engine d csResetWord e s
    have hbit : hasBit csResetWord (doneMask e) = true := by cases e <;> decide
    refine ⟨hbusy, hdone.trans ?_⟩
    rw [hbit, Bool.not_true, Bool.and_false]

/-- The first write of the reset of a direction. -/
theorem regWrite_cs_reset (d : Dir) (s : State) : ∃ t, regWrite (.cs d) csResetWord s = .next t ∧ ResetFrame s t ∧
    (t.dir d).hw.Halted := by
  obtain ⟨hframe, hhalted⟩ := disabled_reset d (hw s)
  have hen : hasBit csResetWord Config.csEn = false := by decide
  exact ⟨_, storeCs_disable (s := hw s) hen, (hw_reset s).trans hframe, hhalted⟩

theorem regWrite_addr_reset {d : Dir} {s : State} (e : Eng) (h : (s.dir d).hw.Halted) :
    ∃ t, regWrite (.addr d e) 0 s = .next t ∧ ResetFrame s t ∧ (t.engine d e).addr = 0 := by
  have hidle : ((hw s).engine d e).busy = false := hw_idle (h.2.2 e).1
  refine ⟨_, regStore_addr hidle 0, (hw_reset s).trans
    (ResetFrame.modIdle (Reprogram.setAddr 0) (fun _ => .inr rfl) (fun _ => .inl rfl) hidle), ?_⟩
  rw [State.modEngine_engine, if_pos ⟨rfl, rfl⟩]

theorem regWrite_cnt_reset {d : Dir} {s : State} (e : Eng) (h : (s.dir d).hw.Halted) :
    ∃ t, regWrite (.cnt d e) 0 s = .next t ∧ ResetFrame s t ∧ (t.engine d e).cnt = 0 := by
  have hidle : ((hw s).engine d e).busy = false := hw_idle (h.2.2 e).1
  refine ⟨_, regStore_cnt hidle 0, (hw_reset s).trans
    (ResetFrame.modIdle (Reprogram.setCnt 0) (fun _ => .inl rfl) (fun _ => .inr rfl) hidle), ?_⟩
  rw [State.modEngine_engine, if_pos ⟨rfl, rfl⟩]

/-- All five registers of the direction read 0. -/
def Blank (d : Dir) (s : State) : Prop :=
  (s.dir d).hw.Halted ∧ ∀ e, (s.engine d e).addr = 0 ∧ (s.engine d e).cnt = 0

theorem ResetFrame.blank {d : Dir} {s t : State} (h : ResetFrame s t) (hb : Blank d s) : Blank d t :=
  ⟨h.halted d hb.1, fun e => ⟨h.addr d e (hb.2 e).1, h.cnt d e (hb.2 e).2⟩⟩

/-- The five writes of the reset of a direction. -/
theorem resetDirection_total (d : Dir) (s : State) : ∃ t, resetDirection d s = .next t ∧ ResetFrame s t ∧ Blank d t := by
  obtain ⟨s1, h1, k1, hs1⟩ := regWrite_cs_reset d s
  obtain ⟨s2, h2, k2, haA⟩ := regWrite_addr_reset .a hs1
  have hs2 := k2.halted d hs1
  obtain ⟨s3, h3, k3, hcA⟩ := regWrite_cnt_reset .a hs2
  have hs3 := k3.halted d hs2
  obtain ⟨s4, h4, k4, haB⟩ := regWrite_addr_reset .b hs3
  have hs4 := k4.halted d hs3
  obtain ⟨s5, h5, k5, hcB⟩ := regWrite_cnt_reset .b hs4
  refine ⟨s5, ?_, k1.trans (k2.trans (k3.trans (k4.trans k5))), k5.halted d hs4, fun e => ?_⟩
  · unfold resetDirection
    rw [h1, andThen_next, h2, andThen_next, h3, andThen_next, h4, andThen_next, h5]
  · cases e with
    | a => exact ⟨(k3.trans (k4.trans k5)).addr d .a haA, (k4.trans k5).cnt d .a hcA⟩
    | b => exact ⟨k5.addr d .b haB, hcB⟩

/-! ### the thresholds (`44_dma_engine.md` R257) -/

/-- What a write of `new` to `CTRL0` that keeps `RST` leaves: where it is 1, the flags clear and a frame in progress lost
(`41_control_bus.md` R187). -/
def ctrl0Rewritten (new : Word) (s : State) : State := { s with
  regs := { s.regs with
    ctrl0 := new
    l3wd := s.regs.l3wd && !s.regs.ctrl0.getLsbD 3
    l3rd := s.regs.l3rd && !s.regs.ctrl0.getLsbD 3 }
  l3 := { s.l3 with busy := s.l3.busy && !s.regs.ctrl0.getLsbD 3 }
  trace := s.trace ++
    if s.regs.ctrl0.getLsbD 3 && s.l3.busy then [.frameLost s.l3.frameAddr s.l3.frameData] else [] }

theorem storeCtrl0_keeping {new : Word} {s : State} (h : hasBit new Config.rst = s.regs.ctrl0.getLsbD 3) :
    storeCtrl0 new s = .next (ctrl0Rewritten new s) := by
  unfold ctrl0Rewritten
  cases hr : s.regs.ctrl0.getLsbD 3 with
  | true =>
    rw [storeCtrl0_rst (h.trans hr), hasBit_rst, hr]
    simp
  | false =>
    rw [storeCtrl0_clear (h.trans hr) fun hset => absurd ((hasBit_rst _).symm.trans hset) (by rw [hr]; decide)]
    simp

theorem withThresholds_rst (p : Params) (c : Word) : (withThresholds p c).getLsbD 3 = c.getLsbD 3 := by
  simp [withThresholds, Config.thresholds]

/-- The read-modify-write of `CTRL0` in `DMA.RESET`, from the state the hardware agents leave. -/
theorem regUpdate_thresholds (p : Params) (s : State) : ∃ u, ResetFrame s u ∧ regUpdate .ctrl0 (withThresholds p) s =
    .next (ctrl0Rewritten (withThresholds p s.regs.ctrl0 &&& Config.ctrl0Fields) u) := by
  have hframe := (hw_reset s).trans (hw_reset (hw s))
  have hctrl0 : (hw (hw s)).regs.ctrl0 = s.regs.ctrl0 := by rw [bus_regs hframe.bus]
  have hread : (hw s).regs.ctrl0 = s.regs.ctrl0 := by rw [bus_regs (hw_reset s).bus]
  refine ⟨hw (hw s), hframe, ?_⟩
  show storeCtrl0 (withThresholds p (hw s).regs.ctrl0 &&& Config.ctrl0Fields) (hw (hw s)) = _
  rw [hread]
  refine storeCtrl0_keeping ?_
  rw [hasBit_fields_rst, withThresholds_rst, hctrl0]

theorem BusAfterReset.of_rewritten {s u : State} {new : Word} (h : ResetFrame s u) :
    BusAfterReset s (ctrl0Rewritten new u) := by
  have hctrl0 : u.regs.ctrl0 = s.regs.ctrl0 := by rw [bus_regs h.bus]
  obtain ⟨l, hl⟩ := h.trace
  refine ⟨u, h.bus, rfl, rfl, ?_⟩
  unfold ctrl0Rewritten
  rw [hctrl0]
  cases s.regs.ctrl0.getLsbD 3 with
  | true => simp +contextual [hl]
  | false => simp

/-- `DMA.RESET`: the DMA registers of both directions, then the thresholds. -/
theorem exec_dmaReset (s : State) : ∃ u, ResetFrame s u ∧ (∀ d, Blank d u) ∧ exec .dmaReset s =
    .next (answered 0 0 (ctrl0Rewritten (withThresholds s.cfg s.regs.ctrl0 &&& Config.ctrl0Fields) u)) := by
  obtain ⟨s1, h1, k1, hplay⟩ := resetDirection_total .play s
  obtain ⟨s2, h2, k2, hrecord⟩ := resetDirection_total .record s1
  obtain ⟨u, k3, h3⟩ := regUpdate_thresholds s2.cfg s2
  have k12 := k1.trans k2
  refine ⟨u, k12.trans k3, fun d => ?_, ?_⟩
  · cases d with
    | play => exact (k2.trans k3).blank hplay
    | record => exact k3.blank hrecord
  · have hctrl0 : s2.regs.ctrl0 = s.regs.ctrl0 := by rw [bus_regs k12.bus]
    show execDmaReset s = _
    unfold execDmaReset
    rw [h1, andThen_next, h2, andThen_next, h3, andThen_next, hctrl0, k12.soft.1]
    rfl

end Sys2Proof.Machine

namespace Sys2Proof.Proofs

open Sys2Proof.Machine

/-- Settles O35: each write of `DMA.RESET` keeps the frame and what was reset before it; its write of `CTRL0` keeps `RST`. -/
theorem dmaResetClears : Obligations.DmaResetClears := by
  intro s
  obtain ⟨u, k, hblank, hrun⟩ := exec_dmaReset s
  have hdir (d : Dir) : (ctrl0Rewritten (withThresholds s.cfg s.regs.ctrl0 &&& Config.ctrl0Fields) u).dir d = u.dir d := by
    cases d <;> rfl
  obtain ⟨l, hl⟩ := k.trace
  refine ⟨_, hrun, fun d => ?_, fun d e => ?_, ?_, k.port, k.mirror, k.soft.1, k.inIrq, k.errlog, k.now, ?_,
    ⟨k.mem.read, k.mem.wf, k.mem.still⟩, BusAfterReset.of_rewritten k, ?_, k.host, k.seen, k.rstSince⟩
  · obtain ⟨hhalted, -⟩ := hblank d
    obtain ⟨x, hx⟩ := k.soft.2 d
    rw [hdir]
    refine ⟨hhalted.1, hhalted.2.1, hhalted.csWord, ?_⟩
    rw [hx]
    exact ⟨rfl, rfl, rfl, rfl⟩
  · obtain ⟨⟨-, -, heng⟩, hzero⟩ := hblank d
    unfold State.engine at hzero ⊢
    rw [hdir]
    exact ⟨(hzero e).1, (hzero e).2, (heng e).1, (heng e).2⟩
  · have hmask : ~~~Config.thresholds = 0xFFFF00FF := by decide
    unfold ctrl0Rewritten withThresholds
    rw [hmask, bus_regs k.bus]
    rfl
  · exact ⟨_, by unfold ctrl0Rewritten; rw [hl, List.append_assoc]⟩
  · show u.l3.lock = s.l3.lock
    rw [bus_l3 k.bus]

end Sys2Proof.Proofs
end

section
/-! The synthetic completion event from its entry to its completion: what interrupt context changes of a state and what commutes with it,
and the event as one equation over the recovery checks, the buffer step and the final write (`45_rearm_sequencer.md` R290, R298). -/

namespace Sys2Proof.Machine

/-! ### interrupt context (`60_exceptions.md` R346) -/

@[simp] theorem interrupted_dir (i : Instr) (s : State) (d : Dir) : (interrupted i s).dir d = s.dir d := by cases d <;> rfl
@[simp] theorem interrupted_engine (i : Instr) (s : State) (d : Dir) (e : Eng) :
    (interrupted i s).engine d e = s.engine d e := by cases d <;> rfl
@[simp] theorem interrupted_cfg (i : Instr) (s : State) : (interrupted i s).cfg = s.cfg := rfl
@[simp] theorem interrupted_setDir (i : Instr) (s : State) (d : Dir) (x : Direction) :
    (interrupted i s).setDir d x = interrupted i (s.setDir d x) := by cases d <;> rfl
@[simp] theorem interrupted_modBuf (i : Instr) (s : State) (d : Dir) (f : Buffer → Buffer) :
    (interrupted i s).modBuf d f = interrupted i (s.modBuf d f) := by cases d <;> rfl
@[simp] theorem interrupted_emit (i : Instr) (s : State) (ev : Event) : (interrupted i s).emit ev = interrupted i (s.emit ev) := rfl
@[simp] theorem interrupted_log (i : Instr) (s : State) (r : LogRecord) : (interrupted i s).log r = interrupted i (s.log r) := rfl
theorem interrupted_programmed (i : Instr) (s : State) (d : Dir) (e : Eng) (addr len : Word) :
    programmed d e addr len (interrupted i s) = interrupted i (programmed d e addr len s) := by cases d <;> rfl
theorem interrupted_started (i : Instr) (s : State) (d : Dir) (e : Eng) :
    started d e (interrupted i s) = interrupted i (started d e s) := by cases d <;> rfl
theorem interrupted_serviced (i : Instr) (s : State) (d : Dir) (e : Eng) :
    serviced d e (interrupted i s) = interrupted i (serviced d e s) := by cases d <;> rfl

theorem State.log_engine (r : LogRecord) (s : State) (d : Dir) (e : Eng) : (s.log r).engine d e = s.engine d e := by
  unfold State.engine; rw [State.log_dir]

theorem Eng.eq_other {x e : Eng} (h : x ≠ e) : x = e.other := by
  cases x <;> cases e <;> simp_all [Eng.other]

/-- Whether hardware agents can move depends on the serialiser, the registers and the DMA hardware only. -/
theorem HwQuiet.of_hw {s t : State} (hq : HwQuiet s) (hl3 : t.l3 = s.l3) (hregs : t.regs = s.regs)
    (hhw : ∀ d, (t.dir d).hw = (s.dir d).hw) : HwQuiet t := by
  have henabled (d : Dir) : engineEnabled t d = engineEnabled s d := by
    unfold engineEnabled dmaCanRun State.engine
    rw [hhw, hregs]
  unfold HwQuiet hwAgents at hq ⊢
  rw [henabled, henabled, hl3]
  exact hq

theorem HwQuiet.interrupted {s : State} (hq : HwQuiet s) (i : Instr) : HwQuiet (interrupted i s) :=
  hq.of_hw rfl rfl fun d => by rw [interrupted_dir]

theorem HwQuiet.log {s : State} (hq : HwQuiet s) (r : LogRecord) : HwQuiet (s.log r) :=
  hq.of_hw rfl rfl fun d => by rw [State.log_dir]

theorem HwQuiet.emit {s : State} (hq : HwQuiet s) (ev : Event) : HwQuiet (s.emit ev) :=
  hq.of_hw rfl rfl fun d => by rw [State.emit_dir]

/-- A change of a direction's software state. -/
theorem HwQuiet.setDir {s : State} {d : Dir} {x : Direction} (hq : HwQuiet s) (hx : x.hw = (s.dir d).hw) :
    HwQuiet (s.setDir d x) :=
  hq.of_hw (State.setDir_l3 _ _ _) (State.setDir_regs _ _ _) fun d' => by
    rw [State.setDir_dir]
    split
    · next hd => rw [hd, hx]
    · rfl

theorem HwQuiet.modBuf {s : State} (hq : HwQuiet s) (d : Dir) (f : Buffer → Buffer) : HwQuiet (s.modBuf d f) := hq.setDir rfl

/-- What the hardware agents do in interrupt context they do outside it. -/
theorem HardwareMoved.of_interrupted {i : Instr} {s w : State} (h : HardwareMoved (interrupted i s) w) :
    ∃ v, HardwareMoved s v ∧ w = interrupted i v := by
  obtain ⟨hf, hm, hquiet⟩ := h
  have hback : w = interrupted i { w with inIrq := s.inIrq, seq := s.seq } := by
    have h1 : w.inIrq = true := hf.inIrq
    have h2 : w.seq = ⟨some i, none, none, false⟩ := hf.seq
    unfold Machine.interrupted
    rw [← h1, ← h2]
  have hdir (d : Dir) : State.dir { w with inIrq := s.inIrq, seq := s.seq } d = w.dir d := by cases d <;> rfl
  have heng (d : Dir) (e : Eng) : State.engine { w with inIrq := s.inIrq, seq := s.seq } d e = w.engine d e := by
    cases d <;> rfl
  refine ⟨{ w with inIrq := s.inIrq, seq := s.seq }, ⟨?_, ⟨hm.read, hm.wf, hm.still⟩, fun hq => ?_⟩, hback⟩
  · exact { hf with
      seq := rfl, inIrq := rfl
      chan := fun d => by rw [hdir, hf.chan, interrupted_dir]
      buf := fun d => by rw [hdir, hf.buf, interrupted_dir]
      lastServiced := fun d => by rw [hdir, hf.lastServiced, interrupted_dir]
      oppStreak := fun d => by rw [hdir, hf.oppStreak, interrupted_dir]
      en := fun d => by rw [hdir, hf.en, interrupted_dir]
      addr := fun d e => by rw [heng, hf.addr, interrupted_engine]
      cnt := fun d e => by rw [heng, hf.cnt, interrupted_engine]
      busy := fun d e => by rw [heng, ← interrupted_engine i s]; exact hf.busy d e
      done := fun d e => by rw [heng, ← interrupted_engine i s]; exact hf.done d e }
  · rw [hquiet (hq.interrupted i)]
    rfl

/-- The completion of an event overwrites what interrupt context changed. -/
theorem answered_outside {s t : State} (hn : s.inIrq = false) (h : t = { s with inIrq := t.inIrq, seq := t.seq }) (v st : Word) :
    answered v st { t with inIrq := false } = answered v st s := by
  rw [h]
  unfold answered
  rw [← hn]

theorem answered_interrupted {i : Instr} {s : State} (h : s.inIrq = false) (v st : Word) :
    answered v st { interrupted i s with inIrq := false } = answered v st s := answered_outside h rfl v st

/-! ### the event as one equation -/

theorem irqDir_irqId (d : Dir) (e : Eng) : irqDir (irqId d e) = d := by cases d <;> cases e <;> rfl

theorem irqEng_irqId (d : Dir) (e : Eng) : irqEng (irqId d e) = e := by cases d <;> cases e <;> rfl

theorem irqId_le (d : Dir) (e : Eng) : ¬ 3 < (irqId d e).toNat := by cases d <;> cases e <;> decide

/-- An unknown identity. -/
theorem handler_unknown {id : Word} (h : 3 < id.toNat) (s : State) : handler id s = .next (s.log (.unknownIrq id)) := if_pos h

/-- The final write of the handler and its record of the sub-engine, from the state the hardware agents leave. -/
theorem serviced_eq (d : Dir) (e : Eng) (s : State) : (s.modHw d (DmaHw.serviced e)).setDir d
    { (s.modHw d (DmaHw.serviced e)).dir d with lastServiced := some e } = serviced d e s := by cases d <;> rfl

theorem handler_irqId (d : Dir) (e : Eng) (s : State) : handler (irqId d e) s =
    andThen (serviceBuffer d (recoveryChecks d e s)) fun t => .next (serviced d e (hw t)) := by
  unfold handler
  rw [if_neg (irqId_le d e), irqDir_irqId, irqEng_irqId]
  simp only [regWrite_done, andThen_next, serviced_eq]

/-- What the handler's steps after the buffer step make of their outcome (`45_rearm_sequencer.md` R290 step 5, R298). -/
def concluded (d : Dir) (e : Eng) (out : Out State) : Out State :=
  andThen out fun t => .next (answered 0 0 { serviced d e (hw t) with inIrq := false })

@[simp] theorem concluded_next (d : Dir) (e : Eng) (t : State) :
    concluded d e (.next t) = .next (answered 0 0 { serviced d e (hw t) with inIrq := false }) := rfl

theorem exec_irqEvt (d : Dir) (e : Eng) (s : State) : exec (.irqEvt (irqId d e)) s =
    concluded d e (serviceBuffer d (recoveryChecks d e (interrupted (.irqEvt (irqId d e)) s))) := by
  show andThen (handler (irqId d e) (interrupted (.irqEvt (irqId d e)) s)) (fun t => .next (finish 0 .ok (exitInterrupt t))) = _
  rw [handler_irqId]
  cases serviceBuffer d (recoveryChecks d e (interrupted (.irqEvt (irqId d e)) s)) <;> rfl

/-! ### the event completes (`45_rearm_sequencer.md` R290, R292) -/

theorem serviced_lastServiced (d : Dir) (e : Eng) (s : State) : ((serviced d e s).dir d).lastServiced = some e := by
  cases d <;> rfl

theorem serviced_en (d : Dir) (e : Eng) (s : State) : ((serviced d e s).dir d).hw.en = true := by cases d <;> rfl

theorem serviced_inIrq (d : Dir) (e : Eng) (s : State) : (serviced d e s).inIrq = s.inIrq := State.setDir_inIrq _ _ _

/-- A completion of the playback direction moves no byte of host memory that no capture block can move. -/
theorem handler_play_memStill {e : Eng} {s t : State} (h : handler (irqId .play e) s = .next t) : MemStill s t := by
  rw [handler_irqId] at h
  obtain ⟨u, hu, ht⟩ := andThen_eq_next h
  cases ht
  exact (recoveryChecks_play_memStill e s).trans ((serviceBuffer_play_memStill hu).trans ((hw_memStill u).trans
    (MemStill.setPlay _ _)))

/-- Leaving interrupt context for normal context. -/
theorem CtxFrame.leave {i : Instr} {s t : State} (hn : s.inIrq = false) (h : CtxFrame (interrupted i s) t) :
    CtxFrame { s with seq := (exitInterrupt t).seq } (exitInterrupt t) where
  port := h.port
  seq := rfl
  mirror := h.mirror
  inIrq := hn.symm
  cfg := h.cfg
  bus := h.bus
  now := h.now
  rstSince := h.rstSince
  host := h.host
  trace := h.trace
  errlog := h.errlog
  chan := h.chan
  buf := h.buf
  streams := h.streams

end Sys2Proof.Machine

namespace Sys2Proof.Proofs

open Sys2Proof.Machine

/-- Settles O42: the handler runs to its end, and its last write clears the done bit and records the sub-engine. -/
theorem syntheticEventCompletes : Obligations.SyntheticEventCompletes := by
  intro s id hn
  refine ⟨fun hid => ?_, ?_⟩
  · show andThen (handler id (interrupted (.irqEvt id) s)) (fun t => .next (finish 0 .ok (exitInterrupt t))) = _
    rw [handler_unknown hid, andThen_next]
    exact congrArg Host.Outcome.next (answered_interrupted (s := s.log (.unknownIrq id)) hn 0 0)
  · rintro d e rfl hs
    have hentered : StreamsOk (interrupted (.irqEvt (irqId d e)) s) := fun d' => by simpa using hs d'
    obtain ⟨t, ht⟩ := handler_total hentered (irqId d e)
    have hexec : exec (.irqEvt (irqId d e)) s = .next (answered 0 0 (exitInterrupt t)) := by
      show andThen (handler (irqId d e) (interrupted (.irqEvt (irqId d e)) s))
        (fun t => .next (finish 0 .ok (exitInterrupt t))) = _
      rw [ht]
      rfl
    obtain ⟨u, -, hserviced⟩ := andThen_eq_next ((handler_irqId d e _).symm.trans ht)
    refine ⟨exitInterrupt t, hexec, rfl, (handler_ctx ht).leave hn, ?_, ?_, fun hd => ?_⟩
    · rw [exitInterrupt_dir, ← Host.Outcome.next.inj hserviced, serviced_lastServiced]
    · rw [exitInterrupt_dir, ← Host.Outcome.next.inj hserviced, serviced_en]
    · subst hd
      exact MemStill.trans (t := interrupted (.irqEvt (irqId .play e)) s) (MemStill.of_eq rfl rfl)
        ((handler_play_memStill ht).trans (MemStill.of_eq rfl rfl))

end Sys2Proof.Proofs
end

section
/-! The buffer step of a completion and the re-arm that follows it: each branch of the step as one equation, and a completion that re-arms,
with the re-arm refused, done or without a meaning (`45_rearm_sequencer.md` R290, R294 to R299). -/

namespace Sys2Proof.Machine

/-! ### the recovery checks where nothing is recovered (`45_rearm_sequencer.md` R293) -/

/-- Step 1 (a) of the handler: a repeated completion has its sub-engine recovered. -/
def repeatHandled (d : Dir) (e : Eng) (s : State) : State :=
  if (s.dir d).lastServiced = some e then (recoverEngine d e s).log (.repeatCompletion d e) else s

/-- The streak that the handler counts, from the busy flag that its read of `CS` found. -/
def streakCounted (d : Dir) (e : Eng) (s : State) : Nat :=
  if ((hw s).engine d e.other).busy then ((repeatHandled d e (hw (hw s))).dir d).oppStreak + 1 else 0

/-- The two tests of step 1, one after the other. -/
theorem recoveryChecks_eq (d : Dir) (e : Eng) (s : State) : recoveryChecks d e s =
    if s.cfg.oppBusyLimit ≤ streakCounted d e s then
      (recoverEngine d e.other (withStreak d (streakCounted d e s) (repeatHandled d e (hw (hw s))))).log (.stuckBusy d e.other)
    else withStreak d (streakCounted d e s) (repeatHandled d e (hw (hw s))) := by
  have hcount : (if hasBit (csWord ((hw s).dir d).hw) (startMask e.other) then
      ((repeatHandled d e (hw (hw s))).dir d).oppStreak + 1 else 0) = streakCounted d e s := by
    rw [csWord_start]
    rfl
  have hcfg : (repeatHandled d e (hw (hw s))).cfg = s.cfg := by
    unfold repeatHandled
    rw [← (hw_hwFrame s).cfg, ← (hw_hwFrame (hw s)).cfg]
    split
    · exact (recoverEngine_ctx d e _).cfg
    · rfl
  generalize streakCounted d e s = k at hcount ⊢
  have hcounted : recoveryChecks d e s = if (withStreak d k (repeatHandled d e (hw (hw s)))).cfg.oppBusyLimit ≤
        ((withStreak d k (repeatHandled d e (hw (hw s)))).dir d).oppStreak then
      (recoverEngine d e.other (withStreak d k (repeatHandled d e (hw (hw s))))).log (.stuckBusy d e.other)
    else withStreak d k (repeatHandled d e (hw (hw s))) := by
    subst hcount
    rfl
  rw [hcounted]
  unfold withStreak
  rw [State.setDir_cfg, State.setDir_dir_same, hcfg]

/-- A completion by a sub-engine that was not the last one serviced. -/
theorem repeatHandled_first {d : Dir} {e : Eng} {s : State} (hlast : (s.dir d).lastServiced ≠ some e) :
    repeatHandled d e s = s := if_neg hlast

/-- Where, besides, the other sub-engine is not stuck, only the streak is counted. -/
theorem recoveryChecks_ordinary {d : Dir} {e : Eng} {s : State} (hlast : (s.dir d).lastServiced ≠ some e)
    (hstreak : streakAfter (hw s) d e < s.cfg.oppBusyLimit) :
    recoveryChecks d e s = withStreak d (streakAfter (hw s) d e) (hw (hw s)) := by
  have hfirst : repeatHandled d e (hw (hw s)) = hw (hw s) :=
    repeatHandled_first (by rwa [(hw_hwFrame (hw s)).lastServiced, (hw_hwFrame s).lastServiced])
  have hcount : streakCounted d e s = streakAfter (hw s) d e := by
    unfold streakCounted
    rw [hfirst, (hw_hwFrame (hw s)).oppStreak]
    rfl
  rw [recoveryChecks_eq, hcount, hfirst, if_neg (not_le.2 hstreak)]

/-- The streak counted is at most one more than before. -/
theorem streakAfter_le (s : State) (d : Dir) (e : Eng) : streakAfter s d e ≤ (s.dir d).oppStreak + 1 := by
  unfold streakAfter
  split
  · exact le_refl _
  · exact Nat.zero_le _

/-- A streak one short of its limit can be counted, whatever the hardware agents do before the read of `CS`. -/
theorem streakAfter_interrupted_lt {s : State} {d : Dir} {i : Instr} {e : Eng} {n : Nat} (h : (s.dir d).oppStreak + 1 < n) :
    streakAfter (hw (interrupted i s)) d e < n := by
  have hle := streakAfter_le (hw (interrupted i s)) d e
  rw [(hw_hwFrame _).oppStreak, interrupted_dir] at hle
  exact hle.trans_lt h

theorem streakAfter_interrupted (i : Instr) (s : State) (d : Dir) (e : Eng) :
    streakAfter (interrupted i s) d e = streakAfter s d e := by
  unfold streakAfter
  rw [interrupted_engine, interrupted_dir]

theorem OrdinaryCall.streak {s : State} {d : Dir} {e : Eng} (h : OrdinaryCall s d e) : streakAfter s d e = 0 := by
  obtain ⟨-, -, -, -, hA, hB⟩ := h
  have hother : (s.engine d e.other).busy = false := by cases e <;> assumption
  unfold streakAfter
  rw [hother]
  rfl

theorem OrdinaryCall.quietCall {s : State} {d : Dir} {e : Eng} (h : OrdinaryCall s d e) : QuietCall s d e := by
  have hstreak := h.streak
  obtain ⟨hn, hq, hlast, hlimit, -, -⟩ := h
  exact ⟨hn, hq, hlast, hstreak ▸ hlimit⟩

/-! ### the branches of the buffer step (`45_rearm_sequencer.md` R290, R295) -/

/-- The block after an advance within bounds: a period, or what is left (`45_rearm_sequencer.md` R296). -/
def Buffer.nextLen (b : Buffer) : Word :=
  let left := b.start.toNat + b.size.toNat - (b.current + b.period).toNat
  if b.period.toNat ≤ left then b.period else BitVec.ofNat 32 left

section Branches

variable {d : Dir} {s : State} {b : Buffer}

/-- Where the descriptor is well-formed: the sums of the buffer step do not wrap. -/
theorem wellFormed_sums (hbuf : (s.dir d).buf = b) (hwf : wellFormedBuffer (s.dir d) = true) :
    b.period ≠ 0 ∧ b.limit < 2 ^ 32 ∧ (b.start + b.size).toNat = b.limit ∧
      (b.current.toNat + b.period.toNat < b.limit → (b.current + b.period).toNat = b.current.toNat + b.period.toNat) := by
  obtain ⟨-, -, hperiod, -, hlimit, -, -⟩ := (wellFormedBuffer_iff _).1 hwf
  rw [hbuf] at hperiod hlimit
  simp only [Config.memSize] at hlimit
  unfold Buffer.limit at hlimit ⊢
  refine ⟨hperiod, hlimit, ?_, fun hlt => ?_⟩ <;>
    rw [BitVec.toNat_add] <;>
    exact Nat.mod_eq_of_lt (by omega)

theorem Buffer.nextLen_ne_zero (hbuf : (s.dir d).buf = b) (hwf : wellFormedBuffer (s.dir d) = true)
    (hlt : b.current.toNat + b.period.toNat < b.start.toNat + b.size.toNat) : b.nextLen ≠ 0 := by
  obtain ⟨hperiod, hlimit, -, hcur⟩ := wellFormed_sums hbuf hwf
  unfold Buffer.limit at hlimit hcur
  unfold Buffer.nextLen
  rw [hcur hlt]
  dsimp only
  split
  · exact hperiod
  · intro h0
    have hzero := congrArg BitVec.toNat h0
    rw [BitVec.toNat_ofNat, Nat.mod_eq_of_lt (by omega)] at hzero
    simp at hzero
    omega

theorem serviceBuffer_malformed (hwf : wellFormedBuffer (s.dir d) = false) :
    serviceBuffer d s = .next (s.log (.malformedDescriptor d)) := by
  unfold serviceBuffer
  rw [hwf]
  rfl

/-- The pointer after an advance within bounds. -/
theorem advanced_within (hbuf : (s.dir d).buf = b) (hwf : wellFormedBuffer (s.dir d) = true)
    (hlt : b.current.toNat + b.period.toNat < b.limit) :
    b.advanced = (b.current + b.period).toNat ∧ b.advanced < b.limit := by
  obtain ⟨-, -, -, hcur⟩ := wellFormed_sums hbuf hwf
  have hmin : b.advanced = b.current.toNat + b.period.toNat := min_eq_left hlt.le
  exact ⟨hmin.trans (hcur hlt).symm, hmin ▸ hlt⟩

/-- The pointer after an advance that reaches the end. -/
theorem advanced_end (hbuf : (s.dir d).buf = b) (hwf : wellFormedBuffer (s.dir d) = true)
    (hge : b.limit ≤ b.current.toNat + b.period.toNat) : b.advanced = (b.start + b.size).toNat ∧ ¬ b.advanced < b.limit := by
  obtain ⟨-, -, hend, -⟩ := wellFormed_sums hbuf hwf
  have hmin : b.advanced = b.limit := min_eq_right hge
  exact ⟨hmin.trans hend.symm, by omega⟩

/-- The buffer step of a well-formed descriptor, its pointer after the advance named. -/
theorem serviceBuffer_wellFormed (hbuf : (s.dir d).buf = b) (hwf : wellFormedBuffer (s.dir d) = true) {cur : Word}
    (hcur : b.advanced = cur.toNat) : serviceBuffer d s =
      if cur.toNat < b.limit then
        if (s.dir d).chan.running then
          rearm d cur (BitVec.ofNat 32 (min b.period.toNat (b.limit - cur.toNat)))
            (callback d (s.modBuf d fun c => { c with current := cur }))
        else .next (s.modBuf d fun c => { c with current := cur })
      else if b.loop && (s.dir d).chan.running then
        rearm d b.start b.period
          (callback d (s.modBuf d fun c => { c with current := c.start, loopCount := c.loopCount + 1 }))
      else if (s.dir d).chan.running then
        .next (callback d (s.modBuf d fun c => { c with current := cur, loopCount := c.loopCount + 1 }))
      else .next (s.modBuf d fun c => { c with current := cur, loopCount := c.loopCount + 1 }) := by
  have hmin : min (b.current.toNat + b.period.toNat) b.limit = cur.toNat := hcur
  unfold serviceBuffer advanceBuffer
  rw [if_pos hwf, hbuf]
  dsimp only
  rw [hmin, BitVec.ofNat_toNat, BitVec.setWidth_eq]
  simp only [State.modBuf_modBuf]

/-- The per-period event after a change of the descriptor. -/
theorem callback_modBuf (hbuf : (s.dir d).buf = b) (hcb : (s.dir d).chan.cbValid = true) (f : Buffer → Buffer) :
    callback d (s.modBuf d f) = (s.modBuf d f).emit (.periodElapsed d (f b).ctx ((f b).current - (f b).start)) := by
  unfold callback
  rw [State.modBuf_dir, if_pos rfl, hbuf]
  exact if_pos hcb

/-- Within bounds, running (`45_rearm_sequencer.md` R296). -/
theorem serviceBuffer_within (hbuf : (s.dir d).buf = b) (hwf : wellFormedBuffer (s.dir d) = true)
    (hrun : (s.dir d).chan.running = true) (hcb : (s.dir d).chan.cbValid = true)
    (hlt : b.current.toNat + b.period.toNat < b.start.toNat + b.size.toNat) :
    serviceBuffer d s = rearm d (b.current + b.period) b.nextLen
      ((s.modBuf d fun c => { c with current := b.current + b.period }).emit
        (.periodElapsed d b.ctx (b.current + b.period - b.start))) := by
  obtain ⟨hcur, hin⟩ := advanced_within hbuf hwf hlt
  have hlen : BitVec.ofNat 32 (min b.period.toNat (b.limit - (b.current + b.period).toNat)) = b.nextLen := by
    unfold Buffer.nextLen Buffer.limit
    rw [min_def]
    dsimp only
    split
    · rw [BitVec.ofNat_toNat, BitVec.setWidth_eq]
    · rfl
  rw [serviceBuffer_wellFormed hbuf hwf hcur, if_pos (hcur ▸ hin), if_pos hrun, callback_modBuf hbuf hcb, hlen]

/-- At the end of a looping session, running (`45_rearm_sequencer.md` R290 step 4, R296). -/
theorem serviceBuffer_wraps (hbuf : (s.dir d).buf = b) (hwf : wellFormedBuffer (s.dir d) = true)
    (hrun : (s.dir d).chan.running = true) (hcb : (s.dir d).chan.cbValid = true) (hloop : b.loop = true)
    (hge : b.start.toNat + b.size.toNat ≤ b.current.toNat + b.period.toNat) :
    serviceBuffer d s = rearm d b.start b.period
      ((s.modBuf d fun c => { c with current := c.start, loopCount := c.loopCount + 1 }).emit (.periodElapsed d b.ctx 0)) := by
  obtain ⟨hcur, hout⟩ := advanced_end hbuf hwf hge
  rw [serviceBuffer_wellFormed hbuf hwf hcur, if_neg (hcur ▸ hout), hloop, hrun, callback_modBuf hbuf hcb, BitVec.sub_self]
  rfl

/-- At the end of a session that does not loop, running (`45_rearm_sequencer.md` R290 step 4, R299). -/
theorem serviceBuffer_ends (hbuf : (s.dir d).buf = b) (hwf : wellFormedBuffer (s.dir d) = true)
    (hrun : (s.dir d).chan.running = true) (hcb : (s.dir d).chan.cbValid = true) (hloop : b.loop = false)
    (hge : b.start.toNat + b.size.toNat ≤ b.current.toNat + b.period.toNat) :
    serviceBuffer d s = .next ((s.modBuf d fun c => { c with current := c.start + c.size, loopCount := c.loopCount + 1 }).emit
      (.periodElapsed d b.ctx b.size)) := by
  obtain ⟨hcur, hout⟩ := advanced_end hbuf hwf hge
  have hend : (s.modBuf d fun c => { c with current := b.start + b.size, loopCount := c.loopCount + 1 }) =
      s.modBuf d fun c => { c with current := c.start + c.size, loopCount := c.loopCount + 1 } := by
    unfold State.modBuf
    rw [hbuf]
  have hpos : b.start + b.size - b.start = b.size := by rw [BitVec.add_comm, BitVec.add_sub_cancel]
  have hcalled := callback_modBuf hbuf hcb fun c => { c with current := c.start + c.size, loopCount := c.loopCount + 1 }
  dsimp only at hcalled
  rw [hpos] at hcalled
  rw [serviceBuffer_wellFormed hbuf hwf hcur, if_neg (hcur ▸ hout), hloop, hrun, hend, hcalled]
  rfl

/-- A stopped session, at the end and before it (`45_rearm_sequencer.md` R299). -/
theorem serviceBuffer_stopped (hbuf : (s.dir d).buf = b) (hwf : wellFormedBuffer (s.dir d) = true)
    (hrun : (s.dir d).chan.running = false) : serviceBuffer d s = .next (s.modBuf d
      (if b.start.toNat + b.size.toNat ≤ b.current.toNat + b.period.toNat then
        fun c => { c with current := c.start + c.size, loopCount := c.loopCount + 1 }
      else fun c => { c with current := c.current + c.period })) := by
  split
  · next hge =>
    obtain ⟨hcur, hout⟩ := advanced_end hbuf hwf hge
    rw [serviceBuffer_wellFormed hbuf hwf hcur, if_neg (hcur ▸ hout), hrun, Bool.and_false]
    unfold State.modBuf
    rw [hbuf]
    rfl
  · next hlt =>
    obtain ⟨hcur, hin⟩ := advanced_within hbuf hwf (not_le.1 hlt)
    rw [serviceBuffer_wellFormed hbuf hwf hcur, if_pos (hcur ▸ hin), hrun]
    unfold State.modBuf
    rw [hbuf]
    rfl

end Branches

/-! ### a completion that starts nothing -/

/-- A call of the handler that recovers nothing, no hardware agent enabled, whose buffer step leaves `t` with none enabled. -/
theorem exec_irqEvt_quiet {s t : State} {d : Dir} {e : Eng} (h : QuietCall s d e)
    (hstep : serviceBuffer d (withStreak d (streakAfter s d e) (interrupted (.irqEvt (irqId d e)) s)) =
      .next (interrupted (.irqEvt (irqId d e)) t)) (hq : HwQuiet t) (hn : t.inIrq = false) :
    exec (.irqEvt (irqId d e)) s = .next (answered 0 0 (serviced d e t)) := by
  obtain ⟨-, hqs, hlast, hstreak⟩ := h
  have hhw := hw_quiet (hqs.interrupted (.irqEvt (irqId d e)))
  have hcount := streakAfter_interrupted (.irqEvt (irqId d e)) s d e
  have hchecks := recoveryChecks_ordinary (s := interrupted (.irqEvt (irqId d e)) s) (d := d) (e := e)
    (by rwa [interrupted_dir]) (by rw [hhw, hcount]; exact hstreak)
  rw [hhw, hhw, hcount] at hchecks
  rw [exec_irqEvt, hchecks, hstep, concluded_next, hw_quiet (hq.interrupted _), interrupted_serviced,
    answered_interrupted ((serviced_inIrq d e t).trans hn)]

/-! ### a completion that re-arms (`45_rearm_sequencer.md` R296) -/

/-- `s` with the streak counted to `k`, the descriptor stepped by `f` and the period's event `ev` recorded. -/
def called (d : Dir) (f : Buffer → Buffer) (ev : Event) (k : Nat) (s : State) : State :=
  ((s.setDir d { s.dir d with oppStreak := k }).modBuf d f).emit ev

/-- Whose turn it is depends on the counter of starts only. -/
theorem turnOf_congr {x y : Direction} (h : y.chan = x.chan) : turnOf y = turnOf x := by unfold turnOf; rw [h]

section Called

variable (d : Dir) (f : Buffer → Buffer) (ev : Event) (k : Nat) (s : State)

theorem called_dir : (called d f ev k s).dir d = { s.dir d with oppStreak := k, buf := f (s.dir d).buf } := by
  unfold called
  rw [State.emit_dir, State.modBuf_dir, if_pos rfl, State.setDir_dir_same]

theorem called_engine (x : Eng) : (called d f ev k s).engine d x = s.engine d x := by
  unfold State.engine; rw [called_dir]

theorem called_cfg : (called d f ev k s).cfg = s.cfg := by cases d <;> rfl

theorem called_inIrq : (called d f ev k s).inIrq = s.inIrq := by cases d <;> rfl

theorem called_interrupted (i : Instr) : called d f ev k (interrupted i s) = interrupted i (called d f ev k s) := by
  simp [called]

theorem called_turnOf : turnOf ((called d f ev k s).dir d) = turnOf (s.dir d) := by rw [called_dir]; rfl

theorem HwQuiet.called {s : State} (hq : HwQuiet s) : HwQuiet (called d f ev k s) :=
  ((hq.setDir (d := d) (x := { s.dir d with oppStreak := k }) rfl).modBuf d f).emit ev

end Called

/-- The three ends of a re-arm from `s` with a block that is not empty, hardware agents moving beside it. -/
theorem rearm_outcome {d : Dir} {addr len : Word} (e : Eng) (s : State) (hlen : len ≠ 0) :
    RearmOutcome d e addr len (hw s) (concluded d e (rearm d addr len s)) := by
  have hcfg : (hw s).cfg = s.cfg := (hw_hwFrame s).cfg
  have hturn : turnOf ((hw s).dir d) = turnOf (s.dir d) := turnOf_congr ((hw_hwFrame s).chan d)
  unfold RearmOutcome rearm
  rw [hcfg, hturn]
  refine ⟨fun hbusy => ⟨_, hw_moved _, ?_⟩, fun hA hB => ⟨fun hok => ?_, fun hbad => ?_⟩⟩
  · rw [startBlock_busy hlen hbusy]
    rfl
  · obtain ⟨w, hw1, hrun⟩ := (startBlock_idle addr hlen hA hB).1 hok
    refine ⟨w, _, hw1, hw_moved _, ?_⟩
    rw [hrun]
    rfl
  · rw [(startBlock_idle addr hlen hA hB).2 hbad]
    rfl

/-- Programming an idle sub-engine enables no hardware agent. -/
theorem HwQuiet.programmed {d : Dir} {e : Eng} {s : State} (hq : HwQuiet s) (hb : (s.engine d e).busy = false)
    (addr len : Word) : HwQuiet (programmed d e addr len s) := by
  have hone : HwQuiet (s.modEngine d e fun g => { g with addr := addr }) := (hwAgents_reprogram (.setAddr addr) hb).trans hq
  have htwo : HwQuiet ((s.modEngine d e fun g => { g with addr := addr }).modEngine d e fun g => { g with cnt := len }) :=
    (hwAgents_reprogram (.setCnt len) (by rw [State.modEngine_engine]; simpa using hb)).trans hone
  have hboth : (s.modEngine d e fun g => { g with addr := addr }).modEngine d e (fun g => { g with cnt := len }) =
      Machine.programmed d e addr len s := by cases d <;> cases e <;> rfl
  rwa [hboth] at htwo

section Rearms

variable {s : State} {d : Dir} {e : Eng} {f : Buffer → Buffer} {ev : Event} {addr len : Word}

/-- The buffer step of the descriptors that direction `d` has in `s` re-arms. -/
def StepRearms (s : State) (d : Dir) (f : Buffer → Buffer) (ev : Event) (addr len : Word) : Prop :=
  ∀ u : State, (u.dir d).chan = (s.dir d).chan → (u.dir d).buf = (s.dir d).buf →
    serviceBuffer d u = rearm d addr len ((u.modBuf d f).emit ev)

/-- The event once its recovery checks have left `w` with the streak counted to `k`. -/
theorem exec_irqEvt_of_checks {w : State} {k : Nat} (hstep : StepRearms s d f ev addr len) (hlen : len ≠ 0)
    (hchecks : recoveryChecks d e (interrupted (.irqEvt (irqId d e)) s) = withStreak d k w)
    (hchan : (w.dir d).chan = (s.dir d).chan) (hbuf : (w.dir d).buf = (s.dir d).buf) :
    RearmOutcome d e addr len (hw (called d f ev k w)) (exec (.irqEvt (irqId d e)) s) := by
  rw [exec_irqEvt, hchecks, hstep]
  · exact rearm_outcome e _ hlen
  · rw [withStreak, State.setDir_dir_same, hchan]
  · rw [withStreak, State.setDir_dir_same, hbuf]

/-- On any controller. -/
theorem exec_irqEvt_rearms (hstep : StepRearms s d f ev addr len) (hlen : len ≠ 0) (hlast : (s.dir d).lastServiced ≠ some e)
    (hstreak : streakAfter (hw (interrupted (.irqEvt (irqId d e)) s)) d e < s.cfg.oppBusyLimit) :
    ∃ c u v, HardwareMoved (interrupted (.irqEvt (irqId d e)) s) c ∧ HardwareMoved c u ∧
      HardwareMoved (called d f ev (streakAfter c d e) u) v ∧ RearmOutcome d e addr len v (exec (.irqEvt (irqId d e)) s) := by
  have hc := hw_moved (interrupted (.irqEvt (irqId d e)) s)
  have hu := hw_moved (hw (interrupted (.irqEvt (irqId d e)) s))
  refine ⟨_, _, _, hc, hu, hw_moved _, exec_irqEvt_of_checks hstep hlen
    (recoveryChecks_ordinary (by rwa [interrupted_dir]) hstreak) ?_ ?_⟩
  · rw [hu.1.chan, hc.1.chan, interrupted_dir]
  · rw [hu.1.buf, hc.1.buf, interrupted_dir]

/-- With no hardware agent enabled, the state that the re-arm reads is the one the callback leaves. -/
theorem exec_irqEvt_rearms_quiet (hstep : StepRearms s d f ev addr len) (hlen : len ≠ 0) (h : QuietCall s d e) :
    RearmOutcome d e addr len (interrupted (.irqEvt (irqId d e)) (called d f ev (streakAfter s d e) s))
      (exec (.irqEvt (irqId d e)) s) := by
  obtain ⟨-, hq, hlast, hstreak⟩ := h
  have hcount := streakAfter_interrupted (.irqEvt (irqId d e)) s d e
  have hqi := hq.interrupted (.irqEvt (irqId d e))
  obtain ⟨c, u, v, hc, hu, hv, hout⟩ := exec_irqEvt_rearms hstep hlen hlast
    (by rw [hw_quiet hqi, hcount]; exact hstreak)
  obtain rfl := hc.2.2 hqi
  obtain rfl := hu.2.2 hqi
  obtain rfl := hv.2.2 (hqi.called d f ev _)
  rwa [hcount, called_interrupted] at hout

/-- A refused re-arm, exactly. -/
theorem exec_irqEvt_refused (hstep : StepRearms s d f ev addr len) (hlen : len ≠ 0) (h : QuietCall s d e)
    (hbusy : (s.engine d .a).busy = true ∨ (s.engine d .b).busy = true) :
    exec (.irqEvt (irqId d e)) s = .next (answered 0 0
      (serviced d e ((called d f ev (streakAfter s d e) s).log (.rearmRefused d .ebusy)))) := by
  obtain ⟨w, hw1, hout⟩ := (exec_irqEvt_rearms_quiet hstep hlen h).1 (by simpa only [interrupted_engine, called_engine] using hbusy)
  obtain ⟨hn, hq, -⟩ := h
  rw [interrupted_log] at hw1
  obtain rfl := hw1.2.2 ((((hq.called d f ev _).log _)).interrupted _)
  rw [hout, interrupted_serviced, answered_interrupted]
  rw [serviced_inIrq, State.log_inIrq, called_inIrq, hn]

/-- A re-arm with neither sub-engine busy: exactly, up to what the hardware agents do once the block is in flight. -/
theorem exec_irqEvt_started (hstep : StepRearms s d f ev addr len) (hok : BlockOk s.cfg addr len) (h : OrdinaryCall s d e) :
    ∃ w, HardwareMoved (started d (turnOf (s.dir d)) (programmed d (turnOf (s.dir d)) addr len (called d f ev 0 s))) w ∧
      exec (.irqEvt (irqId d e)) s = .next (answered 0 0 (serviced d e w)) := by
  have hout := (exec_irqEvt_rearms_quiet hstep hok.1 h.quietCall).2
  rw [h.streak] at hout
  obtain ⟨hn, hq, -, -, hA, hB⟩ := h
  simp only [interrupted_engine, called_engine, interrupted_dir, called_turnOf, interrupted_cfg, called_cfg] at hout
  obtain ⟨u, x, hu, hx, hrun⟩ := (hout hA hB).1 hok
  have hidle : ((called d f ev 0 s).engine d (turnOf (s.dir d))).busy = false := by
    rw [called_engine]
    cases turnOf (s.dir d) <;> assumption
  rw [interrupted_programmed] at hu
  obtain rfl := hu.2.2 (((hq.called d f ev 0).programmed hidle addr len).interrupted _)
  rw [interrupted_started] at hx
  obtain ⟨w, hw1, rfl⟩ := hx.of_interrupted
  refine ⟨w, hw1, ?_⟩
  rw [hrun, interrupted_serviced, answered_interrupted]
  have hkept : w.inIrq = (called d f ev 0 s).inIrq := by
    rw [hw1.1.inIrq]
    unfold started
    rw [State.modChan_inIrq, State.modHw_inIrq]
    exact State.modEngine_inIrq _ _ _ _
  rw [serviced_inIrq, hkept, called_inIrq, hn]

/-- Within bounds. -/
theorem stepRearms_within (hwf : wellFormedBuffer (s.dir d) = true) (hrun : (s.dir d).chan.running = true)
    (hcb : (s.dir d).chan.cbValid = true)
    (hlt : (s.dir d).buf.current.toNat + (s.dir d).buf.period.toNat < (s.dir d).buf.start.toNat + (s.dir d).buf.size.toNat) :
    StepRearms s d (fun c => { c with current := (s.dir d).buf.current + (s.dir d).buf.period })
      (.periodElapsed d (s.dir d).buf.ctx ((s.dir d).buf.current + (s.dir d).buf.period - (s.dir d).buf.start))
      ((s.dir d).buf.current + (s.dir d).buf.period) (s.dir d).buf.nextLen := fun _ hchan hbuf =>
  serviceBuffer_within hbuf ((wellFormedBuffer_congr (by rw [hchan]) hbuf).trans hwf) (by rw [hchan]; exact hrun)
    (by rw [hchan]; exact hcb) hlt

/-- At the end of a looping session. -/
theorem stepRearms_wraps (hwf : wellFormedBuffer (s.dir d) = true) (hrun : (s.dir d).chan.running = true)
    (hcb : (s.dir d).chan.cbValid = true) (hloop : (s.dir d).buf.loop = true)
    (hge : (s.dir d).buf.start.toNat + (s.dir d).buf.size.toNat ≤ (s.dir d).buf.current.toNat + (s.dir d).buf.period.toNat) :
    StepRearms s d (fun c => { c with current := c.start, loopCount := c.loopCount + 1 })
      (.periodElapsed d (s.dir d).buf.ctx 0) (s.dir d).buf.start (s.dir d).buf.period := fun _ hchan hbuf =>
  serviceBuffer_wraps hbuf ((wellFormedBuffer_congr (by rw [hchan]) hbuf).trans hwf) (by rw [hchan]; exact hrun)
    (by rw [hchan]; exact hcb) hloop hge

end Rearms

/-- The block after an advance within bounds has a meaning where the geometry is aligned. -/
theorem AlignedBuffer.nextLen_ok {p : Params} {d : Dir} {s : State} (hal : AlignedBuffer p (s.dir d).buf)
    (hwf : wellFormedBuffer (s.dir d) = true)
    (hlt : (s.dir d).buf.current.toNat + (s.dir d).buf.period.toNat < (s.dir d).buf.start.toNat + (s.dir d).buf.size.toNat) :
    BlockOk p ((s.dir d).buf.current + (s.dir d).buf.period) (s.dir d).buf.nextLen := by
  obtain ⟨hcur, hin⟩ := advanced_within rfl hwf hlt
  have hok := hal.next_block hwf hin
  rw [hcur, BitVec.ofNat_toNat, BitVec.setWidth_eq, min_def] at hok
  unfold Buffer.nextLen
  unfold Buffer.limit at hok
  dsimp only
  split at hok
  · next hle => rw [if_pos hle]; rwa [BitVec.ofNat_toNat, BitVec.setWidth_eq] at hok
  · next hgt => rwa [if_neg hgt]

end Sys2Proof.Machine

namespace Sys2Proof.Proofs

open Sys2Proof.Machine

/-- Settles O43: within bounds the buffer step re-arms with the next period or what is left. -/
theorem completionWithinBounds : Obligations.CompletionWithinBounds := by
  refine ⟨fun s d e h hwf hrun hcb hal hlt => ?_, fun s d e hwf hrun hcb hlt => ⟨fun h hbusy => ?_, fun hlast hstreak => ?_⟩⟩
  · exact exec_irqEvt_started (stepRearms_within hwf hrun hcb hlt) (hal.nextLen_ok hwf hlt) h
  · exact exec_irqEvt_refused (stepRearms_within hwf hrun hcb hlt) (Buffer.nextLen_ne_zero rfl hwf hlt) h hbusy
  · exact exec_irqEvt_rearms (stepRearms_within hwf hrun hcb hlt) (Buffer.nextLen_ne_zero rfl hwf hlt) hlast
      (streakAfter_interrupted_lt hstreak)

/-- Settles O44: at the end of a looping session the buffer step re-arms with the first block. -/
theorem completionWraps : Obligations.CompletionWraps := by
  refine ⟨fun s d e h hwf hrun hcb hal hloop hge => ?_, fun s d e hwf hrun hcb hloop hge =>
    ⟨fun h hbusy => ?_, fun hlast hstreak => ?_⟩⟩
  · exact exec_irqEvt_started (stepRearms_wraps hwf hrun hcb hloop hge) (hal.first_block hwf) h
  · exact exec_irqEvt_refused (stepRearms_wraps hwf hrun hcb hloop hge) (wellFormed_sums rfl hwf).1 h hbusy
  · exact exec_irqEvt_rearms (stepRearms_wraps hwf hrun hcb hloop hge) (wellFormed_sums rfl hwf).1 hlast
      (streakAfter_interrupted_lt hstreak)

/-- Settles O45: the four branches of the buffer step that re-arm nothing. -/
theorem completionStartsNothing : Obligations.CompletionStartsNothing := by
  intro s d e h b s0 ended atEnd
  have ⟨hn, hq, _⟩ := h
  have hq0 : HwQuiet s0 := hq.setDir rfl
  have hn0 : s0.inIrq = false := (State.setDir_inIrq _ _ _).trans hn
  have hentered : withStreak d (streakAfter s d e) (interrupted (.irqEvt (irqId d e)) s) =
      interrupted (.irqEvt (irqId d e)) s0 := by
    unfold withStreak
    rw [interrupted_setDir, interrupted_dir]
  have hdir : (interrupted (.irqEvt (irqId d e)) s0).dir d = { s.dir d with oppStreak := streakAfter s d e } := by
    rw [interrupted_dir, State.setDir_dir_same]
  have hbuf : ((interrupted (.irqEvt (irqId d e)) s0).dir d).buf = b := by rw [hdir]
  have hwf {v : Bool} (hv : wellFormedBuffer (s.dir d) = v) :
      wellFormedBuffer ((interrupted (.irqEvt (irqId d e)) s0).dir d) = v := by rw [hdir]; exact hv
  have hrun {v : Bool} (hv : (s.dir d).chan.running = v) :
      ((interrupted (.irqEvt (irqId d e)) s0).dir d).chan.running = v := by rw [hdir]; exact hv
  refine ⟨fun hbad => ?_, fun hgood hr hcb hloop hend => ?_, fun hgood hr hend => ?_, fun hgood hr hend => ?_⟩
  · refine exec_irqEvt_quiet h ?_ (hq0.log _) hn0
    rw [hentered, serviceBuffer_malformed (hwf hbad), interrupted_log]
  · refine exec_irqEvt_quiet h ?_ ((hq0.modBuf d _).emit _) ((State.modBuf_inIrq _ _ _).trans hn0)
    rw [hentered, serviceBuffer_ends hbuf (hwf hgood) (hrun hr) (by rw [hdir]; exact hcb) hloop hend, interrupted_modBuf,
      interrupted_emit]
  · refine exec_irqEvt_quiet h ?_ (hq0.modBuf d _) ((State.modBuf_inIrq _ _ _).trans hn0)
    rw [hentered, serviceBuffer_stopped hbuf (hwf hgood) (hrun hr), if_pos hend, interrupted_modBuf]
  · refine exec_irqEvt_quiet h ?_ (hq0.modBuf d _) ((State.modBuf_inIrq _ _ _).trans hn0)
    rw [hentered, serviceBuffer_stopped hbuf (hwf hgood) (hrun hr), if_neg hend, interrupted_modBuf]

end Sys2Proof.Proofs
end

section
/-! The locked-engine recovery path: what the recovery of one sub-engine leaves, what the two tests of the handler make of it, and a
repeated completion, exactly and in a running session (`45_rearm_sequencer.md` R293). -/

namespace Sys2Proof.Machine

/-! ### hardware agents leave an idle sub-engine's done bit alone (`44_dma_engine.md` R272) -/

/-- Hardware agents moved, and completed no block of an idle sub-engine. -/
structure AgentsMoved (s t : State) : Prop where
  frame : HwFrame s t
  idleDone : ∀ d e, (s.engine d e).busy = false → (t.engine d e).done = (s.engine d e).done

theorem AgentsMoved.refl (s : State) : AgentsMoved s s := ⟨HwFrame.refl s, fun _ _ _ => rfl⟩

theorem AgentsMoved.idle {s t : State} (h : AgentsMoved s t) {d : Dir} {e : Eng} (hb : (s.engine d e).busy = false) :
    (t.engine d e).busy = false := by
  by_contra hn
  rw [h.frame.busy d e (by simpa using hn)] at hb
  cases hb

theorem AgentsMoved.trans {s t u : State} (h : AgentsMoved s t) (k : AgentsMoved t u) : AgentsMoved s u :=
  ⟨h.frame.trans k.frame, fun d e hb => (k.idleDone d e (h.idle hb)).trans (h.idleDone d e hb)⟩

theorem AgentsMoved.of_flags {s t : State} (h : HwFrame s t) (k : FlagsKept s t) : AgentsMoved s t := ⟨h, fun d e _ => k.done d e⟩

/-- A completed block was in flight. -/
theorem completeBlock_agentsMoved {d : Dir} {s : State} (h : engineEnabled s d = true) : AgentsMoved s (completeBlock d s) := by
  obtain ⟨-, -, x, hx, hbusy, -⟩ := (engineEnabled_iff s d).1 h
  refine ⟨completeBlock_hwFrame d s, fun d' e hb => ?_⟩
  rw [completeBlock_active hx, State.modHw_engine]
  split
  · next hd =>
    subst hd
    have hne : e ≠ x := fun he => by
      subst he
      exact absurd (hb.symm.trans hbusy) (by decide)
    rw [DmaHw.complete_eng, if_neg hne]
    exact (moveBlock_flags d' x _ s).done d' e
  · exact (moveBlock_flags d x _ s).done d' e

theorem hwStep_agentsMoved {g : HwAgent} {s : State} (h : g ∈ hwAgents s) : AgentsMoved s (hwStep g s) := by
  cases g with
  | serialiser => exact ⟨(hwStep_frames h).1, fun d e _ => (serialise_untouched (serialiser_of_mem h) d).done e⟩
  | engine d => exact completeBlock_agentsMoved (engine_of_mem h)

theorem hwRounds_agentsMoved (n : Nat) (s : State) : AgentsMoved s (hwRounds n s) := by
  induction n generalizing s with
  | zero => exact .refl s
  | succ n ih =>
    unfold hwRounds
    split
    · exact .refl s
    · have hd := drawPick_drew s
      generalize drawPick s = r at hd ⊢
      obtain ⟨k, t⟩ := r
      have hdrew : AgentsMoved s t := .of_flags hd.hwFrame hd.flags
      cases k with
      | zero => exact hdrew
      | succ j =>
        dsimp only
        split
        · next g hg =>
          have hm : g ∈ hwAgents t := by rw [hd.hwAgents]; exact List.mem_of_getElem? hg
          exact hdrew.trans ((hwStep_agentsMoved hm).trans (ih _))
        · exact hdrew

theorem hw_agentsMoved (s : State) : AgentsMoved s (hw s) := hwRounds_agentsMoved 5 s

/-! ### the recovery delay -/

@[simp] theorem State.waited_dir (q : Seq) (n : Nat) (s : State) (d : Dir) : (s.waited q n).dir d = s.dir d := by cases d <;> rfl
@[simp] theorem State.waited_engine (q : Seq) (n : Nat) (s : State) (d : Dir) (e : Eng) :
    (s.waited q n).engine d e = s.engine d e := by cases d <;> rfl

theorem passTime_agentsMoved (n : Nat) (s : State) : ∃ u, AgentsMoved s u ∧ passTime n s = u.waited s.seq n := by
  by_cases hb : s.l3.busy = true ∧ 1 ≤ n
  · have hmoved := hwStep_agentsMoved (g := .serialiser) (s := s) (by simp [hwAgents, hb.1])
    refine ⟨serialise s, hmoved, ?_⟩
    have hseq : (serialise s).seq = s.seq := hmoved.frame.seq
    rw [← hseq]
    simp [passTime, hb, State.waited]
  · refine ⟨s, .refl s, ?_⟩
    unfold passTime
    rw [if_neg (by simpa using hb)]
    rfl

/-- The delay takes 1 ms, in which hardware agents move. -/
theorem recoveryWait_agentsMoved (s : State) : ∃ u q, AgentsMoved s u ∧ recoveryWait s = u.waited q 1 := by
  obtain ⟨u, hu, hp⟩ := passTime_agentsMoved Config.tRecovery (hw s)
  refine ⟨u, { s.seq with recoveryDelay := true }, (hw_agentsMoved s).trans hu, ?_⟩
  show passTime Config.tRecovery (hw (s.withSeq _)) = _
  rw [hw_withSeq, passTime_withSeq, hp]
  rfl

/-! ### the recovery of one sub-engine -/

/-- Sub-engine `(d,e)` is idle, its done bit is clear, and its registers read 0. -/
def EngineBlank (d : Dir) (e : Eng) (s : State) : Prop :=
  (s.engine d e).busy = false ∧ (s.engine d e).done = false ∧ (s.engine d e).addr = 0 ∧ (s.engine d e).cnt = 0

theorem EngineBlank.of_engine {d : Dir} {e : Eng} {s t : State} (h : t.engine d e = s.engine d e) (hs : EngineBlank d e s) :
    EngineBlank d e t := by
  unfold EngineBlank; rw [h]; exact hs

/-- Hardware agents do nothing with it. -/
theorem EngineBlank.moved {d : Dir} {e : Eng} {s t : State} (h : AgentsMoved s t) (hs : EngineBlank d e s) :
    EngineBlank d e t := by
  obtain ⟨hb, hd, ha, hc⟩ := hs
  exact ⟨h.idle hb, (h.idleDone d e hb).trans hd, (h.frame.addr d e).trans ha, (h.frame.cnt d e).trans hc⟩

/-- What recoveries and hardware agents leave alone: the enables, the descriptors, and what is not the DMA engine's. -/
structure RecoveryFrame (s t : State) : Prop where
  port : t.port = s.port
  mirror : t.mirror = s.mirror
  cfg : t.cfg = s.cfg
  en : ∀ d, (t.dir d).hw.en = (s.dir d).hw.en
  chan : ∀ d, (t.dir d).chan = (s.dir d).chan
  buf : ∀ d, (t.dir d).buf = (s.dir d).buf
  lastServiced : ∀ d, (t.dir d).lastServiced = (s.dir d).lastServiced

theorem RecoveryFrame.trans {s t u : State} (h : RecoveryFrame s t) (k : RecoveryFrame t u) : RecoveryFrame s u where
  port := k.port.trans h.port
  mirror := k.mirror.trans h.mirror
  cfg := k.cfg.trans h.cfg
  en := fun d => (k.en d).trans (h.en d)
  chan := fun d => (k.chan d).trans (h.chan d)
  buf := fun d => (k.buf d).trans (h.buf d)
  lastServiced := fun d => (k.lastServiced d).trans (h.lastServiced d)

theorem HwFrame.recoveryFrame {s t : State} (h : HwFrame s t) : RecoveryFrame s t :=
  ⟨h.port, h.mirror, h.cfg, h.en, h.chan, h.buf, h.lastServiced⟩

theorem RecoveryFrame.log (r : LogRecord) (s : State) : RecoveryFrame s (s.log r) :=
  ⟨rfl, rfl, rfl, fun d => by rw [State.log_dir], fun d => by rw [State.log_dir], fun d => by rw [State.log_dir],
    fun d => by rw [State.log_dir]⟩

theorem RecoveryFrame.waited (q : Seq) (n : Nat) (s : State) : RecoveryFrame s (s.waited q n) :=
  ⟨rfl, rfl, rfl, fun d => by rw [State.waited_dir], fun d => by rw [State.waited_dir], fun d => by rw [State.waited_dir],
    fun d => by rw [State.waited_dir]⟩

theorem withStreak_dir (d d' : Dir) (n : Nat) (s : State) :
    (withStreak d n s).dir d' = { s.dir d' with oppStreak := if d' = d then n else (s.dir d').oppStreak } := by
  unfold withStreak
  rw [State.setDir_dir]
  split
  · next h => rw [h]
  · rfl

theorem withStreak_engine (d d' : Dir) (e : Eng) (n : Nat) (s : State) :
    (withStreak d n s).engine d' e = s.engine d' e := by
  unfold State.engine; rw [withStreak_dir]

theorem RecoveryFrame.withStreak (d : Dir) (n : Nat) (s : State) : RecoveryFrame s (withStreak d n s) :=
  ⟨State.setDir_port _ _ _, State.setDir_mirror _ _ _, State.setDir_cfg _ _ _, fun d' => by rw [withStreak_dir],
    fun d' => by rw [withStreak_dir], fun d' => by rw [withStreak_dir], fun d' => by rw [withStreak_dir]⟩

/-- What is left at once of a direction and of a sub-engine, before the delay. -/
theorem recovered_dir_eq (d d' : Dir) (x : Eng) (s : State) : (recovered d x s).dir d' =
    { (abandonBlock d x s).dir d' with
      hw := if d' = d then ((abandonBlock d x s).dir d).hw.modEng x fun g =>
        { g with busy := false, done := false, addr := 0, cnt := 0 } else ((abandonBlock d x s).dir d').hw
      oppStreak := if d' = d then 0 else ((abandonBlock d x s).dir d').oppStreak } := by
  cases d <;> cases d' <;> rfl

theorem recovered_engine (d d' : Dir) (x e' : Eng) (s : State) : (recovered d x s).engine d' e' =
    if d' = d ∧ e' = x then
      { (abandonBlock d x s).engine d x with busy := false, done := false, addr := 0, cnt := 0 }
    else (abandonBlock d x s).engine d' e' := by
  cases d <;> cases d' <;> cases x <;> cases e' <;> rfl

/-- What the recovery of sub-engine `(d,x)` leaves (`45_rearm_sequencer.md` R293): that sub-engine blank, the streak 0, 1 ms passed; of
the other sub-engines no register changes but by a completion. -/
structure RecoveryDone (d : Dir) (x : Eng) (s r : State) : Prop where
  blank : EngineBlank d x r
  trace : ∃ l, r.trace = (abandonBlock d x s).trace ++ l
  addr : ∀ d' e', (d', e') ≠ (d, x) → (r.engine d' e').addr = (s.engine d' e').addr
  cnt : ∀ d' e', (d', e') ≠ (d, x) → (r.engine d' e').cnt = (s.engine d' e').cnt
  done : ∀ d' e', (d', e') ≠ (d, x) → (s.engine d' e').done = true → (r.engine d' e').done = true
  idle : ∀ d' e', (s.engine d' e').busy = false → (r.engine d' e').busy = false
  staysBlank : ∀ d' e', (d', e') ≠ (d, x) → EngineBlank d' e' s → EngineBlank d' e' r
  frame : RecoveryFrame s r
  streak : ∀ d', (r.dir d').oppStreak = if d' = d then 0 else (s.dir d').oppStreak
  errlog : r.errlog = s.errlog
  now : r.env.now = s.env.now + 1

theorem recovered_frame (d : Dir) (x : Eng) (s : State) : RecoveryFrame s (recovered d x s) := by
  have ha := abandonBlock_hwFrame d x s
  refine ⟨?_, ?_, ?_, fun d' => ?_, fun d' => ?_, fun d' => ?_, fun d' => ?_⟩
  · exact (State.setDir_port _ _ _).trans ((State.modEngine_port _ _ _ _).trans ha.port)
  · exact (State.setDir_mirror _ _ _).trans ((State.modEngine_mirror _ _ _ _).trans ha.mirror)
  · exact (State.setDir_cfg _ _ _).trans ((State.modEngine_cfg _ _ _ _).trans ha.cfg)
  · rw [recovered_dir_eq, ← ha.en d']
    dsimp only
    split
    · next hd => rw [hd, DmaHw.modEng_en]
    · rfl
  · rw [recovered_dir_eq]; exact ha.chan d'
  · rw [recovered_dir_eq]; exact ha.buf d'
  · rw [recovered_dir_eq]; exact ha.lastServiced d'

theorem recoverEngine_done (d : Dir) (x : Eng) (s : State) : RecoveryDone d x s (recoverEngine d x s) := by
  have ha := abandonBlock_hwFrame d x s
  obtain ⟨u, q, hu, hwait⟩ := recoveryWait_agentsMoved (recovered d x s)
  have hr : recoverEngine d x s = u.waited q 1 := hwait
  rw [hr]
  have hblank : EngineBlank d x (recovered d x s) := by
    unfold EngineBlank
    rw [recovered_engine, if_pos ⟨rfl, rfl⟩]
    exact ⟨rfl, rfl, rfl, rfl⟩
  have hother {d' : Dir} {e' : Eng} (h : (d', e') ≠ (d, x)) :
      (recovered d x s).engine d' e' = (abandonBlock d x s).engine d' e' := by
    rw [recovered_engine, if_neg fun hx => h (Prod.ext hx.1 hx.2)]
  have htrace : (recovered d x s).trace = (abandonBlock d x s).trace :=
    (State.setDir_trace _ _ _).trans (State.modEngine_trace _ _ _ _)
  have herrlog : (recovered d x s).errlog = (abandonBlock d x s).errlog :=
    (State.setDir_errlog _ _ _).trans (State.modEngine_errlog _ _ _ _)
  have henv : (recovered d x s).env = (abandonBlock d x s).env :=
    (State.setDir_env _ _ _).trans (State.modEngine_env _ _ _ _)
  have hf := hu.frame
  constructor
  · exact (hblank.moved hu).of_engine (State.waited_engine _ _ _ _ _)
  · obtain ⟨l, hl⟩ := hf.trace
    exact ⟨l, hl.trans (by rw [htrace])⟩
  · intro d' e' h
    rw [State.waited_engine, hf.addr, hother h, ha.addr]
  · intro d' e' h
    rw [State.waited_engine, hf.cnt, hother h, ha.cnt]
  · intro d' e' h hdone
    rw [State.waited_engine]
    exact hf.done d' e' (by rw [hother h]; exact ha.done d' e' hdone)
  · intro d' e' hidle
    rw [State.waited_engine]
    refine hu.idle ?_
    rw [recovered_engine]
    split
    · rfl
    · rw [(abandonBlock_engine d d' x e' s).1, hidle, Bool.false_and]
  · rintro d' e' h ⟨hb, hd, hz, hc⟩
    have habandon := abandonBlock_engine d d' x e' s
    have hstill : EngineBlank d' e' (abandonBlock d x s) :=
      ⟨by rw [habandon.1, hb, Bool.false_and], habandon.2.trans hd, (ha.addr d' e').trans hz, (ha.cnt d' e').trans hc⟩
    exact ((hstill.of_engine (hother h)).moved hu).of_engine (State.waited_engine _ _ _ _ _)
  · exact (recovered_frame d x s).trans (hf.recoveryFrame.trans (.waited q 1 u))
  · intro d'
    rw [State.waited_dir, hf.oppStreak, recovered_dir_eq, ← ha.oppStreak d']
  · exact hf.errlog.trans (herrlog.trans ha.errlog)
  · show u.env.now + 1 = _
    rw [hf.now, henv, ha.now]

/-! ### the two tests (`45_rearm_sequencer.md` R293) -/

/-- What step 1 (a) of the handler does to `s`. -/
structure RepeatDone (d : Dir) (e : Eng) (s w : State) : Prop where
  frame : RecoveryFrame s w
  errlog : w.errlog = s.errlog ++ if (s.dir d).lastServiced = some e then [.repeatCompletion d e] else []
  now : w.env.now = s.env.now + if (s.dir d).lastServiced = some e then 1 else 0
  blank : (s.dir d).lastServiced = some e → EngineBlank d e w
  streak : (w.dir d).oppStreak = if (s.dir d).lastServiced = some e then 0 else (s.dir d).oppStreak
  addr : ∀ x, ((s.dir d).lastServiced = some e → x ≠ e) → (w.engine d x).addr = (s.engine d x).addr
  cnt : ∀ x, ((s.dir d).lastServiced = some e → x ≠ e) → (w.engine d x).cnt = (s.engine d x).cnt

theorem repeatHandled_done (d : Dir) (e : Eng) (s : State) : RepeatDone d e s (repeatHandled d e s) := by
  by_cases hrep : (s.dir d).lastServiced = some e
  · have hr := recoverEngine_done d e s
    have hother {x : Eng} (hx : (s.dir d).lastServiced = some e → x ≠ e) : (d, x) ≠ (d, e) :=
      fun h => hx hrep (Prod.ext_iff.1 h).2
    unfold repeatHandled
    rw [if_pos hrep]
    constructor
    · exact hr.frame.trans (.log _ _)
    · rw [if_pos hrep, State.log_errlog, hr.errlog]
    · rw [if_pos hrep, State.log_env, hr.now]
    · exact fun _ => hr.blank.of_engine (State.log_engine _ _ _ _)
    · rw [if_pos hrep, State.log_dir, hr.streak, if_pos rfl]
    · exact fun x hx => by rw [State.log_engine, hr.addr d x (hother hx)]
    · exact fun x hx => by rw [State.log_engine, hr.cnt d x (hother hx)]
  · unfold repeatHandled
    rw [if_neg hrep]
    refine ⟨(HwFrame.refl s).recoveryFrame, ?_, ?_, fun h => absurd h hrep, ?_, fun _ _ => rfl, fun _ _ => rfl⟩
    · rw [if_neg hrep, List.append_nil]
    · rw [if_neg hrep, Nat.add_zero]
    · rw [if_neg hrep]

/-- The streak counted after step 1 (a). -/
theorem streakCounted_eq (d : Dir) (e : Eng) (s : State) : streakCounted d e s =
    if ((hw s).engine d e.other).busy then
      if (s.dir d).lastServiced = some e then 1 else (s.dir d).oppStreak + 1
    else 0 := by
  have hf := (hw_hwFrame s).trans (hw_hwFrame (hw s))
  unfold streakCounted
  rw [(repeatHandled_done d e _).streak, hf.lastServiced, hf.oppStreak]
  split
  · split <;> rfl
  · rfl

theorem streakCounted_le (d : Dir) (e : Eng) (s : State) :
    streakCounted d e s ≤ if (s.dir d).lastServiced = some e then 1 else (s.dir d).oppStreak + 1 := by
  rw [streakCounted_eq]
  split
  · exact le_refl _
  · exact Nat.zero_le _

/-- What both tests of the handler do: whether the other sub-engine was found `stuck`, and the rest by that. -/
structure ChecksDone (d : Dir) (e : Eng) (stuck : Bool) (s t : State) : Prop where
  frame : RecoveryFrame s t
  errlog : t.errlog = s.errlog ++ (if (s.dir d).lastServiced = some e then [.repeatCompletion d e] else []) ++
    (if stuck then [.stuckBusy d e.other] else [])
  now : t.env.now = s.env.now + (if (s.dir d).lastServiced = some e then 1 else 0) + (if stuck then 1 else 0)
  blank : (s.dir d).lastServiced = some e → EngineBlank d e t
  kept : (s.dir d).lastServiced ≠ some e → (t.engine d e).addr = (s.engine d e).addr ∧ (t.engine d e).cnt = (s.engine d e).cnt
  stuckBlank : stuck = true → EngineBlank d e.other t ∧ (t.dir d).oppStreak = 0
  otherKept : stuck = false → (t.engine d e.other).addr = (s.engine d e.other).addr ∧
    (t.engine d e.other).cnt = (s.engine d e.other).cnt ∧ (t.dir d).oppStreak < s.cfg.oppBusyLimit

/-- The second test, on what the first one left in `w` and the streak it counted. -/
theorem RepeatDone.stuckHandled {d : Dir} {e : Eng} {s w : State} {k : Nat} (h : RepeatDone d e s w) :
    ChecksDone d e (decide (s.cfg.oppBusyLimit ≤ k)) s
      (if s.cfg.oppBusyLimit ≤ k then (recoverEngine d e.other (withStreak d k w)).log (.stuckBusy d e.other)
        else withStreak d k w) := by
  have hblank (hrep : (s.dir d).lastServiced = some e) : EngineBlank d e (withStreak d k w) :=
    (h.blank hrep).of_engine (withStreak_engine _ _ _ _ _)
  have hkept (hrep : (s.dir d).lastServiced ≠ some e) : ((withStreak d k w).engine d e).addr = (s.engine d e).addr ∧
      ((withStreak d k w).engine d e).cnt = (s.engine d e).cnt := by
    rw [withStreak_engine]
    exact ⟨h.addr e fun hx => absurd hx hrep, h.cnt e fun hx => absurd hx hrep⟩
  have hframe : RecoveryFrame s (withStreak d k w) := h.frame.trans (.withStreak d k w)
  have herrlog : (withStreak d k w).errlog = w.errlog := State.setDir_errlog _ _ _
  have hnow : (withStreak d k w).env.now = w.env.now := by unfold withStreak; rw [State.setDir_env]
  split
  · next hstuck =>
    rw [decide_eq_true hstuck]
    have hr := recoverEngine_done d e.other (withStreak d k w)
    have hne : (d, e) ≠ (d, e.other) := fun hx => Eng.other_ne e (Prod.ext_iff.1 hx).2.symm
    constructor
    · exact hframe.trans (hr.frame.trans (.log _ _))
    · rw [State.log_errlog, hr.errlog, herrlog, h.errlog]
      rfl
    · rw [State.log_env, hr.now, hnow, h.now]
      rfl
    · exact fun hrep => (hr.staysBlank d e hne (hblank hrep)).of_engine (State.log_engine _ _ _ _)
    · intro hrep
      rw [State.log_engine, hr.addr d e hne, hr.cnt d e hne]
      exact hkept hrep
    · exact fun _ => ⟨hr.blank.of_engine (State.log_engine _ _ _ _), by rw [State.log_dir, hr.streak, if_pos rfl]⟩
    · exact fun hx => by cases hx
  · next hfree =>
    rw [decide_eq_false hfree]
    refine ⟨hframe, ?_, ?_, hblank, hkept, fun hx => (by cases hx), fun _ => ?_⟩
    · rw [herrlog, h.errlog]
      exact (List.append_nil _).symm
    · rw [hnow, h.now]
      rfl
    · rw [withStreak_engine, withStreak_dir, if_pos rfl]
      exact ⟨h.addr _ fun _ => Eng.other_ne e, h.cnt _ fun _ => Eng.other_ne e, not_le.1 hfree⟩

/-- What hardware agents do before a step changes nothing of what step 1 (a) says. -/
theorem RepeatDone.after_agents {d : Dir} {e : Eng} {s u w : State} (hf : HwFrame s u) (h : RepeatDone d e u w) :
    RepeatDone d e s w := by
  obtain ⟨hframe, herrlog, hnow, hblank, hstreak, haddr, hcnt⟩ := h
  rw [hf.lastServiced] at herrlog hnow hblank hstreak haddr hcnt
  exact ⟨hf.recoveryFrame.trans hframe, by rw [herrlog, hf.errlog], by rw [hnow, hf.now], hblank,
    by rw [hstreak, hf.oppStreak], fun x hx => (haddr x hx).trans (hf.addr d x), fun x hx => (hcnt x hx).trans (hf.cnt d x)⟩

theorem recoveryChecks_done (d : Dir) (e : Eng) (s : State) :
    ChecksDone d e (decide (s.cfg.oppBusyLimit ≤ streakCounted d e s)) s (recoveryChecks d e s) := by
  have hf := (hw_hwFrame s).trans (hw_hwFrame (hw s))
  rw [recoveryChecks_eq]
  exact ((repeatHandled_done d e (hw (hw s))).after_agents hf).stuckHandled

/-! ### a direction whose descriptor is not in use -/

theorem serviced_engine (d : Dir) (e x : Eng) (s : State) : (serviced d e s).engine d x =
    if x = e then { s.engine d e with done := false } else s.engine d x := by
  cases d <;> cases e <;> cases x <;> rfl

theorem serviced_dir (d : Dir) (e : Eng) (s : State) : (serviced d e s).dir d = { s.dir d with
    hw := { (s.dir d).hw.modEng e (fun g => { g with done := false }) with en := true }, lastServiced := some e } := by
  cases d <;> rfl

/-- The event after its recovery checks, where there is no descriptor to serve. -/
theorem exec_irqEvt_noBuffer {d : Dir} {e : Eng} {s : State} (h : (s.dir d).chan.bufferRef = false) :
    exec (.irqEvt (irqId d e)) s = .next (answered 0 0 { serviced d e (hw
      ((recoveryChecks d e (interrupted (.irqEvt (irqId d e)) s)).log (.malformedDescriptor d))) with inIrq := false }) := by
  have hchan := (recoveryChecks_done d e (interrupted (.irqEvt (irqId d e)) s)).frame.chan d
  have hwf : wellFormedBuffer ((recoveryChecks d e (interrupted (.irqEvt (irqId d e)) s)).dir d) = false := by
    unfold wellFormedBuffer
    rw [hchan, interrupted_dir, h]
    rfl
  rw [exec_irqEvt, serviceBuffer_malformed hwf, concluded_next]

theorem HwQuiet.withStreak {s : State} (hq : HwQuiet s) (d : Dir) (n : Nat) : HwQuiet (withStreak d n s) := hq.setDir rfl

/-- A change that leaves a sub-engine idle enables no hardware agent. -/
theorem HwQuiet.modIdle {d : Dir} {e : Eng} {f : Engine → Engine} {s : State} (hq : HwQuiet s)
    (hb : (f (s.engine d e)).busy = false) : HwQuiet (s.modEngine d e f) := by
  have hready (d' : Dir) (h : ((s.modEngine d e f).dir d').hw.Ready) : (s.dir d').hw.Ready := by
    obtain ⟨hen, x, hx, hbusy, hmem⟩ := h
    unfold State.modEngine at hen hx hbusy hmem
    rw [State.modHw_dir] at hen hx hbusy hmem
    split at hx
    · next hd =>
      subst hd
      rw [if_pos rfl] at hen hbusy hmem
      rw [DmaHw.modEng_eng] at hbusy hmem
      split at hbusy
      · exact absurd (hb.symm.trans hbusy) (by decide)
      · next he =>
        rw [if_neg he] at hmem
        exact ⟨(DmaHw.modEng_en _ _ _).symm.trans hen, x, (DmaHw.modEng_active _ _ _).symm.trans hx, hbusy, hmem⟩
    · next hd =>
      rw [if_neg hd] at hen hbusy hmem
      exact ⟨hen, x, hx, hbusy, hmem⟩
  have hoff (d' : Dir) (h : engineEnabled s d' = false) : engineEnabled (s.modEngine d e f) d' = false := by
    by_contra hn
    obtain ⟨hclock, hr⟩ := (engineEnabled_iff _ _).1 (Bool.of_not_eq_false hn)
    rw [State.modEngine_regs] at hclock
    rw [(engineEnabled_iff s d').2 ⟨hclock, hready d' hr⟩] at h
    cases h
  unfold HwQuiet hwAgents at hq ⊢
  simp only [List.append_eq_nil_iff, ite_eq_right_iff, List.cons_ne_nil, imp_false, Bool.not_eq_true] at hq ⊢
  obtain ⟨⟨hl3, hplay⟩, hrecord⟩ := hq
  exact ⟨⟨by rw [State.modEngine_l3]; exact hl3, hoff .play hplay⟩, hoff .record hrecord⟩

/-- `s` with an idle sub-engine's done bit cleared, its registers 0 and the streak 0. -/
def blanked (d : Dir) (e : Eng) (s : State) : State :=
  withStreak d 0 (s.modEngine d e fun g => { g with done := false, addr := 0, cnt := 0 })

theorem recovered_idle {d : Dir} {e : Eng} {s : State} (hb : (s.engine d e).busy = false) : recovered d e s = blanked d e s := by
  have habandon : abandonBlock d e s = s := if_neg (by rw [hb]; decide)
  unfold recovered blanked withStreak
  rw [habandon]
  cases d <;> cases e <;> simp [State.modEngine, State.modHw, State.setDir, State.dir, DmaHw.modEng] <;> exact hb

theorem HwQuiet.blanked {d : Dir} {e : Eng} {s : State} (hq : HwQuiet s) (hb : (s.engine d e).busy = false) :
    HwQuiet (blanked d e s) := (hq.modIdle hb).withStreak d 0

theorem recoveryWait_quiet {s : State} (hq : HwQuiet s) (hl3 : s.l3.busy = false) :
    recoveryWait s = s.waited { s.seq with recoveryDelay := true } 1 := by
  show passTime Config.tRecovery (hw (s.withSeq _)) = _
  rw [hw_withSeq, passTime_withSeq, hw_quiet hq, passTime_idle hl3]
  rfl

/-- The recovery of an idle sub-engine with no hardware agent enabled and no frame in progress, exactly. -/
theorem recoverEngine_quiet {d : Dir} {e : Eng} {s : State} (hq : HwQuiet s) (hb : (s.engine d e).busy = false)
    (hl3 : s.l3.busy = false) :
    recoverEngine d e s = (blanked d e s).waited { (blanked d e s).seq with recoveryDelay := true } 1 := by
  have hbusy : (blanked d e s).l3.busy = false := by
    unfold blanked withStreak
    rw [State.setDir_l3, State.modEngine_l3, hl3]
  show recoveryWait (recovered d e s) = _
  rw [recovered_idle hb, recoveryWait_quiet (hq.blanked hb) hbusy]

/-- A repeated completion where nothing else moves, of a direction whose descriptor is not in use. -/
theorem exec_irqEvt_repeat_quiet {s : State} {d : Dir} {e : Eng} (hn : s.inIrq = false) (hq : HwQuiet s)
    (href : (s.dir d).chan.bufferRef = false) (hl3 : s.l3.busy = false) (hlimit : 0 < s.cfg.oppBusyLimit)
    (hrep : (s.dir d).lastServiced = some e) (hb : (s.engine d e).busy = false) (ho : (s.engine d e.other).busy = false) :
    exec (.irqEvt (irqId d e)) s = .next (answered 0 0 (serviced d e { blanked d e s with
      errlog := s.errlog ++ [.repeatCompletion d e, .malformedDescriptor d]
      env := { s.env with now := s.env.now + 1 } })) := by
  have hqi := hq.interrupted (.irqEvt (irqId d e))
  have hhw := hw_quiet hqi
  have hbi : ((interrupted (.irqEvt (irqId d e)) s).engine d e).busy = false := by rwa [interrupted_engine]
  have hcount : streakCounted d e (interrupted (.irqEvt (irqId d e)) s) = 0 := by
    rw [streakCounted_eq, hhw, interrupted_engine, ho]
    rfl
  have hrepeat : repeatHandled d e (interrupted (.irqEvt (irqId d e)) s) = _ :=
    if_pos (by rw [interrupted_dir]; exact hrep)
  have hend (q : Seq) : HwQuiet ((withStreak d 0 (((blanked d e (interrupted (.irqEvt (irqId d e)) s)).waited q 1).log
      (.repeatCompletion d e))).log (.malformedDescriptor d)) := by
    have hwaited : HwQuiet ((blanked d e (interrupted (.irqEvt (irqId d e)) s)).waited q 1) :=
      (hqi.blanked hbi).of_hw rfl rfl fun d' => by rw [State.waited_dir]
    exact ((hwaited.log _).withStreak d 0).log _
  rw [exec_irqEvt_noBuffer href, recoveryChecks_eq, hhw, hhw, hcount, interrupted_cfg, if_neg (not_le.2 hlimit), hrepeat,
    recoverEngine_quiet hqi hbi hl3, hw_quiet (hend _)]
  refine congrArg Host.Outcome.next (answered_outside ((serviced_inIrq _ _ _).trans ?_) ?_ 0 0)
  · cases d <;> exact hn
  · rw [List.append_cons s.errlog]
    cases d <;> rfl

/-- The other sub-engine busy for the limit of consecutive completions, with no hardware agent enabled before the event, in a direction
whose descriptor is not in use. -/
theorem exec_irqEvt_stuck {s : State} {d : Dir} {e : Eng} (hq : HwQuiet s) (href : (s.dir d).chan.bufferRef = false)
    (hlast : (s.dir d).lastServiced ≠ some e) (hbusy : (s.engine d e.other).busy = true)
    (hstuck : s.cfg.oppBusyLimit ≤ (s.dir d).oppStreak + 1) :
    ∃ t, exec (.irqEvt (irqId d e)) s = .next (answered 0 0 t) ∧
      t.errlog = s.errlog ++ [.stuckBusy d e.other, .malformedDescriptor d] ∧
      (t.engine d e.other).busy = false ∧ (t.engine d e.other).done = false ∧ (t.engine d e.other).addr = 0 ∧
      (t.engine d e.other).cnt = 0 ∧ (t.engine d e).addr = (s.engine d e).addr ∧ (t.engine d e).cnt = (s.engine d e).cnt ∧
      (t.dir d).oppStreak = 0 ∧ (t.dir d).chan = (s.dir d).chan ∧ (t.dir d).buf = (s.dir d).buf ∧
      t.env.now = s.env.now + 1 := by
  have hcount : streakCounted d e (interrupted (.irqEvt (irqId d e)) s) = (s.dir d).oppStreak + 1 := by
    rw [streakCounted_eq, hw_quiet (hq.interrupted _), interrupted_engine, interrupted_dir, hbusy, if_neg hlast]
    rfl
  have hr := recoveryChecks_done d e (interrupted (.irqEvt (irqId d e)) s)
  rw [hcount, interrupted_cfg, decide_eq_true hstuck] at hr
  have hexec := exec_irqEvt_noBuffer (e := e) href
  generalize recoveryChecks d e (interrupted (.irqEvt (irqId d e)) s) = r at hr hexec
  have hm := hw_agentsMoved (r.log (.malformedDescriptor d))
  generalize hw (r.log (.malformedDescriptor d)) = m at hm hexec
  -- the state completed differs from `m` in the service of sub-engine `e` and in leaving interrupt context
  obtain ⟨t, ht⟩ : ∃ t, t = { serviced d e m with inIrq := false } := ⟨_, rfl⟩
  have hdir : t.dir d = { m.dir d with
      hw := { (m.dir d).hw.modEng e (fun g => { g with done := false }) with en := true }, lastServiced := some e } := by
    rw [ht, ← serviced_dir]
    cases d <;> rfl
  have hengine (x : Eng) : t.engine d x = if x = e then { m.engine d e with done := false } else m.engine d x := by
    rw [ht, ← serviced_engine]
    cases d <;> rfl
  obtain ⟨hblank, hstreak⟩ := hr.stuckBlank rfl
  obtain ⟨hb, hd, ha, hc⟩ := (hblank.of_engine (State.log_engine _ _ _ _)).moved hm
  obtain ⟨haddr, hcnt⟩ := hr.kept (by rwa [interrupted_dir])
  have herrlog : t.errlog = m.errlog := by rw [ht]; exact State.setDir_errlog _ _ _
  have hnow : t.env.now = m.env.now := by rw [ht]; exact congrArg Env.now (State.setDir_env _ _ _)
  have hrepeat : ¬ ((interrupted (.irqEvt (irqId d e)) s).dir d).lastServiced = some e := by rwa [interrupted_dir]
  rw [← ht] at hexec
  refine ⟨t, hexec, ?_, ?_, ?_, ?_, ?_, ?_, ?_, ?_, ?_, ?_, ?_⟩
  · rw [herrlog, hm.frame.errlog, State.log_errlog, hr.errlog, if_neg hrepeat, if_pos rfl, List.append_nil, ← List.append_cons]
    rfl
  · rw [hengine, if_neg (Eng.other_ne e), hb]
  · rw [hengine, if_neg (Eng.other_ne e), hd]
  · rw [hengine, if_neg (Eng.other_ne e), ha]
  · rw [hengine, if_neg (Eng.other_ne e), hc]
  · rw [hengine, if_pos rfl, hm.frame.addr, State.log_engine, haddr, interrupted_engine]
  · rw [hengine, if_pos rfl, hm.frame.cnt, State.log_engine, hcnt, interrupted_engine]
  · rw [hdir, hm.frame.oppStreak, State.log_dir, hstreak]
  · rw [hdir, hm.frame.chan, State.log_dir, hr.frame.chan, interrupted_dir]
  · rw [hdir, hm.frame.buf, State.log_dir, hr.frame.buf, interrupted_dir]
  · rw [hnow, hm.frame.now, State.log_env, hr.now, if_neg hrepeat, if_pos rfl]
    rfl

/-! ### a repeated completion in a running session -/

/-- The sub-engine is recovered first, and the completion that was signalled re-arms as any other. -/
theorem exec_irqEvt_repeat {s : State} {d : Dir} {e : Eng} {f : Buffer → Buffer} {ev : Event} {addr len : Word}
    (hstep : StepRearms s d f ev addr len) (hok : BlockOk s.cfg addr len) (hrep : (s.dir d).lastServiced = some e)
    (hlimit : 0 < s.cfg.oppBusyLimit) (ho : (s.engine d e.other).busy = false) :
    ∃ u v w x, HardwareMoved (interrupted (.irqEvt (irqId d e)) s) u ∧
      HardwareMoved ((((recoverEngine d e u).log (.repeatCompletion d e)).modBuf d f).emit ev) v ∧
      HardwareMoved (programmed d (turnOf (s.dir d)) addr len v) w ∧ HardwareMoved (started d (turnOf (s.dir d)) w) x ∧
      exec (.irqEvt (irqId d e)) s = .next (answered 0 0 { serviced d e x with inIrq := false }) := by
  have hu := (hw_moved (interrupted (.irqEvt (irqId d e)) s)).trans (hw_moved _)
  have hoi : ((interrupted (.irqEvt (irqId d e)) s).engine d e.other).busy = false := by rwa [interrupted_engine]
  have hcount : streakCounted d e (interrupted (.irqEvt (irqId d e)) s) = 0 := by
    rw [streakCounted_eq, hw_idle hoi]
    rfl
  have hchecks := recoveryChecks_eq d e (interrupted (.irqEvt (irqId d e)) s)
  have hou := hw_idle (hw_idle hoi)
  generalize hw (hw (interrupted (.irqEvt (irqId d e)) s)) = u at hu hchecks hou
  have hlast : (u.dir d).lastServiced = some e := by rw [hu.1.lastServiced, interrupted_dir, hrep]
  rw [hcount, interrupted_cfg, if_neg (not_le.2 hlimit), show repeatHandled d e u = _ from if_pos hlast] at hchecks
  have hr := recoverEngine_done d e u
  have hchan : ((recoverEngine d e u).dir d).chan = (s.dir d).chan := by rw [hr.frame.chan, hu.1.chan, interrupted_dir]
  have hbuf : ((recoverEngine d e u).dir d).buf = (s.dir d).buf := by rw [hr.frame.buf, hu.1.buf, interrupted_dir]
  have hout := (exec_irqEvt_of_checks hstep hok.1 hchecks (by rw [State.log_dir, hchan]) (by rw [State.log_dir, hbuf])).2
  -- the recovery has left the streak at 0, so counting it to 0 changes nothing
  have hcalled : called d f ev 0 ((recoverEngine d e u).log (.repeatCompletion d e)) =
      (((recoverEngine d e u).log (.repeatCompletion d e)).modBuf d f).emit ev := by
    have hself := withStreak_self d ((recoverEngine d e u).log (.repeatCompletion d e))
    rw [State.log_dir, hr.streak, if_pos rfl] at hself
    exact congrArg (fun w : State => (w.modBuf d f).emit ev) hself
  have hidle (x : Eng) : ((called d f ev 0 ((recoverEngine d e u).log (.repeatCompletion d e))).engine d x).busy = false := by
    rw [called_engine, State.log_engine]
    by_cases hx : x = e
    · rw [hx]; exact hr.blank.1
    · rw [Eng.eq_other hx]; exact hr.idle d e.other hou
  have hcfg : (hw (called d f ev 0 ((recoverEngine d e u).log (.repeatCompletion d e)))).cfg = s.cfg := by
    rw [(hw_hwFrame _).cfg, called_cfg, State.log_cfg, hr.frame.cfg, hu.1.cfg, interrupted_cfg]
  have hturn : turnOf ((hw (called d f ev 0 ((recoverEngine d e u).log (.repeatCompletion d e)))).dir d) = turnOf (s.dir d) :=
    (turnOf_congr ((hw_hwFrame _).chan d)).trans ((called_turnOf _ _ _ _ _).trans
      (turnOf_congr (by rw [State.log_dir, hchan])))
  obtain ⟨w, x, hw1, hx, hrun⟩ := (hout (hw_idle (hidle .a)) (hw_idle (hidle .b))).1 (by rw [hcfg]; exact hok)
  rw [hturn] at hw1 hx
  exact ⟨u, _, w, x, hu, hcalled ▸ hw_moved _, hw1, hx, hrun⟩

end Sys2Proof.Machine

namespace Sys2Proof.Proofs

open Sys2Proof.Machine

/-- Settles O46: what the recovery of one sub-engine leaves, what the two tests leave by whether they recover, and from these the event
where there is no descriptor to serve and in a running session. -/
theorem recoveryResetsOneEngine : Obligations.RecoveryResetsOneEngine := by
  refine ⟨fun s d e hn hq href hl3 hlimit => ⟨fun hrep hb ho => ?_, fun hlast hbusy hstuck => ?_⟩, fun s d x => ?_,
    fun s d e => ?_, fun s d e hrep hlimit ho hwf hrun hcb hal hlt => ?_⟩
  · exact exec_irqEvt_repeat_quiet hn hq href hl3 (Nat.zero_lt_of_lt hlimit) hrep hb ho
  · exact exec_irqEvt_stuck hq href hlast hbusy hstuck
  · have hr := recoverEngine_done d x s
    obtain ⟨hb, hd, ha, hc⟩ := hr.blank
    exact ⟨hb, hd, ha, hc, hr.trace, fun d' e' hne => ⟨hr.addr d' e' hne, hr.cnt d' e' hne, hr.done d' e' hne⟩,
      fun d' => ⟨hr.frame.en d', hr.frame.chan d', hr.frame.buf d', hr.frame.lastServiced d', hr.streak d'⟩, hr.errlog,
      hr.frame.mirror, hr.frame.port, hr.frame.cfg, hr.now⟩
  · have ht := recoveryChecks_done d e s
    refine ⟨_, ht.errlog, ht.now, ht.blank, ht.kept, fun hstuck => ?_, ht.otherKept, fun hq => ?_, fun d' =>
      ⟨ht.frame.en d', ht.frame.chan d', ht.frame.buf d', ht.frame.lastServiced d'⟩⟩
    · obtain ⟨⟨hb, hd, ha, hc⟩, hstreak⟩ := ht.stuckBlank hstuck
      exact ⟨hb, hd, ha, hc, hstreak, (of_decide_eq_true hstuck).trans (streakCounted_le d e s)⟩
    · rw [decide_eq_true_iff, streakCounted_eq, hw_quiet hq]
  · exact exec_irqEvt_repeat (stepRearms_within hwf hrun hcb hlt) (hal.nextLen_ok hwf hlt) hrep hlimit ho

end Sys2Proof.Proofs
end

section
/-! The streaming session: `CH.OPEN`, `CH.CLOSE`, `SES.ARM` and `SES.POS` as equations over what the hardware agents leave
(`46_streaming_session.md` R310 to R312, R314). -/

namespace Sys2Proof.Machine

/-! ### `CH.OPEN`, `CH.CLOSE`, `SES.POS` (`46_streaming_session.md` R310, R311, R314) -/

/-- A closed direction opened: its software fields at their initial values, its bindings and its hardware as they were. -/
def opened (d : Dir) (s : State) : State := s.setDir d { s.dir d with
  chan := ⟨true, false, 0, false, false, (s.dir d).chan.boundA, (s.dir d).chan.boundB⟩
  lastServiced := none
  oppStreak := 0 }

theorem exec_chOpen (d : Dir) (s : State) : exec (.chOpen (selDir d)) s =
    if (s.dir d).chan.inUse = true then .next (answered 0 2 s) else .next (answered 0 0 (opened d s)) :=
  onDirection_selDir d s _

theorem exec_chClose (d : Dir) (s : State) : exec (.chClose (selDir d)) s =
    if (s.dir d).chan.running = true then .next (answered 0 2 s)
    else .next (answered 0 0 (s.modChan d fun c => { c with inUse := false })) := onDirection_selDir d s _

theorem exec_sesPos (d : Dir) (s : State) : exec (.sesPos (selDir d)) s = .next (answered
    (if (s.dir d).chan.bufferRef = true then (s.dir d).buf.current - (s.dir d).buf.start else 0) 0 s) := onDirection_selDir d s _

/-- The offset of a pointer between the start and the end of its buffer is not brought around by the subtraction. -/
theorem StreamInv.offset {s : State} {d : Dir} (h : StreamInv s) (href : (s.dir d).chan.bufferRef = true) :
    ((s.dir d).buf.current - (s.dir d).buf.start).toNat = (s.dir d).buf.current.toNat - (s.dir d).buf.start.toNat ∧
      ((s.dir d).buf.current - (s.dir d).buf.start).toNat ≤ (s.dir d).buf.size.toNat := by
  obtain ⟨-, hbounds, -⟩ := h d
  obtain ⟨-, -, -, -, hlow, hhigh⟩ := hbounds href
  rw [BitVec.toNat_sub_of_le (BitVec.le_def.2 hlow)]
  exact ⟨rfl, by omega⟩

/-! ### `SES.ARM` (`46_streaming_session.md` R312) -/

/-- Step 3 of `SES.ARM` as a proposition. -/
theorem geometryOk_iff (start size period : Word) : geometryOk start size period = true ↔
    size ≠ 0 ∧ period ≠ 0 ∧ period.toNat ≤ size.toNat ∧ start.toNat + size.toNat < 4294967296 := by
  simp only [geometryOk, Bool.and_eq_true, bne_iff_ne, decide_eq_true_eq, and_assoc]
  exact Iff.rfl

/-- A descriptor with buffer `b` stored and the session running, nothing started yet. -/
def armed (d : Dir) (b : Buffer) (s : State) : State := s.setDir d { s.dir d with
  buf := b
  chan := { (s.dir d).chan with bufferRef := true, cbValid := true, running := true } }

/-- A session whose first start was refused, rolled back. -/
def disarmed (d : Dir) (s : State) : State :=
  s.modChan d fun c => { c with running := false, bufferRef := false, cbValid := false }

theorem armed_cfg (d : Dir) (b : Buffer) (s : State) : (armed d b s).cfg = s.cfg := State.setDir_cfg _ _ _

theorem armed_turnOf (d : Dir) (b : Buffer) (s : State) : turnOf ((armed d b s).dir d) = turnOf (s.dir d) := by
  unfold armed; rw [State.setDir_dir_same]; rfl

theorem armed_engine (d d' : Dir) (b : Buffer) (e : Eng) (s : State) : (armed d b s).engine d' e = s.engine d' e := by
  cases d <;> cases d' <;> rfl

theorem armed_running (d : Dir) (b : Buffer) (s : State) : ((armed d b s).dir d).chan.running = true := by
  unfold armed; rw [State.setDir_dir_same]

section Arm
variable {d : Dir} {l : Bool} {start size period ctx : Word} {s u : State}

theorem exec_sesArm_running (h : (s.dir d).chan.running = true) :
    exec (.sesArm (selDir d) l start size period ctx) s = .next (answered 0 2 s) :=
  (onDirection_selDir d s _).trans (if_pos h)

variable (hrun : (s.dir d).chan.running = false)
include hrun

theorem exec_sesArm_badGeometry (hg : ¬ geometryOk start size period = true) :
    exec (.sesArm (selDir d) l start size period ctx) s = .next (answered 0 1 s) :=
  (onDirection_selDir d s _).trans ((if_neg (by rw [hrun]; decide)).trans (if_neg hg))

variable (hg : geometryOk start size period = true)
include hg

/-- Past the checks all turns on the first start. -/
theorem exec_sesArm_good : exec (.sesArm (selDir d) l start size period ctx) s =
    andThen (startBlock d start period (armed d ⟨size, start, start, period, l, 0, ctx⟩ s)) fun r =>
      match r.1 with
      | .ok => .next (answered 0 0 r.2)
      | st => .next (answered 0 st.code (disarmed d r.2)) :=
  (onDirection_selDir d s _).trans ((if_neg (by rw [hrun]; decide)).trans (if_pos hg))

variable (hu : hw (armed d ⟨size, start, start, period, l, 0, ctx⟩ s) = u)
include hu

/-- The start refused while a sub-engine of the direction is busy. -/
theorem exec_sesArm_busy (hb : (u.engine d .a).busy = true ∨ (u.engine d .b).busy = true) :
    exec (.sesArm (selDir d) l start size period ctx) s = .next (answered 0 2 (disarmed d u)) := by
  rw [exec_sesArm_good hrun hg, startBlock_busy ((geometryOk_iff _ _ _).1 hg).2.1 (by rwa [hu]), hu]
  rfl

variable (hA : (u.engine d .a).busy = false) (hB : (u.engine d .b).busy = false)
include hA hB

/-- The start done where neither sub-engine is busy and the block has a meaning. -/
theorem exec_sesArm_started (hok : BlockOk s.cfg start period) :
    ∃ w, HardwareMoved (programmed d (turnOf (s.dir d)) start period u) w ∧
      exec (.sesArm (selDir d) l start size period ctx) s = .next (answered 0 0 (started d (turnOf (s.dir d)) w)) := by
  obtain ⟨w, hmoved, hstart⟩ := (startBlock_idle start hok.1 (by rwa [hu]) (by rwa [hu])).1 (by rw [armed_cfg]; exact hok)
  rw [armed_turnOf] at hmoved hstart
  refine ⟨w, hu ▸ hmoved, ?_⟩
  rw [exec_sesArm_good hrun hg, hstart]
  rfl

/-- The first block has no meaning. -/
theorem exec_sesArm_fault (hbad : ¬ BlockOk s.cfg start period) :
    exec (.sesArm (selDir d) l start size period ctx) s = .fault (.reserved .notStartable) := by
  have hstart := (startBlock_idle start ((geometryOk_iff _ _ _).1 hg).2.1 (by rwa [hu]) (by rwa [hu])).2
    (by rw [armed_cfg]; exact hbad)
  rw [exec_sesArm_good hrun hg, hstart, andThen_fault]

end Arm

end Sys2Proof.Machine

namespace Sys2Proof.Proofs

open Sys2Proof.Machine

/-- Settles O49: each test has one branch to either side. -/
theorem channelOpenAndClose : Obligations.ChannelOpenAndClose := by
  intro s d
  refine ⟨fun sel hsel => onDirection_none hsel s _, fun sel hsel => onDirection_none hsel s _, fun huse => ?_, fun huse => ?_,
    fun hrun => ?_, fun hrun => ?_⟩
  · rw [exec_chOpen, if_pos huse]
  · rw [exec_chOpen, if_neg (by rw [huse]; decide)]
    rfl
  · rw [exec_chClose, if_pos hrun]
  · rw [exec_chClose, if_neg (by rw [hrun]; decide)]
    rfl

/-- Settles O52: the answer by whether there is a session, and that the buffer invariant bounds it. -/
theorem positionIsTheOffset : Obligations.PositionIsTheOffset := by
  intro s d
  refine ⟨fun sel hsel => onDirection_none hsel s _, fun href => ?_, fun href => ?_, fun hs href => hs.offset href⟩
  · rw [exec_sesPos, if_neg (by rw [href]; decide)]
  · rw [exec_sesPos, if_pos href]

/-- Settles O50: the checks in order, then the three ends of the first start from the state its read of `CS` leaves. -/
theorem armStartsASession : Obligations.ArmStartsASession := by
  intro s d l start size period ctx _ _
  refine ⟨fun sel hsel => onDirection_none hsel s _, exec_sesArm_running, fun hrun hg hA hB hok => ?_, fun hrun hg => ?_,
    fun hrun hg => ?_⟩
  · have hidle {e : Eng} (h : (s.engine d e).busy = false) :
        ((hw (armed d ⟨size, start, start, period, l, 0, ctx⟩ s)).engine d e).busy = false := hw_idle (by rwa [armed_engine])
    obtain ⟨w, hmoved, hexec⟩ := exec_sesArm_started hrun ((geometryOk_iff _ _ _).2 hg) rfl (hidle hA) (hidle hB) hok
    refine ⟨w, hexec, ?_⟩
    rw [hmoved.1.chan, programmed, State.modEngine_dir_chan, (hw_hwFrame _).chan, armed_running]
  · exact exec_sesArm_badGeometry hrun fun hgood => hg ((geometryOk_iff _ _ _).1 hgood)
  · have hgood := (geometryOk_iff start size period).2 hg
    exact ⟨_, hw_moved _, exec_sesArm_busy hrun hgood rfl, fun hA hB =>
      ⟨exec_sesArm_started hrun hgood rfl hA hB, exec_sesArm_fault hrun hgood rfl hA hB⟩⟩

end Sys2Proof.Proofs
end

section
/-! `SES.STOP`: what the handler and the hardware agents make of the blocks in flight while the host waits (`46_streaming_session.md` R313,
`45_rearm_sequencer.md` R293), the poll loop, and the end of the session. -/

namespace Sys2Proof.Machine

/-! ### one block in flight (`46_streaming_session.md` R313) -/

/-- The block that sub-engine `(d,e)` has in flight in `s` is in flight in `t`, or has moved whole, or was recovered: `NoneAborted` of
one sub-engine. -/
def BlockKept (d : Dir) (e : Eng) (s t : State) : Prop :=
  ((t.engine d e).busy = true ∧ (t.engine d e).addr = (s.engine d e).addr ∧ (t.engine d e).cnt = (s.engine d e).cnt) ∨
  (∃ bytes, bytes.length = (s.engine d e).cnt.toNat ∧
    transferEvent d e (s.engine d e).addr bytes ∈ t.trace.drop s.trace.length) ∨
  LogRecord.repeatCompletion d e ∈ t.errlog.drop s.errlog.length ∨ LogRecord.stuckBusy d e ∈ t.errlog.drop s.errlog.length

theorem noneAborted_iff {s t : State} : NoneAborted s t ↔ ∀ d e, (s.engine d e).busy = true → BlockKept d e s t := Iff.rfl

/-- What was appended to a history by its first extension was appended by both. -/
theorem mem_drop_of_extended {α : Type} {l m n : List α} {x : α} (h : ∃ b, n = m ++ b) (hx : x ∈ m.drop l.length) :
    x ∈ n.drop l.length := by
  obtain ⟨b, rfl⟩ := h
  exact ((List.prefix_append m b).drop l.length).subset hx

/-- What was appended to a history by its second extension was appended by both. -/
theorem mem_drop_of_extends {α : Type} {l m n : List α} {x : α} (h : ∃ a, m = l ++ a) (hx : x ∈ n.drop m.length) :
    x ∈ n.drop l.length := by
  obtain ⟨a, rfl⟩ := h
  exact List.drop_subset_drop_left n (by simp) hx

theorem BlockKept.trans {d : Dir} {e : Eng} {s t u : State} (h : BlockKept d e s t) (hst : HostFrame s t) (htu : HostFrame t u)
    (k : (t.engine d e).busy = true → BlockKept d e t u) : BlockKept d e s u := by
  rcases h with ⟨hb, ha, hc⟩ | ⟨bytes, hlen, hev⟩ | hlog | hlog
  · unfold BlockKept
    rw [← ha, ← hc]
    rcases k hb with hflight | ⟨bytes, hlen, hev⟩ | hlog | hlog
    · exact .inl hflight
    · exact .inr (.inl ⟨bytes, hlen, mem_drop_of_extends hst.trace hev⟩)
    · exact .inr (.inr (.inl (mem_drop_of_extends hst.errlog hlog)))
    · exact .inr (.inr (.inr (mem_drop_of_extends hst.errlog hlog)))
  · exact .inr (.inl ⟨bytes, hlen, mem_drop_of_extended htu.trace hev⟩)
  · exact .inr (.inr (.inl (mem_drop_of_extended htu.errlog hlog)))
  · exact .inr (.inr (.inr (mem_drop_of_extended htu.errlog hlog)))

/-! ### all blocks in flight -/

/-- What the other agents make of the DMA engine while the host waits: no block in flight is aborted, and a direction with no running
session has no block started. -/
structure InFlightKept (s t : State) : Prop where
  host : HostFrame s t
  block : ∀ d e, (s.engine d e).busy = true → BlockKept d e s t
  chan : ∀ d, (s.dir d).chan.running = false → (t.dir d).chan = (s.dir d).chan
  busy : ∀ d, (s.dir d).chan.running = false → ∀ e, (t.engine d e).busy = true → (s.engine d e).busy = true

theorem InFlightKept.trans {s t u : State} (h : InFlightKept s t) (k : InFlightKept t u) : InFlightKept s u where
  host := h.host.trans k.host
  block := fun d e hb => (h.block d e hb).trans h.host k.host (k.block d e)
  chan := fun d hrun => (k.chan d (by rw [h.chan d hrun]; exact hrun)).trans (h.chan d hrun)
  busy := fun d hrun e hb => h.busy d hrun e (k.busy d (by rw [h.chan d hrun]; exact hrun) e hb)

/-- Agents that start no block. -/
theorem InFlightKept.of_frame {s t : State} (h : HwFrame s t) (hn : ∀ d e, (s.engine d e).busy = true → BlockKept d e s t) :
    InFlightKept s t :=
  ⟨h.hostFrame, hn, fun d _ => h.chan d, fun d _ e => h.busy d e⟩

/-- Agents that end no block. -/
theorem InFlightKept.of_untouched {s t : State} (h : HwFrame s t) (k : ∀ d, Untouched d s t) : InFlightKept s t :=
  .of_frame h fun d e hb => .inl ⟨((k d).busy e).trans hb, (k d).addr e, (k d).cnt e⟩

theorem InFlightKept.refl (s : State) : InFlightKept s s := .of_untouched (HwFrame.refl s) fun d => .refl d s

theorem Drew.inFlightKept {s t : State} (h : Drew s t) : InFlightKept s t := .of_untouched h.hwFrame h.untouched

/-- Bookkeeping that touches no direction. -/
theorem InFlightKept.of_dirs {s t : State} (h : HostFrame s t) (hd : ∀ d, t.dir d = s.dir d) : InFlightKept s t := by
  have he (d : Dir) (e : Eng) : t.engine d e = s.engine d e := by unfold State.engine; rw [hd]
  refine ⟨h, fun d e hb => .inl ?_, fun d _ => by rw [hd], fun d _ e hb => he d e ▸ hb⟩
  rw [he]
  exact ⟨hb, rfl, rfl⟩

theorem InFlightKept.log (r : LogRecord) (s : State) : InFlightKept s (s.log r) :=
  .of_dirs ⟨rfl, rfl, rfl, ⟨[], (List.append_nil _).symm⟩, ⟨[r], rfl⟩⟩ (State.log_dir r s)

theorem State.setDir_engine (d d' : Dir) (x : Direction) (e : Eng) (s : State) :
    (s.setDir d x).engine d' e = if d' = d then x.hw.eng e else s.engine d' e := by cases d <;> cases d' <;> rfl

/-- A change of one direction that keeps its blocks in flight, and starts none where no session is running. -/
theorem InFlightKept.setDir {d : Dir} {y : Direction} {s : State}
    (hkeep : ∀ e, (s.engine d e).busy = true →
      (y.hw.eng e).busy = true ∧ (y.hw.eng e).addr = (s.engine d e).addr ∧ (y.hw.eng e).cnt = (s.engine d e).cnt)
    (hstop : (s.dir d).chan.running = false →
      y.chan = (s.dir d).chan ∧ ∀ e, (y.hw.eng e).busy = true → (s.engine d e).busy = true) :
    InFlightKept s (s.setDir d y) := by
  refine ⟨HostFrame.of_eq (State.setDir_port _ _ _) (State.setDir_cfg _ _ _) (congrArg Env.host (State.setDir_env _ _ _))
    (State.setDir_trace _ _ _) (State.setDir_errlog _ _ _), fun d' e hb => .inl ?_, fun d' hrun => ?_, fun d' hrun e => ?_⟩
  · rw [State.setDir_engine]
    split
    · next hd => subst hd; exact hkeep e hb
    · exact ⟨hb, rfl, rfl⟩
  · rw [State.setDir_dir]
    split
    · next hd => subst hd; exact (hstop hrun).1
    · rfl
  · rw [State.setDir_engine]
    split
    · next hd => subst hd; exact (hstop hrun).2 e
    · exact id

/-- A change of a direction's software state that leaves the descriptor of a session not running alone. -/
theorem InFlightKept.software {d : Dir} {y : Direction} {s : State} (hhw : y.hw = (s.dir d).hw)
    (hchan : (s.dir d).chan.running = false → y.chan = (s.dir d).chan) : InFlightKept s (s.setDir d y) :=
  .setDir (fun e hb => by rw [hhw]; exact ⟨hb, rfl, rfl⟩) fun hrun => ⟨hchan hrun, fun e hb => by rw [hhw] at hb; exact hb⟩

/-- A change of the registers and done bit of a sub-engine that is not busy. -/
theorem InFlightKept.modIdle {d : Dir} {e : Eng} {f : Engine → Engine} {s : State} (hb : (s.engine d e).busy = false)
    (hf : (f (s.engine d e)).busy = false) : InFlightKept s (s.modEngine d e f) := by
  refine .setDir (fun x hx => ?_) fun _ => ⟨rfl, fun x => ?_⟩ <;> dsimp only <;> rw [DmaHw.modEng_eng]
  · have hne : x ≠ e := fun hxe => absurd hx (by rw [hxe, hb]; decide)
    rw [if_neg hne]
    exact ⟨hx, rfl, rfl⟩
  · split
    · exact fun h => absurd h (by rw [show f ((s.dir d).hw.eng e) = f (s.engine d e) from rfl, hf]; decide)
    · exact id

/-! ### hardware agents (`44_dma_engine.md` R271, R272) -/

/-- A completed block has moved whole. -/
theorem completeBlock_inFlightKept {d : Dir} {s : State} (h : engineEnabled s d = true) : InFlightKept s (completeBlock d s) := by
  obtain ⟨-, -, x, hx, -, -⟩ := (engineEnabled_iff s d).1 h
  have hf := completeBlock_hwFrame d s
  refine .of_frame hf fun d' e hb => ?_
  by_cases hde : d' = d ∧ e = x
  · obtain ⟨rfl, rfl⟩ := hde
    obtain ⟨bytes, hlen, htrace⟩ := moveBlock_trace d' e (s.engine d' e).cnt.toNat s
    refine .inr (.inl ⟨bytes, hlen, ?_⟩)
    rw [completeBlock_active hx, State.modHw_trace, htrace, List.drop_left]
    exact List.mem_singleton_self _
  · refine .inl ⟨?_, hf.addr d' e, hf.cnt d' e⟩
    have hmoved := (moveBlock_flags d x (s.engine d x).cnt.toNat s).busy d' e
    rw [completeBlock_active hx, State.modHw_engine]
    split
    · next hd =>
      subst hd
      rw [DmaHw.complete_eng, if_neg fun he => hde ⟨rfl, he⟩]
      exact hmoved.trans hb
    · exact hmoved.trans hb

theorem hwStep_inFlightKept {g : HwAgent} {s : State} (h : g ∈ hwAgents s) : InFlightKept s (hwStep g s) := by
  cases g with
  | serialiser => exact .of_untouched (hwStep_frames h).1 (serialise_untouched (serialiser_of_mem h))
  | engine d => exact completeBlock_inFlightKept (engine_of_mem h)

theorem hwRounds_inFlightKept (n : Nat) (s : State) : InFlightKept s (hwRounds n s) := by
  induction n generalizing s with
  | zero => exact .refl s
  | succ n ih =>
    unfold hwRounds
    split
    · exact .refl s
    · have hd := drawPick_drew s
      generalize drawPick s = r at hd ⊢
      obtain ⟨k, t⟩ := r
      cases k with
      | zero => exact hd.inFlightKept
      | succ j =>
        dsimp only
        split
        · next g hg =>
          have hm : g ∈ hwAgents t := by rw [hd.hwAgents]; exact List.mem_of_getElem? hg
          exact hd.inFlightKept.trans ((hwStep_inFlightKept hm).trans (ih _))
        · exact hd.inFlightKept

theorem hw_inFlightKept (s : State) : InFlightKept s (hw s) := hwRounds_inFlightKept 5 s

/-- Bookkeeping outside the directions, the command port and the histories. -/
theorem InFlightKept.book {s t : State} (h1 : t.port = s.port) (h2 : t.cfg = s.cfg) (h3 : t.env.host = s.env.host)
    (h4 : t.trace = s.trace) (h5 : t.errlog = s.errlog) (h6 : t.play = s.play) (h7 : t.record = s.record) : InFlightKept s t :=
  .of_dirs (HostFrame.of_eq h1 h2 h3 h4 h5) fun d => by cases d; exacts [h6, h7]

theorem passTime_inFlightKept (n : Nat) (s : State) : InFlightKept s (passTime n s) := by
  have tick (u : State) : InFlightKept u { u with env := { u.env with now := u.env.now + n } } :=
    .book rfl rfl rfl rfl rfl rfl rfl
  unfold passTime
  dsimp only
  split
  · next h =>
    rw [Bool.and_eq_true] at h
    exact (hwStep_inFlightKept (g := .serialiser) (by simp [hwAgents, h.1])).trans (tick _)
  · exact tick s

theorem recoveryWait_inFlightKept (s : State) : InFlightKept s (recoveryWait s) :=
  InFlightKept.trans (t := { s with seq := { s.seq with recoveryDelay := true } }) (.book rfl rfl rfl rfl rfl rfl rfl)
    ((hw_inFlightKept _).trans (passTime_inFlightKept _ _))

/-! ### recoveries (`45_rearm_sequencer.md` R293) -/

/-- A recovery takes away one block, and the record of it says which. -/
theorem recoverEngine_log_inFlightKept {d : Dir} {x : Eng} {r : LogRecord}
    (hr : r = .repeatCompletion d x ∨ r = .stuckBusy d x) (s : State) : InFlightKept s ((recoverEngine d x s).log r) := by
  have hdone := recoverEngine_done d x s
  have hrec : HostFrame s (recovered d x s) := by
    have h := (recovered_ctx d x (s.dir d).oppStreak s).hostFrame
    rwa [withStreak_self] at h
  have hend : InFlightKept (recovered d x s) ((recoverEngine d x s).log r) :=
    (recoveryWait_inFlightKept (recovered d x s)).trans (.log r (recoverEngine d x s))
  refine ⟨hrec.trans hend.host, fun d' e hb => ?_, fun d' _ => ?_, fun d' _ e => ?_⟩
  · by_cases hde : d' = d ∧ e = x
    · obtain ⟨rfl, rfl⟩ := hde
      have hrecord : r ∈ ((recoverEngine d' e s).log r).errlog.drop s.errlog.length := by
        rw [State.log_errlog, hdone.errlog, List.drop_left]
        exact List.mem_singleton_self _
      rcases hr with rfl | rfl
      · exact .inr (.inr (.inl hrecord))
      · exact .inr (.inr (.inr hrecord))
    · have hab := abandonBlock_hwFrame d x s
      have hother : (recovered d x s).engine d' e = (abandonBlock d x s).engine d' e := by rw [recovered_engine, if_neg hde]
      have hflight : BlockKept d' e s (recovered d x s) := by
        refine .inl ?_
        rw [hother, (abandonBlock_engine d d' x e s).1]
        exact ⟨by simp [hb, hde], hab.addr d' e, hab.cnt d' e⟩
      exact hflight.trans hrec hend.host (hend.block d' e)
  · rw [State.log_dir, hdone.frame.chan]
  · rw [State.log_engine]
    intro hb
    by_contra hn
    rw [hdone.idle d' e (by simpa using hn)] at hb
    cases hb

theorem repeatHandled_inFlightKept (d : Dir) (e : Eng) (s : State) : InFlightKept s (repeatHandled d e s) := by
  unfold repeatHandled
  split
  · exact recoverEngine_log_inFlightKept (.inl rfl) s
  · exact .refl s

theorem recoveryChecks_inFlightKept (d : Dir) (e : Eng) (s : State) : InFlightKept s (recoveryChecks d e s) := by
  have hrepeat := ((hw_inFlightKept s).trans (hw_inFlightKept _)).trans (repeatHandled_inFlightKept d e (hw (hw s)))
  have hcount : InFlightKept s (withStreak d (streakCounted d e s) (repeatHandled d e (hw (hw s)))) :=
    hrepeat.trans (.software rfl fun _ => rfl)
  rw [recoveryChecks_eq]
  split
  · exact hcount.trans (recoverEngine_log_inFlightKept (.inr rfl) _)
  · exact hcount

/-! ### starts by the handler of a running session (`45_rearm_sequencer.md` R296) -/

theorem regWrite_addr_inFlightKept {d : Dir} {e : Eng} {v : Word} {s t : State} (h : regWrite (.addr d e) v s = .next t) :
    InFlightKept s t := by
  obtain ⟨hb, rfl⟩ := regStore_addr_next h
  exact (hw_inFlightKept s).trans (.modIdle hb hb)

theorem regWrite_cnt_inFlightKept {d : Dir} {e : Eng} {v : Word} {s t : State} (h : regWrite (.cnt d e) v s = .next t) :
    InFlightKept s t := by
  obtain ⟨hb, rfl⟩ := regStore_cnt_next h
  exact (hw_inFlightKept s).trans (.modIdle hb hb)

/-- The start of an idle sub-engine of a running session. -/
theorem start_inFlightKept {d : Dir} {e : Eng} {s : State} (hb : (s.engine d e).busy = false)
    (hrun : (s.dir d).chan.running = true) : InFlightKept s (s.modHw d fun h =>
      { h.modEng e (fun g => { g with busy := true, raced := [] }) with active := h.active.or (some e) }) := by
  refine .setDir (fun x hx => ?_) fun hstop => absurd hstop (by rw [hrun]; decide)
  have hne : x ≠ e := fun hxe => absurd hx (by rw [hxe, hb]; decide)
  have heng := DmaHw.modEng_eng e x (fun g => { g with busy := true, raced := [] }) (s.dir d).hw
  rw [if_neg hne] at heng
  change (((s.dir d).hw.modEng e _).eng x).busy = true ∧ (((s.dir d).hw.modEng e _).eng x).addr = _ ∧
    (((s.dir d).hw.modEng e _).eng x).cnt = _
  rw [heng]
  exact ⟨hx, rfl, rfl⟩

/-- A write of `CS[d]` with `EN` = 1 abandons nothing (`10_state.md` R57). -/
theorem regWrite_cs_inFlightKept {d : Dir} {w : Word} {s t : State} (hen : hasBit w Config.csEn = true)
    (hrun : (s.dir d).chan.running = true) (h : regWrite (.cs d) w s = .next t) : InFlightKept s t := by
  have hrun' : ((hw s).dir d).chan.running = true := by rw [(hw_hwFrame s).chan]; exact hrun
  have hon : InFlightKept (hw s) ((hw s).modHw d (DmaHw.clearAndEnable w)) := by
    refine .setDir (fun e hb => ?_) fun _ => ⟨rfl, fun e hb => ?_⟩
    · dsimp only
      rw [DmaHw.clearAndEnable_eng]
      exact ⟨hb, rfl, rfl⟩
    · dsimp only at hb
      rw [DmaHw.clearAndEnable_eng] at hb
      exact hb
  refine (hw_inFlightKept s).trans ?_
  rcases storeCs_next h with ⟨hoff, -⟩ | ⟨-, rfl | ⟨e, -, hb, hstart⟩⟩
  · rw [hen] at hoff; cases hoff
  · exact hon
  · obtain ⟨-, rfl⟩ := startEngine_next hstart
    refine hon.trans (start_inFlightKept ?_ ?_)
    · rw [clearAndEnable_engine]; exact hb
    · rw [State.modHw_dir, if_pos rfl]; exact hrun'

theorem startBlock_inFlightKept {d : Dir} {addr len : Word} {s t : State} {st : Status} (hrun : (s.dir d).chan.running = true)
    (h : startBlock d addr len s = .next (st, t)) : InFlightKept s t := by
  have hen (e : Eng) : hasBit (Config.csEn ||| startMask e) Config.csEn = true := by cases e <;> decide
  have still {u v : State} (k : CtxFrame u v) (hu : (u.dir d).chan.running = true) : (v.dir d).chan.running = true := by
    rw [k.chan]; exact hu
  rcases startBlock_next h with ⟨-, -, rfl⟩ | ⟨-, -, rfl⟩ | ⟨-, -, s2, s3, s4, h2, h3, h4, rfl⟩
  · exact .refl _
  · exact hw_inFlightKept s
  · have hrun3 := still (regWrite_cnt_ctx h3) (still (regWrite_addr_ctx h2) (still (hw_hwFrame s).ctx hrun))
    have hrun4 := still (regWrite_cs_ctx h4) hrun3
    exact (hw_inFlightKept s).trans ((regWrite_addr_inFlightKept h2).trans ((regWrite_cnt_inFlightKept h3).trans
      ((regWrite_cs_inFlightKept (hen _) hrun3 h4).trans (.software rfl fun hstop => absurd hstop (by rw [hrun4]; decide)))))

/-! ### the handler (`45_rearm_sequencer.md` R290) -/

theorem callback_inFlightKept (d : Dir) (s : State) : InFlightKept s (callback d s) := by
  refine .of_dirs (callback_ctx d s).hostFrame fun d' => ?_
  unfold callback
  split
  · exact State.emit_dir _ _ _
  · rfl

theorem rearm_inFlightKept {d : Dir} {addr len : Word} {s t : State} (hrun : (s.dir d).chan.running = true)
    (h : rearm d addr len s = .next t) : InFlightKept s t := by
  obtain ⟨⟨st, u⟩, hu, h⟩ := andThen_eq_next h
  have hk := startBlock_inFlightKept hrun hu
  cases st with
  | ok => cases h; exact hk
  | _ => cases h; exact hk.trans (.log _ _)

/-- Only a running session has the buffer step start a block (`45_rearm_sequencer.md` R299). -/
theorem serviceBuffer_inFlightKept {d : Dir} {s t : State} (h : serviceBuffer d s = .next t) : InFlightKept s t := by
  have hbuf (f : Buffer → Buffer) : InFlightKept s (s.modBuf d f) := .software rfl fun _ => rfl
  by_cases hwf : wellFormedBuffer (s.dir d) = true
  · cases hrun : (s.dir d).chan.running with
    | false =>
      rw [serviceBuffer_stopped rfl hwf hrun] at h
      cases h
      exact hbuf _
    | true =>
      unfold serviceBuffer at h
      rw [if_pos hwf] at h
      obtain ⟨u, hu, ht⟩ := advanceBuffer_next h
      have hk : InFlightKept s u := hu ▸ hbuf _
      have hcalled := hk.trans (callback_inFlightKept d u)
      rcases ht with rfl | rfl | ⟨addr, len, ht⟩
      · exact hk
      · exact hcalled
      · refine hcalled.trans (rearm_inFlightKept ?_ ht)
        rw [(callback_ctx d u).chan, hu, State.modBuf_dir, if_pos rfl]
        exact hrun
  · rw [serviceBuffer_malformed (by simpa using hwf)] at h
    cases h
    exact .log _ s

theorem serviced_inFlightKept (d : Dir) (e : Eng) (s : State) : InFlightKept s (serviced d e s) := by
  have hsame (x : Eng) : ((serviced d e s).engine d x).busy = (s.engine d x).busy ∧
      ((serviced d e s).engine d x).addr = (s.engine d x).addr ∧ ((serviced d e s).engine d x).cnt = (s.engine d x).cnt := by
    rw [serviced_engine]
    split
    · next h => rw [h]; exact ⟨rfl, rfl, rfl⟩
    · exact ⟨rfl, rfl, rfl⟩
  unfold State.engine at hsame
  rw [serviced_dir] at hsame
  exact .setDir (fun x hb => ⟨(hsame x).1.trans hb, (hsame x).2⟩) fun _ => ⟨rfl, fun x hb => (hsame x).1.symm.trans hb⟩

/-- The delivery of a line (`60_exceptions.md` R346 to R348). -/
theorem deliver_inFlightKept {d : Dir} {e : Eng} {s t : State} (h : deliver d e s = .next t) : InFlightKept s t := by
  unfold deliver at h
  rw [handler_irqId] at h
  obtain ⟨s1, h1, h⟩ := andThen_eq_next h
  obtain ⟨s2, h2, h1⟩ := andThen_eq_next h1
  cases h1
  cases h
  have henter : InFlightKept s (enterInterrupt s) := .book rfl rfl rfl rfl rfl rfl rfl
  have hexit (u : State) : InFlightKept u (exitInterrupt u) := .book rfl rfl rfl rfl rfl rfl rfl
  exact henter.trans ((recoveryChecks_inFlightKept d e _).trans ((serviceBuffer_inFlightKept h2).trans
    ((hw_inFlightKept s2).trans ((serviced_inFlightKept d e _).trans (hexit _)))))

/-! ### waits (`20_memory.md` R121) -/

theorem actorStep_inFlightKept {g : Actor} {s t u : State} (hg : g ∈ actors s) (hu : Drew s u) (h : actorStep g u = .next t) :
    InFlightKept s t := by
  refine hu.inFlightKept.trans ?_
  cases g with
  | hardware g =>
    cases h
    exact hwStep_inFlightKept (by rw [hu.hwAgents]; exact hardware_of_mem hg)
  | line d e => exact deliver_inFlightKept h

theorem waitRounds_inFlightKept {n : Nat} {s t : State} (h : waitRounds n s = .next t) : InFlightKept s t := by
  induction n generalizing s with
  | zero => cases h; exact .refl _
  | succ n ih =>
    unfold waitRounds at h
    split at h
    · cases h; exact .refl _
    · have hd := drawPick_drew s
      generalize drawPick s = r at h hd
      obtain ⟨k, u⟩ := r
      cases k with
      | zero => exact hd.inFlightKept.trans (ih h)
      | succ j =>
        dsimp only at h
        split at h
        · next g hg =>
          obtain ⟨v, hv, h⟩ := andThen_eq_next h
          exact (actorStep_inFlightKept (List.mem_of_getElem? hg) hd hv).trans (ih h)
        · exact hd.inFlightKept.trans (ih h)

theorem waitAt_inFlightKept {op : Instr} {g : Option Group} {pos : WaitPos} {n : Nat} {s t : State}
    (h : waitAt op g pos n s = .next t) : InFlightKept s t := by
  obtain ⟨s1, h1, h⟩ := andThen_eq_next h
  cases h
  have hseq : InFlightKept s { s with seq := ⟨some op, g, some pos, false⟩ } := .book rfl rfl rfl rfl rfl rfl rfl
  refine hseq.trans (InFlightKept.trans ?_ (passTime_inFlightKept n s1))
  unfold waitEvents at h1
  split at h1
  · cases h1; exact .refl _
  · exact (drawPick_drew _).inFlightKept.trans (waitRounds_inFlightKept h1)

/-! ### the poll loop of `SES.STOP` (`46_streaming_session.md` R313 step 3) -/

theorem stopPolls_succ (op : Instr) (d : Dir) (n i : Nat) (s : State) : stopPolls op d (n + 1) i s =
    if (pollDone d s).1 = true then .next (pollDone d s).2
    else andThen (waitAt op none (.stopPoll i) (pollDone d s).2.cfg.tStopPoll (pollDone d s).2) (stopPolls op d n (i + 1)) := rfl

/-- A poll reads `CS` once, or nothing. -/
theorem pollDone_state (d : Dir) (s : State) : (pollDone d s).2 = s ∨ (pollDone d s).2 = hw s := by
  by_cases h : (s.dir d).chan.generation = 0
  · exact .inl (by rw [pollDone_never h])
  · exact .inr (by rw [pollDone_started h])

theorem pollDone_moved (d : Dir) (s : State) : HardwareMoved s (pollDone d s).2 ∧ InFlightKept s (pollDone d s).2 := by
  rcases pollDone_state d s with h | h <;> rw [h]
  · exact ⟨.refl s, .refl s⟩
  · exact ⟨hw_moved s, hw_inFlightKept s⟩

/-- The poll loop runs to its end, and this is everything that can happen in it. -/
theorem stopPolls_total (op : Instr) (d : Dir) (n i : Nat) {s : State} (hs : StreamsOk s) :
    ∃ t q, stopPolls op d n i s = .next t ∧ CtxFrame { s with seq := q } t ∧ MemStill s t ∧ InFlightKept s t := by
  induction n generalizing i s with
  | zero => exact ⟨s, s.seq, rfl, .refl s, .refl s, .refl s⟩
  | succ n ih =>
    rw [stopPolls_succ]
    obtain ⟨hmoved, hkept⟩ := pollDone_moved d s
    generalize pollDone d s = r at hmoved hkept ⊢
    obtain ⟨done, u⟩ := r
    dsimp only at hmoved hkept ⊢
    have hctx := hmoved.1.ctx
    split
    · exact ⟨u, u.seq, rfl, hctx.withSeq u.seq, hmoved.memStill, hkept⟩
    · obtain ⟨v, hv⟩ := waitAt_total (hctx.streams hs) op none (.stopPoll i) u.cfg.tStopPoll
      have hwait := (waitAt_ctx hv).1
      obtain ⟨t, q, ht, hc, hm, hk⟩ := ih (i + 1) (hwait.streams (hctx.streams hs))
      rw [hv, andThen_next]
      exact ⟨t, q, ht, (hctx.withSeq q).trans ((hwait.withSeq q).trans hc),
        hmoved.memStill.trans ((waitAt_memStill hv).trans hm), hkept.trans ((waitAt_inFlightKept hv).trans hk)⟩

/-- Where nothing was ever started and nothing can move, every poll reads 0 and every wait is taken. -/
theorem stopPolls_quiet (op : Instr) {d : Dir} (n i : Nat) {s : State} (h : Quiet s) (hgen : (s.dir d).chan.generation = 0) :
    ∃ q, stopPolls op d n i s = .next (s.waited q (n * s.cfg.tStopPoll)) := by
  induction n generalizing i s with
  | zero => exact ⟨s.seq, by simp [stopPolls, State.waited]⟩
  | succ n ih =>
    obtain ⟨q, hq⟩ := ih (i + 1) (s := s.waited ⟨some op, none, some (.stopPoll i), false⟩ s.cfg.tStopPoll) h
      (by rw [State.waited_dir]; exact hgen)
    have hcount : (n + 1) * s.cfg.tStopPoll = s.cfg.tStopPoll + n * s.cfg.tStopPoll := by rw [Nat.succ_mul, Nat.add_comm]
    refine ⟨q, ?_⟩
    rw [stopPolls_succ, pollDone_never hgen, if_neg Bool.false_ne_true, h.waitAt, andThen_next, hq, State.waited_waited, hcount]
    rfl

/-! ### the end of the session (`46_streaming_session.md` R313 steps 1, 4, 5) -/

/-- The session marked as not running. -/
def stopping (d : Dir) (s : State) : State := s.modChan d fun c => { c with running := false }

/-- What `SES.STOP` does after its polls, for lines bound as `a` and `b` and the pointer reset to `start`. -/
def sessionEnded (d : Dir) (a b : Bool) (start : Word) (u : State) : State :=
  { u with trace := u.trace ++ (if a then [Event.irqUnbind d .a] else []) ++
      (if b then [Event.irqUnbind d .b] else []) }.setDir d { u.dir d with
    chan := { (u.dir d).chan with boundA := false, boundB := false, bufferRef := false, cbValid := false }
    buf := { (u.dir d).buf with current := start } }

theorem exec_sesStop (d : Dir) (s : State) : exec (.sesStop (selDir d)) s =
    andThen (stopPolls (.sesStop (selDir d)) d s.cfg.stopPollMax 0 (stopping d s)) fun u =>
      .next (answered 0 0 (sessionEnded d (u.dir d).chan.boundA (u.dir d).chan.boundB (u.dir d).buf.start u)) := by
  refine (onDirection_selDir d s _).trans (congrArg (andThen _) (funext fun u => ?_))
  rw [releaseLines_eq]
  cases d <;> rfl

theorem stopping_dir (d : Dir) (s : State) :
    (stopping d s).dir d = { s.dir d with chan := { (s.dir d).chan with running := false } } := by cases d <;> rfl

theorem stopping_engine (d d' : Dir) (e : Eng) (s : State) : (stopping d s).engine d' e = s.engine d' e := by
  cases d <;> cases d' <;> rfl

theorem stopping_streams {s : State} (d : Dir) (h : StreamsOk s) : StreamsOk (stopping d s) := fun d' hrun => by
  unfold stopping at hrun ⊢
  rw [State.modChan_dir] at hrun ⊢
  rw [State.modChan_cfg]
  split at hrun
  · cases hrun
  · next hd => rw [if_neg hd]; exact h d' hrun

theorem stopping_inFlightKept (d : Dir) (s : State) : InFlightKept s (stopping d s) :=
  .software rfl fun hrun => by rw [← hrun]

theorem Quiet.stopping {s : State} (h : Quiet s) (d : Dir) : Quiet (stopping d s) := by cases d <;> exact h

theorem sessionEnded_dir (d : Dir) (a b : Bool) (start : Word) (u : State) : (sessionEnded d a b start u).dir d = { u.dir d with
    chan := { (u.dir d).chan with boundA := false, boundB := false, bufferRef := false, cbValid := false }
    buf := { (u.dir d).buf with current := start } } := by cases d <;> rfl

theorem sessionEnded_engine (d d' : Dir) (a b : Bool) (start : Word) (u : State) (e : Eng) :
    (sessionEnded d a b start u).engine d' e = u.engine d' e := by cases d <;> cases d' <;> rfl

theorem sessionEnded_hostFrame (d : Dir) (a b : Bool) (start : Word) (u : State) : HostFrame u (sessionEnded d a b start u) := by
  refine ⟨State.setDir_port _ _ _, State.setDir_cfg _ _ _, congrArg Env.host (State.setDir_env _ _ _),
    ⟨_, (State.setDir_trace _ _ _).trans (List.append_assoc _ _ _)⟩, [], ?_⟩
  exact (State.setDir_errlog _ _ _).trans (List.append_nil _).symm

/-- Host memory stays where a change takes no capture block into flight and binds no record line. -/
theorem MemStill.of_engines {s t : State} (hbusy : ∀ e, (t.engine .record e).busy = (s.engine .record e).busy)
    (hbound : ∀ e, s.record.chan.bound e = false → t.record.chan.bound e = false) (hmem : t.mem = s.mem) : MemStill s t :=
  fun ⟨hidle, hfree⟩ => ⟨⟨fun e => (hbusy e).trans (hidle e), fun e => hbound e (hfree e)⟩, hmem⟩

theorem stopping_memStill (d : Dir) (s : State) : MemStill s (stopping d s) := by
  refine .of_engines (fun e => by rw [stopping_engine]) (fun e h => ?_) (State.modChan_mem _ _ _)
  cases d <;> cases e <;> exact h

theorem sessionEnded_memStill (d : Dir) (a b : Bool) (start : Word) (u : State) : MemStill u (sessionEnded d a b start u) := by
  refine .of_engines (fun e => by rw [sessionEnded_engine]) (fun e h => ?_) (State.setDir_mem _ _ _)
  cases d with
  | play => exact h
  | record => cases e <;> rfl

/-- `SES.STOP` completes where running sessions are aligned. -/
theorem exec_sesStop_total {s : State} (d : Dir) (hs : StreamsOk s) : ∃ u,
    CtxFrame (stopping d s) { u with seq := s.seq } ∧ MemStill (stopping d s) u ∧ InFlightKept (stopping d s) u ∧
      exec (.sesStop (selDir d)) s = .next (answered 0 0
        (sessionEnded d (s.dir d).chan.boundA (s.dir d).chan.boundB (s.dir d).buf.start u)) := by
  obtain ⟨u, q, hu, hctx, hmem, hkept⟩ :=
    stopPolls_total (.sesStop (selDir d)) d s.cfg.stopPollMax 0 (stopping_streams d hs)
  have hseq : { stopping d s with seq := s.seq } = stopping d s := by cases d <;> rfl
  have hframe : CtxFrame (stopping d s) { u with seq := s.seq } := hseq ▸ hctx.withSeq s.seq
  have hchan : (u.dir d).chan = { (s.dir d).chan with running := false } := by
    rw [hkept.chan d (by rw [stopping_dir]), stopping_dir]
  have hstart : (u.dir d).buf.start = (s.dir d).buf.start := by
    have hbuf := congrArg Buffer.start (hframe.buf d)
    cases d <;> exact hbuf
  refine ⟨u, hframe, hmem, hkept, ?_⟩
  rw [exec_sesStop, hu, andThen_next, hchan, hstart]

/-- With nothing ever started and nothing in progress it takes exactly the bound. -/
theorem exec_sesStop_quiet {s : State} {d : Dir} (h : Quiet s) (hgen : (s.dir d).chan.generation = 0) :
    ∃ q, exec (.sesStop (selDir d)) s = .next (answered 0 0
      (sessionEnded d (s.dir d).chan.boundA (s.dir d).chan.boundB (s.dir d).buf.start
        ((stopping d s).waited q (s.cfg.stopPollMax * s.cfg.tStopPoll)))) := by
  obtain ⟨q, hq⟩ := stopPolls_quiet (.sesStop (selDir d)) s.cfg.stopPollMax 0 (h.stopping d)
    (by rw [stopping_dir]; exact hgen)
  have hcfg : (stopping d s).cfg = s.cfg := State.modChan_cfg _ _ _
  refine ⟨q, ?_⟩
  rw [exec_sesStop, hq, andThen_next, State.waited_dir, stopping_dir, hcfg]

end Sys2Proof.Machine

namespace Sys2Proof.Proofs

open Sys2Proof.Machine

/-- Settles O51: what the polls can do to the stopped session's state, and then the end of the session. -/
theorem stopEndsASession : Obligations.StopEndsASession := by
  intro s d _ hs
  refine ⟨fun sel hsel => onDirection_none hsel s _, ?_, fun hquiet hgen => ?_⟩
  · obtain ⟨u, hctx, hmem, hkept, hexec⟩ := exec_sesStop_total d hs
    have hstopped : ((stopping d s).dir d).chan.running = false := by rw [stopping_dir]
    have hall := (stopping_inFlightKept d s).trans hkept
    refine ⟨u, _, hctx, hexec, (stopping_memStill d s).trans (hmem.trans (sessionEnded_memStill _ _ _ _ _)), rfl, ?_,
      fun e hb => ?_, noneAborted_iff.2 fun d' e hb => ?_⟩
    · rw [sessionEnded_dir, hkept.chan d hstopped, stopping_dir]
    · rw [sessionEnded_engine] at hb
      rw [← stopping_engine d d e s]
      exact hkept.busy d hstopped e hb
    · refine (hall.block d' e hb).trans hall.host (sessionEnded_hostFrame _ _ _ _ _) fun hbusy => .inl ?_
      rw [sessionEnded_engine]
      exact ⟨hbusy, rfl, rfl⟩
  · obtain ⟨q, hexec⟩ := exec_sesStop_quiet hquiet hgen
    rw [hexec]
    cases d <;> rfl

end Sys2Proof.Proofs
end

section
/-! Context at the ends of a step: every part of an operation keeps whether the machine is in interrupt context and whether the lock of
the control bus is held, a send because it releases the lock it has taken, and so every step ends in normal context with the lock free
(`60_exceptions.md` R347, R348, `41_control_bus.md` R180). -/

namespace Sys2Proof.Machine

/-! ### interrupt context and the lock (`10_state.md` R83, R84) -/

/-- Whether the machine is in interrupt context, and whether the lock is held. -/
def State.context (s : State) : Bool × Bool := (s.inIrq, s.l3.lock)

theorem contextInv_iff (s : State) : ContextInv s ↔ s.context = (false, false) ∧ s.seq = Seq.idle := by
  simp [ContextInv, State.context, Seq.idle, and_assoc]

theorem CtxFrame.context {s t : State} (h : CtxFrame s t) : t.context = s.context := by
  unfold State.context
  rw [h.inIrq, bus_l3 h.bus]

theorem HwFrame.context {s t : State} (h : HwFrame s t) : t.context = s.context := h.ctx.context

@[simp] theorem State.emit_context (ev : Event) (s : State) : (s.emit ev).context = s.context := rfl
@[simp] theorem State.setDir_context (d : Dir) (x : Direction) (s : State) : (s.setDir d x).context = s.context := by
  simp [State.context]
@[simp] theorem State.modChan_context (d : Dir) (f : Channel → Channel) (s : State) : (s.modChan d f).context = s.context :=
  State.setDir_context d _ s
@[simp] theorem State.modBuf_context (d : Dir) (f : Buffer → Buffer) (s : State) : (s.modBuf d f).context = s.context :=
  State.setDir_context d _ s
@[simp] theorem finish_context (v : Word) (st : Status) (s : State) : (finish v st s).context = s.context := rfl

/-! ### register accesses and the DMA engine -/

theorem storeCtrl0_context {new : Word} {s t : State} (h : storeCtrl0 new s = .next t) : t.context = s.context := by
  unfold storeCtrl0 at h
  rw [abandonFrame_eq] at h
  dsimp only at h
  split at h
  · cases h; rfl
  · split at h <;> cases h
    rfl

theorem triggerFrame_context {v : Byte} {s t : State} (h : triggerFrame v s = .next t) : t.context = s.context := by
  unfold triggerFrame at h
  split at h
  · cases h
  · split at h
    · cases h
    · split at h <;> cases h <;> rfl

/-- No register write takes or frees the lock, or enters or leaves interrupt context. -/
theorem regStore_context {r : Reg} {v : Word} {s t : State} (h : regStore r v s = .next t) : t.context = s.context := by
  cases hr : r.isDma with
  | true => exact (regStore_dma_ctx hr h).context
  | false =>
    cases r with
    | ctrl0 => exact storeCtrl0_context h
    | l3data => exact (triggerFrame_context h :)
    | cs d => cases hr
    | addr d e => cases hr
    | cnt d e => cases hr
    | _ => cases h; rfl

theorem regWrite_context {r : Reg} {v : Word} {s t : State} (h : regWrite r v s = .next t) : t.context = s.context :=
  (regStore_context h).trans (hw_hwFrame s).context

theorem regUpdate_context {r : Reg} {f : Word → Word} {s t : State} (h : regUpdate r f s = .next t) : t.context = s.context :=
  (regWrite_context h).trans (regRead_hwFrame r s).context

theorem resetDirection_context {d : Dir} {s t : State} (h : resetDirection d s = .next t) : t.context = s.context := by
  obtain ⟨s1, h1, h⟩ := andThen_eq_next h
  obtain ⟨s2, h2, h⟩ := andThen_eq_next h
  obtain ⟨s3, h3, h⟩ := andThen_eq_next h
  obtain ⟨s4, h4, h⟩ := andThen_eq_next h
  rw [regWrite_context h, regWrite_context h4, regWrite_context h3, regWrite_context h2, regWrite_context h1]

theorem pollDone_hwFrame (d : Dir) (s : State) : HwFrame s (pollDone d s).2 := by
  unfold pollDone
  split
  · exact HwFrame.refl s
  · exact regRead_hwFrame (.cs d) s

theorem releaseLine_context (d : Dir) (e : Eng) (s : State) : (releaseLine d e s).context = s.context := by
  unfold releaseLine unbindLine
  split <;> simp

theorem releaseLines_context (d : Dir) (s : State) : (releaseLines d s).context = s.context :=
  (releaseLine_context d .b _).trans (releaseLine_context d .a s)

/-! ### waits and sends -/

theorem waitAt_context {op : Instr} {g : Option Group} {pos : WaitPos} {n : Nat} {s t : State}
    (h : waitAt op g pos n s = .next t) : t.context = s.context := (waitAt_ctx h).1.context

theorem stopPolls_context {op : Instr} {d : Dir} {n i : Nat} {s t : State} (h : stopPolls op d n i s = .next t) :
    t.context = s.context := by
  induction n generalizing i s with
  | zero => cases h; rfl
  | succ n ih =>
    have hpoll := (pollDone_hwFrame d s).context
    unfold stopPolls at h
    dsimp only at h
    split at h
    · cases h; exact hpoll
    · obtain ⟨u, hu, h⟩ := andThen_eq_next h
      rw [ih h, waitAt_context hu, hpoll]

theorem pollWriteDone_context {op : Instr} {g : Option Group} {n i : Nat} {s t : State}
    (h : pollWriteDone op g n i s = .next t) : t.context = s.context := by
  induction n generalizing i s with
  | zero => cases h; rfl
  | succ n ih =>
    rw [pollWriteDone_succ] at h
    split at h
    · cases h; exact (hw_hwFrame s).context
    · obtain ⟨u, hu, h⟩ := andThen_eq_next h
      rw [ih h, waitAt_context hu, (hw_hwFrame s).context]

theorem settleBus_context {op : Instr} {g : Option Group} {s t : State} (h : settleBus op g s = .next t) :
    t.context = s.context := by
  obtain ⟨s1, h1, h⟩ := andThen_eq_next h
  obtain ⟨s2, h2, h⟩ := andThen_eq_next h
  rw [waitAt_context h, regWrite_context h2, regWrite_context h1]

theorem triggerSend_context {a b : Byte} {s t : State} (h : triggerSend a b s = .next t) : t.context = s.context := by
  unfold triggerSend at h
  obtain ⟨s2, h2, h⟩ := andThen_eq_next h
  obtain ⟨s3, h3, h⟩ := andThen_eq_next h
  rw [regWrite_context h, regWrite_context h3, regWrite_context h2]
  exact (regRead_hwFrame .statclr s).context

/-- The last step of a send frees the lock (`41_control_bus.md` R180 step 8). -/
theorem closeSend_context {a b : Byte} {s t : State} {r : Bool} (h : closeSend a b s = .next (r, t)) :
    t.context = (s.inIrq, false) := by
  unfold closeSend at h
  rw [readWriteDone_eq] at h
  dsimp only at h
  obtain ⟨u, hu, h⟩ := andThen_eq_next h
  cases h
  have hlog : (if (hw s).regs.l3wd = true then hw s else (hw s).log (.busTimeout a b)).context = (hw s).context := by
    split <;> rfl
  have hin : u.context = s.context := (regWrite_context hu).trans (hlog.trans (hw_hwFrame s).context)
  exact congrArg (fun c => (c.1, false)) hin

/-- A send that ends found the lock free, and leaves it free (`41_control_bus.md` R180, R184). -/
theorem l3Send_context {op : Instr} {g : Option Group} {a b : Byte} {s t : State} {r : Bool}
    (h : l3Send op g a b s = .next (r, t)) : t.context = s.context := by
  unfold l3Send at h
  split at h
  · cases h
  · split at h
    · cases h
    · next hfree =>
      obtain ⟨s1, h1, h⟩ := andThen_eq_next h
      obtain ⟨s2, h2, h⟩ := andThen_eq_next h
      obtain ⟨s3, h3, h⟩ := andThen_eq_next h
      have hheld : s3.context = (s.inIrq, true) := by
        rw [pollWriteDone_context h3, triggerSend_context h2, settleBus_context h1]; rfl
      rw [closeSend_context h, (Prod.mk.inj hheld).1]
      exact congrArg (s.inIrq, ·) ((Bool.eq_false_iff.2 hfree).symm)

theorem syncGroups_context {op : Instr} {gs : List Group} {s t : State} {r : Bool}
    (h : syncGroups op gs s = .next (r, t)) : t.context = s.context := by
  induction gs generalizing s r with
  | nil => cases h; rfl
  | cons g rest ih =>
    unfold syncGroups at h
    split at h
    · obtain ⟨⟨r1, t1⟩, h1, h⟩ := andThen_eq_next h
      obtain ⟨⟨r2, t2⟩, h2, h⟩ := andThen_eq_next h
      cases h
      exact (ih h2).trans (l3Send_context h1)
    · exact ih h

theorem sync_context {op : Instr} {s t : State} (h : sync op s = .next t) : t.context = s.context := by
  obtain ⟨⟨r, u⟩, hu, h⟩ := andThen_eq_next h
  have hc := syncGroups_context hu
  dsimp only at h
  split at h <;> cases h <;> exact hc

theorem changeMirror_context {op : Instr} {f : Params → Mirror → Mirror} {s t : State} (h : changeMirror op f s = .next t) :
    t.context = s.context := by
  obtain ⟨u, hu, h⟩ := andThen_eq_next (inNormalContext_next h)
  cases h
  exact (sync_context hu :)

theorem setRate_context {op : Instr} {rate v : Word} {s t : State} (h : setRate op rate s = .next (v, t)) :
    t.context = s.context := by
  unfold setRate at h
  obtain ⟨s2, h2, h⟩ := andThen_eq_next h
  obtain ⟨s3, h3, h⟩ := andThen_eq_next h
  cases h
  exact (sync_context h3).trans (regWrite_context h2 :)

theorem initSideband_context {s t : State} (h : initSideband s = .next t) : t.context = s.context := by
  obtain ⟨s1, h1, h⟩ := andThen_eq_next h
  obtain ⟨s2, h2, h⟩ := andThen_eq_next h
  rw [regUpdate_context h, regUpdate_context h2, State.emit_context, regUpdate_context h1]

theorem initController_context {op : Instr} {s t : State} (h : initController op s = .next t) : t.context = s.context := by
  obtain ⟨s1, h1, h⟩ := andThen_eq_next h
  obtain ⟨s2, h2, h⟩ := andThen_eq_next h
  obtain ⟨s3, h3, h⟩ := andThen_eq_next h
  obtain ⟨s4, h4, h⟩ := andThen_eq_next h
  rw [regUpdate_context h, regUpdate_context h4, regUpdate_context h3, waitAt_context h2, regUpdate_context h1]

/-! ### operations -/

theorem onDirection_context {sel : Byte} {s t : State} {k : Dir → Out State} (h : onDirection sel s k = .next t)
    (hk : ∀ d, k d = .next t → t.context = s.context) : t.context = s.context := by
  unfold onDirection at h
  split at h
  · next d _ => exact hk d h
  · cases h; rfl

theorem noteAmp_context (old : Word) (s : State) : (noteAmp old s).context = s.context := by
  rw [noteAmp_eq]; rfl

theorem execRegWr_context {rgn : Byte} {off v : Word} {s t : State} (h : execRegWr rgn off v s = .next t) :
    t.context = s.context := by
  unfold execRegWr at h
  split at h
  · cases h
  · obtain ⟨u, hu, h⟩ := andThen_eq_next h
    cases h
    exact (noteAmp_context _ u).trans (regWrite_context hu)

theorem execRegRd_context {rgn : Byte} {off : Word} {s t : State} (h : execRegRd rgn off s = .next t) :
    t.context = s.context := by
  unfold execRegRd at h
  split at h <;> cases h
  exact (regRead_hwFrame _ s).context

theorem execL3Send_context {a b : Byte} {s t : State} (h : execL3Send a b s = .next t) : t.context = s.context := by
  obtain ⟨⟨r, u⟩, hu, h⟩ := andThen_eq_next h
  cases h
  exact (l3Send_context hu :)

theorem execCodecSetrate_context {rate : Word} {s t : State} (h : execCodecSetrate rate s = .next t) :
    t.context = s.context := by
  obtain ⟨⟨v, u⟩, hu, h⟩ := andThen_eq_next (inNormalContext_next h)
  cases h
  exact (setRate_context hu :)

theorem execCtrlInit_context {s t : State} (h : execCtrlInit s = .next t) : t.context = s.context := by
  obtain ⟨s1, h1, h⟩ := andThen_eq_next (inNormalContext_next h)
  obtain ⟨s2, h2, h⟩ := andThen_eq_next h
  obtain ⟨⟨v, u⟩, h3, h⟩ := andThen_eq_next h
  cases h
  rw [finish_context, setRate_context h3, initController_context h2, initSideband_context h1]

theorem execDmaStart_context {dir : Byte} {addr len : Word} {s t : State} (h : execDmaStart dir addr len s = .next t) :
    t.context = s.context := by
  refine onDirection_context h fun d h => ?_
  obtain ⟨⟨st, u⟩, hu, h⟩ := andThen_eq_next h
  cases h
  exact (startBlock_ctx hu).context

theorem execDmaPoll_context {dir : Byte} {s t : State} (h : execDmaPoll dir s = .next t) : t.context = s.context := by
  refine onDirection_context h fun d h => ?_
  cases h
  exact (pollDone_hwFrame d s).context

theorem execDmaReset_context {s t : State} (h : execDmaReset s = .next t) : t.context = s.context := by
  obtain ⟨s1, h1, h⟩ := andThen_eq_next h
  obtain ⟨s2, h2, h⟩ := andThen_eq_next h
  obtain ⟨s3, h3, h⟩ := andThen_eq_next h
  cases h
  rw [finish_context, regUpdate_context h3, resetDirection_context h2, resetDirection_context h1]

theorem drawBind_context (s : State) : (drawBind s).2.context = s.context := (drawBind_drew s).hwFrame.context

theorem execIrqReq_context {dir : Byte} {s t : State} (h : execIrqReq dir s = .next t) : t.context = s.context := by
  refine onDirection_context h fun d h => ?_
  dsimp only at h
  split at h
  · cases h; rfl
  · split at h
    · split at h <;> cases h <;> simp [bindLine, unbindLine, drawBind_context]
    · cases h; exact drawBind_context s

theorem execIrqRel_context {dir : Byte} {s t : State} (h : execIrqRel dir s = .next t) : t.context = s.context := by
  refine onDirection_context h fun d h => ?_
  cases h
  exact releaseLines_context d s

/-- The synthetic event leaves the interrupt context it has entered (`60_exceptions.md` R346, R348). -/
theorem execIrqEvt_context {irq : Word} {s t : State} (hn : s.inIrq = false) (h : execIrqEvt irq s = .next t) :
    t.context = s.context := by
  obtain ⟨u, hu, h⟩ := andThen_eq_next h
  cases h
  have hlock : u.l3.lock = s.l3.lock := congrArg Prod.snd (handler_ctx hu).context
  unfold State.context
  rw [hn, ← hlock]
  rfl

theorem execChOpen_context {dir : Byte} {s t : State} (h : execChOpen dir s = .next t) : t.context = s.context := by
  refine onDirection_context h fun d h => ?_
  split at h <;> cases h
  · rfl
  · exact State.setDir_context d _ s

theorem execChClose_context {dir : Byte} {s t : State} (h : execChClose dir s = .next t) : t.context = s.context := by
  refine onDirection_context h fun d h => ?_
  split at h <;> cases h
  · rfl
  · exact State.modChan_context d _ s

theorem execSesArm_context {dir : Byte} {loop : Bool} {start size period ctx : Word} {s t : State}
    (h : execSesArm dir loop start size period ctx s = .next t) : t.context = s.context := by
  refine onDirection_context h fun d h => ?_
  split at h
  · cases h; rfl
  · split at h
    · obtain ⟨⟨st, u⟩, hu, h⟩ := andThen_eq_next h
      have hc := (startBlock_ctx hu).context.trans (State.setDir_context d _ s)
      cases st with
      | ok => cases h; exact hc
      | _ => cases h; exact (State.modChan_context d _ u).trans hc
    · cases h; rfl

theorem execSesStop_context {dir : Byte} {s t : State} (h : execSesStop dir s = .next t) : t.context = s.context := by
  refine onDirection_context h fun d h => ?_
  obtain ⟨u, hu, h⟩ := andThen_eq_next h
  cases h
  rw [finish_context, State.modBuf_context, State.modChan_context, releaseLines_context, stopPolls_context hu,
    State.modChan_context]

/-- Every operation issued in normal context ends in it, with the lock as it was. -/
theorem exec_context {i : Instr} {s t : State} (hn : s.inIrq = false) (h : exec i s = .next t) : t.context = s.context := by
  have answer {v : Word} (hv : (.next (finish v .ok s) : Out State) = .next t) : t.context = s.context := by
    cases hv; rfl
  unfold exec at h
  cases i with
  | regWr rgn off val => exact execRegWr_context h
  | regRd rgn off => exact execRegRd_context h
  | l3Send addr data => exact execL3Send_context h
  | codecOpen => exact changeMirror_context h
  | codecClose => exact changeMirror_context h
  | codecSync => exact changeMirror_context h
  | codecSetrate rate => exact execCodecSetrate_context h
  | setVol val => exact changeMirror_context h
  | setBass val => exact changeMirror_context h
  | setTreb val => exact changeMirror_context h
  | setMute val => exact changeMirror_context h
  | setFilt val => exact changeMirror_context h
  | getVol => exact answer h
  | getBass => exact answer h
  | getTreb => exact answer h
  | getMute => exact answer h
  | getFilt => exact answer h
  | ctrlInit => exact execCtrlInit_context h
  | dmaStart dir addr len => exact execDmaStart_context h
  | dmaPoll dir => exact execDmaPoll_context h
  | dmaReset => exact execDmaReset_context h
  | irqReq dir => exact execIrqReq_context h
  | irqRel dir => exact execIrqRel_context h
  | irqEvt irq => exact execIrqEvt_context hn h
  | chOpen dir => exact execChOpen_context h
  | chClose dir => exact execChClose_context h
  | sesArm dir loop start size period ctx => exact execSesArm_context h
  | sesStop dir => exact execSesStop_context h
  | sesPos dir => exact onDirection_context h fun _ => answer

/-! ### steps -/

theorem HwFrame.contextInv {s t : State} (h : HwFrame s t) (hs : ContextInv s) : ContextInv t := by
  rw [contextInv_iff] at hs ⊢
  rw [h.context, h.seq]
  exact hs

/-- A completed operation leaves `seq` = `IDLE` (`10_state.md` R24). -/
theorem exec_contextInv {i : Instr} {s t : State} (hs : ContextInv s) (h : exec i s = .next t) : ContextInv t := by
  obtain ⟨hcontext, -⟩ := (contextInv_iff s).1 hs
  obtain ⟨v, st, u, -, ht⟩ := exec_completes h
  exact (contextInv_iff t).2 ⟨(exec_context hs.1 h).trans hcontext, by rw [ht, finish_seq]⟩

theorem passTime_contextInv {n : Nat} {s : State} (hs : ContextInv s) : ContextInv (passTime n s) := by
  obtain ⟨u, hu, -, he⟩ := passTime_hwFrame n s
  rw [he]
  exact hu.contextInv hs

theorem hostAction_contextInv {s : State} (hs : ContextInv s) : ContextInv (hostAction s) := by
  unfold hostAction
  split
  · exact passTime_contextInv hs
  · exact hs
  · exact (hostStore_frames _ _ _).1.contextInv hs
  · exact (hostLoad_frames _ _).1.contextInv hs
  · exact passTime_contextInv hs

theorem hostTurn_contextInv {s t : State} (hs : ContextInv s) (h : hostTurn exec s = .next t) : ContextInv t := by
  unfold hostTurn runPacket at h
  split at h
  · split at h
    · split at h
      · exact exec_contextInv hs h
      · cases h; exact (contextInv_iff _).2 ⟨((contextInv_iff s).1 hs).1, rfl⟩
    · cases h
  · cases h; exact hostAction_contextInv hs

/-- A delivery leaves the host's operation where it stands, and its own recovery delay with its context (`60_exceptions.md` R348). -/
theorem deliver_seq {d : Dir} {e : Eng} {s t : State} (h : deliver d e s = .next t) :
    t.seq = { s.seq with recoveryDelay := false } := by
  obtain ⟨u, hu, h⟩ := andThen_eq_next h
  cases h
  rw [exitInterrupt_seq, (handler_ctx hu).seq]
  rfl

theorem deliver_contextInv {d : Dir} {e : Eng} {s t : State} (hs : ContextInv s) (h : deliver d e s = .next t) :
    ContextInv t := by
  obtain ⟨hcontext, hseq⟩ := (contextInv_iff s).1 hs
  exact (contextInv_iff t).2 ⟨(deliver_ctx hs.1 h).context.trans hcontext, by rw [deliver_seq h, hseq]; rfl⟩

/-- The step of an agent that was enabled when the choice of the next agent was drawn. -/
theorem actorStep_contextInv {g : Actor} {s u t : State} (hg : g ∈ actors s) (hu : Drew s u) (hs : ContextInv u)
    (h : actorStep g u = .next t) : ContextInv t := by
  cases g with
  | hardware g =>
    cases h
    exact (hwStep_frames (by rw [hu.hwAgents]; exact hardware_of_mem hg)).1.contextInv hs
  | line d e => exact deliver_contextInv hs h

end Sys2Proof.Machine

namespace Sys2Proof.Proofs

open Sys2Proof.Machine

/-- Settles O56: hardware agents touch neither context nor lock, a delivery leaves the context it enters, and an operation of the host
ends with its context, the lock free and `seq` = `IDLE`. -/
theorem stepEndsInNormalContext : Obligations.StepEndsInNormalContext := by
  intro s t hs h
  obtain ⟨hdrew, -⟩ := choose_spec s
  have hchosen : ContextInv (choose s).2 := hdrew.hwFrame.contextInv hs
  obtain ⟨-, ⟨g, hg, -, hact⟩ | ⟨-, hhost⟩⟩ := step_cases h
  · exact actorStep_contextInv hg hdrew hchosen hact
  · exact hostTurn_contextInv hchosen hhost

end Sys2Proof.Proofs
end
section
/-! Delivery of an interrupt: a step whose choice falls on a line is the delivery of that line, the delivery is the synthetic event of
its identity but for what completes a host operation, and neither is ever refused (`60_exceptions.md` R345 to R348). -/

namespace Sys2Proof.Machine

/-! ### whose turn it is (`60_exceptions.md` R345) -/

theorem deliverable_iff (s : State) (d : Dir) (e : Eng) : deliverable s d e = true ↔
    (s.engine d e).done = true ∧ (s.dir d).chan.bound e = true ∧ s.inIrq = false := by
  simp [deliverable, and_assoc]

theorem line_mem_actors_iff {d : Dir} {e : Eng} {s : State} : Actor.line d e ∈ actors s ↔ deliverable s d e = true := by
  refine ⟨line_of_mem, fun h => List.mem_append_right _ ?_⟩
  unfold lineActors
  cases d <;> cases e <;> simp [h]

/-- A choice drawn as `j + 1` falls on the agent at place `j`. -/
theorem choose_actor {s s1 : State} {g : Actor} {j : Nat} (hg : (actors s)[j]? = some g) (hd : drawPick s = (j + 1, s1)) :
    choose s = (some g, s1) := by
  unfold choose
  split
  · next hn => rw [hn] at hg; cases hg
  · rw [hd]
    exact congrArg (·, s1) hg

/-- Where the choice falls on a line, the step is its delivery, in normal context, from the state the draw leaves. -/
theorem step_delivers {s s1 : State} {d : Dir} {e : Eng} {j : Nat} (hc : s.cfg.chipAddr ≠ 0)
    (hg : (actors s)[j]? = some (.line d e)) (hd : drawPick s = (j + 1, s1)) :
    step s = deliver d e s1 ∧ HwFrame s s1 ∧ s1.inIrq = false := by
  have hframe : HwFrame s s1 := by simpa [hd] using (drawPick_drew s).hwFrame
  obtain ⟨-, -, hn⟩ := (deliverable_iff s d e).1 (line_of_mem (List.mem_of_getElem? hg))
  refine ⟨?_, hframe, hframe.inIrq.trans hn⟩
  unfold step turn
  rw [if_neg hc, choose_actor hg hd]
  rfl

/-! ### the delivery and the synthetic event (`60_exceptions.md` R346) -/

/-- The synthetic event of a line is its delivery, and then the completion of the host's operation. -/
theorem exec_irqEvt_eq_deliver (d : Dir) (e : Eng) (s : State) : exec (.irqEvt (irqId d e)) s =
    andThen (deliver d e s) fun t => .next (answered 0 0 t) := by
  obtain ⟨q, hq⟩ := handler_withSeq ⟨some (.irqEvt (irqId d e)), none, none, false⟩ (irqId d e) (enterInterrupt s)
  show andThen (handler (irqId d e) ((enterInterrupt s).withSeq _)) (fun t => .next (finish 0 .ok (exitInterrupt t))) = _
  rw [hq]
  unfold deliver
  cases handler (irqId d e) (enterInterrupt s) <;> rfl

theorem deliver_lastServiced {d : Dir} {e : Eng} {s t : State} (h : deliver d e s = .next t) :
    (t.dir d).lastServiced = some e := by
  obtain ⟨u, hu, h⟩ := andThen_eq_next h
  cases h
  rw [handler_irqId] at hu
  obtain ⟨v, -, hu⟩ := andThen_eq_next hu
  cases hu
  rw [exitInterrupt_dir, serviced_lastServiced]

/-! ### the handler is never refused -/

/-- The computation does not end in a refusal. -/
def NotRefused {α : Type} (x : Out α) : Prop := ∀ r, x ≠ .refused r

theorem NotRefused.next {α : Type} (a : α) : NotRefused (.next a : Out α) := nofun

theorem NotRefused.fault {α : Type} (f : Fault) : NotRefused (.fault f : Out α) := nofun

theorem NotRefused.andThen {α β : Type} {x : Out α} {k : α → Out β} (hx : NotRefused x) (hk : ∀ a, NotRefused (k a)) :
    NotRefused (Machine.andThen x k) := by
  cases x with
  | next a => exact hk a
  | fault f => exact .fault f
  | refused r => exact absurd rfl (hx r)

theorem NotRefused.ite {α : Type} {c : Prop} [Decidable c] {x y : Out α} (hx : NotRefused x) (hy : NotRefused y) :
    NotRefused (if c then x else y) := by
  split
  · exact hx
  · exact hy

/-- A start answers a status, or faults on a block the hardware gives no meaning (`44_dma_engine.md` R250). -/
theorem startBlock_notRefused (d : Dir) (addr len : Word) (s : State) : NotRefused (startBlock d addr len s) := by
  by_cases hlen : len = 0
  · rw [hlen, startBlock_empty]; exact .next _
  · by_cases hbusy : ((hw s).engine d .a).busy = true ∨ ((hw s).engine d .b).busy = true
    · rw [startBlock_busy hlen hbusy]; exact .next _
    · simp only [not_or, Bool.not_eq_true] at hbusy
      obtain ⟨hidleA, hidleB⟩ := hbusy
      obtain ⟨hgood, hbad⟩ := startBlock_idle addr hlen hidleA hidleB
      by_cases hok : BlockOk s.cfg addr len
      · obtain ⟨w, -, hstart⟩ := hgood hok
        rw [hstart]; exact .next _
      · rw [hbad hok]; exact .fault _

theorem rearm_notRefused (d : Dir) (addr len : Word) (s : State) : NotRefused (rearm d addr len s) := by
  refine .andThen (startBlock_notRefused d addr len s) fun r => ?_
  split <;> exact .next _

theorem serviceBuffer_notRefused (d : Dir) (s : State) : NotRefused (serviceBuffer d s) :=
  .ite (.ite (.ite (rearm_notRefused d _ _ _) (.next _)) (.ite (rearm_notRefused d _ _ _) (.ite (.next _) (.next _)))) (.next _)

theorem deliver_notRefused (d : Dir) (e : Eng) (s : State) : NotRefused (deliver d e s) := by
  unfold deliver
  rw [handler_irqId]
  exact .andThen (.andThen (serviceBuffer_notRefused d _) fun _ => .next _) fun _ => .next _

theorem andThen_next_eq_fault_iff {α β : Type} {x : Out α} {k : α → β} {f : Fault} :
    (andThen x fun a => .next (k a)) = .fault f ↔ x = .fault f := by
  cases x <;> simp

end Sys2Proof.Machine

namespace Sys2Proof.Proofs

open Sys2Proof.Machine

/-- Settles O47: the step is the delivery of the line from the state after the draw, and the synthetic event is that delivery and then
the completion of the host's operation. -/
theorem deliveryLeavesTheHostAlone : Obligations.DeliveryLeavesTheHostAlone := by
  refine ⟨fun s d e hin => by simp [deliverable, hin], fun s d e => line_mem_actors_iff.trans (deliverable_iff s d e),
    fun s s1 d e j hc hs hg hd => ?_, fun s s1 d e j hc hg hd => ?_⟩
  · obtain ⟨hstep, hframe, hn⟩ := step_delivers hc hg hd
    obtain ⟨t, ht⟩ := deliver_total (hframe.streams hs) d e
    exact ⟨t, hstep.trans ht, hframe.ctx.trans (deliver_ctx hn ht), deliver_lastServiced ht,
      by rw [exec_irqEvt_eq_deliver, ht, andThen_next]⟩
  · obtain ⟨hstep, hframe, hn⟩ := step_delivers hc hg hd
    rw [hstep, exec_irqEvt_eq_deliver]
    refine ⟨fun t ht => ?_, fun f => andThen_next_eq_fault_iff.symm, deliver_notRefused d e s1⟩
    have hctx := deliver_ctx hn ht
    exact ⟨hctx.port.trans hframe.port, by rw [deliver_seq ht, hframe.seq], hctx.inIrq.trans hn, by rw [ht, andThen_next]⟩

end Sys2Proof.Proofs
end

section
/-! Host memory under every step: hardware agents and the host's own stores keep its canonical form, and nothing else writes it
(`10_state.md` R97, `20_memory.md` R111, R122). So every part of an operation keeps it, and with them every step. -/

namespace Sys2Proof.Machine

/-! ### ends of a computation -/

/-- Where the computation answers, its answer meets `P`. -/
def Ends {α : Type} (P : α → Prop) (x : Out α) : Prop := ∀ a, x = .next a → P a

theorem Ends.next {α : Type} {P : α → Prop} {a : α} (h : P a) : Ends P (.next a) := fun _ ha => Host.Outcome.next.inj ha ▸ h

theorem Ends.fault {α : Type} {P : α → Prop} (f : Fault) : Ends P (.fault f) := nofun

theorem Ends.refused {α : Type} {P : α → Prop} (r : Refusal) : Ends P (.refused r) := nofun

theorem Ends.andThen {α β : Type} {P : α → Prop} {Q : β → Prop} {x : Out α} {k : α → Out β} (hx : Ends P x)
    (hk : ∀ a, P a → Ends Q (k a)) : Ends Q (Machine.andThen x k) := fun b hb => by
  obtain ⟨a, ha, hb⟩ := andThen_eq_next hb
  exact hk a (hx a ha) b hb

theorem Ends.ite {α : Type} {P : α → Prop} {c : Prop} [Decidable c] {x y : Out α} (hx : Ends P x) (hy : Ends P y) :
    Ends P (if c then x else y) := by
  split
  · exact hx
  · exact hy

/-- The computation ends with host memory in its canonical form. -/
abbrev EndsCanonical (x : Out State) : Prop := Ends MemInv x

/-- The same of a computation that answers a value beside the state. -/
abbrev AnswersCanonical {α : Type} (x : Out (α × State)) : Prop := Ends (fun r => MemInv r.2) x

/-! ### parts of the state that are not host memory -/

theorem MemInv.congr {s t : State} (hs : MemInv s) (h : t.mem = s.mem) : MemInv t := by
  unfold MemInv; rw [h]; exact hs

/-- Nothing of a direction is host memory. -/
theorem MemInv.setDir {s : State} (hs : MemInv s) (d : Dir) (x : Direction) : MemInv (s.setDir d x) :=
  hs.congr (State.setDir_mem d x s)

theorem MemInv.ite {c : Prop} [Decidable c] {s t : State} (hs : MemInv s) (ht : MemInv t) : MemInv (if c then s else t) := by
  split
  · exact hs
  · exact ht

/-! ### hardware agents, time and register accesses -/

section Canonical

variable {s : State} (hs : MemInv s)
include hs

theorem Drew.memInv {t : State} (h : Drew s t) : MemInv t := hs.congr h.mem

theorem hw_memInv : MemInv (hw s) := (hw_moved s).2.1.wf hs

theorem abandonBlock_memInv (d : Dir) (e : Eng) : MemInv (abandonBlock d e s) := (abandonBlock_memFrame d e s).wf hs

theorem passTime_memInv (n : Nat) : MemInv (passTime n s) := by
  obtain ⟨u, -, hmem, he⟩ := passTime_hwFrame n s
  rw [he]
  exact hs.congr hmem

theorem regRead_memInv (r : Reg) : MemInv (regRead r s).2 := (hw_memInv hs).congr (regLoad_drew r (hw s)).mem

theorem startEngine_canonical (d : Dir) (e : Eng) : EndsCanonical (startEngine d e s) := .ite (.next (hs.setDir _ _)) (.fault _)

/-- A write of `CS[d]` moves at most what the blocks it abandons had still to move (`44_dma_engine.md` R274). -/
theorem storeCs_canonical (d : Dir) (w : Word) : EndsCanonical (storeCs d w s) := by
  have hcleared : MemInv (s.modHw d (DmaHw.clearAndEnable w)) := hs.setDir _ _
  exact .ite (.ite (.fault _) (.ite (startEngine_canonical hcleared d .a)
      (.ite (startEngine_canonical hcleared d .b) (.next hcleared))))
    (.next ((abandonBlock_memInv (abandonBlock_memInv hcleared d .a) d .b).setDir _ _))

theorem storeCtrl0_canonical (new : Word) : EndsCanonical (storeCtrl0 new s) := by
  have hlost : MemInv (abandonFrame s) := .ite hs hs
  exact .ite (.next hlost) (.ite (.refused _) (.next hs))

theorem triggerFrame_canonical (v : Byte) : EndsCanonical (triggerFrame v s) :=
  .ite (.refused _) (.ite (.fault _) (.ite (.next hs) (.next hs)))

theorem regStore_canonical (r : Reg) (v : Word) : EndsCanonical (regStore r v s) := by
  cases r with
  | ctrl0 => exact storeCtrl0_canonical hs _
  | l3data =>
    have hprimed : MemInv { s with regs := { s.regs with l3data := v.extractLsb' 0 8 } } := hs
    exact triggerFrame_canonical hprimed _
  | cs d => exact storeCs_canonical hs d v
  | addr d e => exact .ite (.fault _) (.next (hs.setDir _ _))
  | cnt d e => exact .ite (.fault _) (.next (hs.setDir _ _))
  | _ => exact .next hs

theorem regWrite_canonical (r : Reg) (v : Word) : EndsCanonical (regWrite r v s) := regStore_canonical (hw_memInv hs) r v

theorem regUpdate_canonical (r : Reg) (f : Word → Word) : EndsCanonical (regUpdate r f s) :=
  regWrite_canonical (regRead_memInv hs r) r _

/-! ### the DMA engine -/

theorem startBlock_canonical (d : Dir) (addr len : Word) : AnswersCanonical (startBlock d addr len s) :=
  .ite (.next hs) (.ite (.next (hw_memInv hs)) (.andThen (regWrite_canonical (hw_memInv hs) _ _) fun _ h2 =>
    .andThen (regWrite_canonical h2 _ _) fun _ h3 => .andThen (regWrite_canonical h3 _ _) fun _ h4 => .next (h4.setDir _ _)))

theorem pollDone_memInv (d : Dir) : MemInv (pollDone d s).2 := by
  unfold pollDone
  split
  · exact hs
  · exact regRead_memInv hs (.cs d)

theorem resetDirection_canonical (d : Dir) : EndsCanonical (resetDirection d s) :=
  .andThen (regWrite_canonical hs _ _) fun _ h1 => .andThen (regWrite_canonical h1 _ _) fun _ h2 =>
    .andThen (regWrite_canonical h2 _ _) fun _ h3 => .andThen (regWrite_canonical h3 _ _) fun _ h4 =>
      regWrite_canonical h4 _ _

theorem releaseLine_memInv (d : Dir) (e : Eng) : MemInv (releaseLine d e s) :=
  .ite (hs.setDir _ _) hs

theorem releaseLines_memInv (d : Dir) : MemInv (releaseLines d s) := releaseLine_memInv (releaseLine_memInv hs d .a) d .b

/-! ### the handler -/

theorem recoverEngine_memInv (d : Dir) (e : Eng) : MemInv (recoverEngine d e s) := by
  have hcleared : MemInv (recovered d e s) := ((abandonBlock_memInv hs d e).setDir d _).setDir d _
  have hdelay (q : Seq) : MemInv { recovered d e s with seq := q } := hcleared
  exact passTime_memInv (hw_memInv (hdelay _)) _

theorem recoveryChecks_memInv (d : Dir) (e : Eng) : MemInv (recoveryChecks d e s) := by
  have hread : MemInv (hw (hw s)) := hw_memInv (hw_memInv hs)
  have hrepeat : MemInv (if ((hw (hw s)).dir d).lastServiced = some e then
      (recoverEngine d e (hw (hw s))).log (.repeatCompletion d e) else hw (hw s)) := .ite (recoverEngine_memInv hread d e) hread
  exact .ite (recoverEngine_memInv (hrepeat.setDir d _) d e.other) (hrepeat.setDir d _)

theorem callback_memInv (d : Dir) : MemInv (callback d s) := .ite hs hs

theorem rearm_canonical (d : Dir) (addr len : Word) : EndsCanonical (rearm d addr len s) := by
  refine .andThen (startBlock_canonical hs d addr len) fun r hr => ?_
  split
  · exact .next hr
  · exact .next hr

theorem serviceBuffer_canonical (d : Dir) : EndsCanonical (serviceBuffer d s) := by
  have hmoved {f : Buffer → Buffer} {u : State} (hu : MemInv u) : MemInv (u.modBuf d f) := hu.setDir _ _
  exact .ite (.ite (.ite (rearm_canonical (callback_memInv (hmoved hs) d) d _ _) (.next (hmoved hs)))
    (.ite (rearm_canonical (callback_memInv (hmoved (hmoved (hmoved hs))) d) d _ _)
      (.ite (.next (callback_memInv (hmoved (hmoved hs)) d)) (.next (hmoved (hmoved hs)))))) (.next hs)

theorem handler_canonical (id : Word) : EndsCanonical (handler id s) :=
  .ite (.next hs) (.andThen (serviceBuffer_canonical (recoveryChecks_memInv hs _ _) _) fun _ h1 =>
    .andThen (regWrite_canonical h1 _ _) fun _ h2 => .next (h2.setDir _ _))

theorem deliver_canonical (d : Dir) (e : Eng) : EndsCanonical (deliver d e s) :=
  .andThen (handler_canonical (s := enterInterrupt s) hs _) fun _ h1 => .next h1

/-! ### waits -/

/-- An agent of the list of enabled agents takes its step after the draw that chose it. -/
theorem actorStep_canonical {g : Actor} (hg : g ∈ actors s) {u : State} (hu : Drew s u) : EndsCanonical (actorStep g u) := by
  have hdrawn : MemInv u := hu.memInv hs
  cases g with
  | hardware g =>
    have henabled : g ∈ hwAgents u := by rw [hu.hwAgents]; exact hardware_of_mem hg
    exact .next ((hwStep_frames henabled).2.wf hdrawn)
  | line d e => exact deliver_canonical hdrawn d e

end Canonical

theorem waitRounds_canonical (n : Nat) {s : State} (hs : MemInv s) : EndsCanonical (waitRounds n s) := by
  induction n generalizing s with
  | zero => exact .next hs
  | succ n ih =>
    unfold waitRounds
    split
    · exact .next hs
    · have hdrew := drawPick_drew s
      generalize drawPick s = r at hdrew ⊢
      obtain ⟨k, u⟩ := r
      have hdrawn : MemInv u := hdrew.memInv hs
      cases k with
      | zero => exact ih hdrawn
      | succ j =>
        dsimp only
        split
        · next g hg => exact .andThen (actorStep_canonical hs (List.mem_of_getElem? hg) hdrew) fun _ h1 => ih h1
        · exact ih hdrawn

theorem waitAt_canonical {s : State} (hs : MemInv s) (op : Instr) (g : Option Group) (pos : WaitPos) (n : Nat) :
    EndsCanonical (waitAt op g pos n s) := by
  have hevents {u : State} (hu : MemInv u) : EndsCanonical (waitEvents u) := by
    unfold waitEvents
    split
    · exact .next hu
    · exact waitRounds_canonical _ ((drawPick_drew u).memInv hu)
  exact .andThen (hevents (u := { s with seq := ⟨some op, g, some pos, false⟩ }) hs) fun _ h1 => .next (passTime_memInv h1 n)

/-! ### the control bus and the codec -/

theorem pollWriteDone_canonical (op : Instr) (g : Option Group) (n i : Nat) {s : State} (hs : MemInv s) :
    EndsCanonical (pollWriteDone op g n i s) := by
  induction n generalizing i s with
  | zero => exact .next hs
  | succ n ih =>
    rw [pollWriteDone_succ]
    exact .ite (.next (hw_memInv hs)) (.andThen (waitAt_canonical (hw_memInv hs) op g _ _) fun _ h1 => ih (i + 1) h1)

section Sends

variable {s : State} (hs : MemInv s)
include hs

theorem settleBus_canonical (op : Instr) (g : Option Group) : EndsCanonical (settleBus op g s) :=
  .andThen (regWrite_canonical hs _ _) fun _ h1 => .andThen (regWrite_canonical h1 _ _) fun _ h2 =>
    waitAt_canonical h2 op g _ _

theorem triggerSend_canonical (a b : Byte) : EndsCanonical (triggerSend a b s) := by
  have hread := regRead_memInv hs .statclr
  unfold triggerSend
  exact .andThen (regWrite_canonical hread _ _) fun _ h2 => .andThen (regWrite_canonical h2 _ _) fun _ h3 =>
    regWrite_canonical h3 _ _

theorem closeSend_canonical (a b : Byte) : AnswersCanonical (closeSend a b s) := by
  have hlogged : MemInv (if (hw s).regs.l3wd then hw s else (hw s).log (.busTimeout a b)) := .ite (hw_memInv hs) (hw_memInv hs)
  unfold closeSend
  exact .andThen (regWrite_canonical hlogged _ _) fun _ h3 => .next h3

theorem l3Send_canonical (op : Instr) (g : Option Group) (a b : Byte) : AnswersCanonical (l3Send op g a b s) :=
  .ite (.refused _) (.ite (.fault _) (.andThen (settleBus_canonical (s := { s with l3 := { s.l3 with lock := true } }) hs op g)
    fun _ h1 => .andThen (triggerSend_canonical h1 a b) fun _ h2 =>
      .andThen (pollWriteDone_canonical op g _ _ h2) fun _ h3 => closeSend_canonical h3 a b))

end Sends

theorem syncGroups_canonical (op : Instr) (gs : List Group) {s : State} (hs : MemInv s) :
    AnswersCanonical (syncGroups op gs s) := by
  induction gs generalizing s with
  | nil => exact .next hs
  | cons g rest ih =>
    exact .ite (.andThen (l3Send_canonical hs op (some g) _ _) fun _ h1 => .andThen (ih h1) fun _ h2 => .next h2) (ih hs)

section Operations

variable {s : State} (hs : MemInv s)
include hs

theorem sync_canonical (op : Instr) : EndsCanonical (sync op s) :=
  .andThen (syncGroups_canonical op groupOrder hs) fun _ h => .ite (.next h) (.next h)

theorem setRate_canonical (op : Instr) (rate : Word) : AnswersCanonical (setRate op rate s) := by
  have hmirror {u : State} (hu : MemInv u) (m : Mirror) : MemInv { u with mirror := m } := hu
  unfold setRate
  exact .andThen (regWrite_canonical (hmirror hs _) _ _) fun _ h2 =>
    .andThen (sync_canonical (hmirror h2 _) op) fun _ h3 => .next h3

/-! ### controller init and the session -/

theorem initSideband_canonical : EndsCanonical (initSideband s) :=
  .andThen (regUpdate_canonical hs _ _) fun u h1 =>
    .andThen (regUpdate_canonical (s := u.emit (.amp true true)) h1 _ _) fun _ h2 => regUpdate_canonical h2 _ _

theorem initController_canonical (op : Instr) : EndsCanonical (initController op s) :=
  .andThen (regUpdate_canonical hs _ _) fun _ h1 => .andThen (waitAt_canonical h1 op none _ _) fun _ h2 =>
    .andThen (regUpdate_canonical h2 _ _) fun _ h3 => .andThen (regUpdate_canonical h3 _ _) fun _ h4 =>
      regUpdate_canonical h4 _ _

end Operations

theorem stopPolls_canonical (op : Instr) (d : Dir) (n i : Nat) {s : State} (hs : MemInv s) :
    EndsCanonical (stopPolls op d n i s) := by
  induction n generalizing i s with
  | zero => exact .next hs
  | succ n ih =>
    have hpolled := pollDone_memInv hs d
    unfold stopPolls
    exact .ite (.next hpolled) (.andThen (waitAt_canonical hpolled op none _ _) fun _ h1 => ih (i + 1) h1)

/-! ### operations -/

theorem inNormalContext_canonical {s : State} {k : State → Out State} (hk : EndsCanonical (k s)) :
    EndsCanonical (inNormalContext s k) := .ite (.refused _) hk

section Completions

variable {s : State} (hs : MemInv s)
include hs

/-- An operation on a direction: the rejection of a bad one writes nothing. -/
theorem onDirection_canonical {sel : Byte} {k : Dir → Out State} (hk : ∀ d, EndsCanonical (k d)) :
    EndsCanonical (onDirection sel s k) := by
  unfold onDirection
  split
  · exact hk _
  · exact .next hs

theorem execRegWr_canonical (rgn : Byte) (off v : Word) : EndsCanonical (execRegWr rgn off v s) := by
  unfold execRegWr
  split
  · exact .fault _
  · exact .andThen (regWrite_canonical hs _ _) fun u h1 => .next (show MemInv (noteAmp s.regs.pgpio u) from .ite h1 h1)

theorem execRegRd_canonical (rgn : Byte) (off : Word) : EndsCanonical (execRegRd rgn off s) := by
  unfold execRegRd
  split
  · exact .fault _
  · next r _ => exact .next (regRead_memInv hs r)

theorem changeMirror_canonical (op : Instr) (f : Params → Mirror → Mirror) : EndsCanonical (changeMirror op f s) :=
  inNormalContext_canonical (.andThen (sync_canonical (s := { s with mirror := f s.cfg s.mirror }) hs op) fun _ h1 => .next h1)

theorem execCtrlInit_canonical : EndsCanonical (execCtrlInit s) :=
  inNormalContext_canonical (.andThen (initSideband_canonical hs) fun _ h1 =>
    .andThen (initController_canonical h1 _) fun _ h2 => .andThen (setRate_canonical h2 _ _) fun _ h3 => .next h3)

theorem execDmaReset_canonical : EndsCanonical (execDmaReset s) :=
  .andThen (resetDirection_canonical hs _) fun _ h1 => .andThen (resetDirection_canonical h1 _) fun _ h2 =>
    .andThen (regUpdate_canonical h2 _ _) fun _ h3 => .next h3

theorem execIrqReq_canonical (dir : Byte) : EndsCanonical (execIrqReq dir s) := by
  refine onDirection_canonical hs fun d => .ite (.next hs) ?_
  have hdrawn {u : State} (hu : MemInv u) : MemInv (drawBind u).2 := (drawBind_drew u).memInv hu
  have hline {u : State} (hu : MemInv u) (e : Eng) : MemInv (bindLine d e u) ∧ MemInv (unbindLine d e u) :=
    ⟨hu.setDir _ _, hu.setDir _ _⟩
  have hasked := hdrawn (hline (hdrawn hs) .a).1
  exact .ite (.ite (.next (hline hasked .b).1) (.next (hline hasked .a).2)) (.next (hdrawn hs))

theorem execSesArm_canonical (dir : Byte) (loop : Bool) (start size period ctx : Word) :
    EndsCanonical (execSesArm dir loop start size period ctx s) := by
  refine onDirection_canonical hs fun d => .ite (.next hs) (.ite (.andThen (startBlock_canonical (hs.setDir d _) d _ _)
    fun r hr => ?_) (.next hs))
  split
  · exact .next hr
  · exact .next (hr.setDir _ _)

theorem execSesStop_canonical (dir : Byte) : EndsCanonical (execSesStop dir s) :=
  onDirection_canonical hs fun d => .andThen (stopPolls_canonical _ d _ _ (hs.setDir _ _)) fun _ h1 =>
    .next (((releaseLines_memInv h1 d).setDir _ _).setDir _ _)

/-- Every operation keeps host memory in its canonical form. -/
theorem exec_canonical (i : Instr) : EndsCanonical (exec i s) := by
  unfold exec
  cases i with
  | regWr rgn off val => exact execRegWr_canonical hs rgn off val
  | regRd rgn off => exact execRegRd_canonical hs rgn off
  | l3Send addr data => exact .andThen (l3Send_canonical hs _ none addr data) fun _ h1 => .next h1
  | codecOpen => exact changeMirror_canonical hs _ _
  | codecClose => exact changeMirror_canonical hs _ _
  | codecSync => exact changeMirror_canonical hs _ _
  | codecSetrate rate =>
    exact inNormalContext_canonical (.andThen (setRate_canonical hs _ rate) fun _ h1 => .next h1)
  | setVol val => exact changeMirror_canonical hs _ _
  | setBass val => exact changeMirror_canonical hs _ _
  | setTreb val => exact changeMirror_canonical hs _ _
  | setMute val => exact changeMirror_canonical hs _ _
  | setFilt val => exact changeMirror_canonical hs _ _
  | getVol => exact .next hs
  | getBass => exact .next hs
  | getTreb => exact .next hs
  | getMute => exact .next hs
  | getFilt => exact .next hs
  | ctrlInit => exact execCtrlInit_canonical hs
  | dmaStart dir addr len =>
    exact onDirection_canonical hs fun d => .andThen (startBlock_canonical hs d addr len) fun _ h1 => .next h1
  | dmaPoll dir => exact onDirection_canonical hs fun d => .next (pollDone_memInv hs d)
  | dmaReset => exact execDmaReset_canonical hs
  | irqReq dir => exact execIrqReq_canonical hs dir
  | irqRel dir => exact onDirection_canonical hs fun d => .next (releaseLines_memInv hs d)
  | irqEvt irq => exact .andThen (handler_canonical (s := enterInterrupt { s with seq := _ }) hs irq) fun _ h1 => .next h1
  | chOpen dir => exact onDirection_canonical hs fun d => .ite (.next hs) (.next (hs.setDir _ _))
  | chClose dir => exact onDirection_canonical hs fun d => .ite (.next hs) (.next (hs.setDir _ _))
  | sesArm dir loop start size period ctx => exact execSesArm_canonical hs dir loop start size period ctx
  | sesStop dir => exact execSesStop_canonical hs dir
  | sesPos dir => exact onDirection_canonical hs fun d => .next hs

/-! ### steps -/

/-- The host's own loads and stores stay inside the address space (`10_state.md` R97). -/
theorem hostAction_memInv : MemInv (hostAction s) := by
  have hnext (r : List HostAct) : MemInv { s with env := { s.env with host := r } } := hs
  unfold hostAction
  split
  · exact passTime_memInv hs 1
  · exact hs
  · next a v r _ => exact Memory.write_wf a.isLt v ((settle_frames a.toNat _).2.wf (hnext r))
  · next a r _ => exact (hostLoad_frames a.toNat _).2.wf (hnext r)
  · next r _ => exact passTime_memInv (hnext r) 1

theorem hostTurn_canonical : EndsCanonical (hostTurn exec s) := by
  have hrun : EndsCanonical (runPacket exec s) := by
    unfold runPacket
    split
    · exact exec_canonical hs _
    · exact .next hs
  exact .ite (.ite hrun (.refused _)) (.next (hostAction_memInv hs))

end Completions

end Sys2Proof.Machine

namespace Sys2Proof.Proofs

open Sys2Proof.Machine

/-- Settles O53: an agent moves only blocks inside the address space, the host stores only inside it, and nothing else writes host
memory. -/
theorem stepKeepsMemoryCanonical : Obligations.StepKeepsMemoryCanonical := by
  intro s t hs h
  obtain ⟨hdrew, -⟩ := choose_spec s
  obtain ⟨-, ⟨g, hg, -, hact⟩ | ⟨-, hhost⟩⟩ := step_cases h
  · exact actorStep_canonical hs hg hdrew t hact
  · exact hostTurn_canonical (hdrew.memInv hs) t hhost

end Sys2Proof.Proofs
end

section
/-! The state after reset, piece by piece (`70_reset_and_hazards.md` R370): nothing of it operates, and it meets every invariant
(R375, R376). -/

namespace Sys2Proof.Machine

/-! ### what the reset state holds (`70_reset_and_hazards.md` R370) -/

@[simp] theorem State.reset_dir (d : Dir) : State.reset.dir d = Direction.reset := by cases d <;> rfl

@[simp] theorem State.reset_engine (d : Dir) (e : Eng) : State.reset.engine d e = Engine.reset := by
  cases d <;> cases e <;> rfl

/-- A read of `STATUS` with both flags clear is the draw of its unnamed bits (`10_state.md` R44). -/
theorem status_flagsClear {s : State} (hwd : s.regs.l3wd = false) (hrd : s.regs.l3rd = false) :
    (regLoad .status s).1 = (drawNoise s).1 &&& 0xFFFCFFFF := by
  simp [regLoad, hwd, hrd, flagAt, Config.dts, Config.rdd]

/-! ### what cannot operate (`70_reset_and_hazards.md` R375) -/

/-- With the controller disabled no sub-engine can run, whatever its channel (`44_dma_engine.md` R270). -/
theorem dmaCanRun_disabled {s : State} (h : hasBit s.regs.ctrl0 Config.enb = false) (d : Dir) : dmaCanRun s d = false := by
  simp [dmaCanRun, h]

/-! ### the invariants of an idle machine -/

/-- A direction without a session, its streak not counting, meets the invariant of its descriptors. -/
theorem SessionInv.idle {p : Params} {x : Direction} (hrun : x.chan.running = false) (href : x.chan.bufferRef = false)
    (hstreak : x.oppStreak = 0) : SessionInv p x :=
  ⟨fun h => absurd (hrun.symm.trans h) nofun, fun h => absurd (href.symm.trans h) nofun, .inl hstreak⟩

theorem reset_notRunning (d : Dir) : (State.reset.dir d).chan.running = false := by rw [State.reset_dir]; rfl

theorem reset_memInv : MemInv State.reset := Memory.reset_wf

theorem reset_regsInv : RegsInv State.reset := by unfold RegsInv; decide

theorem reset_dmaInv : DmaInv State.reset := fun d => by
  rw [State.reset_dir]
  exact .of_idle rfl fun e => by cases e <;> rfl

theorem reset_contextInv : ContextInv State.reset := ⟨rfl, rfl, rfl⟩

theorem reset_streamInv : StreamInv State.reset := fun d =>
  SessionInv.idle (reset_notRunning d) (by rw [State.reset_dir]; rfl) (by rw [State.reset_dir]; rfl)

theorem reset_loopInv : LoopInv State.reset := fun d h => absurd ((reset_notRunning d).symm.trans h) nofun

theorem reset_busReady : BusReady State.reset where
  normal := rfl
  lock := rfl
  frame := rfl
  chip := by decide
  settle := by decide
  streams := fun d h => absurd ((reset_notRunning d).symm.trans h) nofun

/-- The default parameters keep the mirror's layout, send each group to its own register, and have increasing rates
(`00_scope.md` R6). -/
theorem reset_config : LayoutConfig State.reset.cfg ∧ FrameConfig State.reset.cfg ∧ RatesIncrease State.reset.cfg :=
  ⟨⟨rfl, rfl⟩, ⟨rfl, rfl, rfl, rfl, by decide⟩, by unfold RatesIncrease; decide⟩

end Sys2Proof.Machine

namespace Sys2Proof.Proofs

open Sys2Proof.Machine

/-- Settles O6: the fields of the reset state, read one by one; of `STATUS` the flags are clear and the rest is the draw. -/
theorem resetValues : Obligations.ResetValues := by
  refine ⟨rfl, rfl, rfl, rfl, rfl, rfl, rfl, rfl, rfl, rfl, rfl, rfl, rfl, rfl, rfl, fun w => ?_, rfl, fun d => ?_,
    fun d e => ?_, rfl, rfl, rfl, rfl, rfl, fun _ => rfl⟩
  · rw [status_flagsClear rfl rfl]; rfl
  · rw [State.reset_dir]; exact ⟨rfl, rfl, rfl, rfl, rfl, rfl, rfl⟩
  · rw [State.reset_engine]; exact ⟨rfl, rfl, rfl, rfl⟩

/-- Settles O7: the clocks are gated and the controller is disabled, so nothing can operate, and an idle machine meets every
invariant. -/
theorem resetIsStillAndConsistent : Obligations.ResetIsStillAndConsistent := by
  obtain ⟨hlayout, hframe, hrates⟩ := reset_config
  refine ⟨⟨rfl, fun d => ⟨dmaCanRun_disabled rfl d, dmaCanRun_disabled ?_ d⟩, rfl, rfl, fun d e => ?_⟩, reset_memInv,
    reset_regsInv, reset_dmaInv, reset_contextInv, reset_streamInv, reset_loopInv, ⟨rfl, rfl, rfl, rfl, rfl⟩,
    hlayout, hframe, hrates, reset_busReady⟩
  · rw [State.modHw_regs]; rfl
  · rw [State.reset_dir]; cases e <;> rfl

end Sys2Proof.Proofs
end
